-- ==== Sys2Proof/Word.lean ====
section
/-! DEFINITION. The word types of the 80386 (00_scope.md R5: byte, word, doubleword) and the two attribute sizes. -/

namespace Sys2Proof

/-- 8 bits (00_scope.md R5). -/
abbrev Byte := BitVec 8

/-- 16 bits, the manual's "word" (00_scope.md R5). -/
abbrev Half := BitVec 16

/-- 32 bits, the manual's "doubleword" (00_scope.md R5). -/
abbrev Word := BitVec 32

/-- The value of an operand-size or address-size attribute (00_scope.md R3, R9): 16 or 32 bits. -/
inductive Size where
  | s16
  | s32
  deriving DecidableEq, Repr

end Sys2Proof
end

