-- ==== Sys2Proof/Config.lean ====
section
/-! DEFINITION. What the spec leaves to the implementation or the run: the free values (00_scope.md R6 `draw_N`)
and the named parameters (00_scope.md R3), with the model's own switches beside them (assumption log 1). -/

namespace Sys2Proof

/-- The free values (00_scope.md R6 `draw_N`; 92 D20): draw number `n` is `freeWord n`. It has no body, so nothing
can be proved of any of its values. Assumption log 11. -/
opaque Config.freeWord : Nat → Word

/-- A range of addresses, `lo` included and `hi` not. -/
structure AddrRange where
  lo : Nat
  hi : Nat
  deriving DecidableEq, Repr

/-- Which opcode byte is `MOV Sreg,r/m16`: the parameter OPC_MOV_SREG_LOAD (92 D2, 90 C1). -/
inductive SregLoadOpcode where
  | taken8E
  | printed8D
  deriving DecidableEq, Repr

/-- The parameter INTR_MODEL (60_exceptions.md R217, 92 D4). `vectored` is the model's own third value: in
real-address mode the interrupt enters its handler as the outline of 60_exceptions.md R215 (assumption log 10). -/
inductive IntrModel where
  | refuseOnDelivery
  | noneAssumed
  | vectored
  deriving DecidableEq, Repr

/-- What an exception does: `terminal` is the spec's decision (60_exceptions.md R215, 92 D3); `vectored` is the
model's own switch, the real-address-mode entry that R215 outlines (assumption log 8). -/
inductive ExcModel where
  | terminal
  | vectored
  deriving DecidableEq, Repr

/-- What a page translation answers for one access: the frame, or a page fault with its bit P (20_memory.md R49, R51). -/
inductive PageAnswer where
  | frame (f : BitVec 20)
  | fault (present : Bool)
  deriving DecidableEq, Repr

/-- One line of a given translation function: the page of the linear address (bits 31:12), `write?`, `user?`, and the
answer (20_memory.md R49: bytes on one page share one translation). -/
structure PageLine where
  page : BitVec 20
  write : Bool
  user : Bool
  answer : PageAnswer
  deriving DecidableEq, Repr

/-- The parameter `Translate` (00_scope.md R3, 20_memory.md R49, 92 D22): the 80386 two-level scheme, which is the
default, or another function of R49's arguments, given line by line (assumption log 16). -/
inductive Translate where
  | twoLevel
  | given (lines : List PageLine)
  deriving DecidableEq, Repr

/-- The answer of a given translation function: its first line for the access; a page without a line is not present
(assumption log 16). -/
def PageLine.answerOf : List PageLine → BitVec 20 → Bool → Bool → PageAnswer
  | [], _, _, _ => .fault false
  | x :: xs, page, wr, us =>
    if x.page = page ∧ x.write = wr ∧ x.user = us then x.answer else PageLine.answerOf xs page wr us

/-- The parameters of 00_scope.md R3 and the model's own switches (assumption log 1). They are held in the state,
so that every statement about all states covers every choice of them; no step changes them. -/
structure Params where
  /-- OPC_MOV_SREG_LOAD (92 D2). -/
  sregLoad : SregLoadOpcode
  /-- ADMIT_REP (92 D10). -/
  admitRep : Bool
  /-- ADMIT_MOVX_W16 (92 D13). -/
  admitMovxW16 : Bool
  /-- INTR_MODEL (92 D4). -/
  intrModel : IntrModel
  /-- What an exception does (92 D3; log 8). -/
  excModel : ExcModel
  /-- The model's switch: a write of TR6 or TR7 stores (D00's `DEST <- SRC`) in place of being refused (92 D17; log 15). -/
  admitTrWrite : Bool
  /-- The model's switch: a CR0 write that changes PE or PG stores in place of being refused (92 D19; log 13). -/
  admitModeSwitch : Bool
  /-- The model's switch: a DR7 write that arms a breakpoint or GD stores in place of being refused (92 D18; log 14). -/
  admitBreakpoints : Bool
  /-- END_EIP (92 D9): `none` where the run has no declared end. -/
  endEip : Option Word
  /-- `Translate` (92 D22; log 16). -/
  translate : Translate
  /-- PROGRAM_TEXT (92 D25): the linear addresses of the run's instructions, which LAUNCH declares (log 18). -/
  programText : List AddrRange
  /-- The physical addresses that LAUNCH populates (20_memory.md R49, R54). -/
  populated : List AddrRange
  deriving DecidableEq, Repr

/-- The size of the linear and the physical address space (00_scope.md R3): 2^32 bytes. -/
def addressSpace : Nat := 4294967296

/-- MAX_INSN_LEN (00_scope.md R3, 92 D29). -/
def maxInsnLen : Nat := 15

/-- The defaults of 00_scope.md R3; every physical address populated, no end and no program declared (assumption log 1). -/
def Params.default : Params where
  sregLoad := .taken8E
  admitRep := true
  admitMovxW16 := false
  intrModel := .refuseOnDelivery
  excModel := .terminal
  admitTrWrite := false
  admitModeSwitch := false
  admitBreakpoints := false
  endEip := none
  translate := .twoLevel
  programText := []
  populated := [⟨0, addressSpace⟩]

end Sys2Proof
end

