-- ==== Sys2Proof/Syntax.lean ====
section
/-! DEFINITION. The instructions: one constructor of `Instr` per row of spec/opcode_table.json (30_encoding.md R84, R90),
with the operand shapes of 00_scope.md R7 and 30_encoding.md R74 to R83. Register numbers are turned into names here. -/

namespace Sys2Proof

/-- The eight general registers (10_state.md R10); the same eight numbers name their 16-bit halves (R11). -/
inductive Reg where
  | eax | ecx | edx | ebx | esp | ebp | esi | edi
  deriving DecidableEq, Repr

/-- The eight 8-bit registers (10_state.md R12). -/
inductive Reg8 where
  | al | cl | dl | bl | ah | ch | dh | bh
  deriving DecidableEq, Repr

/-- The six segment registers (10_state.md R19, R20). -/
inductive SegReg where
  | es | cs | ss | ds | fs | gs
  deriving DecidableEq, Repr

/-- A reg field that names a segment register, the two numbers that name none among its values (10_state.md R20). -/
inductive SregField where
  | named (r : SegReg)
  | reserved6
  | reserved7
  deriving DecidableEq, Repr

/-- The control registers D00 names (10_state.md R21). -/
inductive CtlReg where
  | cr0 | cr2 | cr3
  deriving DecidableEq, Repr

/-- The breakpoint address registers, the row `DR0 -- 3` (10_state.md R22). -/
inductive BreakReg where
  | dr0 | dr1 | dr2 | dr3
  deriving DecidableEq, Repr

/-- The debug status and control registers, the row `DR6/DR7` (10_state.md R22). -/
inductive DebugReg where
  | dr6 | dr7
  deriving DecidableEq, Repr

/-- The test registers (10_state.md R23). -/
inductive TestReg where
  | tr6 | tr7
  deriving DecidableEq, Repr

/-- The base of a 16-bit effective address, by its r/m number (30_encoding.md R78). -/
inductive Base16 where
  | bxSi | bxDi | bpSi | bpDi | si | di | bp | bx
  deriving DecidableEq, Repr

/-- The displacement of a 16-bit address: mod 00, 01, 10 (30_encoding.md R78). -/
inductive Disp16 where
  | none
  | d8 (b : Byte)
  | d16 (h : Half)
  deriving DecidableEq, Repr

/-- A 16-bit address (30_encoding.md R78). -/
inductive Addr16 where
  | based (b : Base16) (d : Disp16)
  | direct (d : Half)
  deriving DecidableEq, Repr

/-- The displacement of a 32-bit address: mod 00, 01, 10 (30_encoding.md R76). -/
inductive Disp32 where
  | none
  | d8 (b : Byte)
  | d32 (w : Word)
  deriving DecidableEq, Repr

/-- The scale of a SIB byte: 2^0 to 2^3 (30_encoding.md R77). -/
inductive Scale where
  | x1 | x2 | x4 | x8
  deriving DecidableEq, Repr

/-- The index part of a SIB byte; `none` is index = 100, which has no scale (30_encoding.md R77, 93 U14). -/
inductive SibIndex where
  | none
  | scaled (sc : Scale) (r : Reg)
  deriving DecidableEq, Repr

/-- A 32-bit address (30_encoding.md R76, R77). -/
inductive Addr32 where
  | based (b : Reg) (d : Disp32)
  | direct (d : Word)
  | sib (i : SibIndex) (b : Reg) (d : Disp32)
  | sibNoBase (i : SibIndex) (d : Word)
  deriving DecidableEq, Repr

/-- The address part of a ModRM memory operand, by AddressSize (30_encoding.md R72). -/
inductive Addr where
  | a16 (a : Addr16)
  | a32 (a : Addr32)
  deriving DecidableEq, Repr

/-- A ModRM memory operand: its segment override, if any (30_encoding.md R79), and its address. -/
structure MemOperand where
  seg : Option SegReg
  addr : Addr
  deriving DecidableEq, Repr

/-- An `r/m` operand: a register (mod = 11) or memory (30_encoding.md R74). -/
inductive Rm (ρ : Type) where
  | reg (r : ρ)
  | mem (m : MemOperand)
  deriving DecidableEq, Repr

/-- The offset of an `moffs` operand, by AddressSize (30_encoding.md R82). -/
inductive Moffs where
  | o16 (h : Half)
  | o32 (w : Word)
  deriving DecidableEq, Repr

/-- The instructions, in the order of spec/opcode_table.json. `MOVS m,m` and its short spelling share their bytes
(30_encoding.md R89): the form with operands is the one that carries a source segment override (assumption log 20). -/
inductive Instr where
  | movRm8R8 (dst : Rm Reg8) (src : Reg8)
  | movRm16R16 (dst : Rm Reg) (src : Reg)
  | movRm32R32 (dst : Rm Reg) (src : Reg)
  | movR8Rm8 (dst : Reg8) (src : Rm Reg8)
  | movR16Rm16 (dst : Reg) (src : Rm Reg)
  | movR32Rm32 (dst : Reg) (src : Rm Reg)
  | movRm16Sreg (osz : Size) (dst : Rm Reg) (src : SregField)
  | movSregRm16 (dst : SregField) (src : Rm Reg)
  | movAlMoffs8 (seg : Option SegReg) (off : Moffs)
  | movAxMoffs16 (seg : Option SegReg) (off : Moffs)
  | movEaxMoffs32 (seg : Option SegReg) (off : Moffs)
  | movMoffs8Al (seg : Option SegReg) (off : Moffs)
  | movMoffs16Ax (seg : Option SegReg) (off : Moffs)
  | movMoffs32Eax (seg : Option SegReg) (off : Moffs)
  | movReg8Imm8 (dst : Reg8) (imm : Byte)
  | movReg16Imm16 (dst : Reg) (imm : Half)
  | movReg32Imm32 (dst : Reg) (imm : Word)
  | movRm8Imm8 (dst : Rm Reg8) (imm : Byte)
  | movRm16Imm16 (dst : Rm Reg) (imm : Half)
  | movRm32Imm32 (dst : Rm Reg) (imm : Word)
  | movR32Cr (dst : Reg) (src : CtlReg)
  | movCrR32 (dst : CtlReg) (src : Reg)
  | movR32Dr03 (dst : Reg) (src : BreakReg)
  | movR32Dr67 (dst : Reg) (src : DebugReg)
  | movDr03R32 (dst : BreakReg) (src : Reg)
  | movDr67R32 (dst : DebugReg) (src : Reg)
  | movR32Tr (dst : Reg) (src : TestReg)
  | movTrR32 (dst : TestReg) (src : Reg)
  | movsM8M8 (rep : Bool) (asz : Size) (src : SegReg)
  | movsM16M16 (rep : Bool) (asz : Size) (src : SegReg)
  | movsM32M32 (rep : Bool) (asz : Size) (src : SegReg)
  | movsb (rep : Bool) (asz : Size)
  | movsw (rep : Bool) (asz : Size)
  | movsd (rep : Bool) (asz : Size)
  | movsxR16Rm8 (dst : Reg) (src : Rm Reg8)
  | movsxR32Rm8 (dst : Reg) (src : Rm Reg8)
  | movsxR32Rm16 (osz : Size) (dst : Reg) (src : Rm Reg)
  | movzxR16Rm8 (dst : Reg) (src : Rm Reg8)
  | movzxR32Rm8 (dst : Reg) (src : Rm Reg8)
  | movzxR32Rm16 (osz : Size) (dst : Reg) (src : Rm Reg)
  | mulAlRm8 (src : Rm Reg8)
  | mulAxRm16 (src : Rm Reg)
  | mulEaxRm32 (src : Rm Reg)
  deriving DecidableEq, Repr

end Sys2Proof
end

