-- ==== Sys2Proof/WellFormed.lean ====
section
/-! DEFINITION. Which instruction terms an encoding can carry (30_encoding.md R76 to R78) and which of them the
parameters admit (00_scope.md R3). Both are Booleans. -/

namespace Sys2Proof

/-- `[BP]` has no mod = 00 form: that ModRM byte is `disp16` alone (30_encoding.md R78). -/
def Addr16.wf : Addr16 → Bool
  | .based .bp .none => false
  | .based _ _ => true
  | .direct _ => true

/-- ESP cannot be an index (30_encoding.md R77). -/
def SibIndex.wf : SibIndex → Bool
  | .none => true
  | .scaled _ .esp => false
  | .scaled _ _ => true

/-- Without a SIB byte there is no ESP base and no `[EBP]` with mod = 00; with one, no base EBP with mod = 00
(30_encoding.md R76, R77). -/
def Addr32.wf : Addr32 → Bool
  | .based .esp _ => false
  | .based .ebp .none => false
  | .based _ _ => true
  | .direct _ => true
  | .sib _ .ebp .none => false
  | .sib i _ _ => i.wf
  | .sibNoBase i _ => i.wf

/-- An address that some ModRM byte (and SIB byte) encodes. -/
def Addr.wf : Addr → Bool
  | .a16 a => a.wf
  | .a32 a => a.wf

/-- An `r/m` operand that some ModRM byte encodes. -/
def Rm.wf {ρ : Type} : Rm ρ → Bool
  | .reg _ => true
  | .mem m => m.addr.wf

/-- An instruction that some byte sequence encodes. -/
def Instr.wf : Instr → Bool
  | .movRm8R8 dst _ => dst.wf
  | .movRm16R16 dst _ => dst.wf
  | .movRm32R32 dst _ => dst.wf
  | .movR8Rm8 _ src => src.wf
  | .movR16Rm16 _ src => src.wf
  | .movR32Rm32 _ src => src.wf
  | .movRm16Sreg _ dst _ => dst.wf
  | .movSregRm16 _ src => src.wf
  | .movAlMoffs8 _ _ => true
  | .movAxMoffs16 _ _ => true
  | .movEaxMoffs32 _ _ => true
  | .movMoffs8Al _ _ => true
  | .movMoffs16Ax _ _ => true
  | .movMoffs32Eax _ _ => true
  | .movReg8Imm8 _ _ => true
  | .movReg16Imm16 _ _ => true
  | .movReg32Imm32 _ _ => true
  | .movRm8Imm8 dst _ => dst.wf
  | .movRm16Imm16 dst _ => dst.wf
  | .movRm32Imm32 dst _ => dst.wf
  | .movR32Cr _ _ => true
  | .movCrR32 _ _ => true
  | .movR32Dr03 _ _ => true
  | .movR32Dr67 _ _ => true
  | .movDr03R32 _ _ => true
  | .movDr67R32 _ _ => true
  | .movR32Tr _ _ => true
  | .movTrR32 _ _ => true
  | .movsM8M8 _ _ _ => true
  | .movsM16M16 _ _ _ => true
  | .movsM32M32 _ _ _ => true
  | .movsb _ _ => true
  | .movsw _ _ => true
  | .movsd _ _ => true
  | .movsxR16Rm8 _ src => src.wf
  | .movsxR32Rm8 _ src => src.wf
  | .movsxR32Rm16 _ _ src => src.wf
  | .movzxR16Rm8 _ src => src.wf
  | .movzxR32Rm8 _ src => src.wf
  | .movzxR32Rm16 _ _ src => src.wf
  | .mulAlRm8 src => src.wf
  | .mulAxRm16 src => src.wf
  | .mulEaxRm32 src => src.wf

/-- Whether the parameters ADMIT_REP (92 D10) and ADMIT_MOVX_W16 (92 D13) admit the form. -/
def Instr.admitted (p : Params) : Instr → Bool
  | .movsM8M8 rep _ _ => !rep || p.admitRep
  | .movsM16M16 rep _ _ => !rep || p.admitRep
  | .movsM32M32 rep _ _ => !rep || p.admitRep
  | .movsb rep _ => !rep || p.admitRep
  | .movsw rep _ => !rep || p.admitRep
  | .movsd rep _ => !rep || p.admitRep
  | .movsxR32Rm16 .s16 _ _ => p.admitMovxW16
  | .movzxR32Rm16 .s16 _ _ => p.admitMovxW16
  | _ => true

end Sys2Proof
end

