-- ==== Sys2Proof/Decode.lean ====
section
/-! DEFINITION. From bytes to an instruction (30_encoding.md R70 to R87) and back. The decoder asks for one byte at a
time (`Parse`), so that a fetch reads exactly the instruction's own bytes (30_encoding.md R87, 20_memory.md R58). -/

namespace Sys2Proof

/-- A decoder that either has its answer or needs the next instruction byte (30_encoding.md R87). -/
inductive Parse (α : Type) where
  | done (a : α)
  | need (k : Byte → Parse α)

/-- Run a decoder on a list of bytes: its answer and the bytes left, or `none` where the bytes run out. -/
def Parse.onBytes {α : Type} : Parse α → List Byte → Option (α × List Byte)
  | .done a, bs => some (a, bs)
  | .need _, [] => none
  | .need k, b :: bs => (k b).onBytes bs

/-- Why a byte sequence has no meaning in the model (30_encoding.md R86, last two classes). -/
inductive DecodeRefusal where
  /-- An opcode of another instruction (30_encoding.md R86). Safe. -/
  | notInScope
  /-- `C6` or `C7` with reg other than 000 (30_encoding.md R85, 92 D12). Safe. -/
  | movImmRegField
  /-- A special-register move with mod other than 11 (41_mov_special.md R151, 92 D16). Safe. -/
  | specialMod
  /-- A special-register number D00 does not name, or `0F 25`, `0F 27` (41_mov_special.md R152, 92 D15). Safe. -/
  | specialNumber
  /-- `0F B7` or `0F BF` with OperandSize 16 and ADMIT_MOVX_W16 false (43 R184, 44 R194, 92 D13). Safe. -/
  | movxW16
  /-- Two prefixes of one group (30_encoding.md R71, 92 D29). Safe. -/
  | repeatedPrefix
  /-- `F3` before an in-scope opcode other than MOVS (30_encoding.md R71, 93 U20). Safe. -/
  | repBeforeNonString
  /-- `F2` before an in-scope opcode (30_encoding.md R71, 93 U20). Safe. -/
  | repne
  /-- `F3` before MOVS with ADMIT_REP false (42_movs.md R167, 92 D10). Safe. -/
  | repNotAdmitted
  /-- A SIB byte with no index and a scale other than 00 (30_encoding.md R77, 93 U14). Safe. -/
  | sibScaleWithoutIndex
  deriving DecidableEq, Repr

/-- What a byte sequence decodes to (30_encoding.md R86). -/
inductive Decoded where
  | instr (i : Instr)
  | invalidOpcode
  | refuse (r : DecodeRefusal)
  deriving DecidableEq, Repr

/-! ### Register and field numbers -/

/-- 10_state.md R10. -/
def Reg.ofBits (n : BitVec 3) : Reg :=
  match n.toNat with
  | 0 => .eax | 1 => .ecx | 2 => .edx | 3 => .ebx | 4 => .esp | 5 => .ebp | 6 => .esi | _ => .edi

/-- 10_state.md R10. -/
def Reg.bits : Reg → BitVec 3
  | .eax => 0 | .ecx => 1 | .edx => 2 | .ebx => 3 | .esp => 4 | .ebp => 5 | .esi => 6 | .edi => 7

/-- 10_state.md R12. -/
def Reg8.ofBits (n : BitVec 3) : Reg8 :=
  match n.toNat with
  | 0 => .al | 1 => .cl | 2 => .dl | 3 => .bl | 4 => .ah | 5 => .ch | 6 => .dh | _ => .bh

/-- 10_state.md R12. -/
def Reg8.bits : Reg8 → BitVec 3
  | .al => 0 | .cl => 1 | .dl => 2 | .bl => 3 | .ah => 4 | .ch => 5 | .dh => 6 | .bh => 7

/-- 10_state.md R20. -/
def SregField.ofBits (n : BitVec 3) : SregField :=
  match n.toNat with
  | 0 => .named .es | 1 => .named .cs | 2 => .named .ss | 3 => .named .ds | 4 => .named .fs | 5 => .named .gs
  | 6 => .reserved6 | _ => .reserved7

/-- 10_state.md R20. -/
def SregField.bits : SregField → BitVec 3
  | .named .es => 0 | .named .cs => 1 | .named .ss => 2 | .named .ds => 3 | .named .fs => 4 | .named .gs => 5
  | .reserved6 => 6 | .reserved7 => 7

/-- The control registers the spec names, by number (41_mov_special.md R151, R152). -/
def CtlReg.ofBits? (n : BitVec 3) : Option CtlReg :=
  match n.toNat with
  | 0 => some .cr0 | 2 => some .cr2 | 3 => some .cr3 | _ => none

/-- 41_mov_special.md R151. -/
def CtlReg.bits : CtlReg → BitVec 3
  | .cr0 => 0 | .cr2 => 2 | .cr3 => 3

/-- A debug-register number: DR0 to DR3, DR6 or DR7, or none of them (41_mov_special.md R151, R152). -/
def debugRegOfBits? (n : BitVec 3) : Option (BreakReg ⊕ DebugReg) :=
  match n.toNat with
  | 0 => some (.inl .dr0) | 1 => some (.inl .dr1) | 2 => some (.inl .dr2) | 3 => some (.inl .dr3)
  | 6 => some (.inr .dr6) | 7 => some (.inr .dr7) | _ => none

/-- 41_mov_special.md R151. -/
def BreakReg.bits : BreakReg → BitVec 3
  | .dr0 => 0 | .dr1 => 1 | .dr2 => 2 | .dr3 => 3

/-- 41_mov_special.md R151. -/
def DebugReg.bits : DebugReg → BitVec 3
  | .dr6 => 6 | .dr7 => 7

/-- The test registers the spec names, by number (41_mov_special.md R151, R152). -/
def TestReg.ofBits? (n : BitVec 3) : Option TestReg :=
  match n.toNat with
  | 6 => some .tr6 | 7 => some .tr7 | _ => none

/-- 41_mov_special.md R151. -/
def TestReg.bits : TestReg → BitVec 3
  | .tr6 => 6 | .tr7 => 7

/-- The base column of the 16-bit table (30_encoding.md R78). -/
def Base16.ofBits (n : BitVec 3) : Base16 :=
  match n.toNat with
  | 0 => .bxSi | 1 => .bxDi | 2 => .bpSi | 3 => .bpDi | 4 => .si | 5 => .di | 6 => .bp | _ => .bx

/-- 30_encoding.md R78. -/
def Base16.bits : Base16 → BitVec 3
  | .bxSi => 0 | .bxDi => 1 | .bpSi => 2 | .bpDi => 3 | .si => 4 | .di => 5 | .bp => 6 | .bx => 7

/-- The scale field of a SIB byte (30_encoding.md R77). -/
def Scale.ofBits (n : BitVec 2) : Scale :=
  match n.toNat with
  | 0 => .x1 | 1 => .x2 | 2 => .x4 | _ => .x8

/-- 30_encoding.md R77. -/
def Scale.bits : Scale → BitVec 2
  | .x1 => 0 | .x2 => 1 | .x4 => 2 | .x8 => 3

/-! ### Prefixes -/

/-- The prefix bytes read so far, one slot for each group (30_encoding.md R71). `rep` holds `true` for `F3`,
`false` for `F2`. -/
structure Prefixes where
  opSize : Bool
  addrSize : Bool
  seg : Option SegReg
  rep : Option Bool
  lock : Bool
  deriving DecidableEq, Repr

/-- No prefix read yet. -/
def Prefixes.empty : Prefixes := ⟨false, false, none, none, false⟩

/-- What one byte is to the prefix reader. -/
inductive PrefixByte where
  | opcode
  | repeated
  | added (pf : Prefixes)
  deriving DecidableEq, Repr

/-- Record a segment override, unless one is there already. -/
def Prefixes.addSeg (pf : Prefixes) (r : SegReg) : PrefixByte :=
  if pf.seg.isSome then .repeated else .added { pf with seg := some r }

/-- Record `F3` or `F2`, unless one is there already. -/
def Prefixes.addRep (pf : Prefixes) (f3 : Bool) : PrefixByte :=
  if pf.rep.isSome then .repeated else .added { pf with rep := some f3 }

/-- The prefix table of 30_encoding.md R71. -/
def Prefixes.add (pf : Prefixes) (b : Byte) : PrefixByte :=
  if b = 0x66#8 then (if pf.opSize then .repeated else .added { pf with opSize := true })
  else if b = 0x67#8 then (if pf.addrSize then .repeated else .added { pf with addrSize := true })
  else if b = 0x26#8 then pf.addSeg .es
  else if b = 0x2E#8 then pf.addSeg .cs
  else if b = 0x36#8 then pf.addSeg .ss
  else if b = 0x3E#8 then pf.addSeg .ds
  else if b = 0x64#8 then pf.addSeg .fs
  else if b = 0x65#8 then pf.addSeg .gs
  else if b = 0xF3#8 then pf.addRep true
  else if b = 0xF2#8 then pf.addRep false
  else if b = 0xF0#8 then (if pf.lock then .repeated else .added { pf with lock := true })
  else .opcode

/-- The other attribute size (30_encoding.md R72: `48 - default`). -/
def Size.other : Size → Size
  | .s16 => .s32
  | .s32 => .s16

/-- An attribute: the default, toggled by its prefix (30_encoding.md R72). -/
def sizeAttr (default : Size) (toggled : Bool) : Size :=
  if toggled then default.other else default

/-! ### Multi-byte fields, low byte first (30_encoding.md R80 to R82) -/

/-- Read a 16-bit field. -/
def need16 {α : Type} (k : Half → Parse α) : Parse α :=
  .need fun b0 => .need fun b1 => k (b1 ++ b0)

/-- Read a 32-bit field. -/
def need32 {α : Type} (k : Word → Parse α) : Parse α :=
  .need fun b0 => .need fun b1 => .need fun b2 => .need fun b3 => k (b3 ++ b2 ++ b1 ++ b0)

/-- Read a ModRM byte: mod, reg and r/m (30_encoding.md R74). -/
def needModRm {α : Type} (k : BitVec 2 → BitVec 3 → BitVec 3 → Parse α) : Parse α :=
  .need fun b => k (b.extractLsb' 6 2) (b.extractLsb' 3 3) (b.extractLsb' 0 3)

/-! ### Addresses -/

/-- The 16-bit address of a ModRM byte with mod other than 11 (30_encoding.md R78). -/
def parseAddr16 (mod : BitVec 2) (rm : BitVec 3) (k : Addr16 → Parse Decoded) : Parse Decoded :=
  if mod = 0#2 then
    if rm = 6#3 then need16 fun d => k (.direct d) else k (.based (Base16.ofBits rm) .none)
  else if mod = 1#2 then .need fun b => k (.based (Base16.ofBits rm) (.d8 b))
  else need16 fun d => k (.based (Base16.ofBits rm) (.d16 d))

/-- The displacement of a 32-bit address by mod (30_encoding.md R76). -/
def parseDisp32 (mod : BitVec 2) (k : Disp32 → Parse Decoded) : Parse Decoded :=
  if mod = 0#2 then k .none
  else if mod = 1#2 then .need fun b => k (.d8 b)
  else need32 fun d => k (.d32 d)

/-- The index part of a SIB byte; a scale with no index is refused (30_encoding.md R77, 93 U14). -/
def sibIndex? (sc : BitVec 2) (index : BitVec 3) : Option SibIndex :=
  if index = 4#3 then (if sc = 0#2 then some .none else none)
  else some (.scaled (Scale.ofBits sc) (Reg.ofBits index))

/-- The address of a SIB byte (30_encoding.md R77). DESIGN CHOICE: a scale with no index is refused (R77, 93 U14) also where
R86 has #UD for the same bytes: after a LOCK prefix, in `8E` with reg 001, 110 or 111, and in `8C` with reg 110 or 111
(R86, 40_mov.md R130, 93 U5; assumption log 29). -/
def parseSib (mod : BitVec 2) (sib : Byte) (k : Addr32 → Parse Decoded) : Parse Decoded :=
  match sibIndex? (sib.extractLsb' 6 2) (sib.extractLsb' 3 3) with
  | none => .done (.refuse .sibScaleWithoutIndex)
  | some i =>
    if sib.extractLsb' 0 3 = 5#3 ∧ mod = 0#2 then need32 fun d => k (.sibNoBase i d)
    else parseDisp32 mod fun d => k (.sib i (Reg.ofBits (sib.extractLsb' 0 3)) d)

/-- The 32-bit address of a ModRM byte with mod other than 11 (30_encoding.md R76). -/
def parseAddr32 (mod : BitVec 2) (rm : BitVec 3) (k : Addr32 → Parse Decoded) : Parse Decoded :=
  if rm = 4#3 then .need fun sib => parseSib mod sib k
  else if rm = 5#3 ∧ mod = 0#2 then need32 fun d => k (.direct d)
  else parseDisp32 mod fun d => k (.based (Reg.ofBits rm) d)

/-- The `r/m` operand of a ModRM byte (30_encoding.md R74, R79). -/
def parseRm {ρ : Type} (ofBits : BitVec 3 → ρ) (asz : Size) (seg : Option SegReg) (mod : BitVec 2) (rm : BitVec 3)
    (k : Rm ρ → Parse Decoded) : Parse Decoded :=
  if mod = 3#2 then k (.reg (ofBits rm))
  else match asz with
    | .s16 => parseAddr16 mod rm fun a => k (.mem ⟨seg, .a16 a⟩)
    | .s32 => parseAddr32 mod rm fun a => k (.mem ⟨seg, .a32 a⟩)

/-- The offset of an `moffs` operand (30_encoding.md R82). -/
def parseMoffs (asz : Size) (k : Moffs → Parse Decoded) : Parse Decoded :=
  match asz with
  | .s16 => need16 fun h => k (.o16 h)
  | .s32 => need32 fun w => k (.o32 w)

/-! ### Opcodes -/

/-- The end of a form that is no string move: REP and REPNE are refused, LOCK is an invalid opcode (30_encoding.md R71,
R86; 20_memory.md R57). DESIGN CHOICE: `F3` or `F2` is refused also where R86 has #UD for the same bytes, that is before
`8E` with reg 001, 110 or 111, before `8C` with reg 110 or 111, and with a LOCK prefix (assumption log 29). -/
def finish (pf : Prefixes) (i : Instr) : Parse Decoded :=
  .done <| match pf.rep with
    | some true => .refuse .repBeforeNonString
    | some false => .refuse .repne
    | none => if pf.lock then .invalidOpcode else .instr i

/-- The end of a MOVS: REP is admitted by parameter (42_movs.md R167), REPNE refused, LOCK an invalid opcode. DESIGN CHOICE:
a refused prefix together with LOCK is refused (assumption log 29). -/
def finishString (p : Params) (pf : Prefixes) (i : Bool → Instr) : Parse Decoded :=
  .done <| match pf.rep with
    | some false => .refuse .repne
    | some true =>
      if p.admitRep then (if pf.lock then .invalidOpcode else .instr (i true)) else .refuse .repNotAdmitted
    | none => if pf.lock then .invalidOpcode else .instr (i false)

/-- The ModRM byte of a special-register move: mod must be 11 (41_mov_special.md R151). DESIGN CHOICE: another mod is
refused after a LOCK prefix too, where 30_encoding.md R86 has both classes; and it is refused at any privilege level, where
R140 lists the check of R149, #GP(0), before the ModRM byte (assumption log 29). -/
def parseSpecial (k : BitVec 3 → Reg → Parse Decoded) : Parse Decoded :=
  needModRm fun mod reg rm => if mod = 3#2 then k reg (Reg.ofBits rm) else .done (.refuse .specialMod)

/-- The second byte of the opcodes `0F xx` (30_encoding.md R84, R86). DESIGN CHOICE: `0F B7` or `0F BF` with an unadmitted
OperandSize 16, and a special-register number D00 does not name, are in two classes of R86 after a LOCK prefix, #UD and
refused; they are refused (assumption log 29). -/
def decodeOp2 (p : Params) (d : Size) (pf : Prefixes) (op : Byte) : Parse Decoded :=
  let o := sizeAttr d pf.opSize
  let a := sizeAttr d pf.addrSize
  if op = 0x20#8 then
    parseSpecial fun n g => match CtlReg.ofBits? n with
      | some c => finish pf (.movR32Cr g c)
      | none => .done (.refuse .specialNumber)
  else if op = 0x21#8 then
    parseSpecial fun n g => match debugRegOfBits? n with
      | some (.inl r) => finish pf (.movR32Dr03 g r)
      | some (.inr r) => finish pf (.movR32Dr67 g r)
      | none => .done (.refuse .specialNumber)
  else if op = 0x22#8 then
    parseSpecial fun n g => match CtlReg.ofBits? n with
      | some c => finish pf (.movCrR32 c g)
      | none => .done (.refuse .specialNumber)
  else if op = 0x23#8 then
    parseSpecial fun n g => match debugRegOfBits? n with
      | some (.inl r) => finish pf (.movDr03R32 r g)
      | some (.inr r) => finish pf (.movDr67R32 r g)
      | none => .done (.refuse .specialNumber)
  else if op = 0x24#8 then
    parseSpecial fun n g => match TestReg.ofBits? n with
      | some t => finish pf (.movR32Tr g t)
      | none => .done (.refuse .specialNumber)
  else if op = 0x26#8 then
    parseSpecial fun n g => match TestReg.ofBits? n with
      | some t => finish pf (.movTrR32 t g)
      | none => .done (.refuse .specialNumber)
  else if op = 0x25#8 ∨ op = 0x27#8 then .done (.refuse .specialNumber)
  else if op = 0xB6#8 then
    needModRm fun mod reg rm => parseRm Reg8.ofBits a pf.seg mod rm fun src =>
      finish pf (match o with
        | .s16 => .movzxR16Rm8 (Reg.ofBits reg) src
        | .s32 => .movzxR32Rm8 (Reg.ofBits reg) src)
  else if op = 0xB7#8 then
    needModRm fun mod reg rm => parseRm Reg.ofBits a pf.seg mod rm fun src =>
      if o = .s16 ∧ !p.admitMovxW16 then .done (.refuse .movxW16)
      else finish pf (.movzxR32Rm16 o (Reg.ofBits reg) src)
  else if op = 0xBE#8 then
    needModRm fun mod reg rm => parseRm Reg8.ofBits a pf.seg mod rm fun src =>
      finish pf (match o with
        | .s16 => .movsxR16Rm8 (Reg.ofBits reg) src
        | .s32 => .movsxR32Rm8 (Reg.ofBits reg) src)
  else if op = 0xBF#8 then
    needModRm fun mod reg rm => parseRm Reg.ofBits a pf.seg mod rm fun src =>
      if o = .s16 ∧ !p.admitMovxW16 then .done (.refuse .movxW16)
      else finish pf (.movsxR32Rm16 o (Reg.ofBits reg) src)
  else .done (.refuse .notInScope)

/-- The opcode byte that loads a segment register: OPC_MOV_SREG_LOAD (40_mov.md R108, 92 D2). -/
def sregLoadByte : SregLoadOpcode → Byte
  | .taken8E => 0x8E#8
  | .printed8D => 0x8D#8

/-- The opcode map of 30_encoding.md R84, after the prefixes. DESIGN CHOICE: `C6` or `C7` with reg other than 000 is refused
after a LOCK prefix too, where R86 has both classes (assumption log 29). -/
def decodeOp (p : Params) (d : Size) (pf : Prefixes) (op : Byte) : Parse Decoded :=
  let o := sizeAttr d pf.opSize
  let a := sizeAttr d pf.addrSize
  if op = 0x0F#8 then .need (decodeOp2 p d pf)
  else if op = 0x88#8 then
    needModRm fun mod reg rm => parseRm Reg8.ofBits a pf.seg mod rm fun dst =>
      finish pf (.movRm8R8 dst (Reg8.ofBits reg))
  else if op = 0x89#8 then
    needModRm fun mod reg rm => parseRm Reg.ofBits a pf.seg mod rm fun dst =>
      finish pf (match o with
        | .s16 => .movRm16R16 dst (Reg.ofBits reg)
        | .s32 => .movRm32R32 dst (Reg.ofBits reg))
  else if op = 0x8A#8 then
    needModRm fun mod reg rm => parseRm Reg8.ofBits a pf.seg mod rm fun src =>
      finish pf (.movR8Rm8 (Reg8.ofBits reg) src)
  else if op = 0x8B#8 then
    needModRm fun mod reg rm => parseRm Reg.ofBits a pf.seg mod rm fun src =>
      finish pf (match o with
        | .s16 => .movR16Rm16 (Reg.ofBits reg) src
        | .s32 => .movR32Rm32 (Reg.ofBits reg) src)
  else if op = 0x8C#8 then
    needModRm fun mod reg rm => parseRm Reg.ofBits a pf.seg mod rm fun dst =>
      finish pf (.movRm16Sreg o dst (SregField.ofBits reg))
  else if op = sregLoadByte p.sregLoad then
    needModRm fun mod reg rm => parseRm Reg.ofBits a pf.seg mod rm fun src =>
      finish pf (.movSregRm16 (SregField.ofBits reg) src)
  else if op = 0xA0#8 then parseMoffs a fun m => finish pf (.movAlMoffs8 pf.seg m)
  else if op = 0xA1#8 then
    parseMoffs a fun m => finish pf (match o with
      | .s16 => .movAxMoffs16 pf.seg m
      | .s32 => .movEaxMoffs32 pf.seg m)
  else if op = 0xA2#8 then parseMoffs a fun m => finish pf (.movMoffs8Al pf.seg m)
  else if op = 0xA3#8 then
    parseMoffs a fun m => finish pf (match o with
      | .s16 => .movMoffs16Ax pf.seg m
      | .s32 => .movMoffs32Eax pf.seg m)
  else if op = 0xA4#8 then
    finishString p pf fun rep => match pf.seg with
      | none => .movsb rep a
      | some r => .movsM8M8 rep a r
  else if op = 0xA5#8 then
    finishString p pf fun rep => match pf.seg, o with
      | none, .s16 => .movsw rep a
      | none, .s32 => .movsd rep a
      | some r, .s16 => .movsM16M16 rep a r
      | some r, .s32 => .movsM32M32 rep a r
  else if op.extractLsb' 3 5 = 0b10110#5 then
    .need fun imm => finish pf (.movReg8Imm8 (Reg8.ofBits (op.extractLsb' 0 3)) imm)
  else if op.extractLsb' 3 5 = 0b10111#5 then
    match o with
    | .s16 => need16 fun imm => finish pf (.movReg16Imm16 (Reg.ofBits (op.extractLsb' 0 3)) imm)
    | .s32 => need32 fun imm => finish pf (.movReg32Imm32 (Reg.ofBits (op.extractLsb' 0 3)) imm)
  else if op = 0xC6#8 then
    needModRm fun mod reg rm =>
      if reg = 0#3 then
        parseRm Reg8.ofBits a pf.seg mod rm fun dst => .need fun imm => finish pf (.movRm8Imm8 dst imm)
      else .done (.refuse .movImmRegField)
  else if op = 0xC7#8 then
    needModRm fun mod reg rm =>
      if reg = 0#3 then
        parseRm Reg.ofBits a pf.seg mod rm fun dst => match o with
          | .s16 => need16 fun imm => finish pf (.movRm16Imm16 dst imm)
          | .s32 => need32 fun imm => finish pf (.movRm32Imm32 dst imm)
      else .done (.refuse .movImmRegField)
  else if op = 0xF6#8 then
    needModRm fun mod reg rm =>
      if reg = 4#3 then parseRm Reg8.ofBits a pf.seg mod rm fun src => finish pf (.mulAlRm8 src)
      else .done (.refuse .notInScope)
  else if op = 0xF7#8 then
    needModRm fun mod reg rm =>
      if reg = 4#3 then
        parseRm Reg.ofBits a pf.seg mod rm fun src => finish pf (match o with
          | .s16 => .mulAxRm16 src
          | .s32 => .mulEaxRm32 src)
      else .done (.refuse .notInScope)
  else .done (.refuse .notInScope)

/-- The prefixes and then the opcode (30_encoding.md R87 steps 1 to 6). There are five prefix groups, so six bytes
reach an opcode or a repeated group; the first line is never reached from `decode`. DESIGN CHOICE: a repeated group is
refused where it is seen, whatever follows: also where R86 or the length (R87, 92 D29) would give an exception
(assumption log 29). -/
def decodeFrom (p : Params) (d : Size) : Nat → Prefixes → Parse Decoded
  | 0, _ => .done (.refuse .repeatedPrefix)
  | n + 1, pf => .need fun b => match pf.add b with
    | .opcode => decodeOp p d pf b
    | .repeated => .done (.refuse .repeatedPrefix)
    | .added pf' => decodeFrom p d n pf'

/-- The decoder (30_encoding.md R70 to R87), for a code segment whose default size is `d` (R72). -/
def decode (p : Params) (d : Size) : Parse Decoded :=
  decodeFrom p d 6 Prefixes.empty

/-- Decode a list of bytes: what it is and the bytes left over; `none` where the bytes run out. -/
def decodeBytes (p : Params) (d : Size) (bs : List Byte) : Option (Decoded × List Byte) :=
  (decode p d).onBytes bs

/-! ### The encoder -/

/-- The `n` low-order bytes of a value, lowest first (20_memory.md R41). -/
def leBytes {w : Nat} (n : Nat) (v : BitVec w) : List Byte :=
  (List.range n).map fun i => v.extractLsb' (8 * i) 8

/-- A ModRM byte (30_encoding.md R74); a SIB byte has the same three widths (R77). -/
def fieldByte (hi : BitVec 2) (mid lo : BitVec 3) : Byte := hi ++ mid ++ lo

/-- The byte of a segment override (30_encoding.md R71). -/
def SegReg.prefixByte : SegReg → Byte
  | .es => 0x26#8 | .cs => 0x2E#8 | .ss => 0x36#8 | .ds => 0x3E#8 | .fs => 0x64#8 | .gs => 0x65#8

/-- The prefix that turns the default into the size wanted, if any (30_encoding.md R72). -/
def sizePrefix (d : Size) (b : Byte) : Option Size → List Byte
  | none => []
  | some s => if s = d then [] else [b]

/-- The prefix bytes of an instruction, in one fixed order (30_encoding.md R71 allows any). -/
def prefixBytes (d : Size) (osz asz : Option Size) (seg : Option SegReg) (rep : Bool) : List Byte :=
  sizePrefix d 0x66#8 osz ++ sizePrefix d 0x67#8 asz
    ++ (match seg with | none => [] | some r => [r.prefixByte]) ++ (if rep then [0xF3#8] else [])

/-- mod and displacement bytes of a 16-bit based address (30_encoding.md R78). -/
def Disp16.parts : Disp16 → BitVec 2 × List Byte
  | .none => (0#2, [])
  | .d8 b => (1#2, [b])
  | .d16 h => (2#2, leBytes 2 h)

/-- mod and displacement bytes of a 32-bit based address (30_encoding.md R76). -/
def Disp32.parts : Disp32 → BitVec 2 × List Byte
  | .none => (0#2, [])
  | .d8 b => (1#2, [b])
  | .d32 w => (2#2, leBytes 4 w)

/-- scale and index of a SIB byte (30_encoding.md R77). -/
def SibIndex.fields : SibIndex → BitVec 2 × BitVec 3
  | .none => (0#2, 4#3)
  | .scaled sc r => (sc.bits, r.bits)

/-- A SIB byte (30_encoding.md R77). -/
def sibByte (i : SibIndex) (base : BitVec 3) : Byte := fieldByte i.fields.1 i.fields.2 base

/-- The ModRM byte, SIB byte and displacement of an address (30_encoding.md R76 to R78, R80). -/
def Addr.bytes (reg : BitVec 3) : Addr → List Byte
  | .a16 (.based b d) => fieldByte d.parts.1 reg b.bits :: d.parts.2
  | .a16 (.direct h) => fieldByte 0#2 reg 6#3 :: leBytes 2 h
  | .a32 (.based b d) => fieldByte d.parts.1 reg b.bits :: d.parts.2
  | .a32 (.direct w) => fieldByte 0#2 reg 5#3 :: leBytes 4 w
  | .a32 (.sib i b d) => fieldByte d.parts.1 reg 4#3 :: sibByte i b.bits :: d.parts.2
  | .a32 (.sibNoBase i w) => fieldByte 0#2 reg 4#3 :: sibByte i 5#3 :: leBytes 4 w

/-- The ModRM byte and what follows it for an `r/m` operand (30_encoding.md R74). -/
def Rm.bytes {ρ : Type} (bits : ρ → BitVec 3) (reg : BitVec 3) : Rm ρ → List Byte
  | .reg r => [fieldByte 3#2 reg (bits r)]
  | .mem m => m.addr.bytes reg

/-- The AddressSize an address needs. -/
def Addr.size : Addr → Size
  | .a16 _ => .s16
  | .a32 _ => .s32

/-- The AddressSize an `r/m` operand needs, if it is in memory. -/
def Rm.asz? {ρ : Type} : Rm ρ → Option Size
  | .reg _ => none
  | .mem m => some m.addr.size

/-- The segment override of an `r/m` operand. -/
def Rm.seg? {ρ : Type} : Rm ρ → Option SegReg
  | .reg _ => none
  | .mem m => m.seg

/-- The AddressSize of an `moffs` offset (30_encoding.md R82). -/
def Moffs.size : Moffs → Size
  | .o16 _ => .s16
  | .o32 _ => .s32

/-- The bytes of an `moffs` offset (30_encoding.md R82). -/
def Moffs.bytes : Moffs → List Byte
  | .o16 h => leBytes 2 h
  | .o32 w => leBytes 4 w

/-- A form with a ModRM byte: prefixes, opcode, ModRM to displacement, immediate (30_encoding.md R70). -/
def encodeRm {ρ : Type} (d : Size) (osz : Option Size) (opcode : List Byte) (bits : ρ → BitVec 3) (reg : BitVec 3)
    (rm : Rm ρ) (imm : List Byte) : List Byte :=
  prefixBytes d osz rm.asz? rm.seg? false ++ opcode ++ rm.bytes bits reg ++ imm

/-- A form with an `moffs` offset (30_encoding.md R82). -/
def encodeMoffs (d : Size) (osz : Option Size) (opcode : Byte) (seg : Option SegReg) (off : Moffs) : List Byte :=
  prefixBytes d osz (some off.size) seg false ++ [opcode] ++ off.bytes

/-- A special-register move (41_mov_special.md R151). -/
def encodeSpecial (opcode : Byte) (n : BitVec 3) (g : Reg) : List Byte :=
  [0x0F#8, opcode, fieldByte 3#2 n g.bits]

/-- A MOVS (42_movs.md R160, R167, R169). -/
def encodeMovs (d : Size) (osz : Option Size) (opcode : Byte) (rep : Bool) (asz : Size) (seg : Option SegReg) :
    List Byte :=
  prefixBytes d osz (some asz) seg rep ++ [opcode]

/-- The bytes of a well-formed instruction in a code segment of default size `d` (30_encoding.md R70 to R85). -/
def encode (p : Params) (d : Size) : Instr → List Byte
  | .movRm8R8 dst src => encodeRm d none [0x88#8] Reg8.bits src.bits dst []
  | .movRm16R16 dst src => encodeRm d (some .s16) [0x89#8] Reg.bits src.bits dst []
  | .movRm32R32 dst src => encodeRm d (some .s32) [0x89#8] Reg.bits src.bits dst []
  | .movR8Rm8 dst src => encodeRm d none [0x8A#8] Reg8.bits dst.bits src []
  | .movR16Rm16 dst src => encodeRm d (some .s16) [0x8B#8] Reg.bits dst.bits src []
  | .movR32Rm32 dst src => encodeRm d (some .s32) [0x8B#8] Reg.bits dst.bits src []
  | .movRm16Sreg osz dst src => encodeRm d (some osz) [0x8C#8] Reg.bits src.bits dst []
  | .movSregRm16 dst src => encodeRm d none [sregLoadByte p.sregLoad] Reg.bits dst.bits src []
  | .movAlMoffs8 seg off => encodeMoffs d none 0xA0#8 seg off
  | .movAxMoffs16 seg off => encodeMoffs d (some .s16) 0xA1#8 seg off
  | .movEaxMoffs32 seg off => encodeMoffs d (some .s32) 0xA1#8 seg off
  | .movMoffs8Al seg off => encodeMoffs d none 0xA2#8 seg off
  | .movMoffs16Ax seg off => encodeMoffs d (some .s16) 0xA3#8 seg off
  | .movMoffs32Eax seg off => encodeMoffs d (some .s32) 0xA3#8 seg off
  | .movReg8Imm8 dst imm => [0b10110#5 ++ dst.bits, imm]
  | .movReg16Imm16 dst imm => sizePrefix d 0x66#8 (some .s16) ++ [0b10111#5 ++ dst.bits] ++ leBytes 2 imm
  | .movReg32Imm32 dst imm => sizePrefix d 0x66#8 (some .s32) ++ [0b10111#5 ++ dst.bits] ++ leBytes 4 imm
  | .movRm8Imm8 dst imm => encodeRm d none [0xC6#8] Reg8.bits 0#3 dst [imm]
  | .movRm16Imm16 dst imm => encodeRm d (some .s16) [0xC7#8] Reg.bits 0#3 dst (leBytes 2 imm)
  | .movRm32Imm32 dst imm => encodeRm d (some .s32) [0xC7#8] Reg.bits 0#3 dst (leBytes 4 imm)
  | .movR32Cr dst src => encodeSpecial 0x20#8 src.bits dst
  | .movCrR32 dst src => encodeSpecial 0x22#8 dst.bits src
  | .movR32Dr03 dst src => encodeSpecial 0x21#8 src.bits dst
  | .movR32Dr67 dst src => encodeSpecial 0x21#8 src.bits dst
  | .movDr03R32 dst src => encodeSpecial 0x23#8 dst.bits src
  | .movDr67R32 dst src => encodeSpecial 0x23#8 dst.bits src
  | .movR32Tr dst src => encodeSpecial 0x24#8 src.bits dst
  | .movTrR32 dst src => encodeSpecial 0x26#8 dst.bits src
  | .movsM8M8 rep asz src => encodeMovs d none 0xA4#8 rep asz (some src)
  | .movsM16M16 rep asz src => encodeMovs d (some .s16) 0xA5#8 rep asz (some src)
  | .movsM32M32 rep asz src => encodeMovs d (some .s32) 0xA5#8 rep asz (some src)
  | .movsb rep asz => encodeMovs d none 0xA4#8 rep asz none
  | .movsw rep asz => encodeMovs d (some .s16) 0xA5#8 rep asz none
  | .movsd rep asz => encodeMovs d (some .s32) 0xA5#8 rep asz none
  | .movsxR16Rm8 dst src => encodeRm d (some .s16) [0x0F#8, 0xBE#8] Reg8.bits dst.bits src []
  | .movsxR32Rm8 dst src => encodeRm d (some .s32) [0x0F#8, 0xBE#8] Reg8.bits dst.bits src []
  | .movsxR32Rm16 osz dst src => encodeRm d (some osz) [0x0F#8, 0xBF#8] Reg.bits dst.bits src []
  | .movzxR16Rm8 dst src => encodeRm d (some .s16) [0x0F#8, 0xB6#8] Reg8.bits dst.bits src []
  | .movzxR32Rm8 dst src => encodeRm d (some .s32) [0x0F#8, 0xB6#8] Reg8.bits dst.bits src []
  | .movzxR32Rm16 osz dst src => encodeRm d (some osz) [0x0F#8, 0xB7#8] Reg.bits dst.bits src []
  | .mulAlRm8 src => encodeRm d none [0xF6#8] Reg8.bits 4#3 src []
  | .mulAxRm16 src => encodeRm d (some .s16) [0xF7#8] Reg.bits 4#3 src []
  | .mulEaxRm32 src => encodeRm d (some .s32) [0xF7#8] Reg.bits 4#3 src []

/-! ### The host's question: which instruction is an opcode-table word -/

/-- Byte `i` of a word numbered as spec/opcode_table.json numbers it: the first byte is bits 7:0. -/
def tableByte (w i : Nat) : Byte := BitVec.ofNat 8 (w / 2 ^ (8 * i))

/-- The longest instruction's worth of bytes of a table word, zero above `nbits`. -/
def tableBytes (nbits w : Nat) : List Byte :=
  (List.range maxInsnLen).map fun i => tableByte (w % 2 ^ nbits) i

/-- The instruction that the decoder reads from a table word, in the 16-bit code segment that reset leaves
(70_reset_and_hazards.md R250, 30_encoding.md R72; assumption log 35). -/
def decodeTableWord (nbits w : Nat) : Option Instr :=
  match decodeBytes Params.default .s16 (tableBytes nbits w) with
  | some (.instr i, _) => some i
  | _ => none

end Sys2Proof
end

