-- ==== Sys2Proof/Machine/Memory.lean ====
section
/-! DEFINITION. Physical memory (20_memory.md R40): the bytes that have a value, by address. -/

namespace Sys2Proof.Machine

/-- The physical bytes that hold a value, addresses strictly rising. A byte not listed has no value: nothing has
written it since power-on (70_reset_and_hazards.md R250; assumption log 6). -/
abbrev Memory := List Host.Cell

/-- The value of one byte, if it has one. What an unlisted address reads as is decided here: no value. -/
def Memory.read? (m : Memory) (a : Nat) : Option Byte :=
  match m with
  | [] => none
  | (x, b) :: rest => if x = a then some b else Memory.read? rest a

/-- Store one byte, keeping the addresses strictly rising. -/
def Memory.write (m : Memory) (a : Nat) (v : Byte) : Memory :=
  match m with
  | [] => [(a, v)]
  | (x, b) :: rest =>
    if a < x then (a, v) :: (x, b) :: rest
    else if x = a then (x, v) :: rest
    else (x, b) :: Memory.write rest a v

/-- Store bytes one after another (20_memory.md R41 `MemWrite`). -/
def Memory.writeAll (m : Memory) : List (Nat × Byte) → Memory
  | [] => m
  | (a, v) :: rest => Memory.writeAll (m.write a v) rest

/-- The addresses are strictly rising, starting above nothing or at least at `lo`, and inside the address space. -/
def Memory.sortedFrom (lo : Nat) : Memory → Bool
  | [] => true
  | (x, _) :: rest => decide (lo ≤ x) && decide (x < addressSpace) && Memory.sortedFrom (x + 1) rest

/-- The canonical form: addresses strictly rising and below 2^32 (00_scope.md R3). An unlisted address has no value, so
no entry can equal what an unlisted address reads as. -/
def Memory.wf (m : Memory) : Bool := Memory.sortedFrom 0 m

end Sys2Proof.Machine
end

