-- ==== Sys2Proof/Machine/State.lean ====
section
/-! DEFINITION. The state of the machine (10_state.md), its reset value (70_reset_and_hazards.md R250) and the reasons a
step can stop (60_exceptions.md R226). -/

namespace Sys2Proof.Machine

/-- The eight general registers (10_state.md R10). -/
structure Regs where
  eax : Word
  ecx : Word
  edx : Word
  ebx : Word
  esp : Word
  ebp : Word
  esi : Word
  edi : Word
  deriving DecidableEq, Repr

/-- EFLAGS, each flag by itself (10_state.md R16 allows it, since no in-scope instruction moves EFLAGS as a whole). Bit 1
reads as 1 and the reserved bits are not held (assumption log 36). -/
structure Eflags where
  cf : Bool
  pf : Bool
  af : Bool
  zf : Bool
  sf : Bool
  tf : Bool
  ie : Bool
  df : Bool
  ovf : Bool
  iopl : BitVec 2
  nt : Bool
  rf : Bool
  vm : Bool
  deriving DecidableEq, Repr

/-- The access rights held with a segment register (10_state.md R19, 20_memory.md R60), the accessed bit among them
(70_reset_and_hazards.md R250; assumption log 5). -/
structure AccessRights where
  present : Bool
  dpl : BitVec 2
  isCode : Bool
  writable : Bool
  readable : Bool
  conforming : Bool
  expandDown : Bool
  big : Bool
  accessed : Bool
  deriving DecidableEq, Repr

/-- A segment register: the selector and the hidden part (10_state.md R19). -/
structure Segment where
  sel : Half
  valid : Bool
  base : Word
  limit : Word
  ar : AccessRights
  deriving DecidableEq, Repr

/-- The six segment registers (10_state.md R19). -/
structure Segments where
  es : Segment
  cs : Segment
  ss : Segment
  ds : Segment
  fs : Segment
  gs : Segment
  deriving DecidableEq, Repr

/-- GDTR or IDTR (10_state.md R24, R28). -/
structure TableReg where
  base : Word
  limit : Half
  deriving DecidableEq, Repr

/-- LDTR or the task register, the hidden part included (10_state.md R24, R28). -/
structure SystemSegment where
  sel : Half
  valid : Bool
  base : Word
  limit : Word
  deriving DecidableEq, Repr

/-- The control, debug, test and descriptor-table registers (10_state.md R21 to R24, R28). -/
structure SysRegs where
  cr0 : Word
  cr2 : Word
  cr3 : Word
  dr0 : Word
  dr1 : Word
  dr2 : Word
  dr3 : Word
  dr6 : Word
  dr7 : Word
  tr6 : Word
  tr7 : Word
  gdtr : TableReg
  ldtr : SystemSegment
  idtr : TableReg
  task : SystemSegment
  deriving DecidableEq, Repr

/-- What the interrupt oracle announces at one boundary: NMI, and INTR with its vector (60_exceptions.md R217). -/
structure Arrival where
  nmi : Bool
  intr : Option Byte
  deriving DecidableEq, Repr

/-- Interrupts: what is still to be announced, what is pending, and whether an NMI is in service
(60_exceptions.md R217, R218; assumption log 10). -/
structure Interrupts where
  arrivals : List Arrival
  nmiPending : Bool
  intrPending : Option Byte
  nmiBlocked : Bool
  deriving DecidableEq, Repr

/-- The machine's state: 10_state.md R10 to R28, and the model's own fields `staleTables` (20_memory.md R59; log 17),
`draws` (00_scope.md R6; log 11) and `params` (00_scope.md R3; log 1). -/
structure State where
  regs : Regs
  eip : Word
  eflags : Eflags
  segs : Segments
  sys : SysRegs
  irq : Interrupts
  inhibit : Bool
  mem : Memory
  staleTables : Bool
  draws : Nat
  params : Params
  deriving DecidableEq, Repr

/-- The three modes (10_state.md R18). -/
inductive Mode where
  | realAddress
  | protectedMode
  | virtual8086
  deriving DecidableEq, Repr

/-- The exceptions of 60_exceptions.md R210 that the model raises; "Interrupt 13" is `gp`. `df` is the double fault of
R216, raised only inside a vectored delivery. -/
inductive Exc where
  | ud
  | df
  | np
  | ss
  | gp
  | pf
  deriving DecidableEq, Repr

/-- Why a step stops without a next state (60_exceptions.md R226: Fault, Stuck, End). -/
inductive Fault where
  /-- The chip raises an exception with an error code, if it has one; `after` is the state at the fault (60_exceptions.md
  R212). Raised by any instruction or fetch. Safe: the model does not go on where a handler could (92 D3; log 8). -/
  | exception (x : Exc) (code : Option Half) (after : State)
  /-- Stuck: an access to a physical address that LAUNCH does not populate (20_memory.md R49). Safe (92 D5; log 6). -/
  | unpopulated (pa : Nat)
  /-- A read of a populated byte that nothing has written (10_state.md R29). Safe (log 6). -/
  | unwritten (pa : Nat)
  /-- Shutdown: a fault inside the delivery of a double fault (60_exceptions.md R216). Only with `excModel` or `intrModel`
  vectored. Safe (log 8). -/
  | shutdown (after : State)
  /-- End: EIP equals END_EIP at a boundary; the state is final (70_reset_and_hazards.md R255). Raised by step. Safe: the
  run is over (log 19). -/
  | endOfRun (final : State)
  deriving DecidableEq, Repr

/-- Why the model gives a step no meaning (60_exceptions.md R226 `Refused`). Every one is safe: it errs toward
unprovable. -/
inductive Refusal where
  /-- An instruction that has no meaning yet, rejected by name in exec's arm. Safe. -/
  | notModelled (mnemonic : String)
  /-- The bytes have no meaning (30_encoding.md R86). Raised by the fetch. Safe. -/
  | undecodable (r : DecodeRefusal)
  /-- A CR0 write that changes PE or PG (41_mov_special.md R153, 92 D19). Raised by MOV CR0. Safe. -/
  | modeSwitch
  /-- A DR7 write that sets a breakpoint enable or GD (41_mov_special.md R154, 92 D18). Raised by MOV DR7. Safe. -/
  | breakpointArming
  /-- A TR6 or TR7 write (41_mov_special.md R155, 92 D17). Raised by MOV TR. Safe. -/
  | testRegisterWrite
  /-- A step begins with TF, a DR7 enable or GD set: the debug exception is not in the spec (60_exceptions.md R222).
  Raised by step. Safe. -/
  | debugArmed
  /-- An interrupt is delivered and INTR_MODEL does not model it (60_exceptions.md R217). Raised by step. Safe. -/
  | interruptDelivery
  /-- A store overlaps PROGRAM_TEXT (20_memory.md R58). Raised by any store. Safe. -/
  | programTextStore
  /-- A fetch outside PROGRAM_TEXT (92 D9). Raised by the fetch. Safe. -/
  | outsideProgramText
  /-- A live page table was stored to, and the next special-register instruction is no write to CR3, or the run ends
  (20_memory.md R59, 92 D19). Raised by the special-register moves and by step. Safe. -/
  | livePageTable
  deriving DecidableEq, Repr

/-- Present writable data, expand-up, DPL 0 (70_reset_and_hazards.md R250; DPL, big and accessed: log 5). -/
def AccessRights.resetData : AccessRights where
  present := true
  dpl := 0
  isCode := false
  writable := true
  readable := false
  conforming := false
  expandDown := false
  big := false
  accessed := false

/-- CS after reset: present, readable, writable, accessed (70_reset_and_hazards.md R250; the rest: log 5). -/
def AccessRights.resetCode : AccessRights where
  present := true
  dpl := 0
  isCode := true
  writable := true
  readable := true
  conforming := false
  expandDown := false
  big := false
  accessed := true

/-- DS, ES, SS, FS, GS after reset (70_reset_and_hazards.md R250). -/
def Segment.resetData : Segment where
  sel := 0
  valid := true
  base := 0
  limit := 0x0000FFFF#32
  ar := .resetData

/-- CS after reset (70_reset_and_hazards.md R250). -/
def Segment.resetCode : Segment where
  sel := 0xF000#16
  valid := true
  base := 0xFFFF0000#32
  limit := 0x0000FFFF#32
  ar := .resetCode

/-- The machine right after reset (70_reset_and_hazards.md R250). Registers the rule leaves unspecified hold the values of
assumption log 2 to 5; memory lists nothing (log 6); the parameters are their defaults (log 1). -/
def State.reset : State where
  regs := { eax := 0, ecx := 0, edx := 0x00000300#32, ebx := 0, esp := 0, ebp := 0, esi := 0, edi := 0 }
  eip := 0x0000FFF0#32
  eflags :=
    { cf := false, pf := false, af := false, zf := false, sf := false, tf := false, ie := false, df := false, ovf := false
      iopl := 0, nt := false, rf := false, vm := false }
  segs :=
    { es := .resetData, cs := .resetCode, ss := .resetData, ds := .resetData, fs := .resetData, gs := .resetData }
  sys :=
    { cr0 := 0, cr2 := 0, cr3 := 0, dr0 := 0, dr1 := 0, dr2 := 0, dr3 := 0, dr6 := 0, dr7 := 0, tr6 := 0, tr7 := 0
      gdtr := ⟨0, 0⟩, ldtr := ⟨0, false, 0, 0⟩, idtr := ⟨0, 0x03FF#16⟩, task := ⟨0, false, 0, 0⟩ }
  irq := { arrivals := [], nmiPending := false, intrPending := none, nmiBlocked := false }
  inhibit := false
  mem := []
  staleTables := false
  draws := 0
  params := .default

end Sys2Proof.Machine
end

