-- ==== Sys2Proof/Machine/Flags.lean ====
section
/-! DEFINITION. EFLAGS bit by bit (10_state.md R16), the free values (00_scope.md R6) and the flag results of the
instructions (10_state.md R17). -/

namespace Sys2Proof.Machine

/-- The single-bit flags of EFLAGS (10_state.md R16). -/
inductive Flag where
  | cf | pf | af | zf | sf | tf | ie | df | ovf | nt | rf | vm
  deriving DecidableEq, Repr

/-- One flag of EFLAGS. -/
def Eflags.get (e : Eflags) : Flag → Bool
  | .cf => e.cf | .pf => e.pf | .af => e.af | .zf => e.zf | .sf => e.sf | .tf => e.tf | .ie => e.ie | .df => e.df
  | .ovf => e.ovf | .nt => e.nt | .rf => e.rf | .vm => e.vm

/-- Replace one flag of EFLAGS; every other bit is kept. -/
def Eflags.set (e : Eflags) (f : Flag) (v : Bool) : Eflags :=
  match f with
  | .cf => { e with cf := v } | .pf => { e with pf := v } | .af => { e with af := v } | .zf => { e with zf := v }
  | .sf => { e with sf := v } | .tf => { e with tf := v } | .ie => { e with ie := v } | .df => { e with df := v }
  | .ovf => { e with ovf := v } | .nt => { e with nt := v } | .rf => { e with rf := v } | .vm => { e with vm := v }

/-- The bit position of a flag (10_state.md R16). -/
def flagBit : Flag → Nat
  | .cf => 0 | .pf => 2 | .af => 4 | .zf => 6 | .sf => 7 | .tf => 8 | .ie => 9 | .df => 10 | .ovf => 11
  | .nt => 14 | .rf => 16 | .vm => 17

/-- One flag in its place in a word. -/
def flagImage (e : Eflags) (f : Flag) : Half := if e.get f then 1#16 <<< flagBit f else 0#16

/-- FLAGS, the low word of EFLAGS, as the entry of a handler saves it (60_exceptions.md R215): the flags at their places,
IOPL in bits 13:12, bit 1 as 1, bits 3, 5 and 15 as 0 (10_state.md R16; assumption log 36). -/
def flagsWord (e : Eflags) : Half :=
  [Flag.cf, .pf, .af, .zf, .sf, .tf, .ie, .df, .ovf, .nt].foldl (fun w f => w ||| flagImage e f)
    (0x0002#16 ||| (e.iopl.setWidth 16 <<< 12))

/-- The value of a flag. -/
def getFlag (s : State) (f : Flag) : Bool := s.eflags.get f

/-- Write one flag; every other bit of EFLAGS is kept. -/
def setFlag (s : State) (f : Flag) (v : Bool) : State := { s with eflags := s.eflags.set f v }

/-- The next free value, `draw_32()` (00_scope.md R6). -/
def drawn (s : State) : Word := Config.freeWord s.draws

/-- The state after a draw: the next draw is another value. -/
def advanceDraw (s : State) : State := { s with draws := s.draws + 1 }

/-- Make one flag undefined: `f <- draw_1()` (10_state.md R17, 92 D20). -/
def undefineFlag (s : State) (f : Flag) : State := advanceDraw (setFlag s f ((drawn s).getLsbD 0))

/-- Make several flags undefined, each by a draw of its own (92 D20). -/
def undefineFlags (s : State) : List Flag → State
  | [] => s
  | f :: fs => undefineFlags (undefineFlag s f) fs

/-- The six flags that a special-register move leaves undefined (41_mov_special.md R150). -/
def specialMoveFlags : List Flag := [.ovf, .sf, .zf, .af, .pf, .cf]

/-- The four flags that MUL leaves undefined (45_mul.md R204). -/
def mulUndefinedFlags : List Flag := [.sf, .zf, .af, .pf]

/-- The flags of MUL: CF = OF = (high half is not 0), SF, ZF, AF, PF undefined (45_mul.md R204). -/
def mulFlags (highNonzero : Bool) (s : State) : State :=
  undefineFlags (setFlag (setFlag s .cf highNonzero) .ovf highNonzero) mulUndefinedFlags

end Sys2Proof.Machine
end

