-- ==== Sys2Proof/Machine/Ops.lean ====
section
/-! DEFINITION. The shared operations: registers (10_state.md), mode and privilege (R18), memory access with its checks
(20_memory.md R40 to R53), and taking an exception (60_exceptions.md R212 to R217). -/

namespace Sys2Proof.Machine

/-- What every step and every meaning answers. -/
abbrev Outcome := Host.Outcome State Fault Refusal

/-! ### Results of operations -/

/-- The answer of an operation: a value and the state it leaves, or a stop. -/
inductive Res (α : Type) where
  | ok (a : α) (s : State)
  | fault (f : Fault)
  | refused (r : Refusal)

/-- Go on with the value and the state, if there are any. -/
def Res.andThen {α β : Type} (r : Res α) (k : α → State → Res β) : Res β :=
  match r with
  | .ok a s => k a s
  | .fault f => .fault f
  | .refused r => .refused r

/-- The outcome of an operation whose value is no longer needed. -/
def Res.outcome {α : Type} : Res α → Outcome
  | .ok _ s => .next s
  | .fault f => .fault f
  | .refused r => .refused r

/-- `raise #XX(code)` (00_scope.md R6): the state is kept as it is and the interrupt inhibit is cleared
(60_exceptions.md R212, 10_state.md R25). -/
def raise {α : Type} (x : Exc) (code : Option Half) (s : State) : Res α :=
  .fault (.exception x code { s with inhibit := false })

/-! ### General registers -/

/-- The contents of a general register (10_state.md R10). -/
def Regs.get (g : Regs) : Reg → Word
  | .eax => g.eax | .ecx => g.ecx | .edx => g.edx | .ebx => g.ebx
  | .esp => g.esp | .ebp => g.ebp | .esi => g.esi | .edi => g.edi

/-- Replace a general register (10_state.md R10). -/
def Regs.set (g : Regs) (r : Reg) (v : Word) : Regs :=
  match r with
  | .eax => { g with eax := v } | .ecx => { g with ecx := v } | .edx => { g with edx := v } | .ebx => { g with ebx := v }
  | .esp => { g with esp := v } | .ebp => { g with ebp := v } | .esi => { g with esi := v } | .edi => { g with edi := v }

/-- `r32[n]` (10_state.md R10). -/
def readR32 (s : State) (r : Reg) : Word := s.regs.get r

/-- `r32[n] <- v` (10_state.md R10). -/
def writeR32 (r : Reg) (v : Word) (s : State) : State := { s with regs := s.regs.set r v }

/-- `r16[n]` is bits 15:0 (10_state.md R11). -/
def readR16 (s : State) (r : Reg) : Half := (s.regs.get r).extractLsb' 0 16

/-- `r16[n] <- v` keeps bits 31:16 (10_state.md R11). -/
def writeR16 (r : Reg) (v : Half) (s : State) : State :=
  writeR32 r ((s.regs.get r).extractLsb' 16 16 ++ v) s

/-- The general register an 8-bit register is part of (10_state.md R12). -/
def Reg8.host : Reg8 → Reg
  | .al | .ah => .eax
  | .cl | .ch => .ecx
  | .dl | .dh => .edx
  | .bl | .bh => .ebx

/-- Whether an 8-bit register is bits 15:8, not 7:0 (10_state.md R12). -/
def Reg8.isHigh : Reg8 → Bool
  | .al | .cl | .dl | .bl => false
  | .ah | .ch | .dh | .bh => true

/-- `r8[n]` (10_state.md R12). -/
def readR8 (s : State) (r : Reg8) : Byte :=
  (s.regs.get (Reg8.host r)).extractLsb' (if Reg8.isHigh r then 8 else 0) 8

/-- A doubleword with one of its two low bytes replaced (10_state.md R12). -/
def putByte (w : Word) (high : Bool) (v : Byte) : Word :=
  if high then w.extractLsb' 16 16 ++ v ++ w.extractLsb' 0 8 else w.extractLsb' 8 24 ++ v

/-- `r8[n] <- v` changes those 8 bits only (10_state.md R12). -/
def writeR8 (r : Reg8) (v : Byte) (s : State) : State :=
  writeR32 (Reg8.host r) (putByte (s.regs.get (Reg8.host r)) (Reg8.isHigh r) v) s

/-! ### Segment registers -/

/-- `sreg[n]` (10_state.md R19, R20). -/
def Segments.get (g : Segments) : SegReg → Segment
  | .es => g.es | .cs => g.cs | .ss => g.ss | .ds => g.ds | .fs => g.fs | .gs => g.gs

/-- Replace a segment register, both parts (10_state.md R19). -/
def Segments.set (g : Segments) (r : SegReg) (v : Segment) : Segments :=
  match r with
  | .es => { g with es := v } | .cs => { g with cs := v } | .ss => { g with ss := v }
  | .ds => { g with ds := v } | .fs => { g with fs := v } | .gs => { g with gs := v }

/-- `sreg[n]`. -/
def readSreg (s : State) (r : SegReg) : Segment := s.segs.get r

/-- `sreg[n] <- v`. -/
def writeSreg (r : SegReg) (v : Segment) (s : State) : State := { s with segs := s.segs.set r v }

/-! ### Mode and privilege -/

/-- CR0.PE (10_state.md R21). -/
def protectionEnabled (s : State) : Bool := s.sys.cr0.getLsbD 0

/-- The mode is a function of CR0.PE and EFLAGS.VM (10_state.md R18). -/
def mode (s : State) : Mode :=
  if protectionEnabled s then (if getFlag s .vm then .virtual8086 else .protectedMode) else .realAddress

/-- CPL: `CS.sel[1:0]` in protected mode, 3 in virtual-8086 mode, 0 in real-address mode (10_state.md R18, 92 D27). -/
def cpl (s : State) : Nat :=
  match mode s with
  | .realAddress => 0
  | .protectedMode => (s.segs.cs.sel.extractLsb' 0 2).toNat
  | .virtual8086 => 3

/-- Paging is on: CR0.PG with CR0.PE (10_state.md R21, 20_memory.md R49). -/
def paging (s : State) : Bool := s.sys.cr0.getLsbD 31 && protectionEnabled s

/-- The default size of the code segment (30_encoding.md R72, DEFAULT_SIZE). -/
def defaultSize (s : State) : Size :=
  match mode s with
  | .protectedMode => if s.segs.cs.ar.big then .s32 else .s16
  | .realAddress | .virtual8086 => .s16

/-! ### Segment checks -/

/-- The two kinds of operand access. -/
inductive Access where
  | read
  | write
  deriving DecidableEq, Repr

/-- The limit condition of a legal offset, expand-down included (20_memory.md R44 condition 2). -/
def limitOk (g : Segment) (off n : Nat) : Bool :=
  if g.ar.expandDown && !g.ar.isCode then
    decide (g.limit.toNat < off) && decide (off + n - 1 ≤ if g.ar.big then 0xFFFFFFFF else 0xFFFF)
  else decide (off + n - 1 ≤ g.limit.toNat)

/-- The type condition of a legal access (20_memory.md R44 conditions 3 and 4). -/
def typeOk (g : Segment) : Access → Bool
  | .read => !g.ar.isCode || g.ar.readable
  | .write => !g.ar.isCode && g.ar.writable

/-- The error code of "Interrupt 13": none in real-address mode, 0 in virtual-8086 mode (60_exceptions.md R210). -/
def int13Code (s : State) : Option Half :=
  match mode s with
  | .realAddress => none
  | _ => some 0

/-- The exception of an illegal address: #SS(0) in the SS segment, #GP(0) in the others (20_memory.md R48). -/
def illegalAddress : SegReg → Exc
  | .ss => .ss
  | .es | .cs | .ds | .fs | .gs => .gp

/-- The exception that the segment check of an operand access raises, if any (20_memory.md R44 to R48). A nonwritable
destination is #GP(0) whatever the segment (R48; assumption log 24). -/
def segmentFault (s : State) (acc : Access) (r : SegReg) (off n : Nat) : Option (Exc × Option Half) :=
  match mode s with
  | .protectedMode =>
    if !(readSreg s r).valid then some (illegalAddress r, some 0)
    else if !typeOk (readSreg s r) acc then
      some (match acc with | .write => .gp | .read => illegalAddress r, some 0)
    else if !limitOk (readSreg s r) off n then some (illegalAddress r, some 0)
    else none
  | .realAddress | .virtual8086 =>
    if off + n - 1 ≤ 0xFFFF then none else some (.gp, int13Code s)

/-! ### Physical memory -/

/-- LAUNCH populates the address (20_memory.md R49). -/
def populated (s : State) (pa : Nat) : Bool := s.params.populated.any fun r => decide (r.lo ≤ pa) && decide (pa < r.hi)

/-- The read of one physical byte: stuck outside the populated addresses (20_memory.md R49), a fault where nothing has
written (10_state.md R29). -/
def readPhysByte (pa : Nat) (s : State) : Res Byte :=
  if populated s pa then
    match s.mem.read? pa with
    | some b => .ok b s
    | none => .fault (.unwritten pa)
  else .fault (.unpopulated pa)

/-- The read of several physical bytes, in the order given: an operand, a descriptor, or the four bytes of a page-table entry.
DESIGN CHOICE: the first byte in that order that is not populated (20_memory.md R49) or that nothing has written (10_state.md
R29) decides which of the two stops the read is, where the spec gives no order (assumption log 6). -/
def readPhys : List Nat → State → Res (List Byte)
  | [], s => .ok [] s
  | pa :: pas, s =>
    (readPhysByte pa s).andThen fun b s => (readPhys pas s).andThen fun bs s => .ok (b :: bs) s

/-- The number that bytes denote, lowest first (20_memory.md R41). -/
def leNat : List Byte → Nat
  | [] => 0
  | b :: bs => b.toNat + 256 * leNat bs

/-- Bytes assembled little-endian at a width (20_memory.md R41). -/
def leValue (w : Nat) (bs : List Byte) : BitVec w := BitVec.ofNat w (leNat bs)

/-- `MemRead(pa, 4)` for a page-table entry (20_memory.md R41, R50). -/
def readPhys32 (pa : Nat) (s : State) : Res Word :=
  (readPhys [pa, pa + 1, pa + 2, pa + 3] s).andThen fun bs s => .ok (leValue 32 bs) s

/-- Set bits in a byte that memory lists; the processor's own table writes (20_memory.md R50). -/
def setMemBits (pa : Nat) (mask : Byte) (s : State) : State :=
  match s.mem.read? pa with
  | some b => { s with mem := s.mem.write pa (b ||| mask) }
  | none => s

/-! ### Paging -/

/-- A translated byte: its physical address, and the address of its page-table entry where paging is on. -/
structure Translated where
  pa : Nat
  pte : Option Nat
  deriving DecidableEq, Repr

/-- The 4 KiB frame that an entry or CR3 names: bits 31:12 (20_memory.md R50). -/
def frameOf (e : Word) : Nat := 4096 * (e.toNat / 4096)

/-- The physical address of the page-directory entry of a linear address (20_memory.md R50). -/
def pdeAddr (s : State) (la : Word) : Nat := frameOf s.sys.cr3 + 4 * (la.toNat / 4194304)

/-- The physical address of the page-table entry, by the directory entry (20_memory.md R50). -/
def pteAddr (pde la : Word) : Nat := frameOf pde + 4 * (la.toNat / 4096 % 1024)

/-- The page-fault error code: P, W/R, U/S in bits 0, 1, 2; bits 15:3 are not defined and are given (20_memory.md R51). -/
def pageFaultCode (present wr us : Bool) (undefinedBits : BitVec 13) : Half :=
  undefinedBits ++ BitVec.ofBool us ++ BitVec.ofBool wr ++ BitVec.ofBool present

/-- A page fault: CR2 takes the linear address, and bits 15:3 of the error code are a draw (20_memory.md R51,
60_exceptions.md R212; assumption log 11). -/
def raisePageFault {α : Type} (la : Word) (present wr us : Bool) (s : State) : Res α :=
  raise .pf (some (pageFaultCode present wr us ((drawn s).extractLsb' 0 13)))
    (advanceDraw { s with sys := { s.sys with cr2 := la } })

/-- Whether an entry admits a user-level access: U/S, and R/W for a write (20_memory.md R50). -/
def userMayAccess (entry : Word) (wr : Bool) : Bool := entry.getLsbD 2 && (!wr || entry.getLsbD 1)

/-- The two-level page walk (20_memory.md R50). It sets the accessed bits; the dirty bit is set by `setDirty` when the
whole store has passed its checks (60_exceptions.md R212; assumption log 16). -/
def walk (la : Word) (wr us : Bool) (s : State) : Res Translated :=
  (readPhys32 (pdeAddr s la) s).andThen fun pde s =>
    if !pde.getLsbD 0 then raisePageFault la false wr us s
    else (readPhys32 (pteAddr pde la) s).andThen fun pte s =>
      if !pte.getLsbD 0 then raisePageFault la false wr us s
      else if us && !(userMayAccess pde wr && userMayAccess pte wr) then raisePageFault la true wr us s
      else .ok ⟨frameOf pte + la.toNat % 4096, some (pteAddr pde la)⟩
        (setMemBits (pteAddr pde la) 0x20#8 (setMemBits (pdeAddr s la) 0x20#8 s))

/-- The physical address that a frame gives a linear byte: the frame, then the low 12 bits (20_memory.md R50). -/
def inFrame (f : BitVec 20) (la : Word) : Nat := 4096 * f.toNat + la.toNat % 4096

/-- The translation by a given function (20_memory.md R49; assumption log 16): it walks no tables and sets no bits. -/
def translateGiven (lines : List PageLine) (la : Word) (wr us : Bool) (s : State) : Res Translated :=
  match PageLine.answerOf lines (la.extractLsb' 12 20) wr us with
  | .frame f => .ok ⟨inFrame f la, none⟩ s
  | .fault p => raisePageFault la p wr us s

/-- The physical address of one linear byte: itself with paging off, otherwise what `Translate` answers
(20_memory.md R49). -/
def translate (la : Word) (wr us : Bool) (s : State) : Res Translated :=
  if paging s then
    match s.params.translate with
    | .twoLevel => walk la wr us s
    | .given lines => translateGiven lines la wr us s
  else .ok ⟨la.toNat, none⟩ s

/-- The physical addresses of `n` bytes from a linear address on, lowest first (20_memory.md R49). -/
def translateAll (wr us : Bool) : Nat → Word → State → Res (List Translated)
  | 0, _, s => .ok [] s
  | n + 1, la, s =>
    (translate la wr us s).andThen fun x s => (translateAll wr us n (la + 1) s).andThen fun xs s => .ok (x :: xs) s

/-- Set the dirty bit of each page-table entry that a store went through (20_memory.md R50). -/
def setDirty : List Translated → State → State
  | [], s => s
  | x :: xs, s =>
    match x.pte with
    | some a => setDirty xs (setMemBits a 0x40#8 s)
    | none => setDirty xs s

/-- `user?` of an access: CPL 3, and no supervisor-level read of the processor's own (20_memory.md R49). -/
def userAccess (s : State) (sup : Bool) : Bool := decide (cpl s = 3) && !sup

/-! ### Linear and segmented access -/

/-- `ReadLinear(la, n, sup)`: the bytes, lowest first (20_memory.md R49). -/
def readLinear (la : Word) (n : Nat) (sup : Bool) (s : State) : Res (List Byte) :=
  (translateAll false (userAccess s sup) n la s).andThen fun xs s => readPhys (xs.map Translated.pa) s

/-- A linear address lies in PROGRAM_TEXT (20_memory.md R58; assumption log 18). -/
def inProgramText (s : State) (la : Word) : Bool :=
  s.params.programText.any fun r => decide (r.lo ≤ la.toNat) && decide (la.toNat < r.hi)

/-- A store of `n` bytes overlaps PROGRAM_TEXT (20_memory.md R58). -/
def overlapsText (s : State) (la : Word) (n : Nat) : Bool :=
  (List.range n).any fun i => inProgramText s (la + BitVec.ofNat 32 i)

/-- The doubleword that memory lists at an address, if it lists all four bytes. -/
def listed32 (m : Memory) (a : Nat) : Option Word :=
  match m.read? a, m.read? (a + 1), m.read? (a + 2), m.read? (a + 3) with
  | some b0, some b1, some b2, some b3 => some (leValue 32 [b0, b1, b2, b3])
  | _, _, _, _ => none

/-- Page tables are in use: paging is on, and the translation is the two-level scheme (20_memory.md R49, R50). -/
def walksTables (s : State) : Bool := paging s && decide (s.params.translate = .twoLevel)

/-- A physical address lies in the page directory or in a page table that a present directory entry names
(20_memory.md R59 "reachable from CR3"). A present entry is listed in full, so only listed bytes are looked at. DESIGN
CHOICE: with paging off nothing is a live table, although R59 sets no such condition (assumption log 17). -/
def inLiveTable (s : State) (pa : Nat) : Bool :=
  walksTables s &&
    (decide (pa / 4096 = s.sys.cr3.toNat / 4096) ||
      s.mem.any fun c =>
        decide (c.1 / 4096 = s.sys.cr3.toNat / 4096) && decide (c.1 % 4 = 0) &&
          match listed32 s.mem c.1 with
          | some e => e.getLsbD 0 && decide (pa / 4096 = e.toNat / 4096)
          | none => false)

/-- The first physical address of a list that LAUNCH does not populate. -/
def firstUnpopulated (s : State) : List Nat → Option Nat
  | [] => none
  | pa :: pas => if populated s pa then firstUnpopulated s pas else some pa

/-- The store of bytes that are already translated: stuck outside the populated addresses, otherwise dirty bits, bytes,
and the mark of a store into a live page table (20_memory.md R49, R50, R59; assumption log 17). -/
def storePhys (xs : List Translated) (bs : List Byte) (sup : Bool) (s : State) : Res Unit :=
  match firstUnpopulated s (xs.map Translated.pa) with
  | some pa => .fault (.unpopulated pa)
  | none =>
    let t := setDirty xs s
    .ok () { t with
      mem := t.mem.writeAll ((xs.map Translated.pa).zip bs)
      staleTables := t.staleTables || (!sup && xs.any fun x => inLiveTable s x.pa) }

/-- `WriteLinear(la, n, v, sup)`: every byte is translated and checked before any is stored (20_memory.md R47, R49). A
store of the program into PROGRAM_TEXT is refused (R58). DESIGN CHOICE: that refusal comes after the translation, with its
page faults and its stops at unpopulated or unwritten table entries, and before the stop at an operand byte that LAUNCH does
not populate (R49, 92 D5), where the spec gives no order (assumption log 18). -/
def writeLinear (la : Word) (bs : List Byte) (sup : Bool) (s : State) : Res Unit :=
  (translateAll true (userAccess s sup) bs.length la s).andThen fun xs s =>
    if !sup && overlapsText s la bs.length then .refused .programTextStore else storePhys xs bs sup s

/-- The linear address of an offset (20_memory.md R42). -/
def linearAddr (s : State) (r : SegReg) (off : Word) : Word := (readSreg s r).base + off

/-- `ReadSeg(s, off, n)` (20_memory.md R46). -/
def readSeg (r : SegReg) (off : Word) (n : Nat) (s : State) : Res (List Byte) :=
  match segmentFault s .read r off.toNat n with
  | some (x, code) => raise x code s
  | none => readLinear (linearAddr s r off) n false s

/-- `WriteSeg(s, off, n, v)` (20_memory.md R47). -/
def writeSeg (r : SegReg) (off : Word) (bs : List Byte) (s : State) : Res Unit :=
  match segmentFault s .write r off.toNat bs.length with
  | some (x, code) => raise x code s
  | none => writeLinear (linearAddr s r off) bs false s

/-! ### Taking an exception (60_exceptions.md R212 to R217) -/

/-- The vector number of an exception (60_exceptions.md R210, R216). -/
def Exc.vector : Exc → Nat
  | .ud => 6
  | .df => 8
  | .np => 11
  | .ss => 12
  | .gp => 13
  | .pf => 14

/-- Push a word on SS:SP. -/
def push16 (v : Half) (s : State) : Res Unit :=
  let sp := readR16 s .esp - 2
  (writeSeg .ss (sp.setWidth 32) (leBytes 2 v) s).andThen fun _ s => .ok () (writeR16 .esp sp s)

/-- Load CS in real-address mode: base = selector * 16, the rest kept (70_reset_and_hazards.md R250, 40_mov.md R125). -/
def loadRealCs (sel : Half) (s : State) : State :=
  writeSreg .cs { s.segs.cs with sel := sel, base := sel.setWidth 32 <<< 4, valid := true } s

/-- The real-address-mode entry of a vector: FLAGS, CS and IP are pushed, IF and TF are cleared, and execution continues
at the CS:IP of the 4-byte entry at `IDTR.base + 4n`, offset then segment (60_exceptions.md R215). -/
def enterVector (vec : Nat) (s : State) : Res Unit :=
  (readLinear (s.sys.idtr.base + BitVec.ofNat 32 (4 * vec)) 4 true s).andThen fun entry s =>
    (push16 (flagsWord s.eflags) s).andThen fun _ s =>
      (push16 s.segs.cs.sel s).andThen fun _ s =>
        (push16 (s.eip.extractLsb' 0 16) s).andThen fun _ s =>
          let t := setFlag (setFlag s .ie false) .tf false
          .ok () { loadRealCs ((leValue 32 entry).extractLsb' 16 16) t with
            eip := ((leValue 32 entry).extractLsb' 0 16).setWidth 32 }

/-- Enter a vector in real-address mode; a fault inside is a double fault, and a fault inside that is shutdown
(60_exceptions.md R216). DESIGN CHOICE: R216 speaks of the delivery of a fault; the model treats the delivery of an interrupt
alike, whatever `excModel` is (assumption log 8, log 10). -/
def deliver (vec : Nat) (s : State) : Outcome :=
  match enterVector vec s with
  | .fault (.exception _ _ _) =>
    match enterVector (Exc.vector .df) s with
    | .fault (.exception _ _ _) => .fault (.shutdown s)
    | r => r.outcome
  | r => r.outcome

/-- Taking an exception: the run ends with `Fault(vector, code)` (60_exceptions.md R215, 92 D3). With the model's switch
`excModel` vectored, real-address mode enters the handler as R215 outlines; the gates and stack switches of the other two
modes are not in the spec, and there the run ends (assumption log 8). -/
def takeException (x : Exc) (code : Option Half) (after : State) : Outcome :=
  match after.params.excModel, mode after with
  | .vectored, .realAddress => deliver (Exc.vector x) after
  | _, _ => .fault (.exception x code after)

/-- An outcome with its exception taken, if it is one. -/
def settle (o : Outcome) : Outcome :=
  match o with
  | .fault (.exception x code after) => takeException x code after
  | o => o

end Sys2Proof.Machine
end

