-- ==== Sys2Proof/Machine/Operands.lean ====
section
/-! DEFINITION. Operand forms: effective addresses (30_encoding.md R76 to R79, R82) and the reads and writes of `r/m`
operands (40_mov.md R100). -/

namespace Sys2Proof.Machine

/-- The value of a 16-bit displacement, `disp8` sign-extended (30_encoding.md R78). -/
def disp16Value : Disp16 → Half
  | .none => 0
  | .d8 b => b.signExtend 16
  | .d16 h => h

/-- The value of a 32-bit displacement, `disp8` sign-extended (30_encoding.md R76). -/
def disp32Value : Disp32 → Word
  | .none => 0
  | .d8 b => b.signExtend 32
  | .d32 w => w

/-- The base sum of a 16-bit address (30_encoding.md R78). -/
def base16Value (s : State) : Base16 → Half
  | .bxSi => readR16 s .ebx + readR16 s .esi
  | .bxDi => readR16 s .ebx + readR16 s .edi
  | .bpSi => readR16 s .ebp + readR16 s .esi
  | .bpDi => readR16 s .ebp + readR16 s .edi
  | .si => readR16 s .esi
  | .di => readR16 s .edi
  | .bp => readR16 s .ebp
  | .bx => readR16 s .ebx

/-- The default segment of a 16-bit base (30_encoding.md R78). -/
def base16Segment : Base16 → SegReg
  | .bpSi | .bpDi | .bp => .ss
  | .bxSi | .bxDi | .si | .di | .bx => .ds

/-- The shift that a scale stands for (30_encoding.md R77). -/
def scaleShift : Scale → Nat
  | .x1 => 0
  | .x2 => 1
  | .x4 => 2
  | .x8 => 3

/-- The index part of a SIB address (30_encoding.md R77). -/
def sibIndexValue (s : State) : SibIndex → Word
  | .none => 0
  | .scaled sc r => readR32 s r <<< scaleShift sc

/-- The default segment of a 32-bit base: SS for ESP and EBP (30_encoding.md R76, R77). -/
def base32Segment : Reg → SegReg
  | .esp | .ebp => .ss
  | .eax | .ecx | .edx | .ebx | .esi | .edi => .ds

/-- The offset of an address: modulo 2^16 and zero-extended, or modulo 2^32 (30_encoding.md R76 to R78). -/
def effectiveAddr (s : State) : Addr → Word
  | .a16 (.based b d) => (base16Value s b + disp16Value d).setWidth 32
  | .a16 (.direct h) => h.setWidth 32
  | .a32 (.based b d) => readR32 s b + disp32Value d
  | .a32 (.direct w) => w
  | .a32 (.sib i b d) => readR32 s b + sibIndexValue s i + disp32Value d
  | .a32 (.sibNoBase i w) => w + sibIndexValue s i

/-- The default segment of an address (30_encoding.md R76 to R78). -/
def defaultSegment : Addr → SegReg
  | .a16 (.based b _) => base16Segment b
  | .a16 (.direct _) => .ds
  | .a32 (.based b _) => base32Segment b
  | .a32 (.direct _) => .ds
  | .a32 (.sib _ b _) => base32Segment b
  | .a32 (.sibNoBase _ _) => .ds

/-- The segment of a memory operand: the override, or the default (30_encoding.md R79). -/
def operandSegment (m : MemOperand) : SegReg := m.seg.getD (defaultSegment m.addr)

/-- The offset of an `moffs` operand, zero-extended (30_encoding.md R82, 40_mov.md R109). -/
def moffsOffset : Moffs → Word
  | .o16 h => h.setWidth 32
  | .o32 w => w

/-- The segment of an `moffs` operand: DS unless overridden (30_encoding.md R79). -/
def moffsSegment (seg : Option SegReg) : SegReg := seg.getD .ds

/-! ### Memory operands at a width (20_memory.md R41, R53) -/

/-- Read a byte operand. -/
def readMem8 (r : SegReg) (off : Word) (s : State) : Res Byte :=
  (readSeg r off 1 s).andThen fun bs s => .ok (leValue 8 bs) s

/-- Read a word operand. -/
def readMem16 (r : SegReg) (off : Word) (s : State) : Res Half :=
  (readSeg r off 2 s).andThen fun bs s => .ok (leValue 16 bs) s

/-- Read a doubleword operand. -/
def readMem32 (r : SegReg) (off : Word) (s : State) : Res Word :=
  (readSeg r off 4 s).andThen fun bs s => .ok (leValue 32 bs) s

/-- Write a byte operand. -/
def writeMem8 (r : SegReg) (off : Word) (v : Byte) (s : State) : Res Unit := writeSeg r off (leBytes 1 v) s

/-- Write a word operand. -/
def writeMem16 (r : SegReg) (off : Word) (v : Half) (s : State) : Res Unit := writeSeg r off (leBytes 2 v) s

/-- Write a doubleword operand. -/
def writeMem32 (r : SegReg) (off : Word) (v : Word) (s : State) : Res Unit := writeSeg r off (leBytes 4 v) s

/-! ### `r/m` operands: `ReadRM` and `WriteRM` (40_mov.md R100) -/

/-- `ReadRM(8)`. -/
def readRm8 (x : Rm Reg8) (s : State) : Res Byte :=
  match x with
  | .reg r => .ok (readR8 s r) s
  | .mem m => readMem8 (operandSegment m) (effectiveAddr s m.addr) s

/-- `ReadRM(16)`. -/
def readRm16 (x : Rm Reg) (s : State) : Res Half :=
  match x with
  | .reg r => .ok (readR16 s r) s
  | .mem m => readMem16 (operandSegment m) (effectiveAddr s m.addr) s

/-- `ReadRM(32)`. -/
def readRm32 (x : Rm Reg) (s : State) : Res Word :=
  match x with
  | .reg r => .ok (readR32 s r) s
  | .mem m => readMem32 (operandSegment m) (effectiveAddr s m.addr) s

/-- `WriteRM(8, v)`. -/
def writeRm8 (x : Rm Reg8) (v : Byte) (s : State) : Res Unit :=
  match x with
  | .reg r => .ok () (writeR8 r v s)
  | .mem m => writeMem8 (operandSegment m) (effectiveAddr s m.addr) v s

/-- `WriteRM(16, v)`. -/
def writeRm16 (x : Rm Reg) (v : Half) (s : State) : Res Unit :=
  match x with
  | .reg r => .ok () (writeR16 r v s)
  | .mem m => writeMem16 (operandSegment m) (effectiveAddr s m.addr) v s

/-- `WriteRM(32, v)`. -/
def writeRm32 (x : Rm Reg) (v : Word) (s : State) : Res Unit :=
  match x with
  | .reg r => .ok () (writeR32 r v s)
  | .mem m => writeMem32 (operandSegment m) (effectiveAddr s m.addr) v s

end Sys2Proof.Machine
end

