-- ==== Sys2Proof/Machine/Segment.lean ====
section
/-! DEFINITION. Loading a segment register: selectors and descriptors (20_memory.md R60 to R62) and the three ways a load
goes (40_mov.md R121 to R125). -/

namespace Sys2Proof.Machine

/-! ### Selectors and descriptors -/

/-- RPL: bits 1:0 of a selector (20_memory.md R61). -/
def selectorRpl (sel : Half) : Nat := (sel.extractLsb' 0 2).toNat

/-- TI: bit 2 of a selector, 1 for the LDT (20_memory.md R61). -/
def selectorTi (sel : Half) : Bool := sel.getLsbD 2

/-- The index: bits 15:3 of a selector (20_memory.md R61). -/
def selectorIndex (sel : Half) : Nat := (sel.extractLsb' 3 13).toNat

/-- A null selector: 0000H to 0003H (20_memory.md R61, 95 E2). -/
def selectorNull (sel : Half) : Bool := decide (sel.extractLsb' 2 14 = 0#14)

/-- The error code `selector`: RPL bits cleared (60_exceptions.md R213, 92 D21). -/
def selectorCode (sel : Half) : Half := sel &&& 0xFFFC#16

/-- The base of the table a selector names (20_memory.md R62). -/
def tableBase (s : State) (sel : Half) : Word := if selectorTi sel then s.sys.ldtr.base else s.sys.gdtr.base

/-- The limit of the table a selector names (20_memory.md R62). -/
def tableLimit (s : State) (sel : Half) : Nat :=
  if selectorTi sel then s.sys.ldtr.limit.toNat else s.sys.gdtr.limit.toNat

/-- The linear address of the descriptor a selector names (20_memory.md R61). -/
def descriptorAddr (s : State) (sel : Half) : Word := tableBase s sel + BitVec.ofNat 32 (8 * selectorIndex sel)

/-- `FetchDescriptor(sel)`: 8 bytes, read at supervisor level (20_memory.md R62). -/
def fetchDescriptor (sel : Half) (s : State) : Res (BitVec 64) :=
  if selectorTi sel && !s.sys.ldtr.valid then raise .gp (some (selectorCode sel)) s
  else if tableLimit s sel < 8 * selectorIndex sel + 7 then raise .gp (some (selectorCode sel)) s
  else (readLinear (descriptorAddr s sel) 8 true s).andThen fun bs s => .ok (leValue 64 bs) s

/-- The accessed bit of a descriptor is set in memory if it is clear (20_memory.md R62 `MarkAccessed`). -/
def markAccessed (sel : Half) (d : BitVec 64) (s : State) : Res Unit :=
  if d.getLsbD 40 then .ok () s
  else writeLinear (descriptorAddr s sel + 5) [d.extractLsb' 40 8 ||| 0x01#8] true s

/-- P, the present bit (20_memory.md R60). -/
def descriptorPresent (d : BitVec 64) : Bool := d.getLsbD 47

/-- DPL (20_memory.md R60). -/
def descriptorDpl (d : BitVec 64) : Nat := (d.extractLsb' 45 2).toNat

/-- A data segment: S = 1, E = 0 (20_memory.md R60). -/
def descriptorIsData (d : BitVec 64) : Bool := d.getLsbD 44 && !d.getLsbD 43

/-- A code segment: S = 1, E = 1 (20_memory.md R60). -/
def descriptorIsCode (d : BitVec 64) : Bool := d.getLsbD 44 && d.getLsbD 43

/-- A writable data segment: S = 1, E = 0, W = 1 (20_memory.md R60). -/
def descriptorWritableData (d : BitVec 64) : Bool := descriptorIsData d && d.getLsbD 41

/-- A data segment or a readable code segment (20_memory.md R60). -/
def descriptorDataOrReadable (d : BitVec 64) : Bool := descriptorIsData d || (descriptorIsCode d && d.getLsbD 41)

/-- A data segment or a nonconforming code segment (20_memory.md R60). -/
def descriptorDataOrNonconforming (d : BitVec 64) : Bool :=
  descriptorIsData d || (descriptorIsCode d && !d.getLsbD 42)

/-- base[31:24] ## base[23:0] (20_memory.md R60). -/
def descriptorBase (d : BitVec 64) : Word := d.extractLsb' 56 8 ++ d.extractLsb' 16 24

/-- limit[19:0], scaled by granularity (20_memory.md R60). -/
def descriptorLimit (d : BitVec 64) : Word :=
  let raw : BitVec 20 := d.extractLsb' 48 4 ++ d.extractLsb' 0 16
  if d.getLsbD 55 then raw ++ 0xFFF#12 else raw.setWidth 32

/-- The access rights held with a loaded segment register (20_memory.md R60). The accessed bit is 1, for the load sets it
in the descriptor (R60 bit 0, R62; assumption log 5). -/
def descriptorRights (d : BitVec 64) : AccessRights where
  present := descriptorPresent d
  dpl := d.extractLsb' 45 2
  isCode := descriptorIsCode d
  writable := descriptorWritableData d
  readable := descriptorIsCode d && d.getLsbD 41
  conforming := descriptorIsCode d && d.getLsbD 42
  expandDown := descriptorIsData d && d.getLsbD 42
  big := d.getLsbD 54
  accessed := true

/-- A segment register loaded with a selector and its descriptor (40_mov.md R122, R123). -/
def loadedSegment (sel : Half) (d : BitVec 64) : Segment where
  sel := sel
  valid := true
  base := descriptorBase d
  limit := descriptorLimit d
  ar := descriptorRights d

/-! ### The checks of the listing -/

/-- The first check of the SS listing that a descriptor fails, after the null and the limit check (40_mov.md R122). -/
def stackLoadFault (s : State) (sel : Half) (d : BitVec 64) : Option Exc :=
  if selectorRpl sel ≠ cpl s then some .gp
  else if !descriptorWritableData d then some .gp
  else if descriptorDpl d ≠ cpl s then some .gp
  else if !descriptorPresent d then some .ss
  else none

/-- The first check of the DS, ES, FS, GS listing that a descriptor fails, after the limit check (40_mov.md R123,
90 C6). -/
def dataLoadFault (s : State) (sel : Half) (d : BitVec 64) : Option Exc :=
  if !descriptorDataOrReadable d then some .gp
  else if descriptorDataOrNonconforming d && !(decide (selectorRpl sel ≤ descriptorDpl d) && decide (cpl s ≤ descriptorDpl d))
  then some .gp
  else if !descriptorPresent d then some .np
  else none

/-- Fetch the descriptor, run a listing's checks, mark it accessed, and load the register (40_mov.md R122, R123). -/
def loadChecked (check : State → Half → BitVec 64 → Option Exc) (r : SegReg) (sel : Half) (s : State) : Res Unit :=
  (fetchDescriptor sel s).andThen fun d s =>
    match check s sel d with
    | some x => raise x (some (selectorCode sel)) s
    | none => (markAccessed sel d s).andThen fun _ s => .ok () (writeSreg r (loadedSegment sel d) s)

/-- Protected-mode load of SS (40_mov.md R122). -/
def loadStackSegment (sel : Half) (s : State) : Res Unit :=
  if selectorNull sel then raise .gp (some 0) s else loadChecked stackLoadFault .ss sel s

/-- Protected-mode load of DS, ES, FS or GS: a null selector clears the valid bit (40_mov.md R123, R124, 90 C3). -/
def loadDataSegment (r : SegReg) (sel : Half) (s : State) : Res Unit :=
  if selectorNull sel then .ok () (writeSreg r { readSreg s r with sel := sel, valid := false } s)
  else loadChecked dataLoadFault r sel s

/-- Present, writable, expand-up data of DPL 3: the rights of a virtual-8086 segment (40_mov.md R125; big and accessed: log 31). -/
def virtualRights : AccessRights where
  present := true
  dpl := 3
  isCode := false
  writable := true
  readable := false
  conforming := false
  expandDown := false
  big := false
  accessed := false

/-- The load in real-address mode: limit and rights keep what they held (40_mov.md R125). -/
def loadRealSegment (r : SegReg) (sel : Half) (s : State) : State :=
  writeSreg r { readSreg s r with sel := sel, base := sel.setWidth 32 <<< 4, valid := true } s

/-- The load in virtual-8086 mode (40_mov.md R125). -/
def loadVirtualSegment (r : SegReg) (sel : Half) (s : State) : State :=
  writeSreg r { sel := sel, valid := true, base := sel.setWidth 32 <<< 4, limit := 0xFFFF#32, ar := virtualRights } s

/-- `LoadSreg(n, sel)` (40_mov.md R121). -/
def loadSreg (r : SegReg) (sel : Half) (s : State) : Res Unit :=
  match mode s with
  | .realAddress => .ok () (loadRealSegment r sel s)
  | .virtual8086 => .ok () (loadVirtualSegment r sel s)
  | .protectedMode => if r = .ss then loadStackSegment sel s else loadDataSegment r sel s

end Sys2Proof.Machine
end

