-- ==== Sys2Proof/Machine/MovData.lean ====
section
/-! DEFINITION. MOV -- Move Data: the twenty forms of 40_mov.md. -/

namespace Sys2Proof.Machine

/-! ### Register and memory forms with a ModRM byte -/

/-- `MOV r/m8,r8` (40_mov.md R101). -/
def execMovRm8R8 (dst : Rm Reg8) (src : Reg8) (s : State) : Outcome := (writeRm8 dst (readR8 s src) s).outcome

/-- `MOV r/m16,r16` (40_mov.md R102). -/
def execMovRm16R16 (dst : Rm Reg) (src : Reg) (s : State) : Outcome := (writeRm16 dst (readR16 s src) s).outcome

/-- `MOV r/m32,r32` (40_mov.md R103). -/
def execMovRm32R32 (dst : Rm Reg) (src : Reg) (s : State) : Outcome := (writeRm32 dst (readR32 s src) s).outcome

/-- `MOV r8,r/m8` (40_mov.md R104). -/
def execMovR8Rm8 (dst : Reg8) (src : Rm Reg8) (s : State) : Outcome :=
  ((readRm8 src s).andThen fun v s => .ok () (writeR8 dst v s)).outcome

/-- `MOV r16,r/m16` (40_mov.md R105). -/
def execMovR16Rm16 (dst : Reg) (src : Rm Reg) (s : State) : Outcome :=
  ((readRm16 src s).andThen fun v s => .ok () (writeR16 dst v s)).outcome

/-- `MOV r32,r/m32` (40_mov.md R106). -/
def execMovR32Rm32 (dst : Reg) (src : Rm Reg) (s : State) : Outcome :=
  ((readRm32 src s).andThen fun v s => .ok () (writeR32 dst v s)).outcome

/-! ### Segment-register forms -/

/-- The store of a selector: a memory destination takes 2 bytes; a register takes 16 bits, or 32 of which the upper half
is undefined (40_mov.md R107, 92 D24). -/
def storeSelector (osz : Size) (dst : Rm Reg) (sel : Half) (s : State) : Res Unit :=
  match dst, osz with
  | .mem m, _ => writeMem16 (operandSegment m) (effectiveAddr s m.addr) sel s
  | .reg r, .s16 => .ok () (writeR16 r sel s)
  | .reg r, .s32 => .ok () (writeR32 r ((drawn s).extractLsb' 0 16 ++ sel) (advanceDraw s))

/-- `MOV r/m16,Sreg` (40_mov.md R107; the numbers 110 and 111 are #UD, R130). -/
def execMovRm16Sreg (osz : Size) (dst : Rm Reg) (src : SregField) (s : State) : Outcome :=
  match src with
  | .named r => (storeSelector osz dst (readSreg s r).sel s).outcome
  | .reserved6 | .reserved7 => (raise (α := Unit) .ud none s).outcome

/-- The interrupt inhibit that a MOV into SS leaves (40_mov.md R126, 10_state.md R25). -/
def inhibitAfter (r : SegReg) (s : State) : State := if r = .ss then { s with inhibit := true } else s

/-- Load a segment register from an `r/m16` operand (40_mov.md R108). -/
def moveToSreg (r : SegReg) (src : Rm Reg) (s : State) : Res Unit :=
  (readRm16 src s).andThen fun sel s => (loadSreg r sel s).andThen fun _ s => .ok () (inhibitAfter r s)

/-- `MOV Sreg,r/m16` (40_mov.md R108; CS and the numbers 110 and 111 are #UD, R130). -/
def execMovSregRm16 (dst : SregField) (src : Rm Reg) (s : State) : Outcome :=
  match dst with
  | .named .cs | .reserved6 | .reserved7 => (raise (α := Unit) .ud none s).outcome
  | .named r => (moveToSreg r src s).outcome

/-! ### Accumulator and memory-offset forms -/

/-- `MOV AL,moffs8` (40_mov.md R109). -/
def execMovAlMoffs8 (seg : Option SegReg) (off : Moffs) (s : State) : Outcome :=
  ((readMem8 (moffsSegment seg) (moffsOffset off) s).andThen fun v s => .ok () (writeR8 .al v s)).outcome

/-- `MOV AX,moffs16` (40_mov.md R110). -/
def execMovAxMoffs16 (seg : Option SegReg) (off : Moffs) (s : State) : Outcome :=
  ((readMem16 (moffsSegment seg) (moffsOffset off) s).andThen fun v s => .ok () (writeR16 .eax v s)).outcome

/-- `MOV EAX,moffs32` (40_mov.md R111). -/
def execMovEaxMoffs32 (seg : Option SegReg) (off : Moffs) (s : State) : Outcome :=
  ((readMem32 (moffsSegment seg) (moffsOffset off) s).andThen fun v s => .ok () (writeR32 .eax v s)).outcome

/-- `MOV moffs8,AL` (40_mov.md R112). -/
def execMovMoffs8Al (seg : Option SegReg) (off : Moffs) (s : State) : Outcome :=
  (writeMem8 (moffsSegment seg) (moffsOffset off) (readR8 s .al) s).outcome

/-- `MOV moffs16,AX` (40_mov.md R113). -/
def execMovMoffs16Ax (seg : Option SegReg) (off : Moffs) (s : State) : Outcome :=
  (writeMem16 (moffsSegment seg) (moffsOffset off) (readR16 s .eax) s).outcome

/-- `MOV moffs32,EAX` (40_mov.md R114). -/
def execMovMoffs32Eax (seg : Option SegReg) (off : Moffs) (s : State) : Outcome :=
  (writeMem32 (moffsSegment seg) (moffsOffset off) (readR32 s .eax) s).outcome

/-! ### Immediate forms -/

/-- `MOV reg8,imm8` (40_mov.md R115). -/
def execMovReg8Imm8 (dst : Reg8) (imm : Byte) (s : State) : Outcome := .next (writeR8 dst imm s)

/-- `MOV reg16,imm16` (40_mov.md R116). -/
def execMovReg16Imm16 (dst : Reg) (imm : Half) (s : State) : Outcome := .next (writeR16 dst imm s)

/-- `MOV reg32,imm32` (40_mov.md R117). -/
def execMovReg32Imm32 (dst : Reg) (imm : Word) (s : State) : Outcome := .next (writeR32 dst imm s)

/-- `MOV r/m8,imm8` (40_mov.md R118). -/
def execMovRm8Imm8 (dst : Rm Reg8) (imm : Byte) (s : State) : Outcome := (writeRm8 dst imm s).outcome

/-- `MOV r/m16,imm16` (40_mov.md R119). -/
def execMovRm16Imm16 (dst : Rm Reg) (imm : Half) (s : State) : Outcome := (writeRm16 dst imm s).outcome

/-- `MOV r/m32,imm32` (40_mov.md R120). -/
def execMovRm32Imm32 (dst : Rm Reg) (imm : Word) (s : State) : Outcome := (writeRm32 dst imm s).outcome

end Sys2Proof.Machine
end

