-- ==== Sys2Proof/Machine/MovSpecial.lean ====
section
/-! DEFINITION. MOV -- Move to/from Special Registers: the eight forms of 41_mov_special.md. -/

namespace Sys2Proof.Machine

/-- The special-register moves execute in real-address mode and at CPL 0 of protected mode only (41_mov_special.md R149). -/
def mayMoveSpecial (s : State) : Bool :=
  match mode s with
  | .realAddress => true
  | .protectedMode => decide (cpl s = 0)
  | .virtual8086 => false

/-- The common sequence: privilege, the move, six undefined flags (41_mov_special.md R140). While a store into a live page
table waits for a write of CR3, any other special-register instruction is refused (20_memory.md R59; assumption log 17).
DESIGN CHOICE: that refusal comes before one of the move itself (R153, R154, R155), where the spec gives no order (log 17). -/
def specialMove (writesCr3 : Bool) (move : State → Res Unit) (s : State) : Outcome :=
  if !mayMoveSpecial s then (raise (α := Unit) .gp (some 0) s).outcome
  else if s.staleTables && !writesCr3 then .refused .livePageTable
  else ((move s).andThen fun _ s => .ok () (undefineFlags s specialMoveFlags)).outcome

/-- The bits of `v` that `mask` keeps, and free ones elsewhere. -/
def withFreeBits (v mask free : Word) : Word := (v &&& mask) ||| (free &&& ~~~mask)

/-- The bits of CR0 that are not reserved: 31 and 4:0 (10_state.md R21). -/
def cr0Defined : Word := 0x8000001F#32

/-- The bits of CR3 that are not reserved: 31:12 (10_state.md R21). -/
def cr3Defined : Word := 0xFFFFF000#32

/-- Read a control register into a general register; reserved bits of CR0 and CR3 read as a draw (41_mov_special.md
R141, 93 U10). -/
def readControl (dst : Reg) (src : CtlReg) (s : State) : State :=
  match src with
  | .cr0 => writeR32 dst (withFreeBits s.sys.cr0 cr0Defined (drawn s)) (advanceDraw s)
  | .cr2 => writeR32 dst s.sys.cr2 s
  | .cr3 => writeR32 dst (withFreeBits s.sys.cr3 cr3Defined (drawn s)) (advanceDraw s)

/-- PE and PG keep their values (41_mov_special.md R153). -/
def keepsMode (old new : Word) : Bool :=
  decide (old.getLsbD 0 = new.getLsbD 0) && decide (old.getLsbD 31 = new.getLsbD 31)

/-- Write a control register (41_mov_special.md R142, R153): a change of PE or PG is refused, unless the model's own
switch admits it (assumption log 13); CR3 keeps bits 31:12, and its write ends the wait of 20_memory.md R59. -/
def writeControl (dst : CtlReg) (v : Word) (s : State) : Res Unit :=
  match dst with
  | .cr0 =>
    if keepsMode s.sys.cr0 v || s.params.admitModeSwitch then .ok () { s with sys := { s.sys with cr0 := v } }
    else .refused .modeSwitch
  | .cr2 => .ok () { s with sys := { s.sys with cr2 := v } }
  | .cr3 => .ok () { s with sys := { s.sys with cr3 := v &&& cr3Defined }, staleTables := false }

/-- DR0 to DR3 (10_state.md R22). -/
def readBreak (s : State) : BreakReg → Word
  | .dr0 => s.sys.dr0 | .dr1 => s.sys.dr1 | .dr2 => s.sys.dr2 | .dr3 => s.sys.dr3

/-- DR0 to DR3 are plain storage (41_mov_special.md R145, R154). -/
def writeBreak (r : BreakReg) (v : Word) (s : State) : State :=
  match r with
  | .dr0 => { s with sys := { s.sys with dr0 := v } }
  | .dr1 => { s with sys := { s.sys with dr1 := v } }
  | .dr2 => { s with sys := { s.sys with dr2 := v } }
  | .dr3 => { s with sys := { s.sys with dr3 := v } }

/-- DR6 and DR7 (10_state.md R22). -/
def readDebug (s : State) : DebugReg → Word
  | .dr6 => s.sys.dr6 | .dr7 => s.sys.dr7

/-- A DR7 value with a breakpoint enable (bits 7:0) or GD (bit 13) set (41_mov_special.md R154). -/
def armsBreakpoint (v : Word) : Bool := decide (v &&& 0x000020FF#32 ≠ 0#32)

/-- Write DR6 or DR7 (41_mov_special.md R146): an arming write of DR7 is refused (R154), unless the model's own switch
admits it (assumption log 14). -/
def writeDebug (r : DebugReg) (v : Word) (s : State) : Res Unit :=
  match r with
  | .dr6 => .ok () { s with sys := { s.sys with dr6 := v } }
  | .dr7 =>
    if armsBreakpoint v && !s.params.admitBreakpoints then .refused .breakpointArming
    else .ok () { s with sys := { s.sys with dr7 := v } }

/-- The value that a read of TR6 or TR7 yields: unconstrained, whatever was written (41_mov_special.md R147, R155). -/
def readTest (dst : Reg) (s : State) : State := writeR32 dst (drawn s) (advanceDraw s)

/-- Write TR6 or TR7: refused (41_mov_special.md R155, 92 D17), unless the model's own switch admits D00's `DEST <- SRC`
(R148; assumption log 15). -/
def writeTest (r : TestReg) (v : Word) (s : State) : Res Unit :=
  if s.params.admitTrWrite then
    match r with
    | .tr6 => .ok () { s with sys := { s.sys with tr6 := v } }
    | .tr7 => .ok () { s with sys := { s.sys with tr7 := v } }
  else .refused .testRegisterWrite

/-- `MOV r32,CR0/CR2/CR3` (41_mov_special.md R141). -/
def execMovR32Cr (dst : Reg) (src : CtlReg) (s : State) : Outcome :=
  specialMove false (fun s => .ok () (readControl dst src s)) s

/-- `MOV CR0/CR2/CR3,r32` (41_mov_special.md R142). -/
def execMovCrR32 (dst : CtlReg) (src : Reg) (s : State) : Outcome :=
  specialMove (decide (dst = .cr3)) (fun s => writeControl dst (readR32 s src) s) s

/-- `MOV r32,DR0 -- 3` (41_mov_special.md R143). -/
def execMovR32Dr03 (dst : Reg) (src : BreakReg) (s : State) : Outcome :=
  specialMove false (fun s => .ok () (writeR32 dst (readBreak s src) s)) s

/-- `MOV r32,DR6/DR7` (41_mov_special.md R144). -/
def execMovR32Dr67 (dst : Reg) (src : DebugReg) (s : State) : Outcome :=
  specialMove false (fun s => .ok () (writeR32 dst (readDebug s src) s)) s

/-- `MOV DR0 -- 3,r32` (41_mov_special.md R145). -/
def execMovDr03R32 (dst : BreakReg) (src : Reg) (s : State) : Outcome :=
  specialMove false (fun s => .ok () (writeBreak dst (readR32 s src) s)) s

/-- `MOV DR6/DR7,r32` (41_mov_special.md R146). -/
def execMovDr67R32 (dst : DebugReg) (src : Reg) (s : State) : Outcome :=
  specialMove false (fun s => writeDebug dst (readR32 s src) s) s

/-- `MOV r32,TR6/TR7` (41_mov_special.md R147): both registers read alike. -/
def execMovR32Tr (dst : Reg) (_src : TestReg) (s : State) : Outcome :=
  specialMove false (fun s => .ok () (readTest dst s)) s

/-- `MOV TR6/TR7,r32` (41_mov_special.md R148). -/
def execMovTrR32 (dst : TestReg) (src : Reg) (s : State) : Outcome :=
  specialMove false (fun s => writeTest dst (readR32 s src) s) s

end Sys2Proof.Machine
end

