-- ==== Sys2Proof/Machine/Movs.lean ====
section
/-! DEFINITION. MOVS, MOVSB, MOVSW, MOVSD and REP before them (42_movs.md). -/

namespace Sys2Proof.Machine

/-- An index or count register by AddressSize, zero-extended (42_movs.md R160, R167). -/
def stringReg (s : State) (asz : Size) (r : Reg) : Word :=
  match asz with
  | .s16 => (readR16 s r).setWidth 32
  | .s32 => readR32 s r

/-- Write an index or count register by AddressSize; with 16 bits the upper half is kept (42_movs.md R160, R167). -/
def setStringReg (asz : Size) (r : Reg) (v : Word) (s : State) : State :=
  match asz with
  | .s16 => writeR16 r (v.extractLsb' 0 16) s
  | .s32 => writeR32 r v s

/-- `index + IncDec`: the width forwards if DF is 0, backwards if it is 1 (42_movs.md R160, R168). -/
def stepIndex (df : Bool) (w : Nat) (v : Word) : Word :=
  if df then v - BitVec.ofNat 32 w else v + BitVec.ofNat 32 w

/-- Both indexes are advanced (42_movs.md R160). -/
def stepIndexes (asz : Size) (w : Nat) (s : State) : State :=
  setStringReg asz .edi (stepIndex (getFlag s .df) w (stringReg s asz .edi))
    (setStringReg asz .esi (stepIndex (getFlag s .df) w (stringReg s asz .esi)) s)

/-- One element: read whole from the source segment, written whole through ES, then the indexes (42_movs.md R160, R169,
R171). -/
def moveElement (w : Nat) (asz : Size) (src : SegReg) (s : State) : Res Unit :=
  (readSeg src (stringReg s asz .esi) w s).andThen fun bs s =>
    (writeSeg .es (stringReg s asz .edi) bs s).andThen fun _ s => .ok () (stepIndexes asz w s)

/-- One element under REP: nothing if the count is 0, otherwise the element and a count one less (42_movs.md R167). -/
def repElement (w : Nat) (asz : Size) (src : SegReg) (s : State) : Res Unit :=
  if stringReg s asz .ecx = 0#32 then .ok () s
  else (moveElement w asz src s).andThen fun _ s => .ok () (setStringReg asz .ecx (stringReg s asz .ecx - 1) s)

/-- A MOVS of width `w`, one iteration of it under REP (42_movs.md R160, R167). -/
def moveString (w : Nat) (rep : Bool) (asz : Size) (src : SegReg) (s : State) : Res Unit :=
  if rep then repElement w asz src s else moveElement w asz src s

/-- `MOVS m8,m8` (42_movs.md R161). -/
def execMovsM8M8 (rep : Bool) (asz : Size) (src : SegReg) (s : State) : Outcome := (moveString 1 rep asz src s).outcome

/-- `MOVS m16,m16` (42_movs.md R162). -/
def execMovsM16M16 (rep : Bool) (asz : Size) (src : SegReg) (s : State) : Outcome := (moveString 2 rep asz src s).outcome

/-- `MOVS m32,m32` (42_movs.md R163). -/
def execMovsM32M32 (rep : Bool) (asz : Size) (src : SegReg) (s : State) : Outcome := (moveString 4 rep asz src s).outcome

/-- `MOVSB` (42_movs.md R164). -/
def execMovsb (rep : Bool) (asz : Size) (s : State) : Outcome := (moveString 1 rep asz .ds s).outcome

/-- `MOVSW` (42_movs.md R165). -/
def execMovsw (rep : Bool) (asz : Size) (s : State) : Outcome := (moveString 2 rep asz .ds s).outcome

/-- `MOVSD` (42_movs.md R166). -/
def execMovsd (rep : Bool) (asz : Size) (s : State) : Outcome := (moveString 4 rep asz .ds s).outcome

/-- The AddressSize of a REP-prefixed MOVS. -/
def repAddressSize : Instr → Option Size
  | .movsM8M8 rep asz _ => if rep then some asz else none
  | .movsM16M16 rep asz _ => if rep then some asz else none
  | .movsM32M32 rep asz _ => if rep then some asz else none
  | .movsb rep asz => if rep then some asz else none
  | .movsw rep asz => if rep then some asz else none
  | .movsd rep asz => if rep then some asz else none
  | _ => none

/-- The instruction is a REP MOVS whose count is not exhausted in the state it leaves (42_movs.md R167, 10_state.md R15). -/
def repUnfinished (i : Instr) (t : State) : Bool :=
  match repAddressSize i with
  | some asz => decide (stringReg t asz .ecx ≠ 0#32)
  | none => false

end Sys2Proof.Machine
end

