-- ==== Sys2Proof/Machine/Movx.lean ====
section
/-! DEFINITION. MOVSX (43_movsx.md) and MOVZX (44_movzx.md). -/

namespace Sys2Proof.Machine

/-- `MOVSX r16,r/m8` (43_movsx.md R181). -/
def execMovsxR16Rm8 (dst : Reg) (src : Rm Reg8) (s : State) : Outcome :=
  ((readRm8 src s).andThen fun v s => .ok () (writeR16 dst (v.signExtend 16) s)).outcome

/-- `MOVSX r32,r/m8` (43_movsx.md R182). -/
def execMovsxR32Rm8 (dst : Reg) (src : Rm Reg8) (s : State) : Outcome :=
  ((readRm8 src s).andThen fun v s => .ok () (writeR32 dst (v.signExtend 32) s)).outcome

/-- `MOVSX r32,r/m16` (43_movsx.md R183); with OperandSize 16, which ADMIT_MOVX_W16 admits, a 16-bit move (R184). -/
def execMovsxR32Rm16 (osz : Size) (dst : Reg) (src : Rm Reg) (s : State) : Outcome :=
  ((readRm16 src s).andThen fun v s =>
    .ok () (match osz with
      | .s16 => writeR16 dst v s
      | .s32 => writeR32 dst (v.signExtend 32) s)).outcome

/-- `MOVZX r16,r/m8` (44_movzx.md R191). -/
def execMovzxR16Rm8 (dst : Reg) (src : Rm Reg8) (s : State) : Outcome :=
  ((readRm8 src s).andThen fun v s => .ok () (writeR16 dst (v.setWidth 16) s)).outcome

/-- `MOVZX r32,r/m8` (44_movzx.md R192). -/
def execMovzxR32Rm8 (dst : Reg) (src : Rm Reg8) (s : State) : Outcome :=
  ((readRm8 src s).andThen fun v s => .ok () (writeR32 dst (v.setWidth 32) s)).outcome

/-- `MOVZX r32,r/m16` (44_movzx.md R193); with OperandSize 16, which ADMIT_MOVX_W16 admits, a 16-bit move (R194). -/
def execMovzxR32Rm16 (osz : Size) (dst : Reg) (src : Rm Reg) (s : State) : Outcome :=
  ((readRm16 src s).andThen fun v s =>
    .ok () (match osz with
      | .s16 => writeR16 dst v s
      | .s32 => writeR32 dst (v.setWidth 32) s)).outcome

end Sys2Proof.Machine
end

