-- ==== Sys2Proof/Machine/Mul.lean ====
section
/-! DEFINITION. MUL -- Unsigned Multiplication (45_mul.md). The product is computed on numbers and is exact (R206). -/

namespace Sys2Proof.Machine

/-- The exact product of two unsigned factors (45_mul.md R200, R206). -/
def product {w : Nat} (a b : BitVec w) : Nat := a.toNat * b.toNat

/-- CF and OF: the high half of a product of two `w`-bit factors is not 0 (45_mul.md R204). -/
def highNonzero (w p : Nat) : Bool := decide (p / 2 ^ w ≠ 0)

/-- `MUL AL,r/m8`: AX <- AL * r/m8 (45_mul.md R201). -/
def execMulAlRm8 (src : Rm Reg8) (s : State) : Outcome :=
  ((readRm8 src s).andThen fun v s =>
    let p := product (readR8 s .al) v
    .ok () (mulFlags (highNonzero 8 p) (writeR16 .eax (BitVec.ofNat 16 p) s))).outcome

/-- `MUL AX,r/m16`: DX:AX <- AX * r/m16 (45_mul.md R202). -/
def execMulAxRm16 (src : Rm Reg) (s : State) : Outcome :=
  ((readRm16 src s).andThen fun v s =>
    let p := product (readR16 s .eax) v
    .ok () (mulFlags (highNonzero 16 p)
      (writeR16 .edx (BitVec.ofNat 16 (p / 2 ^ 16)) (writeR16 .eax (BitVec.ofNat 16 p) s)))).outcome

/-- `MUL EAX,r/m32`: EDX:EAX <- EAX * r/m32 (45_mul.md R203). -/
def execMulEaxRm32 (src : Rm Reg) (s : State) : Outcome :=
  ((readRm32 src s).andThen fun v s =>
    let p := product (readR32 s .eax) v
    .ok () (mulFlags (highNonzero 32 p)
      (writeR32 .edx (BitVec.ofNat 32 (p / 2 ^ 32)) (writeR32 .eax (BitVec.ofNat 32 p) s)))).outcome

end Sys2Proof.Machine
end

