-- ==== Sys2Proof/Machine/Dispatch.lean ====
section
/-! DEFINITION. One arm per instruction: the meaning it calls. -/

namespace Sys2Proof.Machine

/-- The effect of an instruction, without the advance of EIP, which the step adds (10_state.md R15). -/
def exec (i : Instr) (s : State) : Host.Outcome State Fault Refusal :=
  match i with
  | .movRm8R8 dst src => Sys2Proof.Machine.execMovRm8R8 dst src s
  | .movRm16R16 dst src => Sys2Proof.Machine.execMovRm16R16 dst src s
  | .movRm32R32 dst src => Sys2Proof.Machine.execMovRm32R32 dst src s
  | .movR8Rm8 dst src => Sys2Proof.Machine.execMovR8Rm8 dst src s
  | .movR16Rm16 dst src => Sys2Proof.Machine.execMovR16Rm16 dst src s
  | .movR32Rm32 dst src => Sys2Proof.Machine.execMovR32Rm32 dst src s
  | .movRm16Sreg osz dst src => Sys2Proof.Machine.execMovRm16Sreg osz dst src s
  | .movSregRm16 dst src => Sys2Proof.Machine.execMovSregRm16 dst src s
  | .movAlMoffs8 seg off => Sys2Proof.Machine.execMovAlMoffs8 seg off s
  | .movAxMoffs16 seg off => Sys2Proof.Machine.execMovAxMoffs16 seg off s
  | .movEaxMoffs32 seg off => Sys2Proof.Machine.execMovEaxMoffs32 seg off s
  | .movMoffs8Al seg off => Sys2Proof.Machine.execMovMoffs8Al seg off s
  | .movMoffs16Ax seg off => Sys2Proof.Machine.execMovMoffs16Ax seg off s
  | .movMoffs32Eax seg off => Sys2Proof.Machine.execMovMoffs32Eax seg off s
  | .movReg8Imm8 dst imm => Sys2Proof.Machine.execMovReg8Imm8 dst imm s
  | .movReg16Imm16 dst imm => Sys2Proof.Machine.execMovReg16Imm16 dst imm s
  | .movReg32Imm32 dst imm => Sys2Proof.Machine.execMovReg32Imm32 dst imm s
  | .movRm8Imm8 dst imm => Sys2Proof.Machine.execMovRm8Imm8 dst imm s
  | .movRm16Imm16 dst imm => Sys2Proof.Machine.execMovRm16Imm16 dst imm s
  | .movRm32Imm32 dst imm => Sys2Proof.Machine.execMovRm32Imm32 dst imm s
  | .movR32Cr dst src => Sys2Proof.Machine.execMovR32Cr dst src s
  | .movCrR32 dst src => Sys2Proof.Machine.execMovCrR32 dst src s
  | .movR32Dr03 dst src => Sys2Proof.Machine.execMovR32Dr03 dst src s
  | .movR32Dr67 dst src => Sys2Proof.Machine.execMovR32Dr67 dst src s
  | .movDr03R32 dst src => Sys2Proof.Machine.execMovDr03R32 dst src s
  | .movDr67R32 dst src => Sys2Proof.Machine.execMovDr67R32 dst src s
  | .movR32Tr dst src => Sys2Proof.Machine.execMovR32Tr dst src s
  | .movTrR32 dst src => Sys2Proof.Machine.execMovTrR32 dst src s
  | .movsM8M8 rep asz src => Sys2Proof.Machine.execMovsM8M8 rep asz src s
  | .movsM16M16 rep asz src => Sys2Proof.Machine.execMovsM16M16 rep asz src s
  | .movsM32M32 rep asz src => Sys2Proof.Machine.execMovsM32M32 rep asz src s
  | .movsb rep asz => Sys2Proof.Machine.execMovsb rep asz s
  | .movsw rep asz => Sys2Proof.Machine.execMovsw rep asz s
  | .movsd rep asz => Sys2Proof.Machine.execMovsd rep asz s
  | .movsxR16Rm8 dst src => Sys2Proof.Machine.execMovsxR16Rm8 dst src s
  | .movsxR32Rm8 dst src => Sys2Proof.Machine.execMovsxR32Rm8 dst src s
  | .movsxR32Rm16 osz dst src => Sys2Proof.Machine.execMovsxR32Rm16 osz dst src s
  | .movzxR16Rm8 dst src => Sys2Proof.Machine.execMovzxR16Rm8 dst src s
  | .movzxR32Rm8 dst src => Sys2Proof.Machine.execMovzxR32Rm8 dst src s
  | .movzxR32Rm16 osz dst src => Sys2Proof.Machine.execMovzxR32Rm16 osz dst src s
  | .mulAlRm8 src => Sys2Proof.Machine.execMulAlRm8 src s
  | .mulAxRm16 src => Sys2Proof.Machine.execMulAxRm16 src s
  | .mulEaxRm32 src => Sys2Proof.Machine.execMulEaxRm32 src s

end Sys2Proof.Machine
end

