-- ==== Sys2Proof/Machine/Fetch.lean ====
section
/-! DEFINITION. What stands around an instruction in a step: the boundary (60_exceptions.md R217, 70 R255), the fetch of
its bytes (20_memory.md R58, 30_encoding.md R87), and the advance of EIP (10_state.md R15). -/

namespace Sys2Proof.Machine

/-! ### The instruction boundary -/

/-- What the oracle announces at this boundary is added to what is pending (60_exceptions.md R217, R218). DESIGN CHOICE: at
most one NMI is held, so that one announced while another is pending merges with it; R217 and R218 do not say how many are
held (assumption log 10). -/
def latchArrival (q : Interrupts) : Interrupts :=
  match q.arrivals with
  | [] => q
  | a :: rest =>
    { q with
      arrivals := rest
      nmiPending := q.nmiPending || a.nmi
      intrPending := match a.intr with
        | some v => some v
        | none => q.intrPending }

/-- An NMI can be taken: pending, and none in service (60_exceptions.md R217). -/
def nmiDeliverable (s : State) : Bool := s.irq.nmiPending && !s.irq.nmiBlocked

/-- The INTR vector that can be taken: pending, and IF = 1 (60_exceptions.md R217). -/
def intrDeliverable (s : State) : Option Byte := if getFlag s .ie then s.irq.intrPending else none

/-- The interrupt that is delivered at this boundary, and the state with it no longer pending: none while the inhibit
holds (60_exceptions.md R218), NMI before INTR (R217). -/
def pendingVector (s : State) : Option (Nat × State) :=
  if s.inhibit then none
  else if nmiDeliverable s then some (2, { s with irq := { s.irq with nmiPending := false, nmiBlocked := true } })
  else match intrDeliverable s with
    | some v => some (v.toNat, { s with irq := { s.irq with intrPending := none } })
    | none => none

/-- The delivery of an interrupt: refused (60_exceptions.md R217), or with INTR_MODEL vectored, in real-address mode, the
entry that R215 outlines (assumption log 10). -/
def deliverInterrupt (intr : IntrModel) (vec : Nat) (s : State) : Outcome :=
  match intr, mode s with
  | .vectored, .realAddress => deliver vec s
  | _, _ => .refused .interruptDelivery

/-- What a boundary decides: the step is over, or an instruction runs in the state given. -/
inductive Boundary where
  | stop (o : Outcome)
  | run (s : State)

/-- The state at the boundary with the arrivals of this boundary pending; with `none_assumed` nothing ever arrives
(60_exceptions.md R217). -/
def atBoundary (s : State) : State :=
  match s.params.intrModel with
  | .noneAssumed => s
  | .refuseOnDelivery | .vectored => { s with irq := latchArrival s.irq }

/-- The interrupt that this boundary delivers, if any. -/
def interruptAt (s : State) : Option (Nat × State) :=
  match s.params.intrModel with
  | .noneAssumed => none
  | .refuseOnDelivery | .vectored => pendingVector (atBoundary s)

/-- TF, a DR7 enable or GD is set: the debug exception may be due, and the spec does not give it (60_exceptions.md R222). -/
def debugArmed (s : State) : Bool := getFlag s .tf || decide (s.sys.dr7 &&& 0x000020FF#32 ≠ 0#32)

/-- The boundary before an instruction: END_EIP (70 R255), a deliverable interrupt (60 R217), the requirement that no
debug exception is armed (60 R222); then the instruction starts, under the inhibit that the one before it left
(10_state.md R25). The order of the first two: assumption log 19. -/
def boundary (s : State) : Boundary :=
  if s.params.endEip = some s.eip then
    .stop (if s.staleTables then .refused .livePageTable else .fault (.endOfRun s))
  else match interruptAt s with
    | some (vec, t) => .stop (deliverInterrupt s.params.intrModel vec t)
    | none => if debugArmed s then .stop (.refused .debugArmed) else .run (atBoundary s)

/-! ### The fetch -/

/-- The exception of fetching a byte at an offset in CS: past the limit in protected mode, past FFFFH in the others
(20_memory.md R58, 10_state.md R15; assumption log 27). -/
def fetchFault (s : State) (off : Nat) : Option (Exc × Option Half) :=
  match mode s with
  | .protectedMode => if limitOk s.segs.cs off 1 then none else some (.gp, some 0)
  | .realAddress | .virtual8086 => if off ≤ 0xFFFF then none else some (.gp, int13Code s)

/-- The linear address of byte `i` of the instruction at CS:EIP (10_state.md R14). -/
def fetchAddr (s : State) (i : Nat) : Word := s.segs.cs.base + s.eip + BitVec.ofNat 32 i

/-- Fetch byte `i` of the instruction at CS:EIP (20_memory.md R58); outside PROGRAM_TEXT it is refused (92 D9). DESIGN
CHOICE: the limit is checked first, then PROGRAM_TEXT, then the translation and whether the byte is populated and written
(assumption log 18). -/
def fetchByte (i : Nat) (s : State) : Res Byte :=
  match fetchFault s (s.eip.toNat + i) with
  | some (x, code) => raise x code s
  | none =>
    if !inProgramText s (fetchAddr s i) then .refused .outsideProgramText
    else (translate (fetchAddr s i) false (userAccess s false) s).andThen fun x s => readPhysByte x.pa s

/-- The exception of an instruction longer than 15 bytes (30_encoding.md R87 step 7). -/
def lengthFault {α : Type} (s : State) : Res α :=
  match mode s with
  | .protectedMode => raise .gp (some 0) s
  | .realAddress | .virtual8086 => raise .gp (int13Code s) s

/-- Feed a decoder from memory, from byte `i` on; the answer comes with the number of bytes read (30_encoding.md R87). DESIGN
CHOICE: a decoder that needs a 16th byte raises the length fault of R87 step 7 before that byte is fetched (assumption log
27), and before what the whole instruction would be, #UD or a refusal (assumption log 29). -/
def fetchParse {α : Type} : Parse α → Nat → State → Res (α × Nat)
  | .done a, i, s => .ok (a, i) s
  | .need k, i, s =>
    if i < maxInsnLen then (fetchByte i s).andThen fun b s => fetchParse (k b) (i + 1) s else lengthFault s

/-- What a decoded byte sequence is as a result: an instruction, #UD, or a refusal (30_encoding.md R86). -/
def decodedResult (d : Decoded) (len : Nat) (s : State) : Res (Instr × Nat) :=
  match d with
  | .instr i => .ok (i, len) s
  | .invalidOpcode => raise .ud none s
  | .refuse r => .refused (.undecodable r)

/-- Fetch and decode the instruction at CS:EIP, with its length (10_state.md R15 step 2). -/
def fetchInstr (s : State) : Res (Instr × Nat) :=
  (fetchParse (decode s.params (defaultSize s)) 0 s).andThen fun r s => decodedResult r.1 r.2 s

/-! ### Completion -/

/-- `EIP <- EIP + len`, modulo 2^16 in a 16-bit code segment (10_state.md R15, 70 R256). DESIGN CHOICE: an instruction
that ends exactly at the limit of CS, where the sum and its remainder differ (a 16-bit segment with limit FFFFH or a little
above, a 32-bit segment with limit FFFFFFFFH), leaves EIP the remainder and not "one past" the limit, where R256 says both
(assumption log 28). -/
def nextEip (d : Size) (eip : Word) (len : Nat) : Word :=
  match d with
  | .s16 => ((eip + BitVec.ofNat 32 len).extractLsb' 0 16).setWidth 32
  | .s32 => eip + BitVec.ofNat 32 len

/-- The instruction is a MOV into SS, which leaves the inhibit set (10_state.md R25). -/
def loadsStackSegment : Instr → Bool
  | .movSregRm16 (.named .ss) _ => true
  | _ => false

/-- The state after an instruction that completed: EIP advances, and the inhibit is cleared unless the instruction is a MOV
into SS (10_state.md R15 step 4, R25). `d` is the default size under which it was decoded. -/
def completed (d : Size) (i : Instr) (len : Nat) (t : State) : State :=
  { t with eip := nextEip d t.eip len, inhibit := loadsStackSegment i && t.inhibit }

/-- The end of an instruction's step. A REP MOVS that is to go on has not completed: EIP stays (42_movs.md R167), and so
does the inhibit (DESIGN CHOICE, assumption log 40). -/
def complete (d : Size) (i : Instr) (len : Nat) (o : Outcome) : Outcome :=
  match o with
  | .next t => .next (if repUnfinished i t then t else completed d i len t)
  | o => o

/-! ### Storing an instruction where the fetch reads it -/

/-- Store one byte where byte `i` of the next instruction is fetched. -/
def placeByte (s : State) (i : Nat) (b : Byte) (m : Memory) : Memory :=
  match translate (fetchAddr s i) false (userAccess s false) s with
  | .ok x _ => m.write x.pa b
  | _ => m

/-- The linear addresses of `n` bytes of the next instruction, as program text (20_memory.md R58). -/
def instructionText (s : State) (n : Nat) : List AddrRange :=
  (List.range n).map fun i => ⟨(fetchAddr s i).toNat, (fetchAddr s i).toNat + 1⟩

/-- Store bytes where the next instruction is fetched, from byte `i` on. -/
def placeBytes (s : State) : Nat → List Byte → Memory → Memory
  | _, [], m => m
  | i, b :: bs, m => placeBytes s (i + 1) bs (placeByte s i b m)

end Sys2Proof.Machine
end

