-- ==== Sys2Proof/Machine/Step.lean ====
section
/-! DEFINITION. The step (10_state.md R15). -/

namespace Sys2Proof.Machine

/-- The instruction that starts in a state: fetched, decoded, executed, completed (10_state.md R15 steps 2 to 4). -/
def runInstr (s : State) : Outcome :=
  ((fetchInstr s).andThen fun r t =>
    match complete (defaultSize s) r.1 r.2 (exec r.1 t) with
    | .next u => .ok () u
    | .fault f => .fault f
    | .refused r => .refused r).outcome

/-- One step: the boundary, then the instruction, with its exception taken if it raises one (10_state.md R15,
60_exceptions.md R212). -/
def step (s : State) : Host.Outcome State Fault Refusal :=
  match boundary s with
  | .stop o => o
  | .run t => settle (runInstr t)

/-- The state with an instruction's bytes stored where the next step fetches them, and declared as text of the program,
without which the fetch refuses them (92 D9; assumption log 7). -/
def State.withFetchWord (s : State) (nbits w : Nat) : State :=
  { s with
    mem := placeBytes s 0 (tableBytes nbits w) s.mem
    params := { s.params with
      programText := instructionText s (tableBytes nbits w).length ++ s.params.programText } }

end Sys2Proof.Machine
end

