-- ==== Sys2Proof/Safety.lean ====
section
/-! DEFINITION. The terms claims use: when an access completes, which physical bytes it reaches, and which page-table bytes
the processor may mark on the way. All are computed from the state before the access. -/

namespace Sys2Proof.Machine

/-- The state of a step that completed. -/
def nextOf : Outcome → Option State
  | .next s => some s
  | .fault _ => none
  | .refused _ => none

/-- The physical address of a linear byte by the listed table entries (20_memory.md R50). -/
def tableAddr? (s : State) (la : Word) : Option Nat :=
  match listed32 s.mem (pdeAddr s la) with
  | some pde =>
    match listed32 s.mem (pteAddr pde la) with
    | some pte => some (frameOf pte + la.toNat % 4096)
    | none => none
  | none => none

/-- The physical address that a given translation function answers (20_memory.md R49). -/
def givenAddr? (lines : List PageLine) (la : Word) (wr us : Bool) : Option Nat :=
  match PageLine.answerOf lines (la.extractLsb' 12 20) wr us with
  | .frame f => some (inFrame f la)
  | .fault _ => none

/-- The physical address of a linear byte for an access: itself with paging off, otherwise what `Translate` answers
(20_memory.md R49, R50). -/
def physAddr? (s : State) (wr us : Bool) (la : Word) : Option Nat :=
  if paging s then
    match s.params.translate with
    | .twoLevel => tableAddr? s la
    | .given lines => givenAddr? lines la wr us
  else some la.toNat

/-- The four bytes of a table entry are populated (20_memory.md R49). -/
def entryPopulated (s : State) (a : Nat) : Bool := (List.range 4).all fun i => populated s (a + i)

/-- A linear byte passes the page walk (20_memory.md R50): both entries listed, present, and admitting the access if it is
made at user level. -/
def tableMapped (s : State) (la : Word) (wr us : Bool) : Bool :=
  match listed32 s.mem (pdeAddr s la) with
  | some pde =>
    match listed32 s.mem (pteAddr pde la) with
    | some pte =>
      entryPopulated s (pdeAddr s la) && entryPopulated s (pteAddr pde la) && pde.getLsbD 0 && pte.getLsbD 0
        && (!us || (userMayAccess pde wr && userMayAccess pte wr))
    | none => false
  | none => false

/-- A linear byte translates without a page fault (20_memory.md R49, R50). -/
def mapped (s : State) (la : Word) (wr us : Bool) : Bool :=
  if paging s then
    match s.params.translate with
    | .twoLevel => tableMapped s la wr us
    | .given lines => (givenAddr? lines la wr us).isSome
  else true

/-- A linear byte can be read: mapped, populated, and written before (20_memory.md R49, 10_state.md R29). -/
def byteLoads (s : State) (la : Word) (us : Bool) : Bool :=
  mapped s la false us &&
    match physAddr? s false us la with
    | some pa => populated s pa && (s.mem.read? pa).isSome
    | none => false

/-- A linear byte can be stored to by the program: mapped, populated, and no program text (20_memory.md R49, R58). -/
def byteStores (s : State) (la : Word) (us : Bool) : Bool :=
  mapped s la true us && !inProgramText s la &&
    match physAddr? s true us la with
    | some pa => populated s pa
    | none => false

/-- An operand of `n` bytes can be read (20_memory.md R46). -/
def canLoad (s : State) (r : SegReg) (off : Word) (n : Nat) : Bool :=
  (segmentFault s .read r off.toNat n).isNone &&
    (List.range n).all fun k => byteLoads s (linearAddr s r off + BitVec.ofNat 32 k) (userAccess s false)

/-- An operand of `n` bytes can be written (20_memory.md R47). -/
def canStore (s : State) (r : SegReg) (off : Word) (n : Nat) : Bool :=
  (segmentFault s .write r off.toNat n).isNone &&
    (List.range n).all fun k => byteStores s (linearAddr s r off + BitVec.ofNat 32 k) (userAccess s false)

/-- An `r/m` operand of `n` bytes can be read (40_mov.md R100). -/
def canReadRm {ρ : Type} (n : Nat) (x : Rm ρ) (s : State) : Bool :=
  match x with
  | .reg _ => true
  | .mem m => canLoad s (operandSegment m) (effectiveAddr s m.addr) n

/-- An `r/m` operand of `n` bytes can be written (40_mov.md R100). -/
def canWriteRm {ρ : Type} (n : Nat) (x : Rm ρ) (s : State) : Bool :=
  match x with
  | .reg _ => true
  | .mem m => canStore s (operandSegment m) (effectiveAddr s m.addr) n

/-- The table bytes that translating one linear byte may mark accessed or dirty: byte 0 of its directory entry and of its
table entry, where both are present (20_memory.md R50). None where no tables are walked. -/
def entryMarks (s : State) (la : Word) : List Nat :=
  if walksTables s then
    match listed32 s.mem (pdeAddr s la) with
    | some pde =>
      match listed32 s.mem (pteAddr pde la) with
      | some pte => if pde.getLsbD 0 && pte.getLsbD 0 then [pdeAddr s la, pteAddr pde la] else []
      | none => []
    | none => []
  else []

/-- The table bytes that translating `n` bytes from a linear address on may mark accessed or dirty (20_memory.md R50). -/
def tableMarks (s : State) : Nat → Word → List Nat
  | 0, _ => []
  | n + 1, la => entryMarks s la ++ tableMarks s n (la + 1)

/-- Byte 0 of a page-directory or page-table entry that translates some linear address in `s` (20_memory.md R50). -/
def translatingEntry (s : State) (a : Nat) : Prop := ∃ la, a ∈ entryMarks s la

/-- The physical bytes of `n` linear bytes, for an access. -/
def linearBytes (s : State) (wr us : Bool) (la : Word) (n : Nat) : List Nat :=
  (List.range n).filterMap fun k => physAddr? s wr us (la + BitVec.ofNat 32 k)

/-- The physical bytes that a store of the program to an operand of `n` bytes reaches. -/
def operandBytes (s : State) (r : SegReg) (off : Word) (n : Nat) : List Nat :=
  linearBytes s true (userAccess s false) (linearAddr s r off) n

/-- `bs` are the bytes from a linear address on, the addresses those of an access in `s` and the bytes in the memory `m`. -/
def holdsLinear (s : State) (wr us : Bool) (m : Memory) (la : Word) (bs : List Byte) : Prop :=
  ∀ k, k < bs.length → ∃ pa, physAddr? s wr us (la + BitVec.ofNat 32 k) = some pa ∧ m.read? pa = bs[k]?

/-- `bs` are the bytes of an operand of the program, the addresses those of an access in `s` (a write if `wr`) and the bytes
in the memory `m`. -/
def holdsBytes (s : State) (wr : Bool) (m : Memory) (r : SegReg) (off : Word) (bs : List Byte) : Prop :=
  holdsLinear s wr (userAccess s false) m (linearAddr s r off) bs

/-- The accessed bit, as it stands in byte 0 of a table entry (20_memory.md R50). -/
def accessedBit : Byte := 0x20#8

/-- The accessed and the dirty bit, as they stand in byte 0 of a table entry (20_memory.md R50). -/
def accessedAndDirty : Byte := 0x60#8

/-- From `m` to `m'` every byte outside `stored` reads as before, or it is one of `marks` and has gained bits of `mask`. -/
def keepsBytes (mask : Byte) (marks stored : List Nat) (m m' : Memory) : Prop :=
  ∀ a, a ∉ stored → m'.read? a = m.read? a ∨
    (a ∈ marks ∧ ∃ b k, m.read? a = some b ∧ k &&& ~~~mask = 0#8 ∧ m'.read? a = some (b ||| k))

/-- From `s` to the memory `m'` the only change is accessed bits (20_memory.md R50): every byte reads as before, or it is
byte 0 of an entry that translates an address in `s`, and has gained bit 5. -/
def onlyAccessedBits (s : State) (m' : Memory) : Prop :=
  ∀ a, m'.read? a = s.mem.read? a ∨
    (translatingEntry s a ∧ ∃ b, s.mem.read? a = some b ∧ m'.read? a = some (b ||| accessedBit))

/-- The state is the same but for memory. -/
def sameButMemory (s t : State) : Prop := t = { s with mem := t.mem }

/-- From `s` to `t` the bytes `bs` of an operand are read: only accessed bits of the table entries it goes through change,
and the bytes are those of the memory left (20_memory.md R46, R50). -/
def readEffect (s : State) (r : SegReg) (off : Word) (bs : List Byte) (t : State) : Prop :=
  sameButMemory s t ∧ holdsBytes s false t.mem r off bs ∧
    keepsBytes accessedBit (tableMarks s bs.length (linearAddr s r off)) [] s.mem t.mem

/-- From `s` to `t` the bytes `bs` of an operand are written: they stand at its address, every other byte reads as before
but for the accessed and dirty bits of the table entries it goes through, and the model's own mark `staleTables` remembers a
store into a live page table (20_memory.md R47, R50, R59; that such a store completes is the choice of assumption log 17). -/
def writeEffect (s : State) (r : SegReg) (off : Word) (bs : List Byte) (t : State) : Prop :=
  t = { s with
    mem := t.mem
    staleTables := s.staleTables || (operandBytes s r off bs.length).any (inLiveTable s) } ∧
    holdsBytes s true t.mem r off bs ∧
      keepsBytes accessedAndDirty (tableMarks s bs.length (linearAddr s r off)) (operandBytes s r off bs.length)
        s.mem t.mem

/-- `ReadRM(8)` from `s` gives `v` and leaves `u`: a register's value, or the bytes of memory (40_mov.md R100). -/
def reads8 (s : State) (x : Rm Reg8) (v : Byte) (u : State) : Prop :=
  match x with
  | .reg r => v = readR8 s r ∧ u = s
  | .mem m => ∃ bs, bs.length = 1 ∧ v = leValue 8 bs ∧ readEffect s (operandSegment m) (effectiveAddr s m.addr) bs u

/-- `ReadRM(16)` from `s` gives `v` and leaves `u` (40_mov.md R100). -/
def reads16 (s : State) (x : Rm Reg) (v : Half) (u : State) : Prop :=
  match x with
  | .reg r => v = readR16 s r ∧ u = s
  | .mem m => ∃ bs, bs.length = 2 ∧ v = leValue 16 bs ∧ readEffect s (operandSegment m) (effectiveAddr s m.addr) bs u

/-- `ReadRM(32)` from `s` gives `v` and leaves `u` (40_mov.md R100). -/
def reads32 (s : State) (x : Rm Reg) (v : Word) (u : State) : Prop :=
  match x with
  | .reg r => v = readR32 s r ∧ u = s
  | .mem m => ∃ bs, bs.length = 4 ∧ v = leValue 32 bs ∧ readEffect s (operandSegment m) (effectiveAddr s m.addr) bs u

/-- `WriteRM(8, v)` from `s` leaves `t`: a register is written, or the bytes of memory (40_mov.md R100). -/
def writes8 (s : State) (x : Rm Reg8) (v : Byte) (t : State) : Prop :=
  match x with
  | .reg r => t = writeR8 r v s
  | .mem m => writeEffect s (operandSegment m) (effectiveAddr s m.addr) (leBytes 1 v) t

/-- `WriteRM(16, v)` from `s` leaves `t` (40_mov.md R100). -/
def writes16 (s : State) (x : Rm Reg) (v : Half) (t : State) : Prop :=
  match x with
  | .reg r => t = writeR16 r v s
  | .mem m => writeEffect s (operandSegment m) (effectiveAddr s m.addr) (leBytes 2 v) t

/-- `WriteRM(32, v)` from `s` leaves `t` (40_mov.md R100). -/
def writes32 (s : State) (x : Rm Reg) (v : Word) (t : State) : Prop :=
  match x with
  | .reg r => t = writeR32 r v s
  | .mem m => writeEffect s (operandSegment m) (effectiveAddr s m.addr) (leBytes 4 v) t

/-- The descriptor that a selector names can be read (20_memory.md R62). -/
def canFetchDescriptor (s : State) (sel : Half) : Bool :=
  !(selectorTi sel && !s.sys.ldtr.valid) && decide (8 * selectorIndex sel + 7 ≤ tableLimit s sel) &&
    (List.range 8).all fun k => byteLoads s (descriptorAddr s sel + BitVec.ofNat 32 k) false

/-- The accessed bit of the descriptor that a selector names is set already, or its byte can be written
(20_memory.md R62). -/
def canMarkAccessed (s : State) (sel : Half) (d : BitVec 64) : Bool :=
  d.getLsbD 40 || (mapped s (descriptorAddr s sel + 5) true false &&
    match physAddr? s true false (descriptorAddr s sel + 5) with
    | some pa => populated s pa
    | none => false)

/-- From `s` to `t` the accessed bit of a descriptor is set, if it was clear (20_memory.md R62): only that byte, and the
bits of the table entries on the way, change. -/
def accessedEffect (s : State) (sel : Half) (d : BitVec 64) (t : State) : Prop :=
  if d.getLsbD 40 then t = s
  else sameButMemory s t ∧ holdsLinear s true false t.mem (descriptorAddr s sel + 5) [d.extractLsb' 40 8 ||| 0x01#8] ∧
    keepsBytes accessedAndDirty (tableMarks s 1 (descriptorAddr s sel + 5))
      (linearBytes s true false (descriptorAddr s sel + 5) 1) s.mem t.mem

/-- From `s` to `t` one element of `w` bytes is moved: read through the source segment at (E)SI, written through ES at
(E)DI, then both indexes are advanced (42_movs.md R160). -/
def elementMoved (w : Nat) (asz : Size) (src : SegReg) (s t : State) : Prop :=
  ∃ bs u v, bs.length = w ∧ readEffect s src (stringReg s asz .esi) bs u ∧
    writeEffect u .es (stringReg s asz .edi) bs v ∧ t = stepIndexes asz w v

/-- One element of `w` bytes can be moved: its source can be read and its destination written (42_movs.md R170). -/
def canMoveElement (w : Nat) (asz : Size) (src : SegReg) (s : State) : Bool :=
  canLoad s src (stringReg s asz .esi) w && canStore s .es (stringReg s asz .edi) w

/-- The memory operand of an `r/m` operand of `n` bytes: segment, offset, width; none for a register (40_mov.md R100). -/
def rmOperand? {ρ : Type} (n : Nat) (x : Rm ρ) (s : State) : Option (SegReg × Word × Nat) :=
  match x with
  | .reg _ => none
  | .mem m => some (operandSegment m, effectiveAddr s m.addr, n)

/-- The destination of a MOVS of width `w`: ES:(E)DI; none under REP with the count 0 (42_movs.md R160, R167). -/
def stringOperand? (w : Nat) (rep : Bool) (asz : Size) (s : State) : Option (SegReg × Word × Nat) :=
  if rep = true ∧ stringReg s asz .ecx = 0#32 then none else some (.es, stringReg s asz .edi, w)

/-- Where an instruction stores to memory as the program's own store: segment, offset and width, from the state before it;
none for a form that stores nothing (40_mov.md R101 to R120, 42_movs.md R160 to R167). -/
def storeOperand? (i : Instr) (s : State) : Option (SegReg × Word × Nat) :=
  match i with
  | .movRm8R8 dst _ => rmOperand? 1 dst s
  | .movRm16R16 dst _ => rmOperand? 2 dst s
  | .movRm32R32 dst _ => rmOperand? 4 dst s
  | .movRm16Sreg _ dst (.named _) => rmOperand? 2 dst s
  | .movMoffs8Al g o => some (moffsSegment g, moffsOffset o, 1)
  | .movMoffs16Ax g o => some (moffsSegment g, moffsOffset o, 2)
  | .movMoffs32Eax g o => some (moffsSegment g, moffsOffset o, 4)
  | .movRm8Imm8 dst _ => rmOperand? 1 dst s
  | .movRm16Imm16 dst _ => rmOperand? 2 dst s
  | .movRm32Imm32 dst _ => rmOperand? 4 dst s
  | .movsM8M8 rep a _ => stringOperand? 1 rep a s
  | .movsM16M16 rep a _ => stringOperand? 2 rep a s
  | .movsM32M32 rep a _ => stringOperand? 4 rep a s
  | .movsb rep a => stringOperand? 1 rep a s
  | .movsw rep a => stringOperand? 2 rep a s
  | .movsd rep a => stringOperand? 4 rep a s
  | _ => none

/-- The source of a MOVS of width `w`: the source segment at (E)SI; none under REP with the count 0 (42_movs.md R160, R167). -/
def stringSource? (w : Nat) (rep : Bool) (asz : Size) (src : SegReg) (s : State) : Option (SegReg × Word × Nat) :=
  if rep = true ∧ stringReg s asz .ecx = 0#32 then none else some (src, stringReg s asz .esi, w)

/-- The memory operand that an instruction reads: segment, offset and width; none for a form that reads none (40_mov.md,
42_movs.md, 43_movsx.md, 44_movzx.md, 45_mul.md). -/
def loadOperand? (i : Instr) (s : State) : Option (SegReg × Word × Nat) :=
  match i with
  | .movR8Rm8 _ src => rmOperand? 1 src s
  | .movR16Rm16 _ src => rmOperand? 2 src s
  | .movR32Rm32 _ src => rmOperand? 4 src s
  | .movSregRm16 (.named r) src => if r = .cs then none else rmOperand? 2 src s
  | .movAlMoffs8 g o => some (moffsSegment g, moffsOffset o, 1)
  | .movAxMoffs16 g o => some (moffsSegment g, moffsOffset o, 2)
  | .movEaxMoffs32 g o => some (moffsSegment g, moffsOffset o, 4)
  | .movsM8M8 rep a r => stringSource? 1 rep a r s
  | .movsM16M16 rep a r => stringSource? 2 rep a r s
  | .movsM32M32 rep a r => stringSource? 4 rep a r s
  | .movsb rep a => stringSource? 1 rep a .ds s
  | .movsw rep a => stringSource? 2 rep a .ds s
  | .movsd rep a => stringSource? 4 rep a .ds s
  | .movsxR16Rm8 _ src => rmOperand? 1 src s
  | .movsxR32Rm8 _ src => rmOperand? 1 src s
  | .movsxR32Rm16 _ _ src => rmOperand? 2 src s
  | .movzxR16Rm8 _ src => rmOperand? 1 src s
  | .movzxR32Rm8 _ src => rmOperand? 1 src s
  | .movzxR32Rm16 _ _ src => rmOperand? 2 src s
  | .mulAlRm8 src => rmOperand? 1 src s
  | .mulAxRm16 src => rmOperand? 2 src s
  | .mulEaxRm32 src => rmOperand? 4 src s
  | _ => none

/-- The state from which an instruction makes its store: the state before it, or, for MOVS, the one that the read of the
source leaves (42_movs.md R160). -/
def storesFrom (i : Instr) (s u : State) : Prop :=
  match loadOperand? i s with
  | none => u = s
  | some (r, off, n) => ∃ bs, readSeg r off n s = .ok bs u

/-- The bit P of the page fault that translating a linear byte raises, where it raises one: an entry that is listed and not
present, or two present entries that do not admit the access (20_memory.md R50, R51); or what a given function answers. -/
def pageFaultBit? (s : State) (la : Word) (wr us : Bool) : Option Bool :=
  if paging s then
    match s.params.translate with
    | .twoLevel =>
      match listed32 s.mem (pdeAddr s la) with
      | some pde =>
        if !entryPopulated s (pdeAddr s la) then none
        else if !pde.getLsbD 0 then some false
        else match listed32 s.mem (pteAddr pde la) with
          | some pte =>
            if !entryPopulated s (pteAddr pde la) then none
            else if !pte.getLsbD 0 then some false
            else if us && !(userMayAccess pde wr && userMayAccess pte wr) then some true
            else none
          | none => none
      | none => none
    | .given lines =>
      match PageLine.answerOf lines (la.extractLsb' 12 20) wr us with
      | .frame _ => none
      | .fault p => some p
  else none

/-- `f` is the page fault of byte `k` of an operand at `la`, the bytes below it having been translated from `s`: bits 2:0 of
the code are U/S, W/R and P, CR2 is the address of that byte, and only accessed bits of the entries of the bytes below, the
inhibit and the draw counter have changed (20_memory.md R51, 60_exceptions.md R212). -/
def pageFaulted (s : State) (la : Word) (k : Nat) (p wr us : Bool) (f : Fault) : Prop :=
  ∃ (c : Half) (t : State), f = .exception .pf (some c) t ∧
    c.toNat % 8 = (if p then 1 else 0) + (if wr then 2 else 0) + (if us then 4 else 0) ∧
      t = { s with mem := t.mem, sys := { s.sys with cr2 := la + BitVec.ofNat 32 k }, inhibit := false, draws := s.draws + 1 } ∧
        keepsBytes accessedBit (tableMarks s k la) [] s.mem t.mem

/-- The stop of reading a physical byte, if it stops: not populated, or never written (20_memory.md R49, 10_state.md R29). -/
def byteStop? (s : State) (pa : Nat) : Option Fault :=
  if populated s pa then (if (s.mem.read? pa).isNone then some (.unwritten pa) else none) else some (.unpopulated pa)

/-- A store to an operand reaches a byte of PROGRAM_TEXT (20_memory.md R58). -/
def reachesText (s : State) (o : Option (SegReg × Word × Nat)) : Prop :=
  ∃ r off n k, o = some (r, off, n) ∧ k < n ∧ inProgramText s (linearAddr s r off + BitVec.ofNat 32 k) = true

/-- The six arithmetic flags (10_state.md R17). -/
def arithmeticFlags : List Flag := [.ovf, .sf, .zf, .af, .pf, .cf]

/-- A flag of `t` is a draw taken between `s` and `t` (00_scope.md R6, 92 D20). -/
def flagDrawn (s t : State) (f : Flag) (n : Nat) : Prop :=
  s.draws ≤ n ∧ n < t.draws ∧ getFlag t f = (Config.freeWord n).getLsbD 0

/-- What an instruction that stops has changed (60_exceptions.md R212): with an exception, nothing but accessed bits
of entries that translate, the
inhibit, and on a page fault CR2 and the draw counter (for the undefined bits of the error code, 20_memory.md R51); memory
stays canonical. An instruction ends no run and shuts nothing down. -/
def faultKeeps (s : State) (f : Fault) : Prop :=
  match f with
  | .exception x _ t =>
    t = { s with mem := t.mem, sys := { s.sys with cr2 := t.sys.cr2 }, inhibit := false, draws := t.draws } ∧
      (x ≠ .pf → t.sys.cr2 = s.sys.cr2 ∧ t.draws = s.draws) ∧ onlyAccessedBits s t.mem ∧ (s.mem.wf = true → t.mem.wf = true)
  | .unpopulated _ => True
  | .unwritten _ => True
  | .shutdown _ => False
  | .endOfRun _ => False

/-- The bytes at CS:EIP, from byte `i` of the instruction on, are fetched one after another, from the state `s` to `u`. -/
def fetches : Nat → List Byte → State → State → Prop
  | _, [], s, u => u = s
  | i, b :: bs, s, u => ∃ t, fetchByte i s = .ok b t ∧ fetches (i + 1) bs t u

/-- The instructions that move to or from a special register (41_mov_special.md). -/
def isSpecialMove : Instr → Bool
  | .movR32Cr _ _ | .movCrR32 _ _ | .movR32Dr03 _ _ | .movR32Dr67 _ _ | .movDr03R32 _ _ | .movDr67R32 _ _
  | .movR32Tr _ _ | .movTrR32 _ _ => true
  | _ => false

/-- The string moves, with or without REP (42_movs.md). -/
def isStringMove : Instr → Bool
  | .movsM8M8 _ _ _ | .movsM16M16 _ _ _ | .movsM32M32 _ _ _ | .movsb _ _ | .movsw _ _ | .movsd _ _ => true
  | _ => false

/-- The group of a prefix byte: operand size, address size, segment override, repeat, lock; none for another byte
(30_encoding.md R71). -/
def prefixGroup (b : Byte) : Option Nat :=
  if b = 0x66#8 then some 0
  else if b = 0x67#8 then some 1
  else if b ∈ [0x26#8, 0x2E#8, 0x36#8, 0x3E#8, 0x64#8, 0x65#8] then some 2
  else if b = 0xF3#8 ∨ b = 0xF2#8 then some 3
  else if b = 0xF0#8 then some 4
  else none

/-- The multiplications (45_mul.md). -/
def isMul : Instr → Bool
  | .mulAlRm8 _ | .mulAxRm16 _ | .mulEaxRm32 _ => true
  | _ => false

/-- The stack segment is usable: valid and writable data (40_mov.md R122, "SS can never hold a null selector"). -/
def stackUsable (s : State) : Bool := (readSreg s .ss).valid && typeOk (readSreg s .ss) .write

/-- What every step keeps: canonical memory; no debug exception armed (60_exceptions.md R222); in protected mode a usable
stack segment (40_mov.md R122); in a 16-bit code segment an EIP of 16 bits (10_state.md R15). The last two need that no
mode switch is admitted, the second that no breakpoint is. -/
def MachineInv (s : State) : Prop :=
  s.mem.wf = true ∧
    (s.params.admitBreakpoints = false → debugArmed s = false) ∧
      (s.params.admitModeSwitch = false →
        (mode s = .protectedMode → stackUsable s = true) ∧ (defaultSize s = .s16 → s.eip.toNat < 65536))

end Sys2Proof.Machine
end

