-- ==== Sys2Proof/Certificates/Slice0/Obligations.lean ====
section
/-! DEFINITION. The statements for the provers. -/

open Sys2Proof Sys2Proof.Machine

/-- The numbers 000 to 111 name EAX, ECX, EDX, EBX, ESP, EBP, ESI, EDI at 32 bits (and their low halves at 16), and
AL, CL, DL, BL, AH, CH, DH, BH at 8: bits 7:0 and bits 15:8 of EAX, ECX, EDX, EBX. A 32-bit write replaces all
32 bits; a 16-bit write sets bits 15:0 and keeps bits 31:16; an 8-bit write changes those 8 bits only. No write
changes another register or another part of the state. Formalises R10, R11, R12. -/
def Obligations.RegistersAndTheirParts : Prop :=
  (List.range 8).map (fun n => Reg.ofBits (BitVec.ofNat 3 n)) = [.eax, .ecx, .edx, .ebx, .esp, .ebp, .esi, .edi] ∧
    (List.range 8).map (fun n => Reg8.ofBits (BitVec.ofNat 3 n)) = [.al, .cl, .dl, .bl, .ah, .ch, .dh, .bh] ∧
    (∀ n : BitVec 3, Reg8.host (Reg8.ofBits n) = Reg.ofBits (n &&& 3#3) ∧
      Reg8.isHigh (Reg8.ofBits n) = decide (4 ≤ n.toNat)) ∧
    (∀ (s : State) (r q : Reg) (v : Word),
      readR32 (writeR32 r v s) q = (if q = r then v else readR32 s q) ∧
        writeR32 r v s = { s with regs := (writeR32 r v s).regs }) ∧
    (∀ (s : State) (r : Reg) (v : Half),
      readR16 s r = (readR32 s r).extractLsb' 0 16 ∧ readR16 (writeR16 r v s) r = v ∧
        (readR32 (writeR16 r v s) r).extractLsb' 16 16 = (readR32 s r).extractLsb' 16 16 ∧
          (∀ q, q ≠ r → readR32 (writeR16 r v s) q = readR32 s q) ∧
            writeR16 r v s = { s with regs := (writeR16 r v s).regs }) ∧
    ∀ (s : State) (r : Reg8) (v : Byte),
      readR8 s r = (readR32 s (Reg8.host r)).extractLsb' (if Reg8.isHigh r then 8 else 0) 8 ∧
        readR8 (writeR8 r v s) r = v ∧ (∀ q, q ≠ r → readR8 (writeR8 r v s) q = readR8 s q) ∧
          (∀ q, (readR32 (writeR8 r v s) q).extractLsb' 16 16 = (readR32 s q).extractLsb' 16 16) ∧
            (∀ q, q ≠ Reg8.host r → readR32 (writeR8 r v s) q = readR32 s q) ∧
              writeR8 r v s = { s with regs := (writeR8 r v s).regs }

/-- PE = 0 is real-address mode with level 0; PE = 1 and VM = 0 is protected mode with the level in bits 1:0 of the
CS selector; PE = 1 and VM = 1 is virtual-8086 mode with level 3. Derived from R18, R219. -/
def Obligations.ModeAndLevelAreDerived : Prop :=
  ∀ s : State,
    (s.sys.cr0.getLsbD 0 = false → mode s = .realAddress ∧ cpl s = 0) ∧
      (s.sys.cr0.getLsbD 0 = true → s.eflags.vm = false →
        mode s = .protectedMode ∧ cpl s = s.segs.cs.sel.toNat % 4) ∧
        (s.sys.cr0.getLsbD 0 = true → s.eflags.vm = true → mode s = .virtual8086 ∧ cpl s = 3)

/-- For every state, segment register and offset, the linear address is the base held with the segment register plus
the offset, modulo 2^32. Formalises R42. -/
def Obligations.LinearAddressIsBasePlusOffset : Prop :=
  ∀ (s : State) (r : SegReg) (off : Word),
    (linearAddr s r off).toNat = ((readSreg s r).base.toNat + off.toNat) % 2 ^ 32

/-- For each of the eight r/m numbers the base registers are those of the table; disp8 is sign-extended to 16 bits;
the sum is taken modulo 2^16 and zero-extended; BP-based addresses default to SS, all others, and disp16 alone,
to DS. Formalises R78. -/
def Obligations.EffectiveAddressSixteen : Prop :=
  ((List.range 8).map fun n => Base16.ofBits (BitVec.ofNat 3 n)) =
      [.bxSi, .bxDi, .bpSi, .bpDi, .si, .di, .bp, .bx] ∧
    (∀ (s : State) (b : Base16) (d : Disp16),
      (effectiveAddr s (.a16 (.based b d))).toNat =
        ((match b with
          | .bxSi => (readR16 s .ebx).toNat + (readR16 s .esi).toNat
          | .bxDi => (readR16 s .ebx).toNat + (readR16 s .edi).toNat
          | .bpSi => (readR16 s .ebp).toNat + (readR16 s .esi).toNat
          | .bpDi => (readR16 s .ebp).toNat + (readR16 s .edi).toNat
          | .si => (readR16 s .esi).toNat
          | .di => (readR16 s .edi).toNat
          | .bp => (readR16 s .ebp).toNat
          | .bx => (readR16 s .ebx).toNat) +
        (match d with
          | .none => 0
          | .d8 x => if x.toNat < 128 then x.toNat else 65280 + x.toNat
          | .d16 x => x.toNat)) % 65536 ∧
        defaultSegment (.a16 (.based b d)) =
          (match b with
          | .bpSi | .bpDi | .bp => .ss
          | .bxSi | .bxDi | .si | .di | .bx => .ds)) ∧
      ∀ (s : State) (h : Half),
        (effectiveAddr s (.a16 (.direct h))).toNat = h.toNat ∧ defaultSegment (.a16 (.direct h)) = .ds

/-- Base register plus index times 1, 2, 4 or 8 plus displacement (disp8 sign-extended), modulo 2^32; ESP- and
EBP-based addresses default to SS, all others to DS; an override replaces the default. Derived from R76, R77,
R79. -/
def Obligations.EffectiveAddressThirtyTwo : Prop :=
  (∀ (s : State) (b : Reg) (d : Disp32),
    effectiveAddr s (.a32 (.based b d)) = effectiveAddr s (.a32 (.sib .none b d)) ∧
      defaultSegment (.a32 (.based b d)) = defaultSegment (.a32 (.sib .none b d))) ∧
    (∀ (s : State) (i : SibIndex) (b : Reg) (d : Disp32),
      (effectiveAddr s (.a32 (.sib i b d))).toNat =
        ((readR32 s b).toNat +
          (match i with
            | .none => 0
            | .scaled .x1 r => (readR32 s r).toNat
            | .scaled .x2 r => 2 * (readR32 s r).toNat
            | .scaled .x4 r => 4 * (readR32 s r).toNat
            | .scaled .x8 r => 8 * (readR32 s r).toNat) +
          (match d with
            | .none => 0
            | .d8 x => if x.toNat < 128 then x.toNat else 4294967040 + x.toNat
            | .d32 x => x.toNat)) % 2 ^ 32 ∧
        (defaultSegment (.a32 (.sib i b d)) = .ss ↔ b = .esp ∨ b = .ebp) ∧
          (defaultSegment (.a32 (.sib i b d)) = .ds ↔ b ≠ .esp ∧ b ≠ .ebp)) ∧
      (∀ (s : State) (i : SibIndex) (w : Word),
        effectiveAddr s (.a32 (.sibNoBase i w)) = sibIndexValue s i + w ∧ effectiveAddr s (.a32 (.direct w)) = w ∧
          defaultSegment (.a32 (.sibNoBase i w)) = .ds ∧ defaultSegment (.a32 (.direct w)) = .ds) ∧
        ∀ (r : SegReg) (a : Addr), operandSegment ⟨some r, a⟩ = r ∧ operandSegment ⟨none, a⟩ = defaultSegment a

/-- In real-address and virtual-8086 mode, an access of n bytes (n at least 1), read or write, through any segment
register, passes its segment check exactly when off + n - 1 is at most FFFFH: there is no type or writability
check. Formalises R45. -/
def Obligations.SixtyFourKilobyteBound : Prop :=
  ∀ (s : State) (acc : Access) (r : SegReg) (off : Word) (n : Nat), mode s ≠ .protectedMode → 0 < n →
    (segmentFault s acc r off.toNat n = none ↔ off.toNat + n - 1 ≤ 0xFFFF)

/-- In protected mode an access of n bytes (n at least 1) passes its segment check exactly when the valid bit is 1,
the limit condition holds (expand-down data segments: above the limit and up to FFFFH or FFFFFFFFH; all others:
off + n - 1 at most the limit, in the integers), and the type allows it: a read needs data or readable code, a
write a writable data segment. Formalises R44. -/
def Obligations.ProtectedModeLegalAccess : Prop :=
  ∀ (s : State) (acc : Access) (r : SegReg) (off : Word) (n : Nat), mode s = .protectedMode → 0 < n →
    (segmentFault s acc r off.toNat n = none ↔
      (readSreg s r).valid = true ∧
        (if (readSreg s r).ar.expandDown = true ∧ (readSreg s r).ar.isCode = false then
          (readSreg s r).limit.toNat < off.toNat ∧
            off.toNat + n - 1 ≤ (if (readSreg s r).ar.big then 0xFFFFFFFF else 0xFFFF)
        else off.toNat + n - 1 ≤ (readSreg s r).limit.toNat) ∧
          (acc = .read → (readSreg s r).ar.isCode = false ∨ (readSreg s r).ar.readable = true) ∧
            (acc = .write → (readSreg s r).ar.isCode = false ∧ (readSreg s r).ar.writable = true))

/-- In protected mode the error code is 0, and the exception is #SS for an illegal address in SS and #GP for the
other segments; a nonwritable destination is #GP(0), whatever the segment (the order of the type and the limit
check is the model's choice, log 24). In the other modes it is Interrupt 13: no error code in real-address mode,
0 in virtual-8086 mode (log 26). Derived from R44, R45, R48, R210. -/
def Obligations.SegmentFaultNames : Prop :=
  ∀ (s : State) (acc : Access) (r : SegReg) (off n : Nat) (x : Exc) (code : Option Half),
    segmentFault s acc r off n = some (x, code) →
      (mode s = .protectedMode → code = some 0 ∧
        x = (if r = .ss ∧ ((readSreg s r).valid = false ∨ acc = .read ∨ typeOk (readSreg s r) .write = true)
          then .ss else .gp)) ∧
        (mode s = .realAddress → x = .gp ∧ code = none) ∧ (mode s = .virtual8086 → x = .gp ∧ code = some 0)

/-- Every form that reads a memory operand through the failed read check, and every form that writes one through the
failed write check, ends in that exception; the state at the fault is the one before, but for the cleared
inhibit: no memory reference and no page walk happens. For every MOVS, without REP or with a count other than 0:
the read check of the source, and, where the source can be read, the write check of the destination, with
nothing changed but what the read of the source changed and the inhibit. Where the segment check passes and
every byte translates: a read is stuck at a byte that is not populated and faults at a byte that nothing has
written, the lowest such byte first (that order is the model's choice: log 6); a store, of which no byte lies in
PROGRAM_TEXT (log 18), is stuck at its lowest byte that is not populated. A MOVS stores from the state that the
read of its source leaves. Derived from R29, R46, R47, R49, R127, R128, R129, R170, R185, R195, R205,
92_eei_decisions.md D5. -/
def Obligations.IllegalOperandReferencesNoMemory : Prop :=
  (∀ (s : State) (x : Exc) (code : Option Half),
    let stop : Host.Outcome State Fault Refusal := .fault (.exception x code { s with inhibit := false })
    (∀ m : MemOperand,
      (segmentFault s .read (operandSegment m) (effectiveAddr s m.addr).toNat 1 = some (x, code) →
        (∀ d, exec (.movR8Rm8 d (.mem m)) s = stop) ∧ exec (.mulAlRm8 (.mem m)) s = stop ∧
          ∀ d, exec (.movsxR16Rm8 d (.mem m)) s = stop ∧ exec (.movsxR32Rm8 d (.mem m)) s = stop ∧
            exec (.movzxR16Rm8 d (.mem m)) s = stop ∧ exec (.movzxR32Rm8 d (.mem m)) s = stop) ∧
      (segmentFault s .read (operandSegment m) (effectiveAddr s m.addr).toNat 2 = some (x, code) →
        (∀ d, exec (.movR16Rm16 d (.mem m)) s = stop) ∧ exec (.mulAxRm16 (.mem m)) s = stop ∧
          (∀ z d, exec (.movsxR32Rm16 z d (.mem m)) s = stop ∧ exec (.movzxR32Rm16 z d (.mem m)) s = stop) ∧
            ∀ r, r ≠ .cs → exec (.movSregRm16 (.named r) (.mem m)) s = stop) ∧
      (segmentFault s .read (operandSegment m) (effectiveAddr s m.addr).toNat 4 = some (x, code) →
        (∀ d, exec (.movR32Rm32 d (.mem m)) s = stop) ∧ exec (.mulEaxRm32 (.mem m)) s = stop) ∧
      (segmentFault s .write (operandSegment m) (effectiveAddr s m.addr).toNat 1 = some (x, code) →
        (∀ q, exec (.movRm8R8 (.mem m) q) s = stop) ∧ ∀ i, exec (.movRm8Imm8 (.mem m) i) s = stop) ∧
      (segmentFault s .write (operandSegment m) (effectiveAddr s m.addr).toNat 2 = some (x, code) →
        (∀ q, exec (.movRm16R16 (.mem m) q) s = stop) ∧ (∀ i, exec (.movRm16Imm16 (.mem m) i) s = stop) ∧
          ∀ z r, exec (.movRm16Sreg z (.mem m) (.named r)) s = stop) ∧
      (segmentFault s .write (operandSegment m) (effectiveAddr s m.addr).toNat 4 = some (x, code) →
        (∀ q, exec (.movRm32R32 (.mem m) q) s = stop) ∧ ∀ i, exec (.movRm32Imm32 (.mem m) i) s = stop)) ∧
    (∀ (g : Option SegReg) (o : Moffs),
      (segmentFault s .read (moffsSegment g) (moffsOffset o).toNat 1 = some (x, code) →
        exec (.movAlMoffs8 g o) s = stop) ∧
      (segmentFault s .read (moffsSegment g) (moffsOffset o).toNat 2 = some (x, code) →
        exec (.movAxMoffs16 g o) s = stop) ∧
      (segmentFault s .read (moffsSegment g) (moffsOffset o).toNat 4 = some (x, code) →
        exec (.movEaxMoffs32 g o) s = stop) ∧
      (segmentFault s .write (moffsSegment g) (moffsOffset o).toNat 1 = some (x, code) →
        exec (.movMoffs8Al g o) s = stop) ∧
      (segmentFault s .write (moffsSegment g) (moffsOffset o).toNat 2 = some (x, code) →
        exec (.movMoffs16Ax g o) s = stop) ∧
      (segmentFault s .write (moffsSegment g) (moffsOffset o).toNat 4 = some (x, code) →
        exec (.movMoffs32Eax g o) s = stop)) ∧
    ∀ (a : Size) (r : SegReg) (rep : Bool), rep = false ∨ stringReg s a .ecx ≠ 0#32 →
      let checks := fun (i : Instr) (n : Nat) (g : SegReg) =>
        (segmentFault s .read g (stringReg s a .esi).toNat n = some (x, code) → exec i s = stop) ∧
        ∀ (bs : List Byte) (u : State), readSeg g (stringReg s a .esi) n s = .ok bs u →
          segmentFault s .write .es (stringReg s a .edi).toNat n = some (x, code) →
            exec i s = .fault (.exception x code { u with inhibit := false })
      checks (.movsM8M8 rep a r) 1 r ∧ checks (.movsM16M16 rep a r) 2 r ∧ checks (.movsM32M32 rep a r) 4 r ∧
        checks (.movsb rep a) 1 .ds ∧ checks (.movsw rep a) 2 .ds ∧ checks (.movsd rep a) 4 .ds) ∧
  ∀ (i : Instr) (s u : State) (r : SegReg) (off : Word) (n k pa : Nat), k < n →
    (∀ f, loadOperand? i s = some (r, off, n) → segmentFault s .read r off.toNat n = none →
      (∀ j, j < n → mapped s (linearAddr s r off + BitVec.ofNat 32 j) false (userAccess s false) = true) →
        (∀ j, j < k → byteLoads s (linearAddr s r off + BitVec.ofNat 32 j) (userAccess s false) = true) →
          physAddr? s false (userAccess s false) (linearAddr s r off + BitVec.ofNat 32 k) = some pa →
            byteStop? s pa = some f → exec i s = .fault f) ∧
    (storeOperand? i s = some (r, off, n) → storesFrom i s u → segmentFault u .write r off.toNat n = none →
      (∀ j, j < n → mapped u (linearAddr u r off + BitVec.ofNat 32 j) true (userAccess u false) = true ∧
          inProgramText u (linearAddr u r off + BitVec.ofNat 32 j) = false) →
        (∀ j, j < k → byteStores u (linearAddr u r off + BitVec.ofNat 32 j) (userAccess u false) = true) →
          physAddr? u true (userAccess u false) (linearAddr u r off + BitVec.ofNat 32 k) = some pa →
            populated u pa = false → exec i s = .fault (.unpopulated pa))

/-- With paging off the physical address is the linear address and nothing changes. With paging on and the two-level
scheme, where both entries are listed, populated, present and admit the access, the walk completes: the address
is the frame of the page-table entry plus the low 12 bits, both entries have their accessed bit set in memory,
and nothing but accessed bits of those two entries has changed. For a write the dirty bit is not yet set: the
model defers it until the whole store has passed its checks, which is the model's choice (log 16). With another
function as Translate (the model's form of the parameter, log 16) the address is the frame it answers plus the
low 12 bits and nothing changes, or the page fault is the one it answers. Derived from R49, R50. -/
def Obligations.TranslationFollowsTheTables : Prop :=
  ∀ (s : State) (la : Word) (wr us : Bool),
    (paging s = false → translate la wr us s = .ok ⟨la.toNat, none⟩ s) ∧
      (paging s = true → s.params.translate = .twoLevel → mapped s la wr us = true →
        ∃ pde pte t, listed32 s.mem (pdeAddr s la) = some pde ∧ listed32 s.mem (pteAddr pde la) = some pte ∧
          translate la wr us s = .ok ⟨4096 * (pte.toNat / 4096) + la.toNat % 4096, some (pteAddr pde la)⟩ t ∧
            sameButMemory s t ∧ keepsBytes accessedBit [pdeAddr s la, pteAddr pde la] [] s.mem t.mem ∧
              (∃ b, t.mem.read? (pdeAddr s la) = some b ∧ b.getLsbD 5 = true) ∧
                ∃ b, t.mem.read? (pteAddr pde la) = some b ∧ b.getLsbD 5 = true) ∧
        ∀ lines, paging s = true → s.params.translate = .given lines →
          (∀ f, PageLine.answerOf lines (la.extractLsb' 12 20) wr us = .frame f →
            translate la wr us s = .ok ⟨4096 * f.toNat + la.toNat % 4096, none⟩ s) ∧
          ∀ p, PageLine.answerOf lines (la.extractLsb' 12 20) wr us = .fault p →
            ∃ c, translate la wr us s = .fault (.exception .pf (some c)
              { s with sys := { s.sys with cr2 := la }, inhibit := false, draws := s.draws + 1 }) ∧
                c.toNat % 8 = (if p then 1 else 0) + (if wr then 2 else 0) + (if us then 4 else 0)

/-- With paging on and the two-level scheme: a directory entry that is not present, or a table entry that is not
present, is #PF with P = 0; two present entries that do not admit a user-level access (U/S clear in either, or
R/W clear in either for a write) are #PF with P = 1. Bit 0 of the error code is P, bit 1 tells a write, bit 2 a
user-level access, and bits 15:3, which the spec does not define, are a draw (log 11). CR2 is the linear
address, and nothing else has changed but the inhibit and the draw counter. For every form that reads a memory
operand, and for every form that stores to one: where the segment check passes, the bytes below byte k translate
and byte k raises a page fault, the instruction ends in that #PF, with CR2 the address of byte k; registers,
flags and memory are as before but for accessed bits of the entries of the bytes below. (The lower address is
translated first: R49, R51.) A MOVS stores from the state that the read of its source leaves. Derived from R46,
R47, R49, R50, R51, R127, R129, R170, R185, R195, R205, R212. -/
def Obligations.PageFaultReportsCodeAndAddress : Prop :=
  (∀ (s : State) (la : Word) (wr us : Bool) (pde : Word), paging s = true → s.params.translate = .twoLevel →
    entryPopulated s (pdeAddr s la) = true → listed32 s.mem (pdeAddr s la) = some pde →
      let faults := fun p : Bool => ∃ c : Half,
        translate la wr us s = .fault (.exception .pf (some c)
          { s with sys := { s.sys with cr2 := la }, inhibit := false, draws := s.draws + 1 }) ∧
        c.toNat % 8 = (if p then 1 else 0) + (if wr then 2 else 0) + (if us then 4 else 0) ∧
        c.toNat / 8 = (Config.freeWord s.draws).toNat % 8192
      (pde.getLsbD 0 = false → faults false) ∧
      ∀ pte : Word, pde.getLsbD 0 = true → entryPopulated s (pteAddr pde la) = true →
        listed32 s.mem (pteAddr pde la) = some pte →
          (pte.getLsbD 0 = false → faults false) ∧
          (pte.getLsbD 0 = true → us = true →
            (pde.getLsbD 2 = false ∨ pte.getLsbD 2 = false ∨
              (wr = true ∧ (pde.getLsbD 1 = false ∨ pte.getLsbD 1 = false))) → faults true)) ∧
  ∀ (i : Instr) (s u : State) (r : SegReg) (off : Word) (n k : Nat) (p : Bool), k < n →
    (loadOperand? i s = some (r, off, n) → segmentFault s .read r off.toNat n = none →
      (∀ j, j < k → mapped s (linearAddr s r off + BitVec.ofNat 32 j) false (userAccess s false) = true) →
        pageFaultBit? s (linearAddr s r off + BitVec.ofNat 32 k) false (userAccess s false) = some p →
          ∃ f, exec i s = .fault f ∧ pageFaulted s (linearAddr s r off) k p false (userAccess s false) f) ∧
    (storeOperand? i s = some (r, off, n) → storesFrom i s u → segmentFault u .write r off.toNat n = none →
      (∀ j, j < k → mapped u (linearAddr u r off + BitVec.ofNat 32 j) true (userAccess u false) = true) →
        pageFaultBit? u (linearAddr u r off + BitVec.ofNat 32 k) true (userAccess u false) = some p →
          ∃ f, exec i s = .fault f ∧ pageFaulted u (linearAddr u r off) k p true (userAccess u false) f)

/-- For every form that stores to memory (MOV r/m with a memory destination, from a register, an immediate or a
segment register; MOV moffs; every MOVS), with paging on and the two-level scheme: when it completes, byte 0 of
the page-table entry of each byte stored to has its accessed and dirty bits set, unless the store itself wrote
that byte. The address and width are those of the form, computed from the state before it. Derived from R50,
R47, R101, R102, R103, R107, R112, R113, R114, R118, R160. -/
def Obligations.StoresMarkPagesDirty : Prop :=
  ∀ (i : Instr) (s t : State) (r : SegReg) (off : Word) (n k : Nat) (pde : Word), paging s = true →
    s.params.translate = .twoLevel → storeOperand? i s = some (r, off, n) → k < n → exec i s = .next t →
      let la := linearAddr s r off + BitVec.ofNat 32 k
      listed32 s.mem (pdeAddr s la) = some pde → pteAddr pde la ∉ operandBytes s r off n →
        ∃ b, t.mem.read? (pteAddr pde la) = some b ∧ b.getLsbD 5 = true ∧ b.getLsbD 6 = true

/-- Reading the written address gives the value; reading any other gives what it gave before; a write inside the
address space keeps the canonical form; canonical memories that read alike are equal. Derived from R55, R41. -/
def Obligations.MemoryReadsWhatWasWritten : Prop :=
  (∀ (m : Memory) (a b : Nat) (v : Byte), (m.write a v).read? b = if b = a then some v else m.read? b) ∧
    (∀ (m : Memory) (a : Nat) (v : Byte), m.wf = true → a < addressSpace → (m.write a v).wf = true) ∧
      ∀ m n : Memory, m.wf = true → n.wf = true → (∀ a, m.read? a = n.read? a) → m = n

/-- With paging off, after MOV r/m32,r32 to memory, a read of the four bytes at the same offset gives the register,
and a read of the one byte at offset + k gives bits 8k+7:8k of it, for k below 4 (a mixed-width access), where
those reads are legal. Derived from R41, R47, R103. -/
def Obligations.StoreThenLoadIsLittleEndian : Prop :=
  ∀ (s t : State) (m : MemOperand) (src : Reg), paging s = false → exec (.movRm32R32 (.mem m) src) s = .next t →
    (canLoad t (operandSegment m) (effectiveAddr s m.addr) 4 = true →
      ∃ bs, readSeg (operandSegment m) (effectiveAddr s m.addr) 4 t = .ok bs t ∧ leValue 32 bs = readR32 s src) ∧
      ∀ k, k < 4 → canLoad t (operandSegment m) (effectiveAddr s m.addr + BitVec.ofNat 32 k) 1 = true →
        readSeg (operandSegment m) (effectiveAddr s m.addr + BitVec.ofNat 32 k) 1 t =
          .ok [(readR32 s src).extractLsb' (8 * k) 8] t

/-- Where the r/m operand can be read (always, for a register), MOV r8,r/m8, MOV r16,r/m16 and MOV r32,r/m32
complete: the value is the source register, or the bytes at the operand's address low byte first, and the next
state is that value written to the destination, with no change of memory but accessed bits of the tables the
read went through (none with paging off). Derived from R100, R104, R105, R106. -/
def Obligations.MoveOperandToRegister : Prop :=
  ∀ s : State,
    (∀ dst src, canReadRm 1 src s = true →
      ∃ v u, reads8 s src v u ∧ exec (.movR8Rm8 dst src) s = .next (writeR8 dst v u)) ∧
    (∀ dst src, canReadRm 2 src s = true →
      ∃ v u, reads16 s src v u ∧ exec (.movR16Rm16 dst src) s = .next (writeR16 dst v u)) ∧
    ∀ dst src, canReadRm 4 src s = true →
      ∃ v u, reads32 s src v u ∧ exec (.movR32Rm32 dst src) s = .next (writeR32 dst v u)

/-- Where the r/m operand can be written (always, for a register), MOV r/m8,r8, MOV r/m16,r16 and MOV r/m32,r32
complete: the source register, as it was before, stands in the destination register or in the 1, 2 or 4 bytes at
the address the model computes from the state before; every other byte of memory reads as before but for
accessed and dirty bits of the tables the store went through, and no other register, and no other state but the
mark staleTables, changes. The spec refuses a store into a live page table (R59); that the model lets it
complete and sets its own mark staleTables is the model's choice (log 17). Derived from R100, R101, R102, R103. -/
def Obligations.MoveRegisterToOperand : Prop :=
  ∀ s : State,
    (∀ dst src, canWriteRm 1 dst s = true →
      ∃ t, writes8 s dst (readR8 s src) t ∧ exec (.movRm8R8 dst src) s = .next t) ∧
    (∀ dst src, canWriteRm 2 dst s = true →
      ∃ t, writes16 s dst (readR16 s src) t ∧ exec (.movRm16R16 dst src) s = .next t) ∧
    ∀ dst src, canWriteRm 4 dst s = true →
      ∃ t, writes32 s dst (readR32 s src) t ∧ exec (.movRm32R32 dst src) s = .next t

/-- MOV reg8,imm8, MOV reg16,imm16 and MOV reg32,imm32 complete in every state and write the immediate to the
register named, at its width. MOV r/m8,imm8, MOV r/m16,imm16 and MOV r/m32,imm32 complete where the r/m operand
can be written (always, for a register) and leave the immediate in it, low byte first in memory. Nothing else
changes but accessed and dirty bits of the tables a store went through, and the mark. The spec refuses a store
into a live page table (R59); that the model lets it complete and sets its own mark staleTables is the model's
choice (log 17). Derived from R100, R115, R116, R117, R118, R119, R120. -/
def Obligations.MoveImmediate : Prop :=
  ∀ s : State,
    (∀ r v, exec (.movReg8Imm8 r v) s = .next (writeR8 r v s)) ∧
    (∀ r v, exec (.movReg16Imm16 r v) s = .next (writeR16 r v s)) ∧
    (∀ r v, exec (.movReg32Imm32 r v) s = .next (writeR32 r v s)) ∧
    (∀ dst v, canWriteRm 1 dst s = true → ∃ t, writes8 s dst v t ∧ exec (.movRm8Imm8 dst v) s = .next t) ∧
    (∀ dst v, canWriteRm 2 dst s = true → ∃ t, writes16 s dst v t ∧ exec (.movRm16Imm16 dst v) s = .next t) ∧
    ∀ dst v, canWriteRm 4 dst s = true → ∃ t, writes32 s dst v t ∧ exec (.movRm32Imm32 dst v) s = .next t

/-- With the zero-extended offset in DS, or in the overriding segment: where 1, 2 or 4 bytes there can be read, the
load completes, AL, AX or EAX holds them low byte first, and nothing else changes but accessed bits of the
tables; where they can be written, the store completes, they hold AL, AX or EAX low byte first, and every other
byte of memory reads as before but for table bits. The spec refuses a store into a live page table (R59); that
the model lets it complete and sets its own mark staleTables is the model's choice (log 17). Derived from R109,
R110, R111, R112, R113, R114, R79, R82. -/
def Obligations.MoveBetweenAccumulatorAndOffset : Prop :=
  ∀ (s : State) (seg : Option SegReg) (off : Moffs),
    let r := seg.getD .ds
    let o := (match off with | .o16 h => h.setWidth 32 | .o32 w => w)
    (canLoad s r o 1 = true → ∃ bs u, bs.length = 1 ∧ readEffect s r o bs u ∧
      exec (.movAlMoffs8 seg off) s = .next (writeR8 .al (leValue 8 bs) u)) ∧
    (canLoad s r o 2 = true → ∃ bs u, bs.length = 2 ∧ readEffect s r o bs u ∧
      exec (.movAxMoffs16 seg off) s = .next (writeR16 .eax (leValue 16 bs) u)) ∧
    (canLoad s r o 4 = true → ∃ bs u, bs.length = 4 ∧ readEffect s r o bs u ∧
      exec (.movEaxMoffs32 seg off) s = .next (writeR32 .eax (leValue 32 bs) u)) ∧
    (canStore s r o 1 = true → ∃ t, writeEffect s r o (leBytes 1 (readR8 s .al)) t ∧
      exec (.movMoffs8Al seg off) s = .next t) ∧
    (canStore s r o 2 = true → ∃ t, writeEffect s r o (leBytes 2 (readR16 s .eax)) t ∧
      exec (.movMoffs16Ax seg off) s = .next t) ∧
    (canStore s r o 4 = true → ∃ t, writeEffect s r o (leBytes 4 (readR32 s .eax)) t ∧
      exec (.movMoffs32Eax seg off) s = .next t)

/-- For every segment register, CS included, in every mode and at every level: a memory destination that can be
written takes the 2 bytes of the selector whatever the operand size; a register destination takes it in its low
half, with the upper half kept at operand size 16 and a free value at 32; nothing else changes but the draw
counter, table bits and the mark staleTables. The spec refuses a store into a live page table (R59); that the
model lets it complete and sets its own mark staleTables is the model's choice (log 17). Derived from R107. -/
def Obligations.StoreSegmentSelector : Prop :=
  ∀ (s : State) (r : SegReg),
    (∀ z m, canWriteRm 2 (.mem m : Rm Reg) s = true →
      ∃ t, writes16 s (.mem m) (readSreg s r).sel t ∧ exec (.movRm16Sreg z (.mem m) (.named r)) s = .next t) ∧
    (∀ g, exec (.movRm16Sreg .s16 (.reg g) (.named r)) s = .next (writeR16 g (readSreg s r).sel s)) ∧
    ∀ g, exec (.movRm16Sreg .s32 (.reg g) (.named r)) s =
      .next (writeR32 g ((Config.freeWord s.draws).extractLsb' 0 16 ++ (readSreg s r).sel)
        { s with draws := s.draws + 1 })

/-- MOV Sreg,r/m16 with CS, 110 or 111, and MOV r/m16,Sreg with 110 or 111, raise #UD without an error code on every
operand and in every mode, with nothing changed but the inhibit. MOV r/m16,CS completes wherever its destination
can be written. (That this holds of a destination in a live page table too, which R59 refuses, is the model's
choice: log 17.) Derived from R130, R107, R59. -/
def Obligations.SegmentNumbersWithoutRegister : Prop :=
  (∀ (s : State) (src : Rm Reg) (f : SregField), f = .named .cs ∨ f = .reserved6 ∨ f = .reserved7 →
    exec (.movSregRm16 f src) s = .fault (.exception .ud none { s with inhibit := false })) ∧
    (∀ (s : State) (z : Size) (dst : Rm Reg) (f : SregField), f = .reserved6 ∨ f = .reserved7 →
      exec (.movRm16Sreg z dst f) s = .fault (.exception .ud none { s with inhibit := false })) ∧
      ∀ (s : State) (z : Size) (dst : Rm Reg), canWriteRm 2 dst s = true →
        ∃ t, exec (.movRm16Sreg z dst (.named .cs)) s = .next t

/-- Outside protected mode, where the 16-bit operand can be read, MOV Sreg,r/m16 to ES, SS, DS, FS or GS completes
for every selector: the selector is stored, the base is 16 times it, the register is valid; in real-address mode
limit and rights keep what they held, in virtual-8086 mode the limit is FFFFH and the rights are present,
writable, expand-up data of DPL 3. No other state changes but the inhibit, which a load of SS sets (no
descriptor table is read). Formalises R125. -/
def Obligations.SegmentLoadOutsideProtectedMode : Prop :=
  ∀ (s : State) (r : SegReg) (src : Rm Reg), mode s ≠ .protectedMode → r ≠ .cs → canReadRm 2 src s = true →
    ∃ sel u g, reads16 s src sel u ∧
      exec (.movSregRm16 (.named r) src) s =
        .next { writeSreg r g u with inhibit := u.inhibit || decide (r = .ss) } ∧
      g.sel = sel ∧ g.base.toNat = 16 * sel.toNat ∧ g.valid = true ∧
      (mode s = .realAddress → g.limit = (readSreg s r).limit ∧ g.ar = (readSreg s r).ar) ∧
      (mode s = .virtual8086 → g.limit = 0xFFFF#32 ∧ g.ar.present = true ∧ g.ar.isCode = false ∧
        g.ar.writable = true ∧ g.ar.expandDown = false ∧ g.ar.dpl = 3#2)

/-- In protected mode, MOV of a selector 0000H to 0003H to DS, ES, FS or GS completes: the selector is stored as
given, the valid bit is 0, base, limit and rights keep their contents, and nothing else changes beyond the
operand's own read. A MOV r,Sreg afterwards returns the same selector. Formalises R124. -/
def Obligations.NullSelectorLoadClearsValid : Prop :=
  ∀ (s u : State) (r : SegReg) (src : Rm Reg) (sel : Half), mode s = .protectedMode → r ≠ .cs → r ≠ .ss →
    readRm16 src s = .ok sel u → sel.toNat ≤ 3 →
      exec (.movSregRm16 (.named r) src) s =
          .next (writeSreg r { readSreg s r with sel := sel, valid := false } u) ∧
        ∀ g, exec (.movRm16Sreg .s16 (.reg g) (.named r))
            (writeSreg r { readSreg s r with sel := sel, valid := false } u) =
          .next (writeR16 g sel (writeSreg r { readSreg s r with sel := sel, valid := false } u))

/-- A selector with TI = 1 and an invalid LDTR, or whose 8 bytes do not lie within its table's limit, is
#GP(selector) with the RPL bits cleared and nothing changed but the inhibit; where the 8 bytes can be read, the
fetch completes with the descriptor that memory holds at table base plus 8 times the index, and changes accessed
bits of page tables only. Where the checks pass, the lowest of the 8 bytes that raises a page fault, at
supervisor level, raises it; where all translate, the lowest that is not populated or was never written stops
the fetch (log 6). Derived from R61, R62, R213, R49, R29. -/
def Obligations.DescriptorFetchChecksTheTable : Prop :=
  ∀ (s : State) (sel : Half),
    let base := if sel.getLsbD 2 then s.sys.ldtr.base else s.sys.gdtr.base
    let limit := if sel.getLsbD 2 then s.sys.ldtr.limit.toNat else s.sys.gdtr.limit.toNat
    let at' := base + BitVec.ofNat 32 (8 * (sel.toNat / 8))
    let gp := Fault.exception .gp (some (sel &&& 0xFFFC#16)) { s with inhibit := false }
    ((sel.getLsbD 2 = true ∧ s.sys.ldtr.valid = false) ∨ limit < 8 * (sel.toNat / 8) + 7 →
      fetchDescriptor sel s = .fault gp) ∧
    (canFetchDescriptor s sel = true → ∃ bs u, bs.length = 8 ∧ fetchDescriptor sel s = .ok (leValue 64 bs) u ∧
      sameButMemory s u ∧ holdsLinear s false false u.mem at' bs ∧ keepsBytes accessedBit (tableMarks s 8 at') [] s.mem u.mem) ∧
    (¬(sel.getLsbD 2 = true ∧ s.sys.ldtr.valid = false) → 8 * (sel.toNat / 8) + 7 ≤ limit → ∀ k, k < 8 →
      (∀ p, (∀ j, j < k → mapped s (at' + BitVec.ofNat 32 j) false false = true) →
        pageFaultBit? s (at' + BitVec.ofNat 32 k) false false = some p →
          ∃ f, fetchDescriptor sel s = .fault f ∧ pageFaulted s at' k p false false f) ∧
      ∀ pa f, (∀ j, j < 8 → mapped s (at' + BitVec.ofNat 32 j) false false = true) →
        (∀ j, j < k → byteLoads s (at' + BitVec.ofNat 32 j) false = true) →
          physAddr? s false false (at' + BitVec.ofNat 32 k) = some pa → byteStop? s pa = some f →
            fetchDescriptor sel s = .fault f)

/-- For a non-null selector, in this order: a descriptor fetch that stops, stops the load so; a descriptor that is
neither data nor readable code is #GP(selector); a data or nonconforming code segment with RPL or CPL above its
DPL is #GP(selector); a descriptor not present is #NP(selector); otherwise, where the accessed bit is set or can
be written, the load completes: that bit is set in memory, the register takes the selector and the descriptor's
base, limit and rights and is valid, and nothing else changes. Formalises R123. -/
def Obligations.DataSegmentLoadFollowsTheListing : Prop :=
  ∀ (s u : State) (r : SegReg) (src : Rm Reg) (sel : Half), mode s = .protectedMode → r ≠ .cs → r ≠ .ss →
    readRm16 src s = .ok sel u → 4 ≤ sel.toNat →
      (∀ f, fetchDescriptor sel u = .fault f → exec (.movSregRm16 (.named r) src) s = .fault f) ∧
      ∀ (d : BitVec 64) (w : State), fetchDescriptor sel u = .ok d w →
        let data := d.getLsbD 44 = true ∧ d.getLsbD 43 = false
        let code := d.getLsbD 44 = true ∧ d.getLsbD 43 = true
        let typeOk := data ∨ (code ∧ d.getLsbD 41 = true)
        let privOk := (data ∨ (code ∧ d.getLsbD 42 = false)) →
          sel.toNat % 4 ≤ (d.extractLsb' 45 2).toNat ∧ cpl s ≤ (d.extractLsb' 45 2).toNat
        (¬ typeOk ∨ ¬ privOk → exec (.movSregRm16 (.named r) src) s =
          .fault (.exception .gp (some (sel &&& 0xFFFC#16)) { w with inhibit := false })) ∧
        (typeOk → privOk → d.getLsbD 47 = false → exec (.movSregRm16 (.named r) src) s =
          .fault (.exception .np (some (sel &&& 0xFFFC#16)) { w with inhibit := false })) ∧
        (typeOk → privOk → d.getLsbD 47 = true → canMarkAccessed w sel d = true →
          ∃ v, accessedEffect w sel d v ∧
            exec (.movSregRm16 (.named r) src) s = .next (writeSreg r (loadedSegment sel d) v))

/-- In this order: a null selector is #GP(0); a descriptor fetch that stops, stops the load so; an RPL other than
CPL, a descriptor that is no writable data segment, a DPL other than CPL are #GP(selector); a descriptor not
present is #SS(selector); otherwise, where the accessed bit is set or can be written, the load completes: that
bit is set in memory, SS takes the selector and the descriptor and is valid, the interrupt inhibit is set, and
nothing else changes. Formalises R122. -/
def Obligations.StackSegmentLoadFollowsTheListing : Prop :=
  ∀ (s u : State) (src : Rm Reg) (sel : Half), mode s = .protectedMode → readRm16 src s = .ok sel u →
    (sel.toNat ≤ 3 → exec (.movSregRm16 (.named .ss) src) s =
      .fault (.exception .gp (some 0) { u with inhibit := false })) ∧
    (4 ≤ sel.toNat → ∀ f, fetchDescriptor sel u = .fault f → exec (.movSregRm16 (.named .ss) src) s = .fault f) ∧
    (4 ≤ sel.toNat → ∀ (d : BitVec 64) (w : State), fetchDescriptor sel u = .ok d w →
      let rplOk := sel.toNat % 4 = cpl s
      let typeOk := d.getLsbD 44 = true ∧ d.getLsbD 43 = false ∧ d.getLsbD 41 = true
      let dplOk := (d.extractLsb' 45 2).toNat = cpl s
      (¬ rplOk ∨ ¬ typeOk ∨ ¬ dplOk → exec (.movSregRm16 (.named .ss) src) s =
        .fault (.exception .gp (some (sel &&& 0xFFFC#16)) { w with inhibit := false })) ∧
      (rplOk → typeOk → dplOk → d.getLsbD 47 = false → exec (.movSregRm16 (.named .ss) src) s =
        .fault (.exception .ss (some (sel &&& 0xFFFC#16)) { w with inhibit := false })) ∧
      (rplOk → typeOk → dplOk → d.getLsbD 47 = true → canMarkAccessed w sel d = true →
        ∃ v, accessedEffect w sel d v ∧ exec (.movSregRm16 (.named .ss) src) s =
          .next { writeSreg .ss (loadedSegment sel d) v with inhibit := true }))

/-- The base is bytes 7, 4, 3, 2; the limit is bits 51:48 and 15:0, as they are with G = 0 and followed by FFFH with
G = 1; the rights are the bits of the AR byte and the D/B bit. Derived from R60. -/
def Obligations.DescriptorFieldsAreTheTable : Prop :=
  ∀ (sel : Half) (d : BitVec 64),
    (loadedSegment sel d).sel = sel ∧ (loadedSegment sel d).valid = true ∧
      (loadedSegment sel d).base.toNat = d.toNat / 2 ^ 56 * 2 ^ 24 + d.toNat / 2 ^ 16 % 2 ^ 24 ∧
        (d.getLsbD 55 = false →
          (loadedSegment sel d).limit.toNat = d.toNat / 2 ^ 48 % 16 * 65536 + d.toNat % 65536) ∧
          (d.getLsbD 55 = true →
            (loadedSegment sel d).limit.toNat = (d.toNat / 2 ^ 48 % 16 * 65536 + d.toNat % 65536) * 4096 + 4095) ∧
            (loadedSegment sel d).ar.present = d.getLsbD 47 ∧
              (loadedSegment sel d).ar.dpl.toNat = d.toNat / 2 ^ 45 % 4 ∧
                (loadedSegment sel d).ar.isCode = (d.getLsbD 44 && d.getLsbD 43) ∧
                  (loadedSegment sel d).ar.writable = (d.getLsbD 44 && !d.getLsbD 43 && d.getLsbD 41) ∧
                    (loadedSegment sel d).ar.readable = (d.getLsbD 44 && d.getLsbD 43 && d.getLsbD 41) ∧
                      (loadedSegment sel d).ar.conforming = (d.getLsbD 44 && d.getLsbD 43 && d.getLsbD 42) ∧
                        (loadedSegment sel d).ar.expandDown = (d.getLsbD 44 && !d.getLsbD 43 && d.getLsbD 42) ∧
                          (loadedSegment sel d).ar.big = d.getLsbD 54

/-- A MOV into SS that completes sets the inhibit; no other instruction's meaning changes it; an exception clears
it. At the end of the step a MOV into SS keeps it, every other instruction that has completed clears it, and a
REP MOVS that is to go on keeps it, for it has not completed (which the spec does not settle: the model's
choice, log 40). A boundary lets the instruction start under the inhibit as it was; where it is set no interrupt
is delivered, and what is pending stays pending. Derived from R25, R126, R218. -/
def Obligations.InhibitComesFromStackSegmentLoads : Prop :=
  (∀ (s t : State) (src : Rm Reg), exec (.movSregRm16 (.named .ss) src) s = .next t → t.inhibit = true) ∧
    (∀ (i : Instr) (s t : State), (∀ src, i ≠ .movSregRm16 (.named .ss) src) → exec i s = .next t →
      t.inhibit = s.inhibit) ∧
      (∀ (i : Instr) (s t : State) (x : Exc) (c : Option Half), exec i s = .fault (.exception x c t) →
        t.inhibit = false) ∧
        (∀ (d : Size) (i : Instr) (len : Nat) (s t : State), complete d i len (.next s) = .next t →
          (repUnfinished i s = true → t.inhibit = s.inhibit) ∧
          (repUnfinished i s = false → (∀ src, i ≠ .movSregRm16 (.named .ss) src) → t.inhibit = false) ∧
          ((∃ src, i = .movSregRm16 (.named .ss) src) → t.inhibit = s.inhibit)) ∧
          (∀ s t : State, boundary s = .run t → t.inhibit = s.inhibit) ∧
            ∀ s : State, s.inhibit = true → interruptAt s = none ∧
              (s.irq.nmiPending = true → (atBoundary s).irq.nmiPending = true) ∧
                (s.irq.intrPending.isSome = true → (atBoundary s).irq.intrPending.isSome = true)

/-- For all eight forms, every register and every operand: in virtual-8086 mode and in protected mode with CPL other
than 0 the outcome is #GP(0), and nothing is read or written and the flags keep their values; in real-address
mode and at CPL 0 no form raises an exception. Formalises R149. -/
def Obligations.SpecialMovesNeedLevelZero : Prop :=
  ∀ (i : Instr) (s : State), isSpecialMove i = true →
    ((mode s = .virtual8086 ∨ (mode s = .protectedMode ∧ cpl s ≠ 0)) →
      exec i s = .fault (.exception .gp (some 0) { s with inhibit := false })) ∧
    ((mode s = .realAddress ∨ (mode s = .protectedMode ∧ cpl s = 0)) → ∀ f, exec i s ≠ .fault f)

/-- Each of the six flags is a draw of its own, taken during the instruction; DF, IF, TF, NT, RF, VM and IOPL are
unchanged. Formalises R150. -/
def Obligations.SpecialMoveFlagsAreUndefined : Prop :=
  ∀ (i : Instr) (s t : State), isSpecialMove i = true → exec i s = .next t →
    (∃ n : Flag → Nat, (∀ f, f ∈ arithmeticFlags → flagDrawn s t f (n f)) ∧
      ∀ f g, f ∈ arithmeticFlags → g ∈ arithmeticFlags → n f = n g → f = g) ∧
      (∀ f, f ∉ arithmeticFlags → getFlag t f = getFlag s f) ∧ t.eflags.iopl = s.eflags.iopl

/-- In real-address mode and at CPL 0, with no live-table store waiting (log 17): CR2, DR0 to DR3, DR6 and DR7 are
read whole; bits 31 and 4:0 of CR0 and bits 31:12 of CR3 are read, and bits 30:5 of CR0 and 11:0 of CR3 read as
a draw, whatever was written (log 12); a test register reads as a draw. Only the destination register, the flags
and the draw counter change. Derived from R141, R143, R144, R147, R155, R21. -/
def Obligations.ReadSpecialRegister : Prop :=
  ∀ (s : State) (dst : Reg), mayMoveSpecial s = true → s.staleTables = false →
    let gives := fun (i : Instr) (p : Word → Prop) => ∃ t, exec i s = .next t ∧ p (readR32 t dst) ∧
      (∀ q, q ≠ dst → readR32 t q = readR32 s q) ∧
        t = { s with regs := t.regs, eflags := t.eflags, draws := t.draws }
    gives (.movR32Cr dst .cr2) (fun v => v = s.sys.cr2) ∧
    gives (.movR32Cr dst .cr0) (fun v => v =
      (s.sys.cr0 &&& 0x8000001F#32) ||| (Config.freeWord s.draws &&& 0x7FFFFFE0#32)) ∧
    gives (.movR32Cr dst .cr3) (fun v => v =
      (s.sys.cr3 &&& 0xFFFFF000#32) ||| (Config.freeWord s.draws &&& 0x00000FFF#32)) ∧
    gives (.movR32Dr03 dst .dr0) (fun v => v = s.sys.dr0) ∧ gives (.movR32Dr03 dst .dr1) (fun v => v = s.sys.dr1) ∧
    gives (.movR32Dr03 dst .dr2) (fun v => v = s.sys.dr2) ∧ gives (.movR32Dr03 dst .dr3) (fun v => v = s.sys.dr3) ∧
    gives (.movR32Dr67 dst .dr6) (fun v => v = s.sys.dr6) ∧ gives (.movR32Dr67 dst .dr7) (fun v => v = s.sys.dr7) ∧
    gives (.movR32Tr dst .tr6) (fun v => v = Config.freeWord s.draws) ∧
    gives (.movR32Tr dst .tr7) (fun v => v = Config.freeWord s.draws)

/-- Where it is allowed: a CR0 write that keeps PE and PG stores all 32 bits, and CR2 stores all 32 bits, with no
live-table store waiting (log 17); a CR3 write stores bits 31:12 and ends such a wait. No other register and no
memory changes but flags and draws. A CR0 write that changes PE or PG is refused by name, unless the model's own
switch admits it (log 13); then it stores all 32 bits too. Derived from R142, R153, R59. -/
def Obligations.WriteControlRegister : Prop :=
  ∀ (s : State) (src : Reg), mayMoveSpecial s = true →
    (s.staleTables = false →
      (((readR32 s src).getLsbD 0 = s.sys.cr0.getLsbD 0 ∧ (readR32 s src).getLsbD 31 = s.sys.cr0.getLsbD 31) ∨
          s.params.admitModeSwitch = true →
        ∃ t, exec (.movCrR32 .cr0 src) s = .next t ∧ t = { s with
          sys := { s.sys with cr0 := readR32 s src }, eflags := t.eflags, draws := t.draws }) ∧
      (¬ ((readR32 s src).getLsbD 0 = s.sys.cr0.getLsbD 0 ∧
          (readR32 s src).getLsbD 31 = s.sys.cr0.getLsbD 31) → s.params.admitModeSwitch = false →
        exec (.movCrR32 .cr0 src) s = .refused .modeSwitch) ∧
      ∃ t, exec (.movCrR32 .cr2 src) s = .next t ∧ t = { s with
        sys := { s.sys with cr2 := readR32 s src }, eflags := t.eflags, draws := t.draws }) ∧
    ∃ t, exec (.movCrR32 .cr3 src) s = .next t ∧ t = { s with
      sys := { s.sys with cr3 := readR32 s src &&& 0xFFFFF000#32 }, eflags := t.eflags, draws := t.draws
      staleTables := false }

/-- Where it is allowed, with no live-table store waiting (log 17): DR0 to DR3 and DR6 store all 32 bits, and so
does DR7 where bits 7:0 and 13 of the value are 0 (or the model's own switch admits the write, log 14);
otherwise the DR7 write is refused by name. A write of TR6 or TR7 is refused by name as the spec decides; with
the model's own switch (log 15) it stores all 32 bits as D00's DEST <- SRC says. Nothing else changes but flags
and draws. Derived from R145, R146, R148, R154, R155. -/
def Obligations.WriteDebugOrTestRegister : Prop :=
  ∀ (s : State) (src : Reg), mayMoveSpecial s = true → s.staleTables = false →
    let stores := fun (i : Instr) (y : SysRegs) => ∃ t, exec i s = .next t ∧
      t = { s with sys := y, eflags := t.eflags, draws := t.draws }
    stores (.movDr03R32 .dr0 src) { s.sys with dr0 := readR32 s src } ∧
    stores (.movDr03R32 .dr1 src) { s.sys with dr1 := readR32 s src } ∧
    stores (.movDr03R32 .dr2 src) { s.sys with dr2 := readR32 s src } ∧
    stores (.movDr03R32 .dr3 src) { s.sys with dr3 := readR32 s src } ∧
    stores (.movDr67R32 .dr6 src) { s.sys with dr6 := readR32 s src } ∧
    ((readR32 s src &&& 0x20FF#32 = 0#32 ∨ s.params.admitBreakpoints = true) →
      stores (.movDr67R32 .dr7 src) { s.sys with dr7 := readR32 s src }) ∧
    (readR32 s src &&& 0x20FF#32 ≠ 0#32 → s.params.admitBreakpoints = false →
      exec (.movDr67R32 .dr7 src) s = .refused .breakpointArming) ∧
    (s.params.admitTrWrite = false → ∀ r, exec (.movTrR32 r src) s = .refused .testRegisterWrite) ∧
    (s.params.admitTrWrite = true → stores (.movTrR32 .tr6 src) { s.sys with tr6 := readR32 s src } ∧
      stores (.movTrR32 .tr7 src) { s.sys with tr7 := readR32 s src })

/-- Where the source element can be read and the destination element written, the form completes: the 1, 2 or 4
bytes read at (E)SI in the source segment (DS for the short spellings) stand at ES:(E)DI, the two indexes are
advanced, and nothing else changes but table bits and the mark staleTables. The addresses are computed from the
state before. The spec refuses a store into a live page table (R59); that the model lets it complete and sets
its own mark staleTables is the model's choice (log 17). Derived from R160, R161, R162, R163, R164, R165, R166,
R169. -/
def Obligations.StringMoveMovesOneElement : Prop :=
  ∀ (s : State) (a : Size) (r : SegReg),
    let moves := fun (i : Instr) (w : Nat) (g : SegReg) =>
      canMoveElement w a g s = true → ∃ t, elementMoved w a g s t ∧ exec i s = .next t
    moves (.movsM8M8 false a r) 1 r ∧ moves (.movsM16M16 false a r) 2 r ∧ moves (.movsM32M32 false a r) 4 r ∧
      moves (.movsb false a) 1 .ds ∧ moves (.movsw false a) 2 .ds ∧ moves (.movsd false a) 4 .ds

/-- Under REP, where the count (CX or ECX by the address size) is 0, the instruction changes nothing, and its step
advances EIP past it. Where the count is not 0 and the element can be moved, one element is moved and the count
is one less; the step then advances EIP if the count has become 0, and leaves EIP, and all else, as it is if not
(that the inhibit stays too is the model's choice, log 40). The spec refuses a store into a live page table
(R59); that the model lets it complete and sets its own mark staleTables is the model's choice (log 17). Derived
from R167. -/
def Obligations.RepeatedStringMoveCountsDown : Prop :=
  ∀ (s : State) (a : Size) (r : SegReg),
    let counts := fun (i : Instr) (w : Nat) (g : SegReg) =>
      (stringReg s a .ecx = 0#32 → exec i s = .next s ∧
        ∀ d len, complete d i len (.next s) = .next { s with eip := nextEip d s.eip len, inhibit := false }) ∧
      (stringReg s a .ecx ≠ 0#32 → canMoveElement w a g s = true →
        ∃ u t, elementMoved w a g s u ∧ t = setStringReg a .ecx (stringReg s a .ecx - 1) u ∧
          stringReg t a .ecx = stringReg s a .ecx - 1 ∧ t.eip = s.eip ∧ exec i s = .next t ∧
            ∀ d len, (stringReg s a .ecx = 1#32 → complete d i len (.next t) =
                .next { t with eip := nextEip d s.eip len, inhibit := false }) ∧
              (stringReg s a .ecx ≠ 1#32 → complete d i len (.next t) = .next t))
    counts (.movsM8M8 true a r) 1 r ∧ counts (.movsM16M16 true a r) 2 r ∧ counts (.movsM32M32 true a r) 4 r ∧
      counts (.movsb true a) 1 .ds ∧ counts (.movsw true a) 2 .ds ∧ counts (.movsd true a) 4 .ds

/-- Whenever a MOVS of any form completes, and under REP its count was not 0, both indexes have moved by 1, 2 or 4,
upwards if DF was 0 and downwards if it was 1, modulo 2^16 (upper halves kept) or 2^32 by the address size; DF,
like every flag, is as before. Formalises R168. -/
def Obligations.DirectionFlagMovesTheIndexes : Prop :=
  ∀ (s t : State) (rep : Bool) (a : Size) (r : SegReg),
    (rep = true → stringReg s a .ecx ≠ 0#32) →
    let moved := fun (i : Instr) (w : Word) => exec i s = .next t → t.eflags = s.eflags ∧
      ∀ q, q = .esi ∨ q = .edi →
        (a = .s32 → readR32 t q = if getFlag s .df then readR32 s q - w else readR32 s q + w) ∧
        (a = .s16 → readR16 t q = (if getFlag s .df then readR16 s q - w.setWidth 16 else readR16 s q + w.setWidth 16) ∧
          (readR32 t q).extractLsb' 16 16 = (readR32 s q).extractLsb' 16 16)
    moved (.movsM8M8 rep a r) 1 ∧ moved (.movsM16M16 rep a r) 2 ∧ moved (.movsM32M32 rep a r) 4 ∧
      moved (.movsb rep a) 1 ∧ moved (.movsw rep a) 2 ∧ moved (.movsd rep a) 4

/-- Where the r/m operand can be read, MOVSX r16,r/m8, MOVSX r32,r/m8 and MOVSX r32,r/m16 complete: the destination
holds the operand with its top bit copied into every new high bit (as a signed number, the same number); with
operand size 16, which ADMIT_MOVX_W16 admits, 0F BF is a 16-bit move. Nothing else changes but table bits.
Derived from R180, R181, R182, R183, R184. -/
def Obligations.SignExtendingMove : Prop :=
  ∀ (s : State) (dst : Reg),
    (∀ src, canReadRm 1 src s = true → ∃ v u t, reads8 s src v u ∧ exec (.movsxR16Rm8 dst src) s = .next t ∧
      t = writeR16 dst (readR16 t dst) u ∧ (readR16 t dst).toInt = v.toInt) ∧
    (∀ src, canReadRm 1 src s = true → ∃ v u t, reads8 s src v u ∧ exec (.movsxR32Rm8 dst src) s = .next t ∧
      t = writeR32 dst (readR32 t dst) u ∧ (readR32 t dst).toInt = v.toInt) ∧
    (∀ src, canReadRm 2 src s = true → ∃ v u t, reads16 s src v u ∧ exec (.movsxR32Rm16 .s32 dst src) s = .next t ∧
      t = writeR32 dst (readR32 t dst) u ∧ (readR32 t dst).toInt = v.toInt) ∧
    ∀ src, canReadRm 2 src s = true →
      ∃ v u, reads16 s src v u ∧ exec (.movsxR32Rm16 .s16 dst src) s = .next (writeR16 dst v u)

/-- Where the r/m operand can be read, MOVZX r16,r/m8, MOVZX r32,r/m8 and MOVZX r32,r/m16 complete: the destination
holds the operand with every new high bit 0 (as an unsigned number, the same number); with operand size 16,
which ADMIT_MOVX_W16 admits, 0F B7 is a 16-bit move. Nothing else changes but table bits. Derived from R190,
R191, R192, R193, R194. -/
def Obligations.ZeroExtendingMove : Prop :=
  ∀ (s : State) (dst : Reg),
    (∀ src, canReadRm 1 src s = true → ∃ v u t, reads8 s src v u ∧ exec (.movzxR16Rm8 dst src) s = .next t ∧
      t = writeR16 dst (readR16 t dst) u ∧ (readR16 t dst).toNat = v.toNat) ∧
    (∀ src, canReadRm 1 src s = true → ∃ v u t, reads8 s src v u ∧ exec (.movzxR32Rm8 dst src) s = .next t ∧
      t = writeR32 dst (readR32 t dst) u ∧ (readR32 t dst).toNat = v.toNat) ∧
    (∀ src, canReadRm 2 src s = true → ∃ v u t, reads16 s src v u ∧ exec (.movzxR32Rm16 .s32 dst src) s = .next t ∧
      t = writeR32 dst (readR32 t dst) u ∧ (readR32 t dst).toNat = v.toNat) ∧
    ∀ src, canReadRm 2 src s = true →
      ∃ v u, reads16 s src v u ∧ exec (.movzxR32Rm16 .s16 dst src) s = .next (writeR16 dst v u)

/-- Where the r/m operand can be read, the three forms complete: AX is AL times the operand; DX:AX is AX times it,
with the upper halves of EAX and EDX kept; EDX:EAX is EAX times it; factors and product are unsigned and exact,
and the factors are those before any register is written. Only those registers, the flags and the draw counter
change, and accessed bits of tables. Derived from R200, R201, R202, R203, R206. -/
def Obligations.MultiplicationIsExact : Prop :=
  ∀ s : State,
    (∀ src, canReadRm 1 src s = true → ∃ v u t, reads8 s src v u ∧ exec (.mulAlRm8 src) s = .next t ∧
      (readR16 t .eax).toNat = (readR8 s .al).toNat * v.toNat ∧
      (readR32 t .eax).extractLsb' 16 16 = (readR32 s .eax).extractLsb' 16 16 ∧
      (∀ q, q ≠ .eax → readR32 t q = readR32 s q) ∧
      t = { u with regs := t.regs, eflags := t.eflags, draws := t.draws }) ∧
    (∀ src, canReadRm 2 src s = true → ∃ v u t, reads16 s src v u ∧ exec (.mulAxRm16 src) s = .next t ∧
      (readR16 t .edx).toNat * 65536 + (readR16 t .eax).toNat = (readR16 s .eax).toNat * v.toNat ∧
      (readR32 t .eax).extractLsb' 16 16 = (readR32 s .eax).extractLsb' 16 16 ∧
      (readR32 t .edx).extractLsb' 16 16 = (readR32 s .edx).extractLsb' 16 16 ∧
      (∀ q, q ≠ .eax → q ≠ .edx → readR32 t q = readR32 s q) ∧
      t = { u with regs := t.regs, eflags := t.eflags, draws := t.draws }) ∧
    ∀ src, canReadRm 4 src s = true → ∃ v u t, reads32 s src v u ∧ exec (.mulEaxRm32 src) s = .next t ∧
      (readR32 t .edx).toNat * 4294967296 + (readR32 t .eax).toNat = (readR32 s .eax).toNat * v.toNat ∧
      (∀ q, q ≠ .eax → q ≠ .edx → readR32 t q = readR32 s q) ∧
      t = { u with regs := t.regs, eflags := t.eflags, draws := t.draws }

/-- For each width, whenever MUL completes: CF and OF are both 0 if AH, DX or EDX is 0 and both 1 otherwise; SF, ZF,
AF and PF are each an independent draw of the instruction; DF and all other flags, and IOPL, are unchanged.
Formalises R204. -/
def Obligations.MultiplicationFlags : Prop :=
  ∀ (i : Instr) (s t : State), isMul i = true → exec i s = .next t →
    ((∀ src, i = .mulAlRm8 src →
        getFlag t .cf = decide (readR8 t .ah ≠ 0#8) ∧ getFlag t .ovf = decide (readR8 t .ah ≠ 0#8)) ∧
      (∀ src, i = .mulAxRm16 src →
        getFlag t .cf = decide (readR16 t .edx ≠ 0#16) ∧ getFlag t .ovf = decide (readR16 t .edx ≠ 0#16)) ∧
      (∀ src, i = .mulEaxRm32 src →
        getFlag t .cf = decide (readR32 t .edx ≠ 0#32) ∧ getFlag t .ovf = decide (readR32 t .edx ≠ 0#32))) ∧
    (∃ n : Flag → Nat, (∀ f, f ∈ mulUndefinedFlags → flagDrawn s t f (n f)) ∧
      ∀ f g, f ∈ mulUndefinedFlags → g ∈ mulUndefinedFlags → n f = n g → f = g) ∧
    (∀ f, f ∉ arithmeticFlags → getFlag t f = getFlag s f) ∧ t.eflags.iopl = s.eflags.iopl

/-- For every instruction that completes: if it is neither MUL nor a special-register move, EFLAGS is as before; in
every case the flags that are not the six arithmetic ones, and IOPL, are as before. Derived from R17. -/
def Obligations.OnlyTwoFamiliesWriteFlags : Prop :=
  ∀ (i : Instr) (s t : State), exec i s = .next t →
    (isMul i = false → isSpecialMove i = false → t.eflags = s.eflags) ∧
      (∀ f, f ∉ arithmeticFlags → getFlag t f = getFlag s f) ∧ t.eflags.iopl = s.eflags.iopl

/-- For every instruction that completes: if it is no special-register move, or the state is one in which those may
not execute, all control, debug, test and descriptor-table registers are as before; in every case GDTR, LDTR,
IDTR and the task register are as before. Derived from R149, R131, R24, R28, R220. -/
def Obligations.SystemStateNeedsPrivilege : Prop :=
  ∀ (i : Instr) (s t : State), exec i s = .next t →
    (isSpecialMove i = false ∨ mayMoveSpecial s = false → t.sys = s.sys) ∧
      t.sys.gdtr = s.sys.gdtr ∧ t.sys.ldtr = s.sys.ldtr ∧ t.sys.idtr = s.sys.idtr ∧ t.sys.task = s.sys.task

/-- For every instruction that completes: EIP is as before (the step advances it), so are the interrupt state, the
parameters and CS; and if it is not MOV Sreg,r/m16, so are all segment registers. Derived from R15, R131, R25. -/
def Obligations.InstructionsKeepTheRest : Prop :=
  ∀ (i : Instr) (s t : State), exec i s = .next t →
    t.eip = s.eip ∧ t.irq = s.irq ∧ t.params = s.params ∧ t.segs.cs = s.segs.cs ∧
      ((∀ f src, i ≠ .movSregRm16 f src) → t.segs = s.segs)

/-- For every instruction and state: the state of an exception is the state before the instruction with the inhibit
cleared, CR2 as before unless the exception is #PF, and memory as before but for accessed bits, which only
entries gain that translate some linear address in the state before: a directory entry reached from CR3 and the
table entry it names, both present, while paging is on with the two-level scheme. Where no tables are walked
every byte of memory reads as before. Memory stays canonical. On #PF the model's own draw counter may have
advanced, for the undefined bits of the error code (log 11). No instruction ends the run or shuts the machine
down. Derived from R212. -/
def Obligations.FaultLeavesTheStateItFound : Prop :=
  ∀ (i : Instr) (s : State) (f : Fault), exec i s = .fault f → faultKeeps s f ∧
    ∀ x c t, f = .exception x c t → walksTables s = false → ∀ a, t.mem.read? a = s.mem.read? a

/-- If an instruction is refused, one of these holds. It stores to memory and a byte of the store, at the address
and width of the form, lies in PROGRAM_TEXT (log 18). It is a special-register move other than MOV CR3,r32 that
may execute, while a store into a live page table waits (log 17). It is a CR0 write whose value changes PE or
PG, while the model's switch for mode changes is off (log 13). It is a DR7 write with one of bits 7:0 or bit 13
set, while the switch for breakpoints is off (log 14). It is a test-register write, while the switch for those
is off (log 15). And conversely: a store that passes its segment check, whose bytes all translate and of which a
byte lies in PROGRAM_TEXT, is refused by that name (before a stop at an unpopulated byte: log 18); a
special-register move other than MOV CR3,r32 that may execute, while a store into a live page table waits, is
refused by that name (before a refusal of the move itself: log 17). A MOVS stores from the state that the read
of its source leaves. Derived from R226, R58, R59, R153, R154, R155. -/
def Obligations.RefusalsAreTheNamedOnes : Prop :=
  (∀ (i : Instr) (s : State) (x : Refusal), exec i s = .refused x →
    (x = .programTextStore ∧ reachesText s (storeOperand? i s)) ∨
      (x = .livePageTable ∧ isSpecialMove i = true ∧ (∀ src, i ≠ .movCrR32 .cr3 src) ∧ mayMoveSpecial s = true ∧
        s.staleTables = true) ∨
        (x = .modeSwitch ∧ s.params.admitModeSwitch = false ∧ ∃ src, i = .movCrR32 .cr0 src ∧
          ((readR32 s src).getLsbD 0 ≠ s.sys.cr0.getLsbD 0 ∨ (readR32 s src).getLsbD 31 ≠ s.sys.cr0.getLsbD 31)) ∨
          (x = .breakpointArming ∧ s.params.admitBreakpoints = false ∧ ∃ src, i = .movDr67R32 .dr7 src ∧
            readR32 s src &&& 0x20FF#32 ≠ 0#32) ∨
            (x = .testRegisterWrite ∧ (∃ r src, i = .movTrR32 r src) ∧ s.params.admitTrWrite = false)) ∧
  (∀ (i : Instr) (s u : State) (r : SegReg) (off : Word) (n k : Nat), k < n →
    storeOperand? i s = some (r, off, n) → storesFrom i s u → segmentFault u .write r off.toNat n = none →
      (∀ j, j < n → mapped u (linearAddr u r off + BitVec.ofNat 32 j) true (userAccess u false) = true) →
        inProgramText u (linearAddr u r off + BitVec.ofNat 32 k) = true → exec i s = .refused .programTextStore) ∧
  ∀ (i : Instr) (s : State), isSpecialMove i = true → (∀ src, i ≠ .movCrR32 .cr3 src) → mayMoveSpecial s = true →
    s.staleTables = true → exec i s = .refused .livePageTable

/-- For every choice of the parameters, every default size and every well-formed instruction they admit, with every
operand at every value its encoding admits: decoding its bytes followed by any others gives that instruction and
leaves the others. Derived from R70, R71, R72, R74, R76, R77, R78, R82, R83, R84, R85, R151. -/
def Obligations.EncodeThenDecodeGivesTheInstruction : Prop :=
  ∀ (p : Params) (d : Size) (i : Instr) (rest : List Byte), i.wf = true → i.admitted p = true →
    decodeBytes p d (encode p d i ++ rest) = some (.instr i, rest)

/-- Whatever bytes the decoder reads an instruction from, the instruction is well formed, the parameters admit it,
and the decoder has used at least 1 and at most 14 bytes. Derived from R76, R77, R78, R86, R87. -/
def Obligations.DecodedInstructionsAreWellFormed : Prop :=
  ∀ (p : Params) (d : Size) (bs rest : List Byte) (i : Instr), decodeBytes p d bs = some (.instr i, rest) →
    i.wf = true ∧ i.admitted p = true ∧ rest.length + 1 ≤ bs.length ∧ bs.length ≤ rest.length + 14

/-- F0 followed by the bytes of any well-formed, admitted instruction decodes to the invalid opcode; the bytes after
it are left (the decoder reads the whole instruction first: log 29). Derived from R57, R71, R86. -/
def Obligations.LockPrefixIsInvalid : Prop :=
  ∀ (p : Params) (d : Size) (i : Instr) (rest : List Byte), i.wf = true → i.admitted p = true →
    decodeBytes p d (0xF0#8 :: encode p d i ++ rest) = some (.invalidOpcode, rest)

/-- The example words of eleven rules, in the segment size the rule says, decode to the instruction the rule names.
Derived from R101, R106, R107, R108, R117, R120, R141, R167, R181, R193, R203. -/
def Obligations.WrittenOutWordsDecode : Prop :=
  decodeBytes .default .s32 [0x88, 0xD8] = some (.instr (.movRm8R8 (.reg .al) .bl), []) ∧
  decodeBytes .default .s32 [0x8B, 0x04, 0x8B] =
    some (.instr (.movR32Rm32 .eax (.mem ⟨none, .a32 (.sib (.scaled .x4 .ecx) .ebx .none)⟩)), []) ∧
  decodeBytes .default .s16 [0x8C, 0xDA] = some (.instr (.movRm16Sreg .s16 (.reg .edx) (.named .ds)), []) ∧
  decodeBytes .default .s16 [0x8E, 0xD8] = some (.instr (.movSregRm16 (.named .ds) (.reg .eax)), []) ∧
  decodeBytes .default .s32 [0xBB, 0x00, 0x00, 0x01, 0x00] = some (.instr (.movReg32Imm32 .ebx 0x00010000), []) ∧
  decodeBytes .default .s32 [0xC7, 0x44, 0x24, 0x04, 0x78, 0x56, 0x34, 0x12] =
    some (.instr (.movRm32Imm32 (.mem ⟨none, .a32 (.sib .none .esp (.d8 4))⟩) 0x12345678), []) ∧
  decodeBytes .default .s32 [0x0F, 0x20, 0xD3] = some (.instr (.movR32Cr .ebx .cr2), []) ∧
  decodeBytes .default .s32 [0xF3, 0xA5] = some (.instr (.movsd true .s32), []) ∧
  decodeBytes .default .s32 [0x66, 0x0F, 0xBE, 0x57, 0xFF] =
    some (.instr (.movsxR16Rm8 .edx (.mem ⟨none, .a32 (.based .edi (.d8 0xFF))⟩)), []) ∧
  decodeBytes .default .s32 [0x0F, 0xB7, 0x4E, 0x01] =
    some (.instr (.movzxR32Rm16 .s32 .ecx (.mem ⟨none, .a32 (.based .esi (.d8 1))⟩)), []) ∧
  decodeBytes .default .s32 [0xF7, 0xE3] = some (.instr (.mulEaxRm32 (.reg .ebx)), [])

/-- For the opcodes 0F 20 to 0F 24 and 0F 26: a ModRM byte with mod other than 11 is refused as such; with mod = 11,
the numbers CR1, CR4 to CR7, DR4, DR5 and TR0 to TR5 are refused as such, and every other number decodes to the
move of that register to or from the general register that r/m names. The opcodes 0F 25 and 0F 27 are refused at
the second opcode byte. C6 or C7 with reg other than 000, MOVSX or MOVZX from a word with OperandSize 16 while
ADMIT_MOVX_W16 is false, F3 or F2 before a form that is no MOVS, F2 before a MOVS, F3 before a MOVS while
ADMIT_REP is false, a second prefix of one group, and a SIB byte that has a scale and no index in any form with
a ModRM operand, are each refused by name. Any other opcode is refused as not in scope. (Where R86 has #UD for
the same bytes as well, as 8E with reg 001 after F3 or with such a SIB byte, that they are refused is the
model's choice: log 29.) Derived from R151, R152, R86, R85, R71, R77, R167, R184, R194. -/
def Obligations.UndocumentedSpecialEncodings : Prop :=
  ∀ (p : Params) (d : Size) (mod : BitVec 2) (n g : BitVec 3) (rest : List Byte),
    (mod ≠ 3#2 → ∀ op ∈ [0x20#8, 0x21#8, 0x22#8, 0x23#8, 0x24#8, 0x26#8],
      decodeBytes p d (0x0F#8 :: op :: (mod ++ n ++ g : Byte) :: rest) = some (.refuse .specialMod, rest)) ∧
    (∀ op ∈ [0x20#8, 0x22#8], n ∈ [1#3, 4#3, 5#3, 6#3, 7#3] →
      decodeBytes p d (0x0F#8 :: op :: (3#2 ++ n ++ g : Byte) :: rest) = some (.refuse .specialNumber, rest)) ∧
    (∀ op ∈ [0x21#8, 0x23#8], n ∈ [4#3, 5#3] →
      decodeBytes p d (0x0F#8 :: op :: (3#2 ++ n ++ g : Byte) :: rest) = some (.refuse .specialNumber, rest)) ∧
    (∀ op ∈ [0x24#8, 0x26#8], n.toNat < 6 →
      decodeBytes p d (0x0F#8 :: op :: (3#2 ++ n ++ g : Byte) :: rest) = some (.refuse .specialNumber, rest)) ∧
    (∀ op ∈ [0x25#8, 0x27#8],
      decodeBytes p d (0x0F#8 :: op :: rest) = some (.refuse .specialNumber, rest)) ∧
    (∀ x ∈ [(0#3, CtlReg.cr0), (2#3, CtlReg.cr2), (3#3, CtlReg.cr3)],
      decodeBytes p d (0x0F#8 :: 0x20#8 :: (3#2 ++ x.1 ++ g : Byte) :: rest) =
          some (.instr (.movR32Cr (Reg.ofBits g) x.2), rest) ∧
        decodeBytes p d (0x0F#8 :: 0x22#8 :: (3#2 ++ x.1 ++ g : Byte) :: rest) =
          some (.instr (.movCrR32 x.2 (Reg.ofBits g)), rest)) ∧
    (∀ x ∈ [(0#3, BreakReg.dr0), (1#3, BreakReg.dr1), (2#3, BreakReg.dr2), (3#3, BreakReg.dr3)],
      decodeBytes p d (0x0F#8 :: 0x21#8 :: (3#2 ++ x.1 ++ g : Byte) :: rest) =
          some (.instr (.movR32Dr03 (Reg.ofBits g) x.2), rest) ∧
        decodeBytes p d (0x0F#8 :: 0x23#8 :: (3#2 ++ x.1 ++ g : Byte) :: rest) =
          some (.instr (.movDr03R32 x.2 (Reg.ofBits g)), rest)) ∧
    (∀ x ∈ [(6#3, DebugReg.dr6), (7#3, DebugReg.dr7)],
      decodeBytes p d (0x0F#8 :: 0x21#8 :: (3#2 ++ x.1 ++ g : Byte) :: rest) =
          some (.instr (.movR32Dr67 (Reg.ofBits g) x.2), rest) ∧
        decodeBytes p d (0x0F#8 :: 0x23#8 :: (3#2 ++ x.1 ++ g : Byte) :: rest) =
          some (.instr (.movDr67R32 x.2 (Reg.ofBits g)), rest)) ∧
    (∀ x ∈ [(6#3, TestReg.tr6), (7#3, TestReg.tr7)],
      decodeBytes p d (0x0F#8 :: 0x24#8 :: (3#2 ++ x.1 ++ g : Byte) :: rest) =
          some (.instr (.movR32Tr (Reg.ofBits g) x.2), rest) ∧
        decodeBytes p d (0x0F#8 :: 0x26#8 :: (3#2 ++ x.1 ++ g : Byte) :: rest) =
          some (.instr (.movTrR32 x.2 (Reg.ofBits g)), rest)) ∧
    (n ≠ 0#3 → ∀ op ∈ [0xC6#8, 0xC7#8],
      decodeBytes p d (op :: (mod ++ n ++ g : Byte) :: rest) = some (.refuse .movImmRegField, rest)) ∧
    (∀ (dst : Reg) (src : Rm Reg), src.wf = true → p.admitMovxW16 = false →
      decodeBytes p d (encode p d (.movsxR32Rm16 .s16 dst src) ++ rest) = some (.refuse .movxW16, rest) ∧
        decodeBytes p d (encode p d (.movzxR32Rm16 .s16 dst src) ++ rest) = some (.refuse .movxW16, rest)) ∧
    (∀ i : Instr, i.wf = true → i.admitted p = true → isStringMove i = false →
      decodeBytes p d (0xF3#8 :: encode p d i ++ rest) = some (.refuse .repBeforeNonString, rest) ∧
        decodeBytes p d (0xF2#8 :: encode p d i ++ rest) = some (.refuse .repne, rest)) ∧
    (∀ i : Instr, isStringMove i = true → repAddressSize i = none →
      decodeBytes p d (0xF2#8 :: encode p d i ++ rest) = some (.refuse .repne, rest) ∧
        (p.admitRep = false →
          decodeBytes p d (0xF3#8 :: encode p d i ++ rest) = some (.refuse .repNotAdmitted, rest))) ∧
    (∀ (pre : List Byte) (b : Byte), (∀ x ∈ pre, (prefixGroup x).isSome = true) → (pre.map prefixGroup).Nodup →
      prefixGroup b ∈ pre.map prefixGroup →
        decodeBytes p d (pre ++ b :: rest) = some (.refuse .repeatedPrefix, rest)) ∧
    (∀ (scale : BitVec 2) (base : BitVec 3), mod ≠ 3#2 → scale ≠ 0#2 →
      let pre := if d = .s32 then [] else [0x67#8]
      let tail := fun (reg : BitVec 3) => (mod ++ reg ++ 4#3 : Byte) :: (scale ++ 4#3 ++ base : Byte) :: rest
      (∀ op ∈ [0x88#8, 0x89#8, 0x8A#8, 0x8B#8, 0x8C#8, sregLoadByte p.sregLoad],
        decodeBytes p d (pre ++ op :: tail n) = some (.refuse .sibScaleWithoutIndex, rest)) ∧
      (∀ op ∈ [0xB6#8, 0xB7#8, 0xBE#8, 0xBF#8],
        decodeBytes p d (pre ++ 0x0F#8 :: op :: tail n) = some (.refuse .sibScaleWithoutIndex, rest)) ∧
      (∀ op ∈ [0xC6#8, 0xC7#8], decodeBytes p d (pre ++ op :: tail 0) = some (.refuse .sibScaleWithoutIndex, rest)) ∧
      ∀ op ∈ [0xF6#8, 0xF7#8], decodeBytes p d (pre ++ op :: tail 4) = some (.refuse .sibScaleWithoutIndex, rest)) ∧
    (∀ op : Byte, prefixGroup op = none → op.toNat / 16 ≠ 0xB → op ∉ [0x0F#8, 0x88#8, 0x89#8, 0x8A#8, 0x8B#8, 0x8C#8,
        sregLoadByte p.sregLoad, 0xA0#8, 0xA1#8, 0xA2#8, 0xA3#8, 0xA4#8, 0xA5#8, 0xC6#8, 0xC7#8, 0xF6#8, 0xF7#8] →
      decodeBytes p d (op :: rest) = some (.refuse .notInScope, rest)) ∧
    (∀ op : Byte, op.toNat / 8 ≠ 4 → op ∉ [0xB6#8, 0xB7#8, 0xBE#8, 0xBF#8] →
      decodeBytes p d (0x0F#8 :: op :: rest) = some (.refuse .notInScope, rest)) ∧
    (n ≠ 4#3 → ∀ op ∈ [0xF6#8, 0xF7#8],
      decodeBytes p d (op :: (mod ++ n ++ g : Byte) :: rest) = some (.refuse .notInScope, rest))

/-- Where the boundary lets an instruction start in state t, and the bytes fetched from CS:EIP one after another, at
most 15, are exactly those of an instruction i under the code segment's default size: let u be the state the
fetch leaves. If i completes from u in v, the step gives v with EIP the EIP of v plus the number of bytes,
modulo 2^32 in a 32-bit code segment and 2^16 otherwise (for an instruction that ends exactly at the limit of
CS, where R256 has two outcomes, this is the model's choice: log 28), and with the inhibit kept only by a MOV
into SS; if i is a REP MOVS that is to go on, the step gives v as it is, EIP kept (and the inhibit: log 40). An
exception of i is the step's fault; with the model's own switch (log 8), in real-address mode, it enters its
handler. Any other stop of i is the step's. Derived from R15, R87, R25, R167, R212, R215. -/
def Obligations.StepRunsTheDecodedInstruction : Prop :=
  ∀ (s t u : State) (i : Instr) (bs : List Byte), boundary s = .run t →
    decodeBytes t.params (defaultSize t) bs = some (.instr i, []) → bs.length ≤ maxInsnLen → fetches 0 bs t u →
      (∀ v, exec i u = .next v → repUnfinished i v = false → ∃ (e : Word) (h : Bool),
        step s = .next { v with eip := e, inhibit := h } ∧
          e.toNat = (v.eip.toNat + bs.length) %
            (if mode t = .protectedMode ∧ t.segs.cs.ar.big = true then 2 ^ 32 else 65536) ∧
            (h = true ↔ v.inhibit = true ∧ ∃ src, i = .movSregRm16 (.named .ss) src)) ∧
      (∀ v, exec i u = .next v → repUnfinished i v = true → step s = .next v) ∧
      (∀ x c w, exec i u = .fault (.exception x c w) → w.params.excModel = .terminal ∨ mode w ≠ .realAddress →
        step s = .fault (.exception x c w)) ∧
      (∀ x c w, exec i u = .fault (.exception x c w) → w.params.excModel = .vectored → mode w = .realAddress →
        step s = deliver (Exc.vector x) w) ∧
      (∀ f, exec i u = .fault f → (∀ x c w, f ≠ .exception x c w) → step s = .fault f) ∧
      ∀ r, exec i u = .refused r → step s = .refused r

/-- Where EIP is not END_EIP, no interrupt is deliverable and no debug exception is armed, the instruction starts in
the state with the arrivals of this boundary pending. Where EIP is END_EIP the run ends, the state being final;
while a store into a live page table waits for a write of CR3, it is refused by that name instead (R59, in the
form of log 17). Otherwise a deliverable interrupt is refused by name unless INTR_MODEL is the model's own
vectored value (log 10), and a step that begins with TF, a DR7 enable or GD set is refused by name: that is the
model's choice (log 14), for R222 only requires that LAUNCH has them clear. The order of these checks: log 19.
Derived from R15, R217, R222, R255, R25, R59. -/
def Obligations.BoundaryStartsAnInstruction : Prop :=
  ∀ s : State,
    (s.params.endEip ≠ some s.eip → interruptAt s = none → debugArmed s = false →
      boundary s = .run (atBoundary s)) ∧
    (s.params.endEip = some s.eip → s.staleTables = false → step s = .fault (.endOfRun s)) ∧
    (s.params.endEip = some s.eip → s.staleTables = true → step s = .refused .livePageTable) ∧
    (s.params.endEip ≠ some s.eip → interruptAt s ≠ none → s.params.intrModel = .refuseOnDelivery →
      step s = .refused .interruptDelivery) ∧
    (s.params.endEip ≠ some s.eip → interruptAt s = none → debugArmed s = true → step s = .refused .debugArmed)

/-- That the announcements stand in a list, one entry for each boundary, with the NMI hold and the removal of what
is delivered, is the model's form of the oracle (log 10). At a boundary an announced NMI becomes pending, and an
announced INTR becomes pending with its vector in place of an earlier one; what was pending stays so. With
INTR_MODEL none_assumed nothing is announced or delivered. Otherwise: nothing under the inhibit; vector 2 if an
NMI is pending and none is in service; else the announced vector if INTR is pending and IF = 1; else nothing.
The one delivered is no longer pending. Derived from R217, R218. -/
def Obligations.InterruptsAreTakenInOrder : Prop :=
  (∀ q : Interrupts, (q.arrivals = [] → latchArrival q = q) ∧
    ∀ a rest, q.arrivals = a :: rest → (latchArrival q).arrivals = rest ∧
      (latchArrival q).nmiPending = (q.nmiPending || a.nmi) ∧ (latchArrival q).nmiBlocked = q.nmiBlocked ∧
        (∀ v, a.intr = some v → (latchArrival q).intrPending = some v) ∧
          (a.intr = none → (latchArrival q).intrPending = q.intrPending)) ∧
  ∀ s : State,
    (s.params.intrModel = .noneAssumed → interruptAt s = none ∧ atBoundary s = s) ∧
    (s.params.intrModel ≠ .noneAssumed →
      let q := latchArrival s.irq
      atBoundary s = { s with irq := q } ∧
      (s.inhibit = true → interruptAt s = none) ∧
      (s.inhibit = false → q.nmiPending = true → q.nmiBlocked = false →
        interruptAt s = some (2, { s with irq := { q with nmiPending := false, nmiBlocked := true } })) ∧
      (s.inhibit = false → (q.nmiPending = false ∨ q.nmiBlocked = true) →
        (∀ v, q.intrPending = some v → s.eflags.ie = true →
          interruptAt s = some (v.toNat, { s with irq := { q with intrPending := none } })) ∧
        ((q.intrPending = none ∨ s.eflags.ie = false) → interruptAt s = none)))

/-- Byte i of an instruction lies at the linear address CS base plus EIP plus i. With paging off, where that address
is of PROGRAM_TEXT, the fetch gives the byte memory holds there and changes nothing. With paging on it gives the
byte at the physical address that a read at the current privilege level translates to, and changes only accessed
bits of the entries that translate it; where that translation stops, as with a page fault, the fetch stops so;
it stops too where that byte is not populated or was never written. Outside PROGRAM_TEXT it is refused by name,
before any translation (log 18). An offset past the code segment's limit in protected mode is #GP(0), past FFFFH
in the other modes Interrupt 13, without an error code in real-address mode and with the code 0 in virtual-8086
mode (log 26, 27). A code segment need not be readable. Derived from R14, R58, R49, R87, 92_eei_decisions.md D9,
R29. -/
def Obligations.FetchReadsCodeBytes : Prop :=
  ∀ (s : State) (i : Nat),
    let la := s.segs.cs.base + s.eip + BitVec.ofNat 32 i
    let level3 := decide (cpl s = 3)
    (paging s = false → ∀ b, fetchFault s (s.eip.toNat + i) = none → inProgramText s la = true →
      populated s la.toNat = true → s.mem.read? la.toNat = some b → fetchByte i s = .ok b s) ∧
    (∀ pa b, fetchFault s (s.eip.toNat + i) = none → inProgramText s la = true → mapped s la false level3 = true →
      physAddr? s false level3 la = some pa → populated s pa = true → s.mem.read? pa = some b →
        ∃ c t, fetchByte i s = .ok c t ∧ t.mem.read? pa = some c ∧ sameButMemory s t ∧
          keepsBytes accessedBit (entryMarks s la) [] s.mem t.mem) ∧
    (∀ f, fetchFault s (s.eip.toNat + i) = none → inProgramText s la = true →
      translate la false level3 s = .fault f → fetchByte i s = .fault f) ∧
    (∀ pa f, fetchFault s (s.eip.toNat + i) = none → inProgramText s la = true → mapped s la false level3 = true →
      physAddr? s false level3 la = some pa → byteStop? s pa = some f → fetchByte i s = .fault f) ∧
    (fetchFault s (s.eip.toNat + i) = none → inProgramText s la = false →
      fetchByte i s = .refused .outsideProgramText) ∧
    (mode s = .protectedMode → s.segs.cs.ar.isCode = true →
      (fetchFault s (s.eip.toNat + i) = none ↔ s.eip.toNat + i ≤ s.segs.cs.limit.toNat)) ∧
    (mode s ≠ .protectedMode → (fetchFault s (s.eip.toNat + i) = none ↔ s.eip.toNat + i ≤ 0xFFFF)) ∧
    ∀ x c, fetchFault s (s.eip.toNat + i) = some (x, c) →
      fetchByte i s = .fault (.exception x c { s with inhibit := false }) ∧ x = .gp ∧
        c = (if mode s = .realAddress then none else some 0)

/-- The EIP after an instruction of len bytes is the sum modulo 2^16 or 2^32 by the default size of the code
segment, which is 16 outside protected mode and by the D bit of CS in it. (So an instruction that ends at FFFFH
of a 16-bit code segment leaves EIP 0; R256 says this and also the opposite, and taking it so is the model's
choice, log 28.) Derived from R15, R256. -/
def Obligations.InstructionPointerWraps : Prop :=
  (∀ (eip : Word) (len : Nat), (nextEip .s16 eip len).toNat = (eip.toNat + len) % 65536 ∧
    (nextEip .s32 eip len).toNat = (eip.toNat + len) % 2 ^ 32) ∧
    ∀ s : State, defaultSize s = if mode s = .protectedMode ∧ s.segs.cs.ar.big = true then .s32 else .s16

/-- This is the model's own switch (log 8), off by default: the spec's decision is that an exception ends the run.
With paging off, in real-address mode, where the 4-byte entry at IDTR base + 4n is listed and populated, SP is
at least 6, and the three words below SS:SP can be written, delivering vector n completes: FLAGS, CS and IP
stand at SP-2, SP-4, SP-6, SP is 6 less, IF and TF are 0, EIP is the offset and CS the segment of the entry, and
no other general register changes. Derived from R215, 60_exceptions.md section 3. -/
def Obligations.VectoredExceptionEntersItsHandler : Prop :=
  ∀ (s : State) (vec : Nat) (e : List Byte), mode s = .realAddress → paging s = false → e.length = 4 →
    let at' := s.sys.idtr.base + BitVec.ofNat 32 (4 * vec)
    let sp := readR16 s .esp
    (∀ k, k < 4 → populated s (at' + BitVec.ofNat 32 k).toNat = true) → holdsLinear s false false s.mem at' e →
      6 ≤ sp.toNat → canStore s .ss ((sp - 2).setWidth 32) 2 = true → canStore s .ss ((sp - 4).setWidth 32) 2 = true →
        canStore s .ss ((sp - 6).setWidth 32) 2 = true →
          ∃ t, deliver vec s = .next t ∧ t.eip.toNat = leNat (e.take 2) ∧ t.segs.cs.sel.toNat = leNat (e.drop 2) ∧
            t.segs.cs.base.toNat = 16 * leNat (e.drop 2) ∧ readR16 t .esp = sp - 6 ∧
              (∀ q, q ≠ .esp → readR32 t q = readR32 s q) ∧ getFlag t .ie = false ∧ getFlag t .tf = false ∧
                holdsBytes s true t.mem .ss ((sp - 2).setWidth 32) (leBytes 2 (flagsWord s.eflags)) ∧
                  holdsBytes s true t.mem .ss ((sp - 4).setWidth 32) (leBytes 2 s.segs.cs.sel) ∧
                    holdsBytes s true t.mem .ss ((sp - 6).setWidth 32) (leBytes 2 (s.eip.extractLsb' 0 16))

/-- Whenever a step completes, the parameters are as before; and where the model's switch for mode changes (log 13)
is off, so are the mode and the current privilege level, and no table register has changed. Derived from R219,
R18. -/
def Obligations.StepKeepsModeAndParameters : Prop :=
  ∀ s t : State, step s = .next t →
    t.params = s.params ∧ t.sys.gdtr = s.sys.gdtr ∧ t.sys.ldtr = s.sys.ldtr ∧ t.sys.idtr = s.sys.idtr ∧
      t.sys.task = s.sys.task ∧ (s.params.admitModeSwitch = false → mode t = mode s ∧ cpl t = cpl s)

/-- In the state after reset memory is in its canonical form; no debug exception is armed; the clause on the stack
segment holds, being about protected mode; and EIP is below 65536 in the 16-bit code segment. Derived from R250,
R222. -/
def Obligations.ResetMeetsTheInvariant : Prop :=
  MachineInv State.reset

/-- For every state, reached or not, that meets the invariant: if a step completes, the next state meets it. The
invariant: memory is in its canonical form; while arming is not admitted, TF, the DR7 enables and GD are 0;
while mode switches are not admitted, in protected mode SS is valid and writable data, and in a 16-bit code
segment EIP is below 65536. The clause on EIP is the model's choice where an instruction ends exactly at the
limit of a 16-bit segment with limit FFFFH or a little above (R256 says both "modulo 2^16" and "one past it":
log 28). The switches that admit mode switches and the arming of breakpoints are the model's own (log 13, log
14). Derived from R222, R122, R15, R256, 20_memory.md section 1. -/
def Obligations.EveryStepKeepsTheInvariant : Prop :=
  ∀ s t : State, MachineInv s → step s = .next t → MachineInv t

/-- EIP 0000FFF0H; CS F000H with base FFFF0000H, limit FFFFH, present, readable, writable, accessed, valid; the
other segment registers 0 with base 0, limit FFFFH, present, writable, expand-up data, valid; every flag and
IOPL 0; PE, MP, EM, TS and PG 0; DH 03H; DR7 0; IDTR base 0, limit 03FFH; inhibit 0; real-address mode, level 0;
the first byte is fetched from FFFFFFF0H. (Values the table leaves unspecified are the model's: log 2 to 6.)
Derived from R250. -/
def Obligations.ResetStateHasTheTabledValues : Prop :=
  State.reset.eip = 0x0000FFF0#32 ∧ State.reset.segs.cs.sel = 0xF000#16 ∧
    State.reset.segs.cs.base = 0xFFFF0000#32 ∧ State.reset.segs.cs.limit = 0x0000FFFF#32 ∧
      State.reset.segs.cs.valid = true ∧ State.reset.segs.cs.ar.present = true ∧
        State.reset.segs.cs.ar.readable = true ∧ State.reset.segs.cs.ar.writable = true ∧ State.reset.segs.cs.ar.accessed = true ∧
          (∀ r, r ≠ .cs → (readSreg .reset r).sel = 0 ∧ (readSreg .reset r).base = 0 ∧
            (readSreg .reset r).limit = 0x0000FFFF#32 ∧ (readSreg .reset r).valid = true ∧
              (readSreg .reset r).ar.present = true ∧ (readSreg .reset r).ar.isCode = false ∧
                (readSreg .reset r).ar.writable = true ∧ (readSreg .reset r).ar.expandDown = false) ∧
            (∀ f, getFlag .reset f = false) ∧ State.reset.eflags.iopl = 0 ∧
              (∀ k ∈ [0, 1, 2, 3, 31], State.reset.sys.cr0.getLsbD k = false) ∧ readR8 .reset .dh = 0x03#8 ∧
                State.reset.sys.dr7 = 0 ∧ State.reset.sys.idtr = ⟨0, 0x03FF#16⟩ ∧ State.reset.inhibit = false ∧
                  mode .reset = .realAddress ∧ cpl .reset = 0 ∧ fetchAddr .reset 0 = 0xFFFFFFF0#32

/-- Where the boundary lets an instruction start in state t and the bytes bs, at most 15, are fetched from CS:EIP
one after another, leaving u: if they are an invalid opcode, the step is #UD without an error code, and if they
are refused, the step is refused as the decoder says. If they are 15 and no whole instruction, the step is
#GP(0), or Interrupt 13 without a code in real-address mode; that this comes before byte 16 is fetched, and
before what the instruction would be, is the model's choice (log 27, log 29). If they are fewer and no whole
instruction, and the next byte cannot be fetched, the step stops as that fetch does. In virtual-8086 mode the
code of Interrupt 13 is 0 (log 26). In #UD and the length fault the state is u with the inhibit cleared, in a
stopped fetch that of the fetch; with the model's own switch (log 8) exceptions in real-address mode enter their
handlers. Derived from R86, R87, R58, R212, 92_eei_decisions.md D29. -/
def Obligations.StepStopsWhereNoInstructionIsFetched : Prop :=
  ∀ (s t u : State) (bs : List Byte), boundary s = .run t → bs.length ≤ maxInsnLen → fetches 0 bs t u →
    (∀ r, decodeBytes t.params (defaultSize t) bs = some (.refuse r, []) → step s = .refused (.undecodable r)) ∧
    (decodeBytes t.params (defaultSize t) bs = some (.invalidOpcode, []) →
      (u.params.excModel = .terminal ∨ mode u ≠ .realAddress →
        step s = .fault (.exception .ud none { u with inhibit := false })) ∧
      (u.params.excModel = .vectored → mode u = .realAddress → step s = deliver 6 { u with inhibit := false })) ∧
    (decodeBytes t.params (defaultSize t) bs = none → bs.length = 15 →
      (u.params.excModel = .terminal ∨ mode u ≠ .realAddress →
        step s = .fault (.exception .gp (if mode u = .realAddress then none else some 0) { u with inhibit := false })) ∧
      (u.params.excModel = .vectored → mode u = .realAddress → step s = deliver 13 { u with inhibit := false })) ∧
    (decodeBytes t.params (defaultSize t) bs = none → bs.length < 15 →
      (∀ r, fetchByte bs.length u = .refused r → step s = .refused r) ∧
      (∀ x c w, fetchByte bs.length u = .fault (.exception x c w) →
        w.params.excModel = .terminal ∨ mode w ≠ .realAddress → step s = .fault (.exception x c w)) ∧
      (∀ x c w, fetchByte bs.length u = .fault (.exception x c w) → w.params.excModel = .vectored →
        mode w = .realAddress → step s = deliver (Exc.vector x) w) ∧
      ∀ f, fetchByte bs.length u = .fault f → (∀ x c w, f ≠ .exception x c w) → step s = .fault f)
end

