-- ==== Sys2Proof/Laws/Memory.lean ====
section
/-! SUPPORT. Memory: a read after a write, and the canonical form that every write keeps. -/

namespace Sys2Proof.Machine

/-! ### Reads after writes -/

/-- A byte reads as what was last written to it. -/
@[simp] theorem Memory.read?_write_same (m : Memory) (a : Nat) (v : Byte) : (m.write a v).read? a = some v := by
  induction m with
  | nil => simp [write, read?]
  | cons c rest ih =>
    simp only [write]
    split
    · simp [read?]
    · split <;> simp_all [read?]

/-- A write leaves every other byte alone. -/
theorem Memory.read?_write_ne (m : Memory) {a b : Nat} (v : Byte) (h : b ≠ a) :
    (m.write a v).read? b = m.read? b := by
  induction m with
  | nil => simp [write, read?, Ne.symm h]
  | cons c rest ih =>
    simp only [write]
    split
    · simp [read?, Ne.symm h]
    · split
      · rename_i _ hx
        have hx' : ¬ c.1 = b := fun e => h (e.symm.trans hx)
        simp [read?, hx']
      · simp [read?, ih]

theorem Memory.read?_write (m : Memory) (a b : Nat) (v : Byte) :
    (m.write a v).read? b = if b = a then some v else m.read? b := by
  split
  · rename_i h
    rw [h, read?_write_same]
  · exact read?_write_ne m v ‹_›

/-- Several writes leave every byte alone that none of them names. -/
theorem Memory.read?_writeAll_outside (m : Memory) (l : List (Nat × Byte)) (a : Nat) (h : a ∉ l.map Prod.fst) :
    (m.writeAll l).read? a = m.read? a := by
  induction l generalizing m with
  | nil => rfl
  | cons c rest ih =>
    simp only [List.map_cons, List.mem_cons, not_or] at h
    rw [writeAll, ih _ h.2, read?_write_ne _ _ h.1]

/-- Writes to different addresses all stand. -/
theorem Memory.read?_writeAll_mem (m : Memory) (l : List (Nat × Byte)) (hn : (l.map Prod.fst).Nodup) {c : Nat × Byte}
    (h : c ∈ l) : (m.writeAll l).read? c.1 = some c.2 := by
  induction l generalizing m with
  | nil => cases h
  | cons d rest ih =>
    simp only [List.map_cons, List.nodup_cons] at hn
    rcases List.mem_cons.mp h with rfl | hr
    · rw [writeAll, read?_writeAll_outside _ _ _ hn.1, read?_write_same]
    · exact ih _ hn.2 hr

/-! ### The canonical form -/

theorem Memory.sortedFrom_mono {lo hi : Nat} {m : Memory} (h : sortedFrom hi m = true) (hl : lo ≤ hi) :
    sortedFrom lo m = true := by
  cases m with
  | nil => rfl
  | cons c rest =>
    simp only [sortedFrom, Bool.and_eq_true, decide_eq_true_eq] at *
    exact ⟨⟨Nat.le_trans hl h.1.1, h.1.2⟩, h.2⟩

theorem Memory.sortedFrom_write {lo a : Nat} (v : Byte) {m : Memory} (h : sortedFrom lo m = true) (hl : lo ≤ a)
    (ha : a < addressSpace) : sortedFrom lo (m.write a v) = true := by
  induction m generalizing lo with
  | nil => simp [write, sortedFrom, hl, ha]
  | cons c rest ih =>
    simp only [sortedFrom, Bool.and_eq_true, decide_eq_true_eq] at h
    simp only [write]
    split
    · simp only [sortedFrom, Bool.and_eq_true, decide_eq_true_eq]
      exact ⟨⟨hl, ha⟩, ⟨‹_›, h.1.2⟩, h.2⟩
    · split
      · simp only [sortedFrom, Bool.and_eq_true, decide_eq_true_eq]
        exact h
      · simp only [sortedFrom, Bool.and_eq_true, decide_eq_true_eq]
        exact ⟨h.1, ih h.2 (by omega)⟩

/-- A write inside the address space keeps the canonical form. -/
theorem Memory.wf_write {m : Memory} (h : m.wf = true) {a : Nat} (v : Byte) (ha : a < addressSpace) :
    (m.write a v).wf = true :=
  sortedFrom_write v h (Nat.zero_le a) ha

/-- Writes inside the address space keep the canonical form. -/
theorem Memory.wf_writeAll {m : Memory} (h : m.wf = true) (l : List (Nat × Byte))
    (hl : ∀ c ∈ l, c.1 < addressSpace) : (m.writeAll l).wf = true := by
  induction l generalizing m with
  | nil => exact h
  | cons c rest ih =>
    simp only [List.mem_cons, forall_eq_or_imp] at hl
    exact ih (wf_write h c.2 hl.1) hl.2

theorem Memory.read?_below {lo a : Nat} {m : Memory} (h : sortedFrom lo m = true) (ha : a < lo) :
    m.read? a = none := by
  induction m generalizing lo with
  | nil => rfl
  | cons c rest ih =>
    simp only [sortedFrom, Bool.and_eq_true, decide_eq_true_eq] at h
    have hx : ¬ c.1 = a := by omega
    simp only [read?, hx, if_false]
    exact ih h.2 (by omega)

/-- A byte that has a value lies in the address space. -/
theorem Memory.read?_bound {lo a : Nat} {b : Byte} {m : Memory} (h : sortedFrom lo m = true)
    (ha : m.read? a = some b) : lo ≤ a ∧ a < addressSpace := by
  induction m generalizing lo with
  | nil => cases ha
  | cons c rest ih =>
    simp only [sortedFrom, Bool.and_eq_true, decide_eq_true_eq] at h
    simp only [read?] at ha
    split at ha
    · omega
    · have := ih h.2 ha
      omega

/-- In the canonical form every listed byte is the one its address reads as. -/
theorem Memory.read?_of_mem {lo : Nat} {m : Memory} (h : sortedFrom lo m = true) {c : Nat × Byte} (hc : c ∈ m) :
    m.read? c.1 = some c.2 := by
  induction m generalizing lo with
  | nil => cases hc
  | cons d rest ih =>
    simp only [sortedFrom, Bool.and_eq_true, decide_eq_true_eq] at h
    rcases List.mem_cons.mp hc with rfl | hr
    · simp [read?]
    · have hb := Memory.read?_bound h.2 (ih h.2 hr)
      have hx : ¬ d.1 = c.1 := by omega
      simp only [read?, hx, if_false]
      exact ih h.2 hr

theorem Memory.eq_of_sortedFrom {lo : Nat} {m n : Memory} (hm : sortedFrom lo m = true) (hn : sortedFrom lo n = true)
    (h : ∀ a, m.read? a = n.read? a) : m = n := by
  induction m generalizing lo n with
  | nil =>
    cases n with
    | nil => rfl
    | cons d rest => simpa [read?] using h d.1
  | cons c ms ih =>
    cases n with
    | nil => simpa [read?] using h c.1
    | cons d ns =>
      simp only [sortedFrom, Bool.and_eq_true, decide_eq_true_eq] at hm hn
      have hcd : c.1 = d.1 := by
        rcases Nat.lt_trichotomy c.1 d.1 with hlt | he | hgt
        · have h1 := h c.1
          have hx : ¬ d.1 = c.1 := by omega
          rw [show Memory.read? (d :: ns) c.1 = Memory.read? ns c.1 by simp [read?, hx],
            read?_below hn.2 (show c.1 < d.1 + 1 by omega)] at h1
          simp [read?] at h1
        · exact he
        · have h1 := h d.1
          have hx : ¬ c.1 = d.1 := by omega
          rw [show Memory.read? (c :: ms) d.1 = Memory.read? ms d.1 by simp [read?, hx],
            read?_below hm.2 (show d.1 < c.1 + 1 by omega)] at h1
          simp [read?] at h1
      have hb : c.2 = d.2 := by simpa [read?, hcd] using h c.1
      have hrest : ms = ns := by
        refine ih hm.2 (by rw [hcd]; exact hn.2) fun a => ?_
        by_cases ha : a = c.1
        · rw [ha, read?_below hm.2 (by omega), read?_below hn.2 (by omega)]
        · have h1 := h a
          have hx : ¬ c.1 = a := fun e => ha e.symm
          have hy : ¬ d.1 = a := fun e => ha (e.symm.trans hcd.symm)
          simpa [read?, hx, hy] using h1
      rw [hrest, Prod.ext hcd hb]

/-- Canonical memories that read alike are the same data. -/
theorem Memory.eq_of_read? {m n : Memory} (hm : m.wf = true) (hn : n.wf = true) (h : ∀ a, m.read? a = n.read? a) :
    m = n :=
  eq_of_sortedFrom hm hn h

end Sys2Proof.Machine
end

