-- ==== Sys2Proof/Laws/State.lean ====
section
/-! SUPPORT. Each update of the state, field by field, and the reads of registers and flags after their writes. -/

namespace Sys2Proof.Machine

/-! ### writeR32 -/

@[simp] theorem writeR32_eip (r : Reg) (v : Word) (s : State) : (writeR32 r v s).eip = s.eip := rfl
@[simp] theorem writeR32_eflags (r : Reg) (v : Word) (s : State) : (writeR32 r v s).eflags = s.eflags := rfl
@[simp] theorem writeR32_segs (r : Reg) (v : Word) (s : State) : (writeR32 r v s).segs = s.segs := rfl
@[simp] theorem writeR32_sys (r : Reg) (v : Word) (s : State) : (writeR32 r v s).sys = s.sys := rfl
@[simp] theorem writeR32_irq (r : Reg) (v : Word) (s : State) : (writeR32 r v s).irq = s.irq := rfl
@[simp] theorem writeR32_inhibit (r : Reg) (v : Word) (s : State) : (writeR32 r v s).inhibit = s.inhibit := rfl
@[simp] theorem writeR32_mem (r : Reg) (v : Word) (s : State) : (writeR32 r v s).mem = s.mem := rfl
@[simp] theorem writeR32_staleTables (r : Reg) (v : Word) (s : State) : (writeR32 r v s).staleTables = s.staleTables := rfl
@[simp] theorem writeR32_draws (r : Reg) (v : Word) (s : State) : (writeR32 r v s).draws = s.draws := rfl
@[simp] theorem writeR32_params (r : Reg) (v : Word) (s : State) : (writeR32 r v s).params = s.params := rfl

/-! ### writeR16 -/

@[simp] theorem writeR16_eip (r : Reg) (v : Half) (s : State) : (writeR16 r v s).eip = s.eip := rfl
@[simp] theorem writeR16_eflags (r : Reg) (v : Half) (s : State) : (writeR16 r v s).eflags = s.eflags := rfl
@[simp] theorem writeR16_segs (r : Reg) (v : Half) (s : State) : (writeR16 r v s).segs = s.segs := rfl
@[simp] theorem writeR16_sys (r : Reg) (v : Half) (s : State) : (writeR16 r v s).sys = s.sys := rfl
@[simp] theorem writeR16_irq (r : Reg) (v : Half) (s : State) : (writeR16 r v s).irq = s.irq := rfl
@[simp] theorem writeR16_inhibit (r : Reg) (v : Half) (s : State) : (writeR16 r v s).inhibit = s.inhibit := rfl
@[simp] theorem writeR16_mem (r : Reg) (v : Half) (s : State) : (writeR16 r v s).mem = s.mem := rfl
@[simp] theorem writeR16_staleTables (r : Reg) (v : Half) (s : State) : (writeR16 r v s).staleTables = s.staleTables := rfl
@[simp] theorem writeR16_draws (r : Reg) (v : Half) (s : State) : (writeR16 r v s).draws = s.draws := rfl
@[simp] theorem writeR16_params (r : Reg) (v : Half) (s : State) : (writeR16 r v s).params = s.params := rfl

/-! ### writeR8 -/

@[simp] theorem writeR8_eip (r : Reg8) (v : Byte) (s : State) : (writeR8 r v s).eip = s.eip := rfl
@[simp] theorem writeR8_eflags (r : Reg8) (v : Byte) (s : State) : (writeR8 r v s).eflags = s.eflags := rfl
@[simp] theorem writeR8_segs (r : Reg8) (v : Byte) (s : State) : (writeR8 r v s).segs = s.segs := rfl
@[simp] theorem writeR8_sys (r : Reg8) (v : Byte) (s : State) : (writeR8 r v s).sys = s.sys := rfl
@[simp] theorem writeR8_irq (r : Reg8) (v : Byte) (s : State) : (writeR8 r v s).irq = s.irq := rfl
@[simp] theorem writeR8_inhibit (r : Reg8) (v : Byte) (s : State) : (writeR8 r v s).inhibit = s.inhibit := rfl
@[simp] theorem writeR8_mem (r : Reg8) (v : Byte) (s : State) : (writeR8 r v s).mem = s.mem := rfl
@[simp] theorem writeR8_staleTables (r : Reg8) (v : Byte) (s : State) : (writeR8 r v s).staleTables = s.staleTables := rfl
@[simp] theorem writeR8_draws (r : Reg8) (v : Byte) (s : State) : (writeR8 r v s).draws = s.draws := rfl
@[simp] theorem writeR8_params (r : Reg8) (v : Byte) (s : State) : (writeR8 r v s).params = s.params := rfl

/-! ### writeSreg -/

@[simp] theorem writeSreg_regs (r : SegReg) (v : Segment) (s : State) : (writeSreg r v s).regs = s.regs := rfl
@[simp] theorem writeSreg_eip (r : SegReg) (v : Segment) (s : State) : (writeSreg r v s).eip = s.eip := rfl
@[simp] theorem writeSreg_eflags (r : SegReg) (v : Segment) (s : State) : (writeSreg r v s).eflags = s.eflags := rfl
@[simp] theorem writeSreg_sys (r : SegReg) (v : Segment) (s : State) : (writeSreg r v s).sys = s.sys := rfl
@[simp] theorem writeSreg_irq (r : SegReg) (v : Segment) (s : State) : (writeSreg r v s).irq = s.irq := rfl
@[simp] theorem writeSreg_inhibit (r : SegReg) (v : Segment) (s : State) : (writeSreg r v s).inhibit = s.inhibit := rfl
@[simp] theorem writeSreg_mem (r : SegReg) (v : Segment) (s : State) : (writeSreg r v s).mem = s.mem := rfl
@[simp] theorem writeSreg_staleTables (r : SegReg) (v : Segment) (s : State) : (writeSreg r v s).staleTables = s.staleTables := rfl
@[simp] theorem writeSreg_draws (r : SegReg) (v : Segment) (s : State) : (writeSreg r v s).draws = s.draws := rfl
@[simp] theorem writeSreg_params (r : SegReg) (v : Segment) (s : State) : (writeSreg r v s).params = s.params := rfl

/-! ### loadRealSegment -/

@[simp] theorem loadRealSegment_regs (r : SegReg) (sel : Half) (s : State) : (loadRealSegment r sel s).regs = s.regs := rfl
@[simp] theorem loadRealSegment_eip (r : SegReg) (sel : Half) (s : State) : (loadRealSegment r sel s).eip = s.eip := rfl
@[simp] theorem loadRealSegment_eflags (r : SegReg) (sel : Half) (s : State) : (loadRealSegment r sel s).eflags = s.eflags := rfl
@[simp] theorem loadRealSegment_sys (r : SegReg) (sel : Half) (s : State) : (loadRealSegment r sel s).sys = s.sys := rfl
@[simp] theorem loadRealSegment_irq (r : SegReg) (sel : Half) (s : State) : (loadRealSegment r sel s).irq = s.irq := rfl
@[simp] theorem loadRealSegment_inhibit (r : SegReg) (sel : Half) (s : State) : (loadRealSegment r sel s).inhibit = s.inhibit := rfl
@[simp] theorem loadRealSegment_mem (r : SegReg) (sel : Half) (s : State) : (loadRealSegment r sel s).mem = s.mem := rfl
@[simp] theorem loadRealSegment_staleTables (r : SegReg) (sel : Half) (s : State) : (loadRealSegment r sel s).staleTables = s.staleTables := rfl
@[simp] theorem loadRealSegment_draws (r : SegReg) (sel : Half) (s : State) : (loadRealSegment r sel s).draws = s.draws := rfl
@[simp] theorem loadRealSegment_params (r : SegReg) (sel : Half) (s : State) : (loadRealSegment r sel s).params = s.params := rfl

/-! ### loadVirtualSegment -/

@[simp] theorem loadVirtualSegment_regs (r : SegReg) (sel : Half) (s : State) : (loadVirtualSegment r sel s).regs = s.regs := rfl
@[simp] theorem loadVirtualSegment_eip (r : SegReg) (sel : Half) (s : State) : (loadVirtualSegment r sel s).eip = s.eip := rfl
@[simp] theorem loadVirtualSegment_eflags (r : SegReg) (sel : Half) (s : State) : (loadVirtualSegment r sel s).eflags = s.eflags := rfl
@[simp] theorem loadVirtualSegment_sys (r : SegReg) (sel : Half) (s : State) : (loadVirtualSegment r sel s).sys = s.sys := rfl
@[simp] theorem loadVirtualSegment_irq (r : SegReg) (sel : Half) (s : State) : (loadVirtualSegment r sel s).irq = s.irq := rfl
@[simp] theorem loadVirtualSegment_inhibit (r : SegReg) (sel : Half) (s : State) : (loadVirtualSegment r sel s).inhibit = s.inhibit := rfl
@[simp] theorem loadVirtualSegment_mem (r : SegReg) (sel : Half) (s : State) : (loadVirtualSegment r sel s).mem = s.mem := rfl
@[simp] theorem loadVirtualSegment_staleTables (r : SegReg) (sel : Half) (s : State) : (loadVirtualSegment r sel s).staleTables = s.staleTables := rfl
@[simp] theorem loadVirtualSegment_draws (r : SegReg) (sel : Half) (s : State) : (loadVirtualSegment r sel s).draws = s.draws := rfl
@[simp] theorem loadVirtualSegment_params (r : SegReg) (sel : Half) (s : State) : (loadVirtualSegment r sel s).params = s.params := rfl

/-! ### loadRealCs -/

@[simp] theorem loadRealCs_regs (sel : Half) (s : State) : (loadRealCs sel s).regs = s.regs := rfl
@[simp] theorem loadRealCs_eip (sel : Half) (s : State) : (loadRealCs sel s).eip = s.eip := rfl
@[simp] theorem loadRealCs_eflags (sel : Half) (s : State) : (loadRealCs sel s).eflags = s.eflags := rfl
@[simp] theorem loadRealCs_sys (sel : Half) (s : State) : (loadRealCs sel s).sys = s.sys := rfl
@[simp] theorem loadRealCs_irq (sel : Half) (s : State) : (loadRealCs sel s).irq = s.irq := rfl
@[simp] theorem loadRealCs_inhibit (sel : Half) (s : State) : (loadRealCs sel s).inhibit = s.inhibit := rfl
@[simp] theorem loadRealCs_mem (sel : Half) (s : State) : (loadRealCs sel s).mem = s.mem := rfl
@[simp] theorem loadRealCs_staleTables (sel : Half) (s : State) : (loadRealCs sel s).staleTables = s.staleTables := rfl
@[simp] theorem loadRealCs_draws (sel : Half) (s : State) : (loadRealCs sel s).draws = s.draws := rfl
@[simp] theorem loadRealCs_params (sel : Half) (s : State) : (loadRealCs sel s).params = s.params := rfl

/-! ### setFlag -/

@[simp] theorem setFlag_regs (s : State) (f : Flag) (v : Bool) : (setFlag s f v).regs = s.regs := rfl
@[simp] theorem setFlag_eip (s : State) (f : Flag) (v : Bool) : (setFlag s f v).eip = s.eip := rfl
@[simp] theorem setFlag_segs (s : State) (f : Flag) (v : Bool) : (setFlag s f v).segs = s.segs := rfl
@[simp] theorem setFlag_sys (s : State) (f : Flag) (v : Bool) : (setFlag s f v).sys = s.sys := rfl
@[simp] theorem setFlag_irq (s : State) (f : Flag) (v : Bool) : (setFlag s f v).irq = s.irq := rfl
@[simp] theorem setFlag_inhibit (s : State) (f : Flag) (v : Bool) : (setFlag s f v).inhibit = s.inhibit := rfl
@[simp] theorem setFlag_mem (s : State) (f : Flag) (v : Bool) : (setFlag s f v).mem = s.mem := rfl
@[simp] theorem setFlag_staleTables (s : State) (f : Flag) (v : Bool) : (setFlag s f v).staleTables = s.staleTables := rfl
@[simp] theorem setFlag_draws (s : State) (f : Flag) (v : Bool) : (setFlag s f v).draws = s.draws := rfl
@[simp] theorem setFlag_params (s : State) (f : Flag) (v : Bool) : (setFlag s f v).params = s.params := rfl

/-! ### advanceDraw -/

@[simp] theorem advanceDraw_regs (s : State) : (advanceDraw s).regs = s.regs := rfl
@[simp] theorem advanceDraw_eip (s : State) : (advanceDraw s).eip = s.eip := rfl
@[simp] theorem advanceDraw_eflags (s : State) : (advanceDraw s).eflags = s.eflags := rfl
@[simp] theorem advanceDraw_segs (s : State) : (advanceDraw s).segs = s.segs := rfl
@[simp] theorem advanceDraw_sys (s : State) : (advanceDraw s).sys = s.sys := rfl
@[simp] theorem advanceDraw_irq (s : State) : (advanceDraw s).irq = s.irq := rfl
@[simp] theorem advanceDraw_inhibit (s : State) : (advanceDraw s).inhibit = s.inhibit := rfl
@[simp] theorem advanceDraw_mem (s : State) : (advanceDraw s).mem = s.mem := rfl
@[simp] theorem advanceDraw_staleTables (s : State) : (advanceDraw s).staleTables = s.staleTables := rfl
@[simp] theorem advanceDraw_params (s : State) : (advanceDraw s).params = s.params := rfl

/-! ### undefineFlag -/

@[simp] theorem undefineFlag_regs (s : State) (f : Flag) : (undefineFlag s f).regs = s.regs := rfl
@[simp] theorem undefineFlag_eip (s : State) (f : Flag) : (undefineFlag s f).eip = s.eip := rfl
@[simp] theorem undefineFlag_segs (s : State) (f : Flag) : (undefineFlag s f).segs = s.segs := rfl
@[simp] theorem undefineFlag_sys (s : State) (f : Flag) : (undefineFlag s f).sys = s.sys := rfl
@[simp] theorem undefineFlag_irq (s : State) (f : Flag) : (undefineFlag s f).irq = s.irq := rfl
@[simp] theorem undefineFlag_inhibit (s : State) (f : Flag) : (undefineFlag s f).inhibit = s.inhibit := rfl
@[simp] theorem undefineFlag_mem (s : State) (f : Flag) : (undefineFlag s f).mem = s.mem := rfl
@[simp] theorem undefineFlag_staleTables (s : State) (f : Flag) : (undefineFlag s f).staleTables = s.staleTables := rfl
@[simp] theorem undefineFlag_params (s : State) (f : Flag) : (undefineFlag s f).params = s.params := rfl

/-! ### readTest -/

@[simp] theorem readTest_eip (r : Reg) (s : State) : (readTest r s).eip = s.eip := rfl
@[simp] theorem readTest_eflags (r : Reg) (s : State) : (readTest r s).eflags = s.eflags := rfl
@[simp] theorem readTest_segs (r : Reg) (s : State) : (readTest r s).segs = s.segs := rfl
@[simp] theorem readTest_sys (r : Reg) (s : State) : (readTest r s).sys = s.sys := rfl
@[simp] theorem readTest_irq (r : Reg) (s : State) : (readTest r s).irq = s.irq := rfl
@[simp] theorem readTest_inhibit (r : Reg) (s : State) : (readTest r s).inhibit = s.inhibit := rfl
@[simp] theorem readTest_mem (r : Reg) (s : State) : (readTest r s).mem = s.mem := rfl
@[simp] theorem readTest_staleTables (r : Reg) (s : State) : (readTest r s).staleTables = s.staleTables := rfl
@[simp] theorem readTest_params (r : Reg) (s : State) : (readTest r s).params = s.params := rfl

/-! ### setStringReg -/

@[simp] theorem setStringReg_eip (asz : Size) (r : Reg) (v : Word) (s : State) : (setStringReg asz r v s).eip = s.eip := by cases asz <;> rfl
@[simp] theorem setStringReg_eflags (asz : Size) (r : Reg) (v : Word) (s : State) : (setStringReg asz r v s).eflags = s.eflags := by cases asz <;> rfl
@[simp] theorem setStringReg_segs (asz : Size) (r : Reg) (v : Word) (s : State) : (setStringReg asz r v s).segs = s.segs := by cases asz <;> rfl
@[simp] theorem setStringReg_sys (asz : Size) (r : Reg) (v : Word) (s : State) : (setStringReg asz r v s).sys = s.sys := by cases asz <;> rfl
@[simp] theorem setStringReg_irq (asz : Size) (r : Reg) (v : Word) (s : State) : (setStringReg asz r v s).irq = s.irq := by cases asz <;> rfl
@[simp] theorem setStringReg_inhibit (asz : Size) (r : Reg) (v : Word) (s : State) : (setStringReg asz r v s).inhibit = s.inhibit := by cases asz <;> rfl
@[simp] theorem setStringReg_mem (asz : Size) (r : Reg) (v : Word) (s : State) : (setStringReg asz r v s).mem = s.mem := by cases asz <;> rfl
@[simp] theorem setStringReg_staleTables (asz : Size) (r : Reg) (v : Word) (s : State) : (setStringReg asz r v s).staleTables = s.staleTables := by cases asz <;> rfl
@[simp] theorem setStringReg_draws (asz : Size) (r : Reg) (v : Word) (s : State) : (setStringReg asz r v s).draws = s.draws := by cases asz <;> rfl
@[simp] theorem setStringReg_params (asz : Size) (r : Reg) (v : Word) (s : State) : (setStringReg asz r v s).params = s.params := by cases asz <;> rfl

/-! ### stepIndexes -/

@[simp] theorem stepIndexes_eip (asz : Size) (w : Nat) (s : State) : (stepIndexes asz w s).eip = s.eip := by cases asz <;> rfl
@[simp] theorem stepIndexes_eflags (asz : Size) (w : Nat) (s : State) : (stepIndexes asz w s).eflags = s.eflags := by cases asz <;> rfl
@[simp] theorem stepIndexes_segs (asz : Size) (w : Nat) (s : State) : (stepIndexes asz w s).segs = s.segs := by cases asz <;> rfl
@[simp] theorem stepIndexes_sys (asz : Size) (w : Nat) (s : State) : (stepIndexes asz w s).sys = s.sys := by cases asz <;> rfl
@[simp] theorem stepIndexes_irq (asz : Size) (w : Nat) (s : State) : (stepIndexes asz w s).irq = s.irq := by cases asz <;> rfl
@[simp] theorem stepIndexes_inhibit (asz : Size) (w : Nat) (s : State) : (stepIndexes asz w s).inhibit = s.inhibit := by cases asz <;> rfl
@[simp] theorem stepIndexes_mem (asz : Size) (w : Nat) (s : State) : (stepIndexes asz w s).mem = s.mem := by cases asz <;> rfl
@[simp] theorem stepIndexes_staleTables (asz : Size) (w : Nat) (s : State) : (stepIndexes asz w s).staleTables = s.staleTables := by cases asz <;> rfl
@[simp] theorem stepIndexes_draws (asz : Size) (w : Nat) (s : State) : (stepIndexes asz w s).draws = s.draws := by cases asz <;> rfl
@[simp] theorem stepIndexes_params (asz : Size) (w : Nat) (s : State) : (stepIndexes asz w s).params = s.params := by cases asz <;> rfl

/-! ### inhibitAfter -/

@[simp] theorem inhibitAfter_regs (r : SegReg) (s : State) : (inhibitAfter r s).regs = s.regs := by unfold inhibitAfter; split <;> rfl
@[simp] theorem inhibitAfter_eip (r : SegReg) (s : State) : (inhibitAfter r s).eip = s.eip := by unfold inhibitAfter; split <;> rfl
@[simp] theorem inhibitAfter_eflags (r : SegReg) (s : State) : (inhibitAfter r s).eflags = s.eflags := by unfold inhibitAfter; split <;> rfl
@[simp] theorem inhibitAfter_segs (r : SegReg) (s : State) : (inhibitAfter r s).segs = s.segs := by unfold inhibitAfter; split <;> rfl
@[simp] theorem inhibitAfter_sys (r : SegReg) (s : State) : (inhibitAfter r s).sys = s.sys := by unfold inhibitAfter; split <;> rfl
@[simp] theorem inhibitAfter_irq (r : SegReg) (s : State) : (inhibitAfter r s).irq = s.irq := by unfold inhibitAfter; split <;> rfl
@[simp] theorem inhibitAfter_mem (r : SegReg) (s : State) : (inhibitAfter r s).mem = s.mem := by unfold inhibitAfter; split <;> rfl
@[simp] theorem inhibitAfter_staleTables (r : SegReg) (s : State) : (inhibitAfter r s).staleTables = s.staleTables := by unfold inhibitAfter; split <;> rfl
@[simp] theorem inhibitAfter_draws (r : SegReg) (s : State) : (inhibitAfter r s).draws = s.draws := by unfold inhibitAfter; split <;> rfl
@[simp] theorem inhibitAfter_params (r : SegReg) (s : State) : (inhibitAfter r s).params = s.params := by unfold inhibitAfter; split <;> rfl

/-! ### readControl -/

@[simp] theorem readControl_eip (r : Reg) (c : CtlReg) (s : State) : (readControl r c s).eip = s.eip := by cases c <;> rfl
@[simp] theorem readControl_eflags (r : Reg) (c : CtlReg) (s : State) : (readControl r c s).eflags = s.eflags := by cases c <;> rfl
@[simp] theorem readControl_segs (r : Reg) (c : CtlReg) (s : State) : (readControl r c s).segs = s.segs := by cases c <;> rfl
@[simp] theorem readControl_sys (r : Reg) (c : CtlReg) (s : State) : (readControl r c s).sys = s.sys := by cases c <;> rfl
@[simp] theorem readControl_irq (r : Reg) (c : CtlReg) (s : State) : (readControl r c s).irq = s.irq := by cases c <;> rfl
@[simp] theorem readControl_inhibit (r : Reg) (c : CtlReg) (s : State) : (readControl r c s).inhibit = s.inhibit := by cases c <;> rfl
@[simp] theorem readControl_mem (r : Reg) (c : CtlReg) (s : State) : (readControl r c s).mem = s.mem := by cases c <;> rfl
@[simp] theorem readControl_staleTables (r : Reg) (c : CtlReg) (s : State) : (readControl r c s).staleTables = s.staleTables := by cases c <;> rfl
@[simp] theorem readControl_params (r : Reg) (c : CtlReg) (s : State) : (readControl r c s).params = s.params := by cases c <;> rfl

/-! ### writeBreak -/

@[simp] theorem writeBreak_regs (r : BreakReg) (v : Word) (s : State) : (writeBreak r v s).regs = s.regs := by cases r <;> rfl
@[simp] theorem writeBreak_eip (r : BreakReg) (v : Word) (s : State) : (writeBreak r v s).eip = s.eip := by cases r <;> rfl
@[simp] theorem writeBreak_eflags (r : BreakReg) (v : Word) (s : State) : (writeBreak r v s).eflags = s.eflags := by cases r <;> rfl
@[simp] theorem writeBreak_segs (r : BreakReg) (v : Word) (s : State) : (writeBreak r v s).segs = s.segs := by cases r <;> rfl
@[simp] theorem writeBreak_irq (r : BreakReg) (v : Word) (s : State) : (writeBreak r v s).irq = s.irq := by cases r <;> rfl
@[simp] theorem writeBreak_inhibit (r : BreakReg) (v : Word) (s : State) : (writeBreak r v s).inhibit = s.inhibit := by cases r <;> rfl
@[simp] theorem writeBreak_mem (r : BreakReg) (v : Word) (s : State) : (writeBreak r v s).mem = s.mem := by cases r <;> rfl
@[simp] theorem writeBreak_staleTables (r : BreakReg) (v : Word) (s : State) : (writeBreak r v s).staleTables = s.staleTables := by cases r <;> rfl
@[simp] theorem writeBreak_draws (r : BreakReg) (v : Word) (s : State) : (writeBreak r v s).draws = s.draws := by cases r <;> rfl
@[simp] theorem writeBreak_params (r : BreakReg) (v : Word) (s : State) : (writeBreak r v s).params = s.params := by cases r <;> rfl

/-! ### setMemBits -/

@[simp] theorem setMemBits_regs (a : Nat) (k : Byte) (s : State) : (setMemBits a k s).regs = s.regs := by unfold setMemBits; split <;> rfl
@[simp] theorem setMemBits_eip (a : Nat) (k : Byte) (s : State) : (setMemBits a k s).eip = s.eip := by unfold setMemBits; split <;> rfl
@[simp] theorem setMemBits_eflags (a : Nat) (k : Byte) (s : State) : (setMemBits a k s).eflags = s.eflags := by unfold setMemBits; split <;> rfl
@[simp] theorem setMemBits_segs (a : Nat) (k : Byte) (s : State) : (setMemBits a k s).segs = s.segs := by unfold setMemBits; split <;> rfl
@[simp] theorem setMemBits_sys (a : Nat) (k : Byte) (s : State) : (setMemBits a k s).sys = s.sys := by unfold setMemBits; split <;> rfl
@[simp] theorem setMemBits_irq (a : Nat) (k : Byte) (s : State) : (setMemBits a k s).irq = s.irq := by unfold setMemBits; split <;> rfl
@[simp] theorem setMemBits_inhibit (a : Nat) (k : Byte) (s : State) : (setMemBits a k s).inhibit = s.inhibit := by unfold setMemBits; split <;> rfl
@[simp] theorem setMemBits_staleTables (a : Nat) (k : Byte) (s : State) : (setMemBits a k s).staleTables = s.staleTables := by unfold setMemBits; split <;> rfl
@[simp] theorem setMemBits_draws (a : Nat) (k : Byte) (s : State) : (setMemBits a k s).draws = s.draws := by unfold setMemBits; split <;> rfl
@[simp] theorem setMemBits_params (a : Nat) (k : Byte) (s : State) : (setMemBits a k s).params = s.params := by unfold setMemBits; split <;> rfl

/-! ### undefineFlags and mulFlags -/

@[simp] theorem undefineFlags_regs (fs : List Flag) (s : State) : (undefineFlags s fs).regs = s.regs := by
  induction fs generalizing s with
  | nil => rfl
  | cons f fs ih => exact ih _
@[simp] theorem mulFlags_regs (h : Bool) (s : State) : (mulFlags h s).regs = s.regs := by simp [mulFlags]

@[simp] theorem undefineFlags_eip (fs : List Flag) (s : State) : (undefineFlags s fs).eip = s.eip := by
  induction fs generalizing s with
  | nil => rfl
  | cons f fs ih => exact ih _
@[simp] theorem mulFlags_eip (h : Bool) (s : State) : (mulFlags h s).eip = s.eip := by simp [mulFlags]

@[simp] theorem undefineFlags_segs (fs : List Flag) (s : State) : (undefineFlags s fs).segs = s.segs := by
  induction fs generalizing s with
  | nil => rfl
  | cons f fs ih => exact ih _
@[simp] theorem mulFlags_segs (h : Bool) (s : State) : (mulFlags h s).segs = s.segs := by simp [mulFlags]

@[simp] theorem undefineFlags_sys (fs : List Flag) (s : State) : (undefineFlags s fs).sys = s.sys := by
  induction fs generalizing s with
  | nil => rfl
  | cons f fs ih => exact ih _
@[simp] theorem mulFlags_sys (h : Bool) (s : State) : (mulFlags h s).sys = s.sys := by simp [mulFlags]

@[simp] theorem undefineFlags_irq (fs : List Flag) (s : State) : (undefineFlags s fs).irq = s.irq := by
  induction fs generalizing s with
  | nil => rfl
  | cons f fs ih => exact ih _
@[simp] theorem mulFlags_irq (h : Bool) (s : State) : (mulFlags h s).irq = s.irq := by simp [mulFlags]

@[simp] theorem undefineFlags_inhibit (fs : List Flag) (s : State) : (undefineFlags s fs).inhibit = s.inhibit := by
  induction fs generalizing s with
  | nil => rfl
  | cons f fs ih => exact ih _
@[simp] theorem mulFlags_inhibit (h : Bool) (s : State) : (mulFlags h s).inhibit = s.inhibit := by simp [mulFlags]

@[simp] theorem undefineFlags_mem (fs : List Flag) (s : State) : (undefineFlags s fs).mem = s.mem := by
  induction fs generalizing s with
  | nil => rfl
  | cons f fs ih => exact ih _
@[simp] theorem mulFlags_mem (h : Bool) (s : State) : (mulFlags h s).mem = s.mem := by simp [mulFlags]

@[simp] theorem undefineFlags_staleTables (fs : List Flag) (s : State) : (undefineFlags s fs).staleTables = s.staleTables := by
  induction fs generalizing s with
  | nil => rfl
  | cons f fs ih => exact ih _
@[simp] theorem mulFlags_staleTables (h : Bool) (s : State) : (mulFlags h s).staleTables = s.staleTables := by simp [mulFlags]

@[simp] theorem undefineFlags_params (fs : List Flag) (s : State) : (undefineFlags s fs).params = s.params := by
  induction fs generalizing s with
  | nil => rfl
  | cons f fs ih => exact ih _
@[simp] theorem mulFlags_params (h : Bool) (s : State) : (mulFlags h s).params = s.params := by simp [mulFlags]

/-! ### setDirty -/

@[simp] theorem setDirty_regs (xs : List Translated) (s : State) : (setDirty xs s).regs = s.regs := by
  induction xs generalizing s with
  | nil => rfl
  | cons x xs ih => unfold setDirty; split <;> simp [ih]

@[simp] theorem setDirty_eip (xs : List Translated) (s : State) : (setDirty xs s).eip = s.eip := by
  induction xs generalizing s with
  | nil => rfl
  | cons x xs ih => unfold setDirty; split <;> simp [ih]

@[simp] theorem setDirty_eflags (xs : List Translated) (s : State) : (setDirty xs s).eflags = s.eflags := by
  induction xs generalizing s with
  | nil => rfl
  | cons x xs ih => unfold setDirty; split <;> simp [ih]

@[simp] theorem setDirty_segs (xs : List Translated) (s : State) : (setDirty xs s).segs = s.segs := by
  induction xs generalizing s with
  | nil => rfl
  | cons x xs ih => unfold setDirty; split <;> simp [ih]

@[simp] theorem setDirty_sys (xs : List Translated) (s : State) : (setDirty xs s).sys = s.sys := by
  induction xs generalizing s with
  | nil => rfl
  | cons x xs ih => unfold setDirty; split <;> simp [ih]

@[simp] theorem setDirty_irq (xs : List Translated) (s : State) : (setDirty xs s).irq = s.irq := by
  induction xs generalizing s with
  | nil => rfl
  | cons x xs ih => unfold setDirty; split <;> simp [ih]

@[simp] theorem setDirty_inhibit (xs : List Translated) (s : State) : (setDirty xs s).inhibit = s.inhibit := by
  induction xs generalizing s with
  | nil => rfl
  | cons x xs ih => unfold setDirty; split <;> simp [ih]

@[simp] theorem setDirty_staleTables (xs : List Translated) (s : State) : (setDirty xs s).staleTables = s.staleTables := by
  induction xs generalizing s with
  | nil => rfl
  | cons x xs ih => unfold setDirty; split <;> simp [ih]

@[simp] theorem setDirty_draws (xs : List Translated) (s : State) : (setDirty xs s).draws = s.draws := by
  induction xs generalizing s with
  | nil => rfl
  | cons x xs ih => unfold setDirty; split <;> simp [ih]

@[simp] theorem setDirty_params (xs : List Translated) (s : State) : (setDirty xs s).params = s.params := by
  induction xs generalizing s with
  | nil => rfl
  | cons x xs ih => unfold setDirty; split <;> simp [ih]

/-! ### Parts of a doubleword -/

/-- The number of two bit vectors side by side. -/
theorem toNat_append_eq {n m : Nat} (x : BitVec n) (y : BitVec m) :
    (x ++ y).toNat = x.toNat * 2 ^ m + y.toNat := by
  rw [BitVec.toNat_append, ← Nat.shiftLeft_add_eq_or_of_lt y.isLt, Nat.shiftLeft_eq]

/-- The low half of a doubleword made of two halves. -/
theorem low16_append (h v : Half) : (h ++ v : Word).extractLsb' 0 16 = v := by
  apply BitVec.eq_of_toNat_eq
  have := h.isLt; have := v.isLt
  simp only [BitVec.extractLsb'_toNat, toNat_append_eq, Nat.shiftRight_eq_div_pow]; omega

/-- The high half of a doubleword made of two halves. -/
theorem high16_append (h v : Half) : (h ++ v : Word).extractLsb' 16 16 = h := by
  apply BitVec.eq_of_toNat_eq
  have := h.isLt; have := v.isLt
  simp only [BitVec.extractLsb'_toNat, toNat_append_eq, Nat.shiftRight_eq_div_pow]; omega

/-- What replacing one byte does to the number a doubleword stands for (10_state.md R12). -/
theorem putByte_toNat (w : Word) (h : Bool) (v : Byte) :
    (putByte w h v).toNat = if h then w.toNat / 65536 * 65536 + v.toNat * 256 + w.toNat % 256
      else w.toNat / 256 * 256 + v.toNat := by
  have := w.isLt
  cases h
  · refine (toNat_append_eq (w.extractLsb' 8 24) v).trans ?_
    simp [BitVec.extractLsb'_toNat, Nat.shiftRight_eq_div_pow]; omega
  · refine (toNat_append_eq (w.extractLsb' 16 16 ++ v) (w.extractLsb' 0 8)).trans ?_
    rw [toNat_append_eq]
    simp [BitVec.extractLsb'_toNat, Nat.shiftRight_eq_div_pow]; omega

/-- The replaced byte reads as the new one (10_state.md R12). -/
theorem putByte_same (w : Word) (h : Bool) (v : Byte) : (putByte w h v).extractLsb' (if h then 8 else 0) 8 = v := by
  have := v.isLt; have := w.isLt
  apply BitVec.eq_of_toNat_eq
  cases h <;> simp [BitVec.extractLsb'_toNat, putByte_toNat, Nat.shiftRight_eq_div_pow] <;> omega

/-- The other low byte is kept (10_state.md R12). -/
theorem putByte_other (w : Word) (h : Bool) (v : Byte) : (putByte w h v).extractLsb' (if h then 0 else 8) 8 = w.extractLsb' (if h then 0 else 8) 8 := by
  have := v.isLt; have := w.isLt
  apply BitVec.eq_of_toNat_eq
  cases h <;> simp [BitVec.extractLsb'_toNat, putByte_toNat, Nat.shiftRight_eq_div_pow] <;> omega

/-- The high half is kept (10_state.md R12). -/
theorem putByte_high (w : Word) (h : Bool) (v : Byte) : (putByte w h v).extractLsb' 16 16 = w.extractLsb' 16 16 := by
  have := v.isLt; have := w.isLt
  apply BitVec.eq_of_toNat_eq
  cases h <;> simp [BitVec.extractLsb'_toNat, putByte_toNat, Nat.shiftRight_eq_div_pow] <;> omega

/-! ### Registers -/

@[simp] theorem Regs.get_set_same (g : Regs) (r : Reg) (v : Word) : (g.set r v).get r = v := by cases r <;> rfl

theorem Regs.get_set_ne (g : Regs) {r q : Reg} (v : Word) (h : q ≠ r) : (g.set r v).get q = g.get q := by
  cases r <;> cases q <;> first | rfl | exact absurd rfl h

@[simp] theorem readR32_writeR32_same (r : Reg) (v : Word) (s : State) : readR32 (writeR32 r v s) r = v := by
  simp [readR32, writeR32]

theorem readR32_writeR32_ne {r q : Reg} (v : Word) (s : State) (h : q ≠ r) :
    readR32 (writeR32 r v s) q = readR32 s q := by
  simp [readR32, writeR32, Regs.get_set_ne, h]

@[simp] theorem readR16_writeR16_same (r : Reg) (v : Half) (s : State) : readR16 (writeR16 r v s) r = v := by
  simp only [readR16, writeR16, writeR32, Regs.get_set_same]
  exact low16_append _ _

theorem readR32_writeR16_ne {r q : Reg} (v : Half) (s : State) (h : q ≠ r) :
    readR32 (writeR16 r v s) q = readR32 s q := readR32_writeR32_ne _ s h

/-- A 16-bit write keeps bits 31:16 (10_state.md R11). -/
theorem writeR16_high (r : Reg) (v : Half) (s : State) :
    (readR32 (writeR16 r v s) r).extractLsb' 16 16 = (readR32 s r).extractLsb' 16 16 := by
  simp only [readR32, writeR16, writeR32, Regs.get_set_same]
  exact high16_append _ _

theorem readR32_writeR8_ne {r : Reg8} {q : Reg} (v : Byte) (s : State) (h : q ≠ Reg8.host r) :
    readR32 (writeR8 r v s) q = readR32 s q := readR32_writeR32_ne _ s h

@[simp] theorem readR8_writeR8_same (r : Reg8) (v : Byte) (s : State) : readR8 (writeR8 r v s) r = v := by
  simp only [readR8, writeR8, writeR32, Regs.get_set_same, putByte_same]

/-- Two names for bytes of one register are the same byte or its two low bytes (10_state.md R12). -/
theorem Reg8.ne_cases {r q : Reg8} (h : q ≠ r) :
    Reg8.host q ≠ Reg8.host r ∨ (Reg8.host q = Reg8.host r ∧ Reg8.isHigh q = !Reg8.isHigh r) := by
  revert h; cases r <;> cases q <;> decide

/-- An 8-bit write changes those 8 bits only (10_state.md R12). -/
theorem readR8_writeR8_ne {r q : Reg8} (v : Byte) (s : State) (h : q ≠ r) :
    readR8 (writeR8 r v s) q = readR8 s q := by
  rcases Reg8.ne_cases h with hne | ⟨he, hh⟩
  · simp only [readR8, writeR8, writeR32, Regs.get_set_ne _ _ hne]
  · simp only [readR8, writeR8, writeR32, he, hh, Regs.get_set_same]
    have key := putByte_other (s.regs.get (Reg8.host r)) (Reg8.isHigh r) v
    cases hb : Reg8.isHigh r <;> simpa [hb] using key

/-! ### Segment registers -/

@[simp] theorem Segments.get_set_same (g : Segments) (r : SegReg) (v : Segment) : (g.set r v).get r = v := by
  cases r <;> rfl

theorem Segments.get_set_ne (g : Segments) {r q : SegReg} (v : Segment) (h : q ≠ r) : (g.set r v).get q = g.get q := by
  cases r <;> cases q <;> first | rfl | exact absurd rfl h

@[simp] theorem readSreg_writeSreg_same (r : SegReg) (v : Segment) (s : State) : readSreg (writeSreg r v s) r = v := by
  simp [readSreg, writeSreg]

theorem readSreg_writeSreg_ne {r q : SegReg} (v : Segment) (s : State) (h : q ≠ r) :
    readSreg (writeSreg r v s) q = readSreg s q := by
  simp [readSreg, writeSreg, Segments.get_set_ne, h]

/-! ### Flags -/

@[simp] theorem Eflags.get_set_same (e : Eflags) (f : Flag) (v : Bool) : (e.set f v).get f = v := by cases f <;> rfl

theorem Eflags.get_set_ne (e : Eflags) {f g : Flag} (v : Bool) (h : g ≠ f) : (e.set f v).get g = e.get g := by
  cases f <;> cases g <;> first | rfl | exact absurd rfl h

@[simp] theorem getFlag_setFlag_same (s : State) (f : Flag) (v : Bool) : getFlag (setFlag s f v) f = v := by
  simp [getFlag, setFlag]

theorem getFlag_setFlag_ne (s : State) {f g : Flag} (v : Bool) (h : g ≠ f) :
    getFlag (setFlag s f v) g = getFlag s g := by
  simp [getFlag, setFlag, Eflags.get_set_ne, h]

theorem getFlag_undefineFlag_ne (s : State) {f g : Flag} (h : g ≠ f) :
    getFlag (undefineFlag s f) g = getFlag s g := getFlag_setFlag_ne _ _ h

/-- Making flags undefined keeps every other flag (10_state.md R17). -/
theorem getFlag_undefineFlags (s : State) (fs : List Flag) (g : Flag) (h : g ∉ fs) :
    getFlag (undefineFlags s fs) g = getFlag s g := by
  induction fs generalizing s with
  | nil => rfl
  | cons f fs ih =>
    simp only [List.mem_cons, not_or] at h
    simp only [undefineFlags, ih _ h.2, getFlag_undefineFlag_ne s h.1]

@[simp] theorem Eflags.set_iopl (e : Eflags) (f : Flag) (v : Bool) : (e.set f v).iopl = e.iopl := by cases f <;> rfl

/-- Making flags undefined keeps IOPL, which is no single-bit flag. -/
theorem undefineFlags_iopl (s : State) (fs : List Flag) : (undefineFlags s fs).eflags.iopl = s.eflags.iopl := by
  induction fs generalizing s with
  | nil => rfl
  | cons f fs ih => simp only [undefineFlags, ih]; simp [undefineFlag, advanceDraw, setFlag]

/-- Each flag made undefined takes a draw of its own. -/
theorem undefineFlags_draws (s : State) (fs : List Flag) : (undefineFlags s fs).draws = s.draws + fs.length := by
  induction fs generalizing s with
  | nil => rfl
  | cons f fs ih =>
    simp only [undefineFlags, ih, List.length_cons]
    simp only [undefineFlag, advanceDraw, setFlag]
    omega

/-- CF and OF of MUL are the high half's (45_mul.md R204). -/
theorem mulFlags_cf (h : Bool) (s : State) : getFlag (mulFlags h s) .cf = h := by
  rw [mulFlags, getFlag_undefineFlags _ _ _ (by decide), getFlag_setFlag_ne _ _ (by decide), getFlag_setFlag_same]

theorem mulFlags_ovf (h : Bool) (s : State) : getFlag (mulFlags h s) .ovf = h := by
  rw [mulFlags, getFlag_undefineFlags _ _ _ (by decide), getFlag_setFlag_same]

/-- MUL keeps every flag that is none of the six arithmetic ones (45_mul.md R204). -/
theorem mulFlags_other (h : Bool) (s : State) (f : Flag) (hf : f ∉ specialMoveFlags) :
    getFlag (mulFlags h s) f = getFlag s f := by
  rw [mulFlags, getFlag_undefineFlags _ _ _ (fun m => hf (by cases f <;> revert m <;> decide)),
    getFlag_setFlag_ne _ _ (fun e => hf (by rw [e]; decide)), getFlag_setFlag_ne _ _ (fun e => hf (by rw [e]; decide))]

/-! ### completed -/

@[simp] theorem completed_regs (d : Size) (i : Instr) (n : Nat) (s : State) : (completed d i n s).regs = s.regs := rfl
@[simp] theorem completed_eflags (d : Size) (i : Instr) (n : Nat) (s : State) : (completed d i n s).eflags = s.eflags := rfl
@[simp] theorem completed_segs (d : Size) (i : Instr) (n : Nat) (s : State) : (completed d i n s).segs = s.segs := rfl
@[simp] theorem completed_sys (d : Size) (i : Instr) (n : Nat) (s : State) : (completed d i n s).sys = s.sys := rfl
@[simp] theorem completed_irq (d : Size) (i : Instr) (n : Nat) (s : State) : (completed d i n s).irq = s.irq := rfl
@[simp] theorem completed_mem (d : Size) (i : Instr) (n : Nat) (s : State) : (completed d i n s).mem = s.mem := rfl
@[simp] theorem completed_staleTables (d : Size) (i : Instr) (n : Nat) (s : State) : (completed d i n s).staleTables = s.staleTables := rfl
@[simp] theorem completed_draws (d : Size) (i : Instr) (n : Nat) (s : State) : (completed d i n s).draws = s.draws := rfl
@[simp] theorem completed_params (d : Size) (i : Instr) (n : Nat) (s : State) : (completed d i n s).params = s.params := rfl
@[simp] theorem completed_eip (d : Size) (i : Instr) (n : Nat) (s : State) : (completed d i n s).eip = nextEip d s.eip n := rfl
@[simp] theorem completed_inhibit (d : Size) (i : Instr) (n : Nat) (s : State) :
    (completed d i n s).inhibit = (loadsStackSegment i && s.inhibit) := rfl

/-! ### Values that depend on some fields only -/

theorem mode_eq {s t : State} (hs : t.sys.cr0 = s.sys.cr0) (he : t.eflags.vm = s.eflags.vm) : mode t = mode s := by
  have h1 : protectionEnabled t = protectionEnabled s := by simp only [protectionEnabled, hs]
  have h2 : getFlag t .vm = getFlag s .vm := he
  simp only [mode, h1, h2]

theorem cpl_eq {s t : State} (hm : mode t = mode s) (hc : t.segs.cs.sel = s.segs.cs.sel) : cpl t = cpl s := by
  simp only [cpl, hm, hc]

theorem paging_eq {s t : State} (hs : t.sys.cr0 = s.sys.cr0) : paging t = paging s := by
  simp only [paging, protectionEnabled, hs]

/-- Every field that a change of memory alone leaves as it was. -/
theorem sameButMemory.fields {s t : State} (h : sameButMemory s t) :
    t.regs = s.regs ∧ t.eip = s.eip ∧ t.eflags = s.eflags ∧ t.segs = s.segs ∧ t.sys = s.sys ∧ t.irq = s.irq ∧
      t.inhibit = s.inhibit ∧ t.staleTables = s.staleTables ∧ t.draws = s.draws ∧ t.params = s.params := by
  rw [h]; simp

theorem sameButMemory.refl (s : State) : sameButMemory s s := rfl

theorem sameButMemory.trans {s t u : State} (h : sameButMemory s t) (k : sameButMemory t u) : sameButMemory s u := by
  unfold sameButMemory at *
  rw [k, h]

theorem sameButMemory.mode {s t : State} (h : sameButMemory s t) : Machine.mode t = Machine.mode s := by
  rw [h]; rfl

theorem sameButMemory.cpl {s t : State} (h : sameButMemory s t) : Machine.cpl t = Machine.cpl s := by
  rw [h]; rfl

theorem sameButMemory.paging {s t : State} (h : sameButMemory s t) : Machine.paging t = Machine.paging s := by
  rw [h]; rfl

theorem sameButMemory.translate {s t : State} (h : sameButMemory s t) : t.params.translate = s.params.translate := by
  rw [h]

theorem sameButMemory.walksTables {s t : State} (h : sameButMemory s t) :
    Machine.walksTables t = Machine.walksTables s := by
  rw [h]; rfl

theorem sameButMemory.populated {s t : State} (h : sameButMemory s t) (a : Nat) :
    Machine.populated t a = Machine.populated s a := by
  rw [h]; rfl

theorem sameButMemory.segmentFault {s t : State} (h : sameButMemory s t) (acc : Access) (r : SegReg) (off n : Nat) :
    Machine.segmentFault t acc r off n = Machine.segmentFault s acc r off n := by
  rw [h]; rfl

theorem sameButMemory.linearAddr {s t : State} (h : sameButMemory s t) (r : SegReg) (off : Word) :
    Machine.linearAddr t r off = Machine.linearAddr s r off := by
  rw [h]; rfl

end Sys2Proof.Machine
end

