-- ==== Sys2Proof/Laws/Access.lean ====
section
/-! SUPPORT. Memory access: what a translation, a read and a write can do, said once for each, and when they complete. -/

namespace Sys2Proof.Machine

/-! ### Results -/

theorem Res.andThen_ok {α β : Type} {r : Res α} {k : α → State → Res β} {b : β} {u : State} :
    r.andThen k = .ok b u ↔ ∃ a t, r = .ok a t ∧ k a t = .ok b u := by
  cases r <;> simp [Res.andThen]

theorem Res.andThen_fault {α β : Type} {r : Res α} {k : α → State → Res β} {f : Fault} :
    r.andThen k = .fault f ↔ r = .fault f ∨ ∃ a t, r = .ok a t ∧ k a t = .fault f := by
  cases r <;> simp [Res.andThen]

theorem Res.andThen_refused {α β : Type} {r : Res α} {k : α → State → Res β} {x : Refusal} :
    r.andThen k = .refused x ↔ r = .refused x ∨ ∃ a t, r = .ok a t ∧ k a t = .refused x := by
  cases r <;> simp [Res.andThen]

theorem Res.outcome_next {α : Type} {r : Res α} {t : State} : r.outcome = .next t ↔ ∃ a, r = .ok a t := by
  cases r <;> simp [Res.outcome]

theorem Res.outcome_fault {α : Type} {r : Res α} {f : Fault} : r.outcome = .fault f ↔ r = .fault f := by
  cases r <;> simp [Res.outcome]

theorem Res.outcome_refused {α : Type} {r : Res α} {x : Refusal} : r.outcome = .refused x ↔ r = .refused x := by
  cases r <;> simp [Res.outcome]

/-! ### Bytes and numbers -/

theorem leNat_lt (bs : List Byte) : leNat bs < 256 ^ bs.length := by
  induction bs with
  | nil => simp [leNat]
  | cons b bs ih =>
    have := b.isLt
    simp only [leNat, List.length_cons, Nat.pow_succ]
    omega

theorem entry_toNat (b0 b1 b2 b3 : Byte) :
    (leValue 32 [b0, b1, b2, b3]).toNat = b0.toNat + 256 * leNat [b1, b2, b3] := by
  have h := leNat_lt [b0, b1, b2, b3]
  simp only [List.length_cons, List.length_nil] at h
  simp only [leValue, BitVec.toNat_ofNat]
  rw [Nat.mod_eq_of_lt (by omega)]
  rfl

theorem frameOf_entry (b0 b1 b2 b3 : Byte) : frameOf (leValue 32 [b0, b1, b2, b3]) = 4096 * (leNat [b1, b2, b3] / 16) := by
  have := b0.isLt
  rw [frameOf, entry_toNat]
  omega

theorem entry_bit (b0 b1 b2 b3 : Byte) {i : Nat} (hi : i < 8) :
    (leValue 32 [b0, b1, b2, b3]).getLsbD i = b0.getLsbD i := by
  have hb := b0.isLt
  have h : (leValue 32 [b0, b1, b2, b3]).toNat % 2 ^ 8 = b0.toNat := by
    rw [entry_toNat]; omega
  rw [BitVec.getLsbD, BitVec.getLsbD, ← h, Nat.testBit_mod_two_pow]
  simp [hi]

theorem mark_low_bits (k : Byte) (h : k &&& ~~~accessedAndDirty = 0#8) :
    k.getLsbD 0 = false ∧ k.getLsbD 1 = false ∧ k.getLsbD 2 = false := by
  revert h; revert k; decide

theorem mark_mono (k : Byte) (h : k &&& ~~~accessedBit = 0#8) : k &&& ~~~accessedAndDirty = 0#8 := by
  revert h; revert k; decide

theorem mark_or (mask k l : Byte) (hk : k &&& ~~~mask = 0#8) (hl : l &&& ~~~mask = 0#8) :
    (k ||| l) &&& ~~~mask = 0#8 := by
  rw [BitVec.and_comm, BitVec.and_or_distrib_left, BitVec.and_comm _ k, BitVec.and_comm _ l, hk, hl]
  rfl

theorem mark_accessed (k : Byte) (h : k &&& ~~~accessedBit = 0#8) : k = 0#8 ∨ k = accessedBit := by
  revert h; revert k; decide

/-! ### Marks in the page tables -/

theorem keepsBytes_refl (mask : Byte) (marks stored : List Nat) (m : Memory) : keepsBytes mask marks stored m m :=
  fun _ _ => .inl rfl

theorem keepsBytes_trans {mask : Byte} {marks stored : List Nat} {m m' m'' : Memory}
    (h : keepsBytes mask marks stored m m') (k : keepsBytes mask marks stored m' m'') :
    keepsBytes mask marks stored m m'' := by
  intro a ha
  rcases h a ha with h1 | ⟨hm, b, x, h1, hx, h2⟩ <;> rcases k a ha with h3 | ⟨hm', c, y, h3, hy, h4⟩
  · exact .inl (h3.trans h1)
  · exact .inr ⟨hm', c, y, h1 ▸ h3, hy, h4⟩
  · exact .inr ⟨hm, b, x, h1, hx, h3.trans h2⟩
  · refine .inr ⟨hm, b, x ||| y, h1, mark_or _ _ _ hx hy, ?_⟩
    rw [h2] at h3
    cases h3
    rw [h4, BitVec.or_assoc]

theorem keepsBytes_mono {mask mask' : Byte} {marks marks' stored stored' : List Nat} {m m' : Memory}
    (h : keepsBytes mask marks stored m m') (hk : ∀ k, k &&& ~~~mask = 0#8 → k &&& ~~~mask' = 0#8)
    (hm : ∀ a ∈ marks, a ∈ marks') (hs : ∀ a ∈ stored, a ∈ stored') : keepsBytes mask' marks' stored' m m' := by
  intro a ha
  rcases h a (fun h => ha (hs a h)) with h1 | ⟨hm1, b, x, h1, hx, h2⟩
  · exact .inl h1
  · exact .inr ⟨hm a hm1, b, x, h1, hk x hx, h2⟩

/-- Accessed bits in entries that translate are all that changes. -/
theorem onlyAccessedBits_of_keeps {marks : List Nat} {s : State} {m' : Memory}
    (h : keepsBytes accessedBit marks [] s.mem m') (ha : ∀ a ∈ marks, translatingEntry s a) : onlyAccessedBits s m' := by
  intro a
  rcases h a (by simp) with h1 | ⟨hm, b, x, h1, hx, h2⟩
  · exact .inl h1
  · rcases mark_accessed x hx with rfl | rfl
    · exact .inl (by rw [h2, h1]; simp)
    · exact .inr ⟨ha a hm, b, h1, h2⟩

/-- From `s` to `t` only bits of `mask` in table entries at `marks` were set, and the memory stayed canonical. -/
structure Marked (mask : Byte) (marks : List Nat) (s t : State) : Prop where
  same : sameButMemory s t
  bytes : keepsBytes mask marks [] s.mem t.mem
  wf : s.mem.wf = true → t.mem.wf = true

theorem Marked.refl (mask : Byte) (marks : List Nat) (s : State) : Marked mask marks s s :=
  ⟨rfl, keepsBytes_refl _ _ _ _, id⟩

theorem Marked.trans {mask : Byte} {marks : List Nat} {s t u : State} (h : Marked mask marks s t)
    (k : Marked mask marks t u) : Marked mask marks s u :=
  ⟨h.same.trans k.same, keepsBytes_trans h.bytes k.bytes, fun w => k.wf (h.wf w)⟩

theorem Marked.mono {mask mask' : Byte} {marks marks' : List Nat} {s t : State} (h : Marked mask marks s t)
    (hk : ∀ k, k &&& ~~~mask = 0#8 → k &&& ~~~mask' = 0#8) (hm : ∀ a ∈ marks, a ∈ marks') :
    Marked mask' marks' s t :=
  ⟨h.same, keepsBytes_mono h.bytes hk hm (fun _ h => h), h.wf⟩

theorem setMemBits_marked (a : Nat) (mask k : Byte) (s : State) (hk : k &&& ~~~mask = 0#8) :
    Marked mask [a] s (setMemBits a k s) := by
  unfold setMemBits
  split
  · rename_i b hb
    refine ⟨rfl, fun c _ => ?_, fun w => Memory.wf_write w _ (Memory.read?_bound w hb).2⟩
    by_cases hc : c = a
    · subst hc
      exact .inr ⟨by simp, b, k, hb, hk, Memory.read?_write_same _ _ _⟩
    · exact .inl (Memory.read?_write_ne _ _ hc)
  · exact Marked.refl _ _ _

/-! ### Table entries under marks -/

/-- The two entries read alike as far as translation looks. -/
def sameEntry (e e' : Word) : Prop :=
  frameOf e' = frameOf e ∧ e'.getLsbD 0 = e.getLsbD 0 ∧ e'.getLsbD 1 = e.getLsbD 1 ∧ e'.getLsbD 2 = e.getLsbD 2

/-- The marks stand at multiples of 4. -/
def alignedMarks (marks : List Nat) : Prop := ∀ a ∈ marks, a % 4 = 0

theorem listed32_some {m : Memory} {a : Nat} {e : Word} :
    listed32 m a = some e ↔ ∃ b0 b1 b2 b3, m.read? a = some b0 ∧ m.read? (a + 1) = some b1 ∧ m.read? (a + 2) = some b2 ∧
      m.read? (a + 3) = some b3 ∧ leValue 32 [b0, b1, b2, b3] = e := by
  unfold listed32
  constructor
  · intro h
    split at h
    · rename_i b0 b1 b2 b3 h0 h1 h2 h3
      exact ⟨b0, b1, b2, b3, h0, h1, h2, h3, by simpa using h⟩
    · cases h
  · rintro ⟨b0, b1, b2, b3, h0, h1, h2, h3, rfl⟩
    simp [h0, h1, h2, h3]

/-- An entry at a multiple of 4 keeps all that translation looks at when marks are set. -/
theorem listed32_marked {marks : List Nat} {s t : State} (h : Marked accessedAndDirty marks s t)
    (hl : alignedMarks marks) {a : Nat} (ha : a % 4 = 0) :
    (∀ e, listed32 s.mem a = some e → ∃ e', listed32 t.mem a = some e' ∧ sameEntry e e') ∧
      (listed32 s.mem a = none → listed32 t.mem a = none) := by
  have off : ∀ c, c % 4 ≠ 0 → t.mem.read? c = s.mem.read? c := by
    intro c hc
    rcases h.bytes c (by simp) with h1 | ⟨hm, _⟩
    · exact h1
    · exact absurd (hl c hm) hc
  have h1 := off (a + 1) (by omega)
  have h2 := off (a + 2) (by omega)
  have h3 := off (a + 3) (by omega)
  constructor
  · intro e he
    obtain ⟨b0, b1, b2, b3, e0, e1, e2, e3, rfl⟩ := listed32_some.mp he
    rcases h.bytes a (by simp) with h0 | ⟨_, b, k, hb, hk, h0⟩
    · refine ⟨_, listed32_some.mpr ⟨b0, b1, b2, b3, h0.trans e0, h1.trans e1, h2.trans e2, h3.trans e3, rfl⟩, ?_⟩
      exact ⟨rfl, rfl, rfl, rfl⟩
    · rw [e0] at hb
      cases hb
      refine ⟨_, listed32_some.mpr ⟨b0 ||| k, b1, b2, b3, h0, h1.trans e1, h2.trans e2, h3.trans e3, rfl⟩, ?_⟩
      obtain ⟨k0, k1, k2⟩ := mark_low_bits k hk
      refine ⟨by rw [frameOf_entry, frameOf_entry], ?_, ?_, ?_⟩ <;>
        rw [entry_bit _ _ _ _ (by omega), entry_bit _ _ _ _ (by omega), BitVec.getLsbD_or]
      · rw [k0, Bool.or_false]
      · rw [k1, Bool.or_false]
      · rw [k2, Bool.or_false]
  · intro he
    cases hu : listed32 t.mem a with
    | none => rfl
    | some e =>
      obtain ⟨b0, b1, b2, b3, e0, e1, e2, e3, rfl⟩ := listed32_some.mp hu
      rw [h1] at e1
      rw [h2] at e2
      rw [h3] at e3
      rcases h.bytes a (by simp) with h0 | ⟨_, b, k, hb, hk, h0⟩
      · rw [listed32_some.mpr ⟨b0, b1, b2, b3, h0 ▸ e0, e1, e2, e3, rfl⟩] at he
        cases he
      · rw [listed32_some.mpr ⟨b, b1, b2, b3, hb, e1, e2, e3, rfl⟩] at he
        cases he

theorem pdeAddr_aligned (s : State) (la : Word) : pdeAddr s la % 4 = 0 := by
  unfold pdeAddr frameOf; omega

theorem pteAddr_aligned (e la : Word) : pteAddr e la % 4 = 0 := by
  unfold pteAddr frameOf; omega

theorem pdeAddr_same {s t : State} (h : sameButMemory s t) (la : Word) : pdeAddr t la = pdeAddr s la := by
  rw [h]; rfl

theorem pteAddr_same {e e' : Word} (h : sameEntry e e') (la : Word) : pteAddr e' la = pteAddr e la := by
  rw [pteAddr, pteAddr, h.1]

theorem userMayAccess_same {e e' : Word} (h : sameEntry e e') (wr : Bool) :
    userMayAccess e' wr = userMayAccess e wr := by
  rw [userMayAccess, userMayAccess, h.2.2.1, h.2.2.2]

theorem entryPopulated_same {s t : State} (h : sameButMemory s t) (a : Nat) :
    entryPopulated t a = entryPopulated s a := by
  simp only [entryPopulated, h.populated]

/-- Marks move no byte: the address that the table entries name is the same. -/
theorem tableAddr?_marked {marks : List Nat} {s t : State} (h : Marked accessedAndDirty marks s t)
    (hl : alignedMarks marks) (la : Word) : tableAddr? t la = tableAddr? s la := by
  unfold tableAddr?
  rw [pdeAddr_same h.same]
  obtain ⟨hs, hn⟩ := listed32_marked h hl (pdeAddr_aligned s la)
  cases hp : listed32 s.mem (pdeAddr s la) with
  | none => rw [hn hp]
  | some e =>
    obtain ⟨e', he', hee⟩ := hs e hp
    rw [he']
    simp only [pteAddr_same hee]
    obtain ⟨ht, htn⟩ := listed32_marked h hl (pteAddr_aligned e la)
    cases hq : listed32 s.mem (pteAddr e la) with
    | none => rw [htn hq]
    | some f =>
      obtain ⟨f', hf', hff⟩ := ht f hq
      rw [hf']
      simp only [hff.1]

/-- Marks move no byte: the physical address of a linear byte is the same. -/
theorem physAddr?_marked {marks : List Nat} {s t : State} (h : Marked accessedAndDirty marks s t)
    (hl : alignedMarks marks) (wr us : Bool) (la : Word) : physAddr? t wr us la = physAddr? s wr us la := by
  unfold physAddr?
  rw [h.same.paging, h.same.translate, tableAddr?_marked h hl]

/-- Marks change no permission in the tables. -/
theorem tableMapped_marked {marks : List Nat} {s t : State} (h : Marked accessedAndDirty marks s t)
    (hl : alignedMarks marks) (la : Word) (wr us : Bool) : tableMapped t la wr us = tableMapped s la wr us := by
  unfold tableMapped
  rw [pdeAddr_same h.same]
  obtain ⟨hs, hn⟩ := listed32_marked h hl (pdeAddr_aligned s la)
  cases hp : listed32 s.mem (pdeAddr s la) with
  | none => rw [hn hp]
  | some e =>
    obtain ⟨e', he', hee⟩ := hs e hp
    rw [he']
    simp only [pteAddr_same hee]
    obtain ⟨ht, htn⟩ := listed32_marked h hl (pteAddr_aligned e la)
    cases hq : listed32 s.mem (pteAddr e la) with
    | none => rw [htn hq]
    | some f =>
      obtain ⟨f', hf', hff⟩ := ht f hq
      rw [hf']
      simp only [entryPopulated_same h.same, hee.2.1, hff.2.1, userMayAccess_same hee, userMayAccess_same hff]

/-- Marks change no permission: what a linear byte admits is the same. -/
theorem mapped_marked {marks : List Nat} {s t : State} (h : Marked accessedAndDirty marks s t)
    (hl : alignedMarks marks) (la : Word) (wr us : Bool) : mapped t la wr us = mapped s la wr us := by
  unfold mapped
  rw [h.same.paging, h.same.translate, tableMapped_marked h hl]

/-- Marks change no list of marks of a byte. -/
theorem entryMarks_marked {marks : List Nat} {s t : State} (h : Marked accessedAndDirty marks s t)
    (hl : alignedMarks marks) (la : Word) : entryMarks t la = entryMarks s la := by
  unfold entryMarks
  rw [h.same.walksTables, pdeAddr_same h.same]
  obtain ⟨hs, hn⟩ := listed32_marked h hl (pdeAddr_aligned s la)
  cases hp : listed32 s.mem (pdeAddr s la) with
  | none => rw [hn hp]
  | some e =>
    obtain ⟨e', he', hee⟩ := hs e hp
    rw [he']
    simp only [pteAddr_same hee]
    obtain ⟨ht, htn⟩ := listed32_marked h hl (pteAddr_aligned e la)
    cases hq : listed32 s.mem (pteAddr e la) with
    | none => rw [htn hq]
    | some f =>
      obtain ⟨f', hf', hff⟩ := ht f hq
      rw [hf']
      simp only [hee.2.1, hff.2.1]

/-- Marks change no list of marks. -/
theorem tableMarks_marked {marks : List Nat} {s t : State} (h : Marked accessedAndDirty marks s t)
    (hl : alignedMarks marks) (n : Nat) (la : Word) : tableMarks t n la = tableMarks s n la := by
  induction n generalizing la with
  | zero => rfl
  | succ n ih =>
    unfold tableMarks
    rw [entryMarks_marked h hl, ih]

/-- The marks of a byte: its two entries, both present (20_memory.md R50). -/
theorem mem_entryMarks {s : State} {la : Word} {a : Nat} :
    a ∈ entryMarks s la ↔ walksTables s = true ∧ ∃ pde pte, listed32 s.mem (pdeAddr s la) = some pde ∧
      listed32 s.mem (pteAddr pde la) = some pte ∧ pde.getLsbD 0 = true ∧ pte.getLsbD 0 = true ∧
        (a = pdeAddr s la ∨ a = pteAddr pde la) := by
  unfold entryMarks
  cases walksTables s
  · simp
  · cases hp : listed32 s.mem (pdeAddr s la) with
    | none => simp
    | some pde =>
      cases hq : listed32 s.mem (pteAddr pde la) with
      | none => simp [hq]
      | some pte => simp [hq, and_assoc]

theorem translatingEntry_aligned {s : State} {a : Nat} (h : translatingEntry s a) : a % 4 = 0 := by
  obtain ⟨la, h⟩ := h
  obtain ⟨_, pde, pte, _, _, _, _, rfl | rfl⟩ := mem_entryMarks.mp h
  · exact pdeAddr_aligned s la
  · exact pteAddr_aligned pde la

/-- Where no tables are walked no entry translates (20_memory.md R49). -/
theorem not_translatingEntry {s : State} (h : walksTables s = false) (a : Nat) : ¬ translatingEntry s a := by
  rintro ⟨la, ha⟩
  rw [(mem_entryMarks.mp ha).1] at h
  cases h

/-- Marks change no entry that translates. -/
theorem translatingEntry_marked {marks : List Nat} {s t : State} (h : Marked accessedAndDirty marks s t)
    (hl : alignedMarks marks) (a : Nat) : translatingEntry t a ↔ translatingEntry s a := by
  unfold translatingEntry
  simp only [entryMarks_marked h hl]

/-- Marks are made in entries that translate only (20_memory.md R50). -/
theorem tableMarks_translating (s : State) (n : Nat) (la : Word) : ∀ a ∈ tableMarks s n la, translatingEntry s a := by
  induction n generalizing la with
  | zero => intro a ha; cases ha
  | succ n ih =>
    intro a ha
    rcases List.mem_append.mp ha with h1 | h1
    · exact ⟨la, h1⟩
    · exact ih (la + 1) a h1

theorem tableMarks_aligned (s : State) (n : Nat) (la : Word) : alignedMarks (tableMarks s n la) :=
  fun a ha => translatingEntry_aligned (tableMarks_translating s n la a ha)

/-- Where no tables are walked an access marks nothing (20_memory.md R50). -/
theorem tableMarks_flat {s : State} (h : walksTables s = false) (n : Nat) (la : Word) : tableMarks s n la = [] :=
  List.eq_nil_iff_forall_not_mem.mpr fun a ha => not_translatingEntry h a (tableMarks_translating s n la a ha)

/-- A physical address is that of the linear byte within its page (20_memory.md R49, R50). -/
theorem physAddr?_offset {s : State} {wr us : Bool} {la : Word} {pa : Nat} (h : physAddr? s wr us la = some pa) :
    pa % 4096 = la.toNat % 4096 := by
  unfold physAddr? at h
  split at h
  · split at h
    · unfold tableAddr? at h
      split at h
      · split at h
        · cases h
          simp only [frameOf]
          omega
        · cases h
      · cases h
    · unfold givenAddr? at h
      split at h
      · cases h
        simp only [inFrame]
        omega
      · cases h
  · cases h
    rfl

/-- A physical address lies in the address space (00_scope.md R3). -/
theorem physAddr?_lt {s : State} {wr us : Bool} {la : Word} {pa : Nat} (h : physAddr? s wr us la = some pa) :
    pa < addressSpace := by
  have hla := la.isLt
  unfold physAddr? at h
  split at h
  · split at h
    · unfold tableAddr? at h
      split at h
      · split at h
        · rename_i e _
          have he := e.isLt
          cases h
          simp only [frameOf, addressSpace]
          omega
        · cases h
      · cases h
    · unfold givenAddr? at h
      split at h
      · rename_i f _
        have hf := f.isLt
        cases h
        simp only [inFrame, addressSpace]
        omega
      · cases h
  · cases h
    exact hla

/-! ### Reads of physical memory -/

theorem readPhysByte_ok {pa : Nat} {s t : State} {b : Byte} :
    readPhysByte pa s = .ok b t ↔ t = s ∧ populated s pa = true ∧ s.mem.read? pa = some b := by
  unfold readPhysByte
  cases hp : populated s pa <;> cases hr : s.mem.read? pa
  · simp
  · simp
  · simp
  · simp only [if_true, Res.ok.injEq, Option.some.injEq, true_and]
    exact ⟨fun h => ⟨h.2.symm, h.1⟩, fun h => ⟨h.2, h.1.symm⟩⟩

/-- A physical read stops only where a byte is unpopulated or unwritten (20_memory.md R49, 10_state.md R29). -/
theorem readPhysByte_fault {pa : Nat} {s : State} {f : Fault} (h : readPhysByte pa s = .fault f) :
    f = .unpopulated pa ∨ f = .unwritten pa := by
  unfold readPhysByte at h
  split at h
  · split at h <;> cases h
    exact .inr rfl
  · cases h
    exact .inl rfl

theorem readPhysByte_not_refused {pa : Nat} {s : State} {x : Refusal} : readPhysByte pa s ≠ .refused x := by
  unfold readPhysByte
  split
  · split <;> simp
  · simp

/-- Reading several bytes: the state is kept, every byte is populated, and the bytes are memory's. -/
theorem readPhys_ok {l : List Nat} {s t : State} {bs : List Byte} :
    readPhys l s = .ok bs t ↔ t = s ∧ (∀ a ∈ l, populated s a = true) ∧ l.map s.mem.read? = bs.map some := by
  induction l generalizing s t bs with
  | nil =>
    cases bs with
    | nil => simpa [readPhys] using eq_comm
    | cons b bs => simp [readPhys]
  | cons a l ih =>
    simp only [readPhys, Res.andThen_ok, readPhysByte_ok, ih]
    constructor
    · rintro ⟨b, _, ⟨rfl, hp, hr⟩, cs, _, ⟨rfl, hps, hrs⟩, h⟩
      cases h
      exact ⟨rfl, by simpa using ⟨hp, hps⟩, by simp [hr, hrs]⟩
    · rintro ⟨rfl, hp, hm⟩
      cases bs with
      | nil => simp at hm
      | cons b bs =>
        simp only [List.map_cons, List.cons.injEq] at hm
        simp only [List.mem_cons, forall_eq_or_imp] at hp
        exact ⟨b, t, ⟨rfl, hp.1, hm.1⟩, bs, t, ⟨rfl, hp.2, hm.2⟩, rfl⟩

theorem readPhys_fault {l : List Nat} {s : State} {f : Fault} (h : readPhys l s = .fault f) : faultKeeps s f := by
  induction l generalizing s with
  | nil => cases h
  | cons a l ih =>
    simp only [readPhys, Res.andThen_fault, readPhysByte_ok] at h
    rcases h with h | ⟨b, _, ⟨rfl, _⟩, h | ⟨_, _, _, h⟩⟩
    · rcases readPhysByte_fault h with rfl | rfl <;> trivial
    · exact ih h
    · cases h

theorem readPhys_not_refused {l : List Nat} {s : State} {x : Refusal} : readPhys l s ≠ .refused x := by
  induction l generalizing s with
  | nil => simp [readPhys]
  | cons a l ih =>
    intro h
    simp only [readPhys, Res.andThen_refused, readPhysByte_ok] at h
    rcases h with h | ⟨b, _, ⟨rfl, _⟩, h | ⟨_, _, _, h⟩⟩
    · exact readPhysByte_not_refused h
    · exact ih h
    · cases h

/-- The read of a table entry: memory lists all of it, and it is populated (20_memory.md R50). -/
theorem readPhys32_ok {a : Nat} {s t : State} {e : Word} :
    readPhys32 a s = .ok e t ↔ t = s ∧ entryPopulated s a = true ∧ listed32 s.mem a = some e := by
  have hp : entryPopulated s a = true ↔ ∀ c ∈ [a, a + 1, a + 2, a + 3], populated s c = true := by
    simp [entryPopulated, List.range_succ]
  simp only [readPhys32, Res.andThen_ok, readPhys_ok, hp, listed32_some]
  constructor
  · rintro ⟨bs, _, ⟨rfl, hpp, hm⟩, h⟩
    cases h
    rcases bs with _ | ⟨b0, _ | ⟨b1, _ | ⟨b2, _ | ⟨b3, _ | ⟨b4, bs⟩⟩⟩⟩⟩ <;>
      simp only [List.map_cons, List.map_nil, List.cons.injEq, reduceCtorEq, and_false, and_true] at hm
    exact ⟨rfl, hpp, b0, b1, b2, b3, hm.1, hm.2.1, hm.2.2.1, hm.2.2.2, rfl⟩
  · rintro ⟨rfl, hpp, b0, b1, b2, b3, h0, h1, h2, h3, rfl⟩
    exact ⟨[b0, b1, b2, b3], t, ⟨rfl, hpp, by simp [h0, h1, h2, h3]⟩, rfl⟩

theorem readPhys32_fault {a : Nat} {s : State} {f : Fault} (h : readPhys32 a s = .fault f) : faultKeeps s f := by
  simp only [readPhys32, Res.andThen_fault] at h
  rcases h with h | ⟨_, _, _, h⟩
  · exact readPhys_fault h
  · cases h

theorem readPhys32_not_refused {a : Nat} {s : State} {x : Refusal} : readPhys32 a s ≠ .refused x := by
  intro h
  simp only [readPhys32, Res.andThen_refused] at h
  rcases h with h | ⟨_, _, _, h⟩
  · exact readPhys_not_refused h
  · cases h

end Sys2Proof.Machine
end

