-- ==== Sys2Proof/Laws/Paging.lean ====
section
/-! SUPPORT. Translation of linear addresses: what it can do, and when it completes (20_memory.md R49 to R51). -/

namespace Sys2Proof.Machine

theorem onlyAccessedBits_refl (s : State) : onlyAccessedBits s s.mem := fun _ => .inl rfl

theorem onlyAccessedBits_trans {s t : State} {m : Memory} (h : onlyAccessedBits s t.mem) (k : onlyAccessedBits t m)
    (he : ∀ a, translatingEntry t a → translatingEntry s a) : onlyAccessedBits s m := by
  intro a
  rcases h a with h1 | ⟨ha, b, h1, h2⟩ <;> rcases k a with h3 | ⟨hb, c, h3, h4⟩
  · exact .inl (h3.trans h1)
  · exact .inr ⟨he a hb, c, h1 ▸ h3, h4⟩
  · exact .inr ⟨ha, b, h1, h3.trans h2⟩
  · refine .inr ⟨ha, b, h1, ?_⟩
    rw [h2] at h3
    cases h3
    rw [h4, BitVec.or_assoc, BitVec.or_self]

/-- An exception raised where nothing but CR2 was written. -/
theorem raise_keeps {α : Type} {x : Exc} {code : Option Half} {s : State} {f : Fault}
    (h : (raise x code s : Res α) = .fault f) : faultKeeps s f := by
  cases h
  exact ⟨rfl, fun _ => ⟨rfl, rfl⟩, onlyAccessedBits_refl s, id⟩

theorem raisePageFault_keeps {α : Type} {la : Word} {p w u : Bool} {s : State} {f : Fault}
    (h : (raisePageFault la p w u s : Res α) = .fault f) : faultKeeps s f := by
  cases h
  exact ⟨rfl, fun h => absurd rfl h, onlyAccessedBits_refl s, id⟩

theorem append_bit_toNat {n : Nat} (x : BitVec n) (b : Bool) :
    (x ++ BitVec.ofBool b).toNat = 2 * x.toNat + b.toNat := by
  have h : (BitVec.ofBool b).toNat < 2 ^ 1 := (BitVec.ofBool b).isLt
  rw [BitVec.toNat_append, ← Nat.shiftLeft_add_eq_or_of_lt h, Nat.shiftLeft_eq, BitVec.toNat_ofBool]
  omega

/-- The page-fault error code as a number (20_memory.md R51). -/
theorem pageFaultCode_toNat (p wr us : Bool) (x : BitVec 13) :
    (pageFaultCode p wr us x).toNat = 8 * x.toNat + 4 * us.toNat + 2 * wr.toNat + p.toNat := by
  unfold pageFaultCode
  rw [append_bit_toNat, append_bit_toNat, append_bit_toNat]
  omega

/-- The fault that a page fault is, at the first byte of an access (20_memory.md R51). -/
theorem raisePageFault_faulted {α : Type} (s : State) (la : Word) (p wr us : Bool) :
    ∃ f, (raisePageFault la p wr us s : Res α) = .fault f ∧ pageFaulted s la 0 p wr us f := by
  refine ⟨_, rfl, _, _, rfl, ?_, ?_, keepsBytes_refl _ _ _ _⟩
  · rw [pageFaultCode_toNat]
    cases p <;> cases wr <;> cases us <;> simp <;> omega
  · have h0 : la + BitVec.ofNat 32 0 = la := BitVec.add_zero la
    rw [h0]
    rfl

/-- A stop after marks is a stop of the state before them. -/
theorem faultKeeps_of_marked {marks : List Nat} {s t : State} {f : Fault} (h : Marked accessedBit marks s t)
    (hl : ∀ a ∈ marks, translatingEntry s a) (hf : faultKeeps t f) : faultKeeps s f := by
  cases f with
  | exception x c u =>
    obtain ⟨h1, h2, h3, h4⟩ := hf
    obtain ⟨_, _, _, _, h5, _, _, _, h9, _⟩ := h.same.fields
    refine ⟨?_, fun hx => ⟨(h2 hx).1.trans (by rw [h5]), (h2 hx).2.trans h9⟩,
      onlyAccessedBits_trans (onlyAccessedBits_of_keeps h.bytes hl) h3 fun a => (translatingEntry_marked
        (h.mono mark_mono fun _ h => h) (fun a ha => translatingEntry_aligned (hl a ha)) a).mp, fun w => h4 (h.wf w)⟩
    rw [h1, h.same]
  | unpopulated _ => trivial
  | unwritten _ => trivial
  | shutdown _ => exact hf
  | endOfRun _ => exact hf

/-- From `s` to `t` accessed bits of entries that translate were set, and nothing else changed (20_memory.md R50). -/
def AccessedOnly (s t : State) : Prop :=
  ∃ marks, (∀ a ∈ marks, translatingEntry s a) ∧ Marked accessedBit marks s t

theorem AccessedOnly.refl (s : State) : AccessedOnly s s := ⟨[], (fun _ h => by cases h), Marked.refl _ _ _⟩

theorem AccessedOnly.trans {s t u : State} (h : AccessedOnly s t) (k : AccessedOnly t u) : AccessedOnly s u := by
  obtain ⟨m1, a1, h1⟩ := h
  obtain ⟨m2, a2, h2⟩ := k
  refine ⟨m1 ++ m2, fun a ha => ?_, (h1.mono (fun _ h => h) (by simp +contextual)).trans
    (h2.mono (fun _ h => h) (by simp +contextual))⟩
  rcases List.mem_append.mp ha with h | h
  · exact a1 a h
  · exact (translatingEntry_marked (h1.mono mark_mono fun _ h => h)
      (fun a ha => translatingEntry_aligned (a1 a ha)) a).mp (a2 a h)

/-- A stop after accessed bits were set is a stop of the state before. -/
theorem AccessedOnly.faultKeeps {s t : State} {f : Fault} (h : AccessedOnly s t) (hf : faultKeeps t f) : faultKeeps s f :=
  let ⟨_, ha, hm⟩ := h
  faultKeeps_of_marked hm ha hf

/-- A stop inside a sequence is a stop of the first operation, or of the second in the state between. -/
theorem andThen_keeps {α β : Type} {r : Res α} {k : α → State → Res β} {s : State} {f : Fault}
    (h : r.andThen k = .fault f) (h1 : r = .fault f → faultKeeps s f)
    (h2 : ∀ a t, r = .ok a t → k a t = .fault f → faultKeeps s f) : faultKeeps s f := by
  rcases Res.andThen_fault.mp h with h | ⟨a, t, ha, hk⟩
  · exact h1 h
  · exact h2 a t ha hk

/-! ### The walk -/

/-- A walk that completes sets accessed bits only, and answers the address that the entries name (20_memory.md R50). -/
theorem walk_ok {la : Word} {wr us : Bool} {s t : State} {x : Translated} (hp : walksTables s = true)
    (h : walk la wr us s = .ok x t) :
    Marked accessedBit (tableMarks s 1 la) s t ∧ tableMapped s la wr us = true ∧ tableAddr? s la = some x.pa ∧
      ∃ a, x.pte = some a ∧ a ∈ tableMarks s 1 la := by
  simp only [walk, Res.andThen_ok, readPhys32_ok] at h
  obtain ⟨pde, s1, ⟨hs1, hpp, hpde⟩, h⟩ := h
  subst s1
  split at h
  · cases h
  · rename_i hp0
    simp only [Res.andThen_ok, readPhys32_ok] at h
    obtain ⟨pte, s2, ⟨hs2, htp, hpte⟩, h⟩ := h
    subst s2
    split at h
    · cases h
    · rename_i hp1
      split at h
      · cases h
      · rename_i hp2
        cases h
        have hm : tableMarks s 1 la = [pdeAddr s la, pteAddr pde la] := by
          simp only [Bool.not_eq_true, Bool.not_eq_false'] at hp0 hp1
          simp [tableMarks, entryMarks, hp, hpde, hpte, hp0, hp1]
        have hk : accessedBit &&& ~~~accessedBit = 0#8 := by decide
        refine ⟨?_, ?_, ?_, ?_⟩
        · rw [hm]
          exact ((setMemBits_marked _ _ _ s hk).mono (fun _ h => h) (by simp)).trans
            ((setMemBits_marked _ _ _ _ hk).mono (fun _ h => h) (by simp))
        · simp only [Bool.not_eq_true, Bool.not_eq_false', Bool.and_eq_false_iff] at hp0 hp1 hp2
          simp [tableMapped, hpde, hpte, hpp, htp, hp0, hp1]
          cases us
          · simp
          · simpa using hp2
        · simp [tableAddr?, hpde, hpte]
        · exact ⟨_, rfl, by rw [hm]; simp⟩

/-- A walk completes where the byte is mapped (20_memory.md R50). -/
theorem walk_complete {la : Word} {wr us : Bool} {s : State} (h : tableMapped s la wr us = true) :
    ∃ x t, walk la wr us s = .ok x t := by
  unfold tableMapped at h
  split at h
  · rename_i pde hpde
    split at h
    · rename_i pte hpte
      simp only [Bool.and_eq_true] at h
      obtain ⟨⟨⟨⟨h1, h2⟩, h3⟩, h4⟩, h5⟩ := h
      have h5' : (us && !(userMayAccess pde wr && userMayAccess pte wr)) = false := by
        cases us <;> simp_all
      refine ⟨⟨frameOf pte + la.toNat % 4096, some (pteAddr pde la)⟩,
        setMemBits (pteAddr pde la) 0x20#8 (setMemBits (pdeAddr s la) 0x20#8 s), ?_⟩
      simp only [walk, Res.andThen_ok, readPhys32_ok]
      refine ⟨pde, s, ⟨rfl, h1, hpde⟩, ?_⟩
      simp only [h3, Bool.not_true, Bool.false_eq_true, if_false, Res.andThen_ok, readPhys32_ok]
      refine ⟨pte, s, ⟨rfl, h2, hpte⟩, ?_⟩
      simp only [h4, h5', Bool.not_true, Bool.false_eq_true, if_false]
    · cases h
  · cases h

theorem walk_fault {la : Word} {wr us : Bool} {s : State} {f : Fault} (h : walk la wr us s = .fault f) :
    faultKeeps s f := by
  refine andThen_keeps h (fun h => readPhys32_fault h) fun pde t ht h1 => ?_
  obtain ⟨ht, _⟩ := readPhys32_ok.mp ht
  subst t
  split at h1
  · exact raisePageFault_keeps h1
  · refine andThen_keeps h1 (fun h => readPhys32_fault h) fun pte u hu h2 => ?_
    obtain ⟨hu, _⟩ := readPhys32_ok.mp hu
    subst u
    split at h2
    · exact raisePageFault_keeps h2
    · split at h2
      · exact raisePageFault_keeps h2
      · cases h2

theorem walk_not_refused {la : Word} {wr us : Bool} {s : State} {x : Refusal} : walk la wr us s ≠ .refused x := by
  intro h
  simp only [walk, Res.andThen_refused] at h
  rcases h with h | ⟨pde, t, ht, h⟩
  · exact readPhys32_not_refused h
  · split at h
    · cases h
    · simp only [Res.andThen_refused] at h
      rcases h with h | ⟨pte, u, hu, h⟩
      · exact readPhys32_not_refused h
      · split at h
        · cases h
        · split at h <;> cases h

/-! ### One byte -/

/-- A given translation: an address without a change of state, or a page fault (20_memory.md R49, R51). -/
theorem translateGiven_ok {lines : List PageLine} {la : Word} {wr us : Bool} {s t : State} {x : Translated} :
    translateGiven lines la wr us s = .ok x t ↔ t = s ∧ givenAddr? lines la wr us = some x.pa ∧ x.pte = none := by
  obtain ⟨pa, pte⟩ := x
  unfold translateGiven givenAddr?
  cases PageLine.answerOf lines (la.extractLsb' 12 20) wr us with
  | frame f =>
    simp only [Res.ok.injEq, Translated.mk.injEq, Option.some.injEq]
    exact ⟨fun ⟨⟨h1, h2⟩, h3⟩ => ⟨h3.symm, h1, h2.symm⟩, fun ⟨h1, h2, h3⟩ => ⟨⟨h2, h3.symm⟩, h1.symm⟩⟩
  | fault p => simp [raisePageFault, raise]

theorem translateGiven_fault {lines : List PageLine} {la : Word} {wr us : Bool} {s : State} {f : Fault}
    (h : translateGiven lines la wr us s = .fault f) : faultKeeps s f := by
  unfold translateGiven at h
  split at h
  · cases h
  · exact raisePageFault_keeps h

/-- A translation that completes (20_memory.md R49). -/
theorem translate_ok {la : Word} {wr us : Bool} {s t : State} {x : Translated} (h : translate la wr us s = .ok x t) :
    Marked accessedBit (tableMarks s 1 la) s t ∧ mapped s la wr us = true ∧ physAddr? s wr us la = some x.pa ∧
      ∀ a, x.pte = some a → a ∈ tableMarks s 1 la := by
  unfold translate at h
  split at h
  · rename_i hp
    split at h
    · rename_i ht
      obtain ⟨h1, h2, h3, a, ha, hm⟩ := walk_ok (by simp [walksTables, hp, ht]) h
      refine ⟨h1, by simpa [mapped, hp, ht] using h2, by simpa [physAddr?, hp, ht] using h3, fun b hb => ?_⟩
      rw [ha] at hb; cases hb; exact hm
    · rename_i lines ht
      obtain ⟨rfl, h2, h3⟩ := translateGiven_ok.mp h
      refine ⟨Marked.refl _ _ _, by simp [mapped, hp, ht, h2], by simp [physAddr?, hp, ht, h2], fun b hb => ?_⟩
      rw [h3] at hb; cases hb
  · rename_i hp
    cases h
    refine ⟨Marked.refl _ _ _, ?_, ?_, ?_⟩
    · simp [mapped, hp]
    · simp [physAddr?, hp]
    · intro a ha; cases ha

theorem translate_complete {la : Word} {wr us : Bool} {s : State} (h : mapped s la wr us = true) :
    ∃ x t, translate la wr us s = .ok x t := by
  unfold translate
  unfold mapped at h
  split
  · rw [if_pos ‹_›] at h
    cases ht : s.params.translate with
    | twoLevel =>
      rw [ht] at h
      exact walk_complete h
    | given lines =>
      rw [ht] at h
      obtain ⟨pa, hpa⟩ := Option.isSome_iff_exists.mp h
      exact ⟨⟨pa, none⟩, s, translateGiven_ok.mpr ⟨rfl, hpa, rfl⟩⟩
  · exact ⟨_, _, rfl⟩

theorem translate_fault {la : Word} {wr us : Bool} {s : State} {f : Fault} (h : translate la wr us s = .fault f) :
    faultKeeps s f := by
  unfold translate at h
  split at h
  · split at h
    · exact walk_fault h
    · exact translateGiven_fault h
  · cases h

theorem translate_not_refused {la : Word} {wr us : Bool} {s : State} {x : Refusal} :
    translate la wr us s ≠ .refused x := by
  unfold translate
  split
  · split
    · exact walk_not_refused
    · unfold translateGiven
      split <;> simp [raisePageFault, raise]
  · simp

/-- The page fault that a translation raises (20_memory.md R50, R51). -/
theorem translate_pageFault {la : Word} {wr us p : Bool} {s : State} (h : pageFaultBit? s la wr us = some p) :
    translate la wr us s = raisePageFault la p wr us s := by
  unfold pageFaultBit? at h
  unfold translate
  split at h
  · rw [if_pos ‹_›]
    cases ht : s.params.translate with
    | twoLevel =>
      simp only [ht] at h
      simp only [walk]
      split at h
      · rename_i pde hpde
        split at h
        · cases h
        · rename_i hpp
          rw [Bool.not_eq_true, Bool.not_eq_false'] at hpp
          simp only [readPhys32_ok.mpr ⟨rfl, hpp, hpde⟩, Res.andThen]
          split at h
          · cases h
            rw [if_pos ‹_›]
          · rw [if_neg ‹_›]
            split at h
            · rename_i pte hpte
              split at h
              · cases h
              · rename_i htp
                rw [Bool.not_eq_true, Bool.not_eq_false'] at htp
                simp only [readPhys32_ok.mpr ⟨rfl, htp, hpte⟩]
                split at h
                · cases h
                  rw [if_pos ‹_›]
                · rw [if_neg ‹_›]
                  split at h
                  · cases h
                    rw [if_pos ‹_›]
                  · cases h
            · cases h
      · cases h
    | given lines =>
      simp only [ht] at h
      simp only [translateGiven]
      cases ha : PageLine.answerOf lines (la.extractLsb' 12 20) wr us <;> simp_all
  · cases h

/-- Marks change no page fault. -/
theorem pageFaultBit?_marked {marks : List Nat} {s t : State} (h : Marked accessedAndDirty marks s t)
    (hl : alignedMarks marks) (la : Word) (wr us : Bool) : pageFaultBit? t la wr us = pageFaultBit? s la wr us := by
  unfold pageFaultBit?
  rw [h.same.paging, h.same.translate, pdeAddr_same h.same]
  obtain ⟨hs, hn⟩ := listed32_marked h hl (pdeAddr_aligned s la)
  cases hp : listed32 s.mem (pdeAddr s la) with
  | none => rw [hn hp]
  | some e =>
    obtain ⟨e', he', hee⟩ := hs e hp
    rw [he']
    simp only [pteAddr_same hee]
    obtain ⟨ht, htn⟩ := listed32_marked h hl (pteAddr_aligned e la)
    cases hq : listed32 s.mem (pteAddr e la) with
    | none => simp only [htn hq, entryPopulated_same h.same, hee.2.1]
    | some f =>
      obtain ⟨f', hf', hff⟩ := ht f hq
      simp only [hf', entryPopulated_same h.same, hee.2.1, hff.2.1, userMayAccess_same hee, userMayAccess_same hff]

/-! ### Several bytes -/

theorem tableMarks_succ (s : State) (n : Nat) (la : Word) :
    tableMarks s (n + 1) la = tableMarks s 1 la ++ tableMarks s n (la + 1) := by
  simp [tableMarks]

theorem addr_succ (la : Word) (k : Nat) : la + 1 + BitVec.ofNat 32 k = la + BitVec.ofNat 32 (k + 1) := by
  rw [BitVec.ofNat_add, BitVec.add_assoc, BitVec.add_comm 1]
  rfl

theorem accessed_mono {marks : List Nat} {s t : State} (h : Marked accessedBit marks s t) :
    Marked accessedAndDirty marks s t :=
  h.mono mark_mono fun _ h => h

/-- A translation of several bytes that completes: accessed bits only, one physical address for each byte
(20_memory.md R49). -/
theorem translateAll_ok {wr us : Bool} {n : Nat} {la : Word} {s t : State} {xs : List Translated}
    (h : translateAll wr us n la s = .ok xs t) :
    Marked accessedBit (tableMarks s n la) s t ∧ xs.length = n ∧
      (∀ k, k < n → mapped s (la + BitVec.ofNat 32 k) wr us = true ∧
        ∃ x, xs[k]? = some x ∧ physAddr? s wr us (la + BitVec.ofNat 32 k) = some x.pa) ∧
      ∀ x ∈ xs, ∀ a, x.pte = some a → a ∈ tableMarks s n la := by
  induction n generalizing la s t xs with
  | zero =>
    cases h
    exact ⟨Marked.refl _ _ _, rfl, fun k hk => absurd hk (Nat.not_lt_zero k), fun x hx => by cases hx⟩
  | succ n ih =>
    simp only [translateAll, Res.andThen_ok] at h
    obtain ⟨x, u, hx, ys, _, hy, h⟩ := h
    cases h
    obtain ⟨m1, a1, p1, q1⟩ := translate_ok hx
    obtain ⟨m2, l2, p2, q2⟩ := ih hy
    have hal := tableMarks_aligned s 1 la
    have hu := accessed_mono m1
    rw [tableMarks_marked hu hal] at m2 q2
    rw [tableMarks_succ]
    refine ⟨(m1.mono (fun _ h => h) (by simp +contextual)).trans (m2.mono (fun _ h => h) (by simp +contextual)),
      by simp [l2], ?_, ?_⟩
    · intro k hk
      cases k with
      | zero => exact ⟨by simpa using a1, x, by simp, by simpa using p1⟩
      | succ k =>
        obtain ⟨a3, y, hyk, hpa⟩ := p2 k (by omega)
        rw [addr_succ, mapped_marked hu hal] at a3
        rw [addr_succ, physAddr?_marked hu hal] at hpa
        exact ⟨a3, y, by simpa using hyk, hpa⟩
    · intro y hy a ha
      rcases List.mem_cons.mp hy with rfl | hy
      · exact List.mem_append_left _ (q1 a ha)
      · exact List.mem_append_right _ (q2 y hy a ha)

theorem translateAll_complete {wr us : Bool} {n : Nat} {la : Word} {s : State}
    (h : ∀ k, k < n → mapped s (la + BitVec.ofNat 32 k) wr us = true) : ∃ xs t, translateAll wr us n la s = .ok xs t := by
  induction n generalizing la s with
  | zero => exact ⟨_, _, rfl⟩
  | succ n ih =>
    obtain ⟨x, u, hx⟩ := translate_complete (s := s) (la := la) (wr := wr) (us := us) (by simpa using h 0 (by omega))
    have hu := accessed_mono (translate_ok hx).1
    obtain ⟨ys, t, hy⟩ := ih (la := la + 1) (s := u) fun k hk => by
      rw [addr_succ, mapped_marked hu (tableMarks_aligned s 1 la)]
      exact h (k + 1) (by omega)
    exact ⟨x :: ys, t, by simp only [translateAll, hx, hy, Res.andThen]⟩

/-- The lowest byte that raises a page fault decides (20_memory.md R49, R51). -/
theorem translateAll_pageFault {wr us p : Bool} {n k : Nat} {la : Word} {s : State} (hk : k < n)
    (hm : ∀ j, j < k → mapped s (la + BitVec.ofNat 32 j) wr us = true)
    (hp : pageFaultBit? s (la + BitVec.ofNat 32 k) wr us = some p) :
    ∃ f, translateAll wr us n la s = .fault f ∧ pageFaulted s la k p wr us f := by
  induction k generalizing la s n with
  | zero =>
    obtain ⟨m, rfl⟩ : ∃ m, n = m + 1 := ⟨n - 1, by omega⟩
    obtain ⟨f, hf, hq⟩ := raisePageFault_faulted (α := Translated) s la p wr us
    have h0 : la + BitVec.ofNat 32 0 = la := BitVec.add_zero la
    rw [h0] at hp
    exact ⟨f, by simp only [translateAll, translate_pageFault hp, hf, Res.andThen], hq⟩
  | succ k ih =>
    obtain ⟨m, rfl⟩ : ∃ m, n = m + 1 := ⟨n - 1, by omega⟩
    obtain ⟨x, u, hx⟩ := translate_complete (s := s) (la := la) (wr := wr) (us := us) (by simpa using hm 0 (by omega))
    have hmk := (translate_ok hx).1
    have hu := accessed_mono hmk
    have hal := tableMarks_aligned s 1 la
    obtain ⟨f, hf, c, t, rfl, hc, ht, hb⟩ := ih (la := la + 1) (s := u) (n := m) (by omega)
      (fun j hj => by
        rw [addr_succ, mapped_marked hu hal]
        exact hm (j + 1) (by omega))
      (by rw [addr_succ, pageFaultBit?_marked hu hal]; exact hp)
    refine ⟨_, by simp only [translateAll, hx, hf, Res.andThen], c, t, rfl, hc, ?_, ?_⟩
    · rw [addr_succ] at ht
      rw [ht, hmk.same]
    · rw [tableMarks_succ]
      rw [tableMarks_marked hu hal] at hb
      exact keepsBytes_trans (keepsBytes_mono hmk.bytes (fun _ h => h) (by simp +contextual) (fun _ h => h))
        (keepsBytes_mono hb (fun _ h => h) (by simp +contextual) (fun _ h => h))

theorem translateAll_fault {wr us : Bool} {n : Nat} {la : Word} {s : State} {f : Fault}
    (h : translateAll wr us n la s = .fault f) : faultKeeps s f := by
  induction n generalizing la s with
  | zero => cases h
  | succ n ih =>
    refine andThen_keeps h (fun h => translate_fault h) fun x t ht h => ?_
    have hm := (translate_ok ht).1
    refine faultKeeps_of_marked hm (tableMarks_translating s 1 la) (andThen_keeps h (fun h => ih h) fun ys u _ h => ?_)
    cases h

theorem translateAll_not_refused {wr us : Bool} {n : Nat} {la : Word} {s : State} {x : Refusal} :
    translateAll wr us n la s ≠ .refused x := by
  induction n generalizing la s with
  | zero => simp [translateAll]
  | succ n ih =>
    intro h
    simp only [translateAll, Res.andThen_refused] at h
    rcases h with h | ⟨_, _, _, h | ⟨_, _, _, h⟩⟩
    · exact translate_not_refused h
    · exact ih h
    · cases h

end Sys2Proof.Machine
end

