-- ==== Sys2Proof/Laws/Linear.lean ====
section
/-! SUPPORT. Reads and writes at linear addresses and through segments: what they do, and when they complete
(20_memory.md R46 to R50). -/

namespace Sys2Proof.Machine

/-! ### Lists of addresses -/

/-- Two of up to 4096 consecutive linear bytes have different physical addresses. -/
theorem physAddr?_inj {s : State} {wr us : Bool} {la : Word} {i j pa : Nat} (hi : i < 4096) (hj : j < 4096)
    (h1 : physAddr? s wr us (la + BitVec.ofNat 32 i) = some pa) (h2 : physAddr? s wr us (la + BitVec.ofNat 32 j) = some pa) :
    i = j := by
  have key : ∀ k, physAddr? s wr us (la + BitVec.ofNat 32 k) = some pa → pa % 4096 = (la.toNat + k) % 4096 := by
    intro k hk
    have hla : (la + BitVec.ofNat 32 k).toNat % 4096 = (la.toNat + k) % 4096 := by
      simp only [BitVec.toNat_add, BitVec.toNat_ofNat]; omega
    exact (physAddr?_offset hk).trans hla
  have a := key i h1
  have b := key j h2
  omega

theorem mem_linearBytes {s : State} {wr us : Bool} {la : Word} {n a : Nat} :
    a ∈ linearBytes s wr us la n ↔ ∃ k, k < n ∧ physAddr? s wr us (la + BitVec.ofNat 32 k) = some a := by
  simp [linearBytes]

/-- The physical addresses of a completed translation are those of the operand. -/
theorem translated_pas {s : State} {wr us : Bool} {la : Word} {n : Nat} {xs : List Translated} (hl : xs.length = n)
    (h : ∀ k, k < n → ∃ x, xs[k]? = some x ∧ physAddr? s wr us (la + BitVec.ofNat 32 k) = some x.pa) :
    xs.map Translated.pa = linearBytes s wr us la n := by
  induction n generalizing xs with
  | zero =>
    rw [List.length_eq_zero_iff.mp hl]
    rfl
  | succ n ih =>
    have hne : xs ≠ [] := by rintro rfl; simp at hl
    obtain ⟨x, hx, hpa⟩ := h n (by omega)
    have hlast : xs.getLast hne = x := by
      have := List.getLast_eq_getElem hne
      rw [this]
      have h3 := List.getElem?_eq_some_iff.mp hx
      obtain ⟨_, h4⟩ := h3
      simp only [hl, Nat.add_sub_cancel]
      exact h4
    have hdl : xs.dropLast.map Translated.pa = linearBytes s wr us la n := by
      refine ih (by simp [hl]) fun k hk => ?_
      obtain ⟨y, hy, hp⟩ := h k (by omega)
      exact ⟨y, by rw [List.getElem?_dropLast, if_pos (by omega)]; exact hy, hp⟩
    rw [← List.dropLast_concat_getLast hne, List.map_append, hdl, hlast]
    simp [linearBytes, List.range_succ, hpa]

theorem linearBytes_lt {s : State} {wr us : Bool} {la : Word} {n a : Nat} (h : a ∈ linearBytes s wr us la n) : a < addressSpace := by
  obtain ⟨_, _, h⟩ := mem_linearBytes.mp h
  exact physAddr?_lt h

/-- Where every byte translates, the k-th physical byte is that of the k-th linear byte. -/
theorem linearBytes_getElem {s : State} {wr us : Bool} {la : Word} {n : Nat}
    (h : ∀ k, k < n → ∃ pa, physAddr? s wr us (la + BitVec.ofNat 32 k) = some pa) :
    (linearBytes s wr us la n).length = n ∧
      ∀ k, k < n → (linearBytes s wr us la n)[k]? = physAddr? s wr us (la + BitVec.ofNat 32 k) := by
  induction n with
  | zero => exact ⟨rfl, fun k hk => absurd hk (Nat.not_lt_zero k)⟩
  | succ n ih =>
    obtain ⟨hl, hg⟩ := ih fun k hk => h k (by omega)
    obtain ⟨pa, hpa⟩ := h n (by omega)
    have hs : linearBytes s wr us la (n + 1) = linearBytes s wr us la n ++ [pa] := by
      simp [linearBytes, List.range_succ, hpa]
    rw [hs]
    refine ⟨by simp [hl], fun k hk => ?_⟩
    rcases Nat.lt_succ_iff_lt_or_eq.mp hk with h1 | rfl
    · rw [List.getElem?_append_left (by omega), hg k h1]
    · rw [List.getElem?_append_right (by omega)]
      simp [hl, hpa]

theorem linearBytes_nodup {s : State} {wr us : Bool} {la : Word} {n : Nat} (hn : n ≤ 4096) : (linearBytes s wr us la n).Nodup := by
  induction n with
  | zero => exact List.nodup_nil
  | succ n ih =>
    have hs : linearBytes s wr us la (n + 1)
        = linearBytes s wr us la n ++ (physAddr? s wr us (la + BitVec.ofNat 32 n)).toList := by
      cases hc : physAddr? s wr us (la + BitVec.ofNat 32 n) <;>
        simp [linearBytes, List.range_succ, List.filterMap_append, hc]
    rw [hs, List.nodup_append]
    refine ⟨ih (by omega), by cases physAddr? s wr us (la + BitVec.ofNat 32 n) <;> simp, ?_⟩
    intro a ha b hb
    obtain ⟨k, hk, hp⟩ := mem_linearBytes.mp ha
    rintro rfl
    have hq : physAddr? s wr us (la + BitVec.ofNat 32 n) = some a := by
      cases hc : physAddr? s wr us (la + BitVec.ofNat 32 n) with
      | none => rw [hc] at hb; cases hb
      | some c => rw [hc] at hb; simp at hb; rw [hb]
    have := physAddr?_inj (by omega) (by omega) hp hq
    omega

theorem linearBytes_marked {marks : List Nat} {s t : State} (h : Marked accessedAndDirty marks s t)
    (hl : alignedMarks marks) (wr us : Bool) (la : Word) (n : Nat) : linearBytes t wr us la n = linearBytes s wr us la n := by
  simp only [linearBytes, physAddr?_marked h hl]

/-! ### Reading -/

/-- A read that completes: accessed bits, and the bytes that memory then holds (20_memory.md R46, R50). -/
theorem readLinear_ok {la : Word} {n : Nat} {sup : Bool} {s t : State} {bs : List Byte}
    (h : readLinear la n sup s = .ok bs t) :
    Marked accessedBit (tableMarks s n la) s t ∧ bs.length = n ∧ holdsLinear s false (userAccess s sup) t.mem la bs := by
  simp only [readLinear, Res.andThen_ok, readPhys_ok] at h
  obtain ⟨xs, u, hx, hu, _, hb⟩ := h
  subst u
  obtain ⟨hm, hl, hp, _⟩ := translateAll_ok hx
  rw [List.map_map] at hb
  have hlen : bs.length = n := by
    have := congrArg List.length hb
    simpa [hl] using this.symm
  refine ⟨hm, hlen, fun k hk => ?_⟩
  obtain ⟨_, x, hxk, hpa⟩ := hp k (hlen ▸ hk)
  refine ⟨x.pa, hpa, ?_⟩
  have hk' := congrArg (fun l => l[k]?) hb
  simp only [List.getElem?_map, hxk, Option.map_some, Function.comp_apply] at hk'
  cases hbk : bs[k]? with
  | none => rw [List.getElem?_eq_none_iff] at hbk; omega
  | some b => rw [hbk] at hk'; simpa using hk'

/-- A read completes where every byte loads (20_memory.md R49, 10_state.md R29). -/
theorem readLinear_complete {la : Word} {n : Nat} {sup : Bool} {s : State}
    (h : ∀ k, k < n → byteLoads s (la + BitVec.ofNat 32 k) (userAccess s sup) = true) :
    ∃ bs t, readLinear la n sup s = .ok bs t := by
  obtain ⟨xs, t, hx⟩ := translateAll_complete (wr := false) (us := userAccess s sup) (la := la) (n := n) (s := s)
    fun k hk => by
      have := h k hk
      simp only [byteLoads, Bool.and_eq_true] at this
      exact this.1
  obtain ⟨hm, hl, hp, hq⟩ := translateAll_ok hx
  have key : ∀ x ∈ xs, populated t x.pa = true ∧ ∃ b, t.mem.read? x.pa = some b := by
    intro x hxm
    obtain ⟨k, hk, hxk⟩ := List.mem_iff_getElem?.mp hxm |>.elim fun k hk =>
      (⟨k, (List.getElem?_eq_some_iff.mp hk).1, hk⟩ : ∃ k, k < xs.length ∧ xs[k]? = some x)
    obtain ⟨_, y, hy, hpa⟩ := hp k (hl ▸ hk)
    rw [hxk] at hy
    cases hy
    have hb := h k (hl ▸ hk)
    simp only [byteLoads, hpa, Bool.and_eq_true] at hb
    refine ⟨by rw [hm.same.populated]; exact hb.2.1, ?_⟩
    rcases hm.bytes x.pa (by simp) with h1 | ⟨_, b, c, _, _, h2⟩
    · rw [h1]; exact Option.isSome_iff_exists.mp hb.2.2
    · exact ⟨_, h2⟩
  have hread : ∃ bs, readPhys (xs.map Translated.pa) t = .ok bs t := by
    clear hx hl hp hq
    induction xs with
    | nil => exact ⟨[], rfl⟩
    | cons x xs ih =>
      obtain ⟨bs, hbs⟩ := ih fun y hy => key y (List.mem_cons_of_mem _ hy)
      obtain ⟨hpp, b, hb⟩ := key x (by simp)
      refine ⟨b :: bs, ?_⟩
      simp only [List.map_cons, readPhys, readPhysByte_ok.mpr ⟨rfl, hpp, hb⟩, Res.andThen, hbs]
  obtain ⟨bs, hbs⟩ := hread
  exact ⟨bs, t, by simp only [readLinear, hx, Res.andThen, hbs]⟩

/-- The lowest byte of a read that raises a page fault decides (20_memory.md R46, R49). -/
theorem readLinear_pageFault {la : Word} {n k : Nat} {sup p : Bool} {s : State} (hk : k < n)
    (hm : ∀ j, j < k → mapped s (la + BitVec.ofNat 32 j) false (userAccess s sup) = true)
    (hp : pageFaultBit? s (la + BitVec.ofNat 32 k) false (userAccess s sup) = some p) :
    ∃ f, readLinear la n sup s = .fault f ∧ pageFaulted s la k p false (userAccess s sup) f := by
  obtain ⟨f, hf, hp⟩ := translateAll_pageFault hk hm hp
  exact ⟨f, by simp only [readLinear, hf, Res.andThen], hp⟩

/-- A byte that stops a read stops it after marks too. -/
theorem byteStop?_marked {mask : Byte} {marks : List Nat} {s t : State} (h : Marked mask marks s t) (pa : Nat) :
    byteStop? t pa = byteStop? s pa := by
  unfold byteStop?
  rw [h.same.populated]
  rcases h.bytes pa (by simp) with h1 | ⟨_, b, k, h1, _, h2⟩
  · rw [h1]
  · rw [h1, h2]
    rfl

/-- A byte stops no read where it is populated and was written. -/
theorem byteStop?_none {s : State} {pa : Nat} :
    byteStop? s pa = none ↔ populated s pa = true ∧ ∃ b, s.mem.read? pa = some b := by
  unfold byteStop?
  cases populated s pa <;> cases s.mem.read? pa <;> simp

theorem readPhysByte_stop {s : State} {pa : Nat} {f : Fault} (h : byteStop? s pa = some f) :
    readPhysByte pa s = .fault f := by
  unfold byteStop? at h
  unfold readPhysByte
  cases hp : populated s pa <;> cases hr : s.mem.read? pa <;> simp_all

/-- The first byte of a list that stops decides. -/
theorem readPhys_stop {l : List Nat} {k pa : Nat} {s : State} {f : Fault} (hk : l[k]? = some pa)
    (hj : ∀ j b, j < k → l[j]? = some b → byteStop? s b = none) (hf : byteStop? s pa = some f) :
    readPhys l s = .fault f := by
  induction l generalizing k with
  | nil => cases hk
  | cons a l ih =>
    cases k with
    | zero =>
      cases hk
      simp only [readPhys, readPhysByte_stop hf, Res.andThen]
    | succ k =>
      obtain ⟨hp, b, hb⟩ := byteStop?_none.mp (hj 0 a (by omega) rfl)
      simp only [readPhys, readPhysByte_ok.mpr ⟨rfl, hp, hb⟩, Res.andThen,
        ih (k := k) hk fun j b hjk hb => hj (j + 1) b (by omega) hb]

/-- In a read whose bytes all translate, the lowest byte that is not populated or was never written decides
(20_memory.md R49, 10_state.md R29). -/
theorem readLinear_stop {la : Word} {n k pa : Nat} {sup : Bool} {s : State} {f : Fault} (hk : k < n)
    (hm : ∀ j, j < n → mapped s (la + BitVec.ofNat 32 j) false (userAccess s sup) = true)
    (hj : ∀ j, j < k → byteLoads s (la + BitVec.ofNat 32 j) (userAccess s sup) = true)
    (hpa : physAddr? s false (userAccess s sup) (la + BitVec.ofNat 32 k) = some pa) (hf : byteStop? s pa = some f) :
    readLinear la n sup s = .fault f := by
  obtain ⟨xs, u, hx⟩ := translateAll_complete hm
  obtain ⟨hmk, hl, hp, _⟩ := translateAll_ok hx
  have hget : ∀ j b, j < n → (xs.map Translated.pa)[j]? = some b →
      physAddr? s false (userAccess s sup) (la + BitVec.ofNat 32 j) = some b := by
    intro j b hjn hb
    obtain ⟨_, x, hxj, hxp⟩ := hp j hjn
    rw [List.getElem?_map, hxj] at hb
    rw [hxp]
    simpa using hb
  simp only [readLinear, hx, Res.andThen]
  refine readPhys_stop (k := k) (pa := pa) ?_ ?_ (by rw [byteStop?_marked hmk]; exact hf)
  · obtain ⟨_, x, hxk, hxp⟩ := hp k hk
    rw [hpa] at hxp
    cases hxp
    rw [List.getElem?_map, hxk]
    rfl
  · intro j b hjk hb
    have := hj j hjk
    simp only [byteLoads, hget j b (by omega) hb, Bool.and_eq_true] at this
    rw [byteStop?_marked hmk]
    exact byteStop?_none.mpr ⟨this.2.1, Option.isSome_iff_exists.mp this.2.2⟩

theorem readLinear_fault {la : Word} {n : Nat} {sup : Bool} {s : State} {f : Fault}
    (h : readLinear la n sup s = .fault f) : faultKeeps s f :=
  andThen_keeps h (fun h => translateAll_fault h) fun _ _ ht h =>
    faultKeeps_of_marked (translateAll_ok ht).1 (tableMarks_translating s n la) (readPhys_fault h)

theorem readLinear_not_refused {la : Word} {n : Nat} {sup : Bool} {s : State} {x : Refusal} :
    readLinear la n sup s ≠ .refused x := by
  intro h
  simp only [readLinear, Res.andThen_refused] at h
  rcases h with h | ⟨_, _, _, h⟩
  · exact translateAll_not_refused h
  · exact readPhys_not_refused h

/-! ### Live page tables -/

theorem inLiveTable_iff {s : State} {pa : Nat} :
    inLiveTable s pa = true ↔ walksTables s = true ∧ (pa / 4096 = s.sys.cr3.toNat / 4096 ∨
      ∃ a e, a / 4096 = s.sys.cr3.toNat / 4096 ∧ a % 4 = 0 ∧ listed32 s.mem a = some e ∧ e.getLsbD 0 = true ∧
        pa / 4096 = e.toNat / 4096) := by
  have hmem : ∀ (m : Memory) a b, m.read? a = some b → ∃ c ∈ m, c.1 = a := by
    intro m a b h
    induction m with
    | nil => cases h
    | cons c rest ih =>
      simp only [Memory.read?] at h
      split at h
      · exact ⟨c, by simp, ‹_›⟩
      · obtain ⟨d, hd, he⟩ := ih h
        exact ⟨d, List.mem_cons_of_mem _ hd, he⟩
  simp only [inLiveTable, Bool.and_eq_true, Bool.or_eq_true, List.any_eq_true, decide_eq_true_eq]
  refine and_congr_right fun _ => or_congr_right ?_
  constructor
  · rintro ⟨c, _, ⟨h1, h2⟩, h3⟩
    split at h3
    · rename_i e he
      simp only [Bool.and_eq_true, decide_eq_true_eq] at h3
      exact ⟨c.1, e, h1, h2, he, h3.1, h3.2⟩
    · cases h3
  · rintro ⟨a, e, h1, h2, he, h3, h4⟩
    obtain ⟨b0, _, _, _, hb, _⟩ := listed32_some.mp he
    obtain ⟨c, hc, rfl⟩ := hmem _ _ _ hb
    exact ⟨c, hc, ⟨h1, h2⟩, by simp [he, h3, h4]⟩

/-- Marks make no page a table. -/
theorem inLiveTable_marked {marks : List Nat} {s t : State} (h : Marked accessedAndDirty marks s t)
    (hl : alignedMarks marks) (pa : Nat) : inLiveTable t pa = inLiveTable s pa := by
  have hc : t.sys.cr3 = s.sys.cr3 := by rw [h.same]
  rw [Bool.eq_iff_iff, inLiveTable_iff, inLiveTable_iff, h.same.walksTables, hc]
  refine and_congr_right fun _ => or_congr_right ⟨?_, ?_⟩
  · rintro ⟨a, e, h1, h2, he, h3, h4⟩
    obtain ⟨hs, hn⟩ := listed32_marked h hl h2
    cases hq : listed32 s.mem a with
    | none => rw [hn hq] at he; cases he
    | some e0 =>
      obtain ⟨e', he', hee⟩ := hs e0 hq
      rw [he] at he'
      cases he'
      have hf := hee.1
      simp only [frameOf] at hf
      exact ⟨a, e0, h1, h2, hq, hee.2.1 ▸ h3, by omega⟩
  · rintro ⟨a, e, h1, h2, he, h3, h4⟩
    obtain ⟨e', he', hee⟩ := (listed32_marked h hl h2).1 e he
    have hf := hee.1
    simp only [frameOf] at hf
    exact ⟨a, e', h1, h2, he', hee.2.1.trans h3, by omega⟩

/-! ### Writing -/

/-- The dirty bits of a store are marks (20_memory.md R50). -/
theorem setDirty_marked {marks : List Nat} (xs : List Translated) (s : State)
    (h : ∀ x ∈ xs, ∀ a, x.pte = some a → a ∈ marks) : Marked accessedAndDirty marks s (setDirty xs s) := by
  induction xs generalizing s with
  | nil => exact Marked.refl _ _ _
  | cons x xs ih =>
    unfold setDirty
    split
    · rename_i a ha
      have hm := h x (by simp) a ha
      exact ((setMemBits_marked a accessedAndDirty 0x40#8 s (by decide)).mono (fun _ h => h)
        (by simpa using hm)).trans (ih _ fun y hy => h y (List.mem_cons_of_mem _ hy))
    · exact ih _ fun y hy => h y (List.mem_cons_of_mem _ hy)

theorem firstUnpopulated_none {s : State} {l : List Nat} :
    firstUnpopulated s l = none ↔ ∀ a ∈ l, populated s a = true := by
  induction l with
  | nil => simp [firstUnpopulated]
  | cons a l ih =>
    simp only [firstUnpopulated, List.mem_cons, forall_eq_or_imp]
    split
    · rename_i h; simp [h, ih]
    · rename_i h; simp [h]

/-- What a store at a linear address leaves (20_memory.md R47, R50, R59). -/
structure Stored (s : State) (la : Word) (bs : List Byte) (sup : Bool) (t : State) : Prop where
  same : t = { s with
    mem := t.mem
    staleTables := s.staleTables || (!sup && (linearBytes s true (userAccess s sup) la bs.length).any (inLiveTable s)) }
  holds : holdsLinear s true (userAccess s sup) t.mem la bs
  bytes : keepsBytes accessedAndDirty (tableMarks s bs.length la) (linearBytes s true (userAccess s sup) la bs.length) s.mem t.mem
  wf : s.mem.wf = true → t.mem.wf = true

/-- A store that completes (20_memory.md R47, R49, R50, R59). -/
theorem writeLinear_ok {la : Word} {bs : List Byte} {sup : Bool} {s t : State} (hn : bs.length ≤ 4096)
    (h : writeLinear la bs sup s = .ok () t) : Stored s la bs sup t := by
  simp only [writeLinear, Res.andThen_ok] at h
  obtain ⟨xs, u, hx, h⟩ := h
  obtain ⟨hm, hl, hp, hq⟩ := translateAll_ok hx
  have hal := tableMarks_aligned s bs.length la
  have hu := accessed_mono hm
  have hpas := translated_pas (s := s) (la := la) hl fun k hk => (hp k hk).2
  have hall : ∀ k, k < bs.length → ∃ pa, physAddr? s true (userAccess s sup) (la + BitVec.ofNat 32 k) = some pa := fun k hk =>
    let ⟨_, x, _, hpa⟩ := hp k hk
    ⟨x.pa, hpa⟩
  split at h
  · cases h
  · unfold storePhys at h
    split at h
    · cases h
    · cases h
      have hd := hu.trans (setDirty_marked xs u hq)
      have hany : (xs.any fun x => inLiveTable u x.pa) = (linearBytes s true (userAccess s sup) la bs.length).any (inLiveTable s) := by
        rw [← hpas, List.any_map]
        congr 1
        funext x
        exact inLiveTable_marked hu hal x.pa
      have hkeys : ((linearBytes s true (userAccess s sup) la bs.length).zip bs).map Prod.fst = linearBytes s true (userAccess s sup) la bs.length := by
        rw [List.map_fst_zip]
        rw [(linearBytes_getElem hall).1]
      refine ⟨?_, ?_, ?_, ?_⟩
      · rw [hany, setDirty_staleTables, hu.same.fields.2.2.2.2.2.2.2.1]
        conv => lhs; rw [hd.same]
      · intro k hk
        obtain ⟨pa, hpa⟩ := hall k hk
        refine ⟨pa, hpa, ?_⟩
        have hk1 : (linearBytes s true (userAccess s sup) la bs.length)[k]? = some pa := by rw [(linearBytes_getElem hall).2 k hk, hpa]
        have hmem : (pa, bs[k]) ∈ (linearBytes s true (userAccess s sup) la bs.length).zip bs := by
          rw [List.mem_iff_getElem?]
          exact ⟨k, by simp [List.getElem?_zip_eq_some, hk1, hk]⟩
        rw [List.getElem?_eq_getElem hk]
        have := Memory.read?_writeAll_mem (setDirty xs u).mem ((linearBytes s true (userAccess s sup) la bs.length).zip bs)
          (by rw [hkeys]; exact linearBytes_nodup hn) hmem
        simpa [hpas] using this
      · intro a ha
        rcases hd.bytes a (by simp) with h1 | h1
        · refine .inl ?_
          rw [← h1]
          simp only [hpas]
          exact Memory.read?_writeAll_outside _ _ _ (by rw [hkeys]; exact ha)
        · refine .inr ⟨h1.1, ?_⟩
          obtain ⟨b, c, e1, e2, e3⟩ := h1.2
          refine ⟨b, c, e1, e2, ?_⟩
          rw [← e3]
          simp only [hpas]
          exact Memory.read?_writeAll_outside _ _ _ (by rw [hkeys]; exact ha)
      · intro w
        refine Memory.wf_writeAll (hd.wf w) _ fun c hc => ?_
        rw [hpas] at hc
        have : c.1 ∈ linearBytes s true (userAccess s sup) la bs.length := by rw [← hkeys]; exact List.mem_map_of_mem hc
        exact linearBytes_lt this

/-- A store of the program completes where every byte can be stored to (20_memory.md R47, R49, R58). -/
theorem writeLinear_complete {la : Word} {bs : List Byte} {s : State}
    (h : ∀ k, k < bs.length → byteStores s (la + BitVec.ofNat 32 k) (userAccess s false) = true) :
    ∃ t, writeLinear la bs false s = .ok () t := by
  obtain ⟨xs, u, hx⟩ := translateAll_complete (wr := true) (us := userAccess s false) (la := la) (n := bs.length)
    (s := s) fun k hk => by
      have := h k hk
      simp only [byteStores, Bool.and_eq_true] at this
      exact this.1.1
  obtain ⟨hm, hl, hp, _⟩ := translateAll_ok hx
  have htext : overlapsText u la bs.length = false := by
    rw [overlapsText, List.any_eq_false]
    intro k hk
    have := h k (List.mem_range.mp hk)
    simp only [byteStores, Bool.and_eq_true, Bool.not_eq_true'] at this
    have he : inProgramText u (la + BitVec.ofNat 32 k) = inProgramText s (la + BitVec.ofNat 32 k) := by
      rw [hm.same]; rfl
    rw [he, this.1.2]
    simp
  have hpop : firstUnpopulated u (xs.map Translated.pa) = none := by
    rw [firstUnpopulated_none]
    intro a ha
    rw [translated_pas hl fun k hk => (hp k hk).2] at ha
    obtain ⟨k, hk, hpa⟩ := mem_linearBytes.mp ha
    have := h k hk
    simp only [byteStores, hpa, Bool.and_eq_true] at this
    rw [hm.same.populated]
    exact this.2
  simp [writeLinear, hx, Res.andThen, htext, storePhys, hpop]

theorem storePhys_fault {xs : List Translated} {bs : List Byte} {sup : Bool} {s : State} {f : Fault}
    (h : storePhys xs bs sup s = .fault f) : faultKeeps s f := by
  unfold storePhys at h
  split at h
  · cases h; trivial
  · cases h

theorem writeLinear_fault {la : Word} {bs : List Byte} {sup : Bool} {s : State} {f : Fault}
    (h : writeLinear la bs sup s = .fault f) : faultKeeps s f := by
  refine andThen_keeps h (fun h => translateAll_fault h) fun xs t ht h => ?_
  split at h
  · cases h
  · exact faultKeeps_of_marked (translateAll_ok ht).1 (tableMarks_translating s _ la) (storePhys_fault h)

/-- The lowest byte of a store that raises a page fault decides (20_memory.md R47, R49). -/
theorem writeLinear_pageFault {la : Word} {bs : List Byte} {k : Nat} {sup p : Bool} {s : State} (hk : k < bs.length)
    (hm : ∀ j, j < k → mapped s (la + BitVec.ofNat 32 j) true (userAccess s sup) = true)
    (hp : pageFaultBit? s (la + BitVec.ofNat 32 k) true (userAccess s sup) = some p) :
    ∃ f, writeLinear la bs sup s = .fault f ∧ pageFaulted s la k p true (userAccess s sup) f := by
  obtain ⟨f, hf, hp⟩ := translateAll_pageFault hk hm hp
  exact ⟨f, by simp only [writeLinear, hf, Res.andThen], hp⟩

/-- A store of the program that translates and reaches the program text is refused (20_memory.md R58). -/
theorem writeLinear_text {la : Word} {bs : List Byte} {k : Nat} {s : State} (hk : k < bs.length)
    (hm : ∀ j, j < bs.length → mapped s (la + BitVec.ofNat 32 j) true (userAccess s false) = true)
    (ht : inProgramText s (la + BitVec.ofNat 32 k) = true) : writeLinear la bs false s = .refused .programTextStore := by
  obtain ⟨xs, u, hx⟩ := translateAll_complete hm
  have : overlapsText u la bs.length = true := by
    rw [(translateAll_ok hx).1.same]
    exact List.any_eq_true.mpr ⟨k, List.mem_range.mpr hk, ht⟩
  simp only [writeLinear, hx, Res.andThen, this, Bool.not_false, Bool.and_self, if_true]

theorem firstUnpopulated_some {l : List Nat} {k pa : Nat} {s : State} (hk : l[k]? = some pa)
    (hj : ∀ j b, j < k → l[j]? = some b → populated s b = true) (hp : populated s pa = false) :
    firstUnpopulated s l = some pa := by
  induction l generalizing k with
  | nil => cases hk
  | cons a l ih =>
    cases k with
    | zero =>
      cases hk
      simp [firstUnpopulated, hp]
    | succ k =>
      simp only [firstUnpopulated, hj 0 a (by omega) rfl, if_true]
      exact ih (k := k) hk fun j b hjk hb => hj (j + 1) b (by omega) hb

/-- A store of the program that translates and reaches no program text is stuck at its lowest unpopulated byte
(20_memory.md R49). -/
theorem writeLinear_stop {la : Word} {bs : List Byte} {k pa : Nat} {s : State} (hk : k < bs.length)
    (hm : ∀ j, j < bs.length → mapped s (la + BitVec.ofNat 32 j) true (userAccess s false) = true ∧
      inProgramText s (la + BitVec.ofNat 32 j) = false)
    (hj : ∀ j, j < k → byteStores s (la + BitVec.ofNat 32 j) (userAccess s false) = true)
    (hpa : physAddr? s true (userAccess s false) (la + BitVec.ofNat 32 k) = some pa) (hp : populated s pa = false) :
    writeLinear la bs false s = .fault (.unpopulated pa) := by
  obtain ⟨xs, u, hx⟩ := translateAll_complete fun j hj => (hm j hj).1
  obtain ⟨hmk, hl, hq, _⟩ := translateAll_ok hx
  have htext : overlapsText u la bs.length = false := by
    rw [overlapsText, List.any_eq_false]
    intro j hj
    have he : inProgramText u (la + BitVec.ofNat 32 j) = inProgramText s (la + BitVec.ofNat 32 j) := by
      rw [hmk.same]; rfl
    rw [he, (hm j (List.mem_range.mp hj)).2]
    simp
  have hget : ∀ j b, j < bs.length → (xs.map Translated.pa)[j]? = some b →
      physAddr? s true (userAccess s false) (la + BitVec.ofNat 32 j) = some b := by
    intro j b hjn hb
    obtain ⟨_, x, hxj, hxp⟩ := hq j hjn
    rw [List.getElem?_map, hxj] at hb
    rw [hxp]
    simpa using hb
  have hfirst : firstUnpopulated u (xs.map Translated.pa) = some pa := by
    refine firstUnpopulated_some (k := k) ?_ ?_ (by rw [hmk.same.populated]; exact hp)
    · obtain ⟨_, x, hxk, hxp⟩ := hq k hk
      rw [hpa] at hxp
      cases hxp
      rw [List.getElem?_map, hxk]
      rfl
    · intro j b hjk hb
      have := hj j hjk
      simp only [byteStores, hget j b (by omega) hb, Bool.and_eq_true] at this
      rw [hmk.same.populated]
      exact this.2
  simp [writeLinear, hx, Res.andThen, htext, storePhys, hfirst]

/-- The only refusal of a store is one that reaches the program text (20_memory.md R58). -/
theorem writeLinear_refused {la : Word} {bs : List Byte} {sup : Bool} {s : State} {x : Refusal}
    (h : writeLinear la bs sup s = .refused x) :
    x = .programTextStore ∧ ∃ k, k < bs.length ∧ inProgramText s (la + BitVec.ofNat 32 k) = true := by
  simp only [writeLinear, Res.andThen_refused] at h
  rcases h with h | ⟨_, u, hu, h⟩
  · exact absurd h translateAll_not_refused
  · split at h
    · rename_i ht
      cases h
      simp only [Bool.and_eq_true, overlapsText, List.any_eq_true, List.mem_range] at ht
      obtain ⟨_, k, hk, hin⟩ := ht
      rw [(translateAll_ok hu).1.same] at hin
      exact ⟨rfl, k, hk, hin⟩
    · unfold storePhys at h
      split at h <;> cases h

/-! ### Through a segment -/

/-- A read through a segment that completes (20_memory.md R46). -/
theorem readSeg_ok {r : SegReg} {off : Word} {n : Nat} {s t : State} {bs : List Byte}
    (h : readSeg r off n s = .ok bs t) :
    readEffect s r off bs t ∧ bs.length = n ∧ Marked accessedBit (tableMarks s n (linearAddr s r off)) s t := by
  unfold readSeg at h
  split at h
  · cases h
  · obtain ⟨hm, hl, hb⟩ := readLinear_ok h
    exact ⟨⟨hm.same, hb, hl ▸ hm.bytes⟩, hl, hm⟩

theorem readSeg_complete {r : SegReg} {off : Word} {n : Nat} {s : State} (h : canLoad s r off n = true) :
    ∃ bs t, readSeg r off n s = .ok bs t := by
  simp only [canLoad, Bool.and_eq_true, Option.isNone_iff_eq_none, List.all_eq_true, List.mem_range] at h
  obtain ⟨bs, t, hb⟩ := readLinear_complete (sup := false) h.2
  exact ⟨bs, t, by simp [readSeg, h.1, hb]⟩

theorem readSeg_fault {r : SegReg} {off : Word} {n : Nat} {s : State} {f : Fault} (h : readSeg r off n s = .fault f) :
    faultKeeps s f := by
  unfold readSeg at h
  split at h
  · exact raise_keeps h
  · exact readLinear_fault h

theorem readSeg_not_refused {r : SegReg} {off : Word} {n : Nat} {s : State} {x : Refusal} :
    readSeg r off n s ≠ .refused x := by
  unfold readSeg
  split
  · simp [raise]
  · exact readLinear_not_refused

/-- A write through a segment that completes (20_memory.md R47). -/
theorem writeSeg_ok {r : SegReg} {off : Word} {bs : List Byte} {s t : State} (hn : bs.length ≤ 4096)
    (h : writeSeg r off bs s = .ok () t) : writeEffect s r off bs t ∧ Stored s (linearAddr s r off) bs false t := by
  unfold writeSeg at h
  split at h
  · cases h
  · have hs := writeLinear_ok hn h
    refine ⟨⟨?_, hs.holds, hs.bytes⟩, hs⟩
    have := hs.same
    simpa [operandBytes] using this

theorem writeSeg_complete {r : SegReg} {off : Word} {bs : List Byte} {s : State}
    (h : canStore s r off bs.length = true) : ∃ t, writeSeg r off bs s = .ok () t := by
  simp only [canStore, Bool.and_eq_true, Option.isNone_iff_eq_none, List.all_eq_true, List.mem_range] at h
  obtain ⟨t, ht⟩ := writeLinear_complete h.2
  exact ⟨t, by simp [writeSeg, h.1, ht]⟩

theorem writeSeg_fault {r : SegReg} {off : Word} {bs : List Byte} {s : State} {f : Fault}
    (h : writeSeg r off bs s = .fault f) : faultKeeps s f := by
  unfold writeSeg at h
  split at h
  · exact raise_keeps h
  · exact writeLinear_fault h

theorem writeSeg_refused {r : SegReg} {off : Word} {bs : List Byte} {s : State} {x : Refusal}
    (h : writeSeg r off bs s = .refused x) :
    x = .programTextStore ∧ ∃ k, k < bs.length ∧ inProgramText s (linearAddr s r off + BitVec.ofNat 32 k) = true := by
  unfold writeSeg at h
  split at h
  · cases h
  · exact writeLinear_refused h

end Sys2Proof.Machine
end

