-- ==== Sys2Proof/Laws/Operands.lean ====
section
/-! SUPPORT. The operand forms: what reading and writing an `r/m` operand can do (40_mov.md R100). -/

namespace Sys2Proof.Machine

@[simp] theorem leBytes_length {w : Nat} (n : Nat) (v : BitVec w) : (leBytes n v).length = n := by
  simp [leBytes]

/-- A state that differs in memory alone, and whose memory stayed canonical. -/
def MemoryOnly (s t : State) : Prop := sameButMemory s t ∧ (s.mem.wf = true → t.mem.wf = true)

/-- A state that differs in memory and in `staleTables` alone, and whose memory stayed canonical. -/
def StoreOnly (s t : State) : Prop :=
  t = { s with mem := t.mem, staleTables := t.staleTables } ∧ (s.mem.wf = true → t.mem.wf = true)

/-! ### 8 bits -/

/-- Reading an `r/m8` operand: its value, and the state it leaves. -/
theorem readRm8_ok {x : Rm Reg8} {s u : State} {v : Byte} (h : readRm8 x s = .ok v u) :
    reads8 s x v u ∧ MemoryOnly s u := by
  cases x with
  | reg r =>
    cases h
    exact ⟨⟨rfl, rfl⟩, rfl, id⟩
  | mem m =>
    simp only [readRm8, readMem8, Res.andThen_ok] at h
    obtain ⟨bs, t, hb, h⟩ := h
    cases h
    obtain ⟨he, hl, hm⟩ := readSeg_ok hb
    exact ⟨⟨bs, hl, rfl, he⟩, hm.same, hm.wf⟩

theorem readRm8_complete {x : Rm Reg8} {s : State} (h : canReadRm 1 x s = true) :
    ∃ v u, readRm8 x s = .ok v u := by
  cases x with
  | reg r => exact ⟨_, _, rfl⟩
  | mem m =>
    obtain ⟨bs, t, hb⟩ := readSeg_complete h
    exact ⟨leValue 8 bs, t, by simp only [readRm8, readMem8, hb, Res.andThen]⟩

theorem readRm8_fault {x : Rm Reg8} {s : State} {f : Fault} (h : readRm8 x s = .fault f) : faultKeeps s f := by
  cases x with
  | reg r => cases h
  | mem m =>
    refine andThen_keeps h (fun h => readSeg_fault h) fun _ _ _ h => ?_
    cases h

theorem readRm8_not_refused {x : Rm Reg8} {s : State} {y : Refusal} : readRm8 x s ≠ .refused y := by
  cases x with
  | reg r => simp [readRm8]
  | mem m =>
    intro h
    simp only [readRm8, readMem8, Res.andThen_refused] at h
    rcases h with h | ⟨_, _, _, h⟩
    · exact readSeg_not_refused h
    · cases h

/-- Writing an `r/m8` operand. -/
theorem writeRm8_ok {x : Rm Reg8} {s t : State} {v : Byte} (h : writeRm8 x v s = .ok () t) :
    writes8 s x v t ∧ ((∃ r, x = .reg r) ∨ StoreOnly s t) := by
  cases x with
  | reg r =>
    cases h
    exact ⟨rfl, .inl ⟨r, rfl⟩⟩
  | mem m =>
    obtain ⟨he, hs⟩ := writeSeg_ok (by simp) h
    refine ⟨he, .inr ⟨?_, hs.wf⟩⟩
    have := he.1
    rw [this]

theorem writeRm8_complete {x : Rm Reg8} {s : State} {v : Byte} (h : canWriteRm 1 x s = true) :
    ∃ t, writeRm8 x v s = .ok () t := by
  cases x with
  | reg r => exact ⟨_, rfl⟩
  | mem m => exact writeSeg_complete (by rw [leBytes_length]; exact h)

theorem writeRm8_fault {x : Rm Reg8} {s : State} {v : Byte} {f : Fault} (h : writeRm8 x v s = .fault f) :
    faultKeeps s f := by
  cases x with
  | reg r => cases h
  | mem m => exact writeSeg_fault h

theorem writeRm8_refused {x : Rm Reg8} {s : State} {v : Byte} {y : Refusal} (h : writeRm8 x v s = .refused y) :
    y = .programTextStore ∧ reachesText s (rmOperand? 1 x s) := by
  cases x with
  | reg r => cases h
  | mem m =>
    obtain ⟨hy, k, hk, hin⟩ := writeSeg_refused h
    exact ⟨hy, _, _, _, k, rfl, by simpa using hk, hin⟩

/-! ### 16 bits -/

/-- Reading an `r/m16` operand: its value, and the state it leaves. -/
theorem readRm16_ok {x : Rm Reg} {s u : State} {v : Half} (h : readRm16 x s = .ok v u) :
    reads16 s x v u ∧ MemoryOnly s u := by
  cases x with
  | reg r =>
    cases h
    exact ⟨⟨rfl, rfl⟩, rfl, id⟩
  | mem m =>
    simp only [readRm16, readMem16, Res.andThen_ok] at h
    obtain ⟨bs, t, hb, h⟩ := h
    cases h
    obtain ⟨he, hl, hm⟩ := readSeg_ok hb
    exact ⟨⟨bs, hl, rfl, he⟩, hm.same, hm.wf⟩

theorem readRm16_complete {x : Rm Reg} {s : State} (h : canReadRm 2 x s = true) :
    ∃ v u, readRm16 x s = .ok v u := by
  cases x with
  | reg r => exact ⟨_, _, rfl⟩
  | mem m =>
    obtain ⟨bs, t, hb⟩ := readSeg_complete h
    exact ⟨leValue 16 bs, t, by simp only [readRm16, readMem16, hb, Res.andThen]⟩

theorem readRm16_fault {x : Rm Reg} {s : State} {f : Fault} (h : readRm16 x s = .fault f) : faultKeeps s f := by
  cases x with
  | reg r => cases h
  | mem m =>
    refine andThen_keeps h (fun h => readSeg_fault h) fun _ _ _ h => ?_
    cases h

theorem readRm16_not_refused {x : Rm Reg} {s : State} {y : Refusal} : readRm16 x s ≠ .refused y := by
  cases x with
  | reg r => simp [readRm16]
  | mem m =>
    intro h
    simp only [readRm16, readMem16, Res.andThen_refused] at h
    rcases h with h | ⟨_, _, _, h⟩
    · exact readSeg_not_refused h
    · cases h

/-- Writing an `r/m16` operand. -/
theorem writeRm16_ok {x : Rm Reg} {s t : State} {v : Half} (h : writeRm16 x v s = .ok () t) :
    writes16 s x v t ∧ ((∃ r, x = .reg r) ∨ StoreOnly s t) := by
  cases x with
  | reg r =>
    cases h
    exact ⟨rfl, .inl ⟨r, rfl⟩⟩
  | mem m =>
    obtain ⟨he, hs⟩ := writeSeg_ok (by simp) h
    refine ⟨he, .inr ⟨?_, hs.wf⟩⟩
    have := he.1
    rw [this]

theorem writeRm16_complete {x : Rm Reg} {s : State} {v : Half} (h : canWriteRm 2 x s = true) :
    ∃ t, writeRm16 x v s = .ok () t := by
  cases x with
  | reg r => exact ⟨_, rfl⟩
  | mem m => exact writeSeg_complete (by rw [leBytes_length]; exact h)

theorem writeRm16_fault {x : Rm Reg} {s : State} {v : Half} {f : Fault} (h : writeRm16 x v s = .fault f) :
    faultKeeps s f := by
  cases x with
  | reg r => cases h
  | mem m => exact writeSeg_fault h

theorem writeRm16_refused {x : Rm Reg} {s : State} {v : Half} {y : Refusal} (h : writeRm16 x v s = .refused y) :
    y = .programTextStore ∧ reachesText s (rmOperand? 2 x s) := by
  cases x with
  | reg r => cases h
  | mem m =>
    obtain ⟨hy, k, hk, hin⟩ := writeSeg_refused h
    exact ⟨hy, _, _, _, k, rfl, by simpa using hk, hin⟩

/-! ### 32 bits -/

/-- Reading an `r/m32` operand: its value, and the state it leaves. -/
theorem readRm32_ok {x : Rm Reg} {s u : State} {v : Word} (h : readRm32 x s = .ok v u) :
    reads32 s x v u ∧ MemoryOnly s u := by
  cases x with
  | reg r =>
    cases h
    exact ⟨⟨rfl, rfl⟩, rfl, id⟩
  | mem m =>
    simp only [readRm32, readMem32, Res.andThen_ok] at h
    obtain ⟨bs, t, hb, h⟩ := h
    cases h
    obtain ⟨he, hl, hm⟩ := readSeg_ok hb
    exact ⟨⟨bs, hl, rfl, he⟩, hm.same, hm.wf⟩

theorem readRm32_complete {x : Rm Reg} {s : State} (h : canReadRm 4 x s = true) :
    ∃ v u, readRm32 x s = .ok v u := by
  cases x with
  | reg r => exact ⟨_, _, rfl⟩
  | mem m =>
    obtain ⟨bs, t, hb⟩ := readSeg_complete h
    exact ⟨leValue 32 bs, t, by simp only [readRm32, readMem32, hb, Res.andThen]⟩

theorem readRm32_fault {x : Rm Reg} {s : State} {f : Fault} (h : readRm32 x s = .fault f) : faultKeeps s f := by
  cases x with
  | reg r => cases h
  | mem m =>
    refine andThen_keeps h (fun h => readSeg_fault h) fun _ _ _ h => ?_
    cases h

theorem readRm32_not_refused {x : Rm Reg} {s : State} {y : Refusal} : readRm32 x s ≠ .refused y := by
  cases x with
  | reg r => simp [readRm32]
  | mem m =>
    intro h
    simp only [readRm32, readMem32, Res.andThen_refused] at h
    rcases h with h | ⟨_, _, _, h⟩
    · exact readSeg_not_refused h
    · cases h

/-- Writing an `r/m32` operand. -/
theorem writeRm32_ok {x : Rm Reg} {s t : State} {v : Word} (h : writeRm32 x v s = .ok () t) :
    writes32 s x v t ∧ ((∃ r, x = .reg r) ∨ StoreOnly s t) := by
  cases x with
  | reg r =>
    cases h
    exact ⟨rfl, .inl ⟨r, rfl⟩⟩
  | mem m =>
    obtain ⟨he, hs⟩ := writeSeg_ok (by simp) h
    refine ⟨he, .inr ⟨?_, hs.wf⟩⟩
    have := he.1
    rw [this]

theorem writeRm32_complete {x : Rm Reg} {s : State} {v : Word} (h : canWriteRm 4 x s = true) :
    ∃ t, writeRm32 x v s = .ok () t := by
  cases x with
  | reg r => exact ⟨_, rfl⟩
  | mem m => exact writeSeg_complete (by rw [leBytes_length]; exact h)

theorem writeRm32_fault {x : Rm Reg} {s : State} {v : Word} {f : Fault} (h : writeRm32 x v s = .fault f) :
    faultKeeps s f := by
  cases x with
  | reg r => cases h
  | mem m => exact writeSeg_fault h

theorem writeRm32_refused {x : Rm Reg} {s : State} {v : Word} {y : Refusal} (h : writeRm32 x v s = .refused y) :
    y = .programTextStore ∧ reachesText s (rmOperand? 4 x s) := by
  cases x with
  | reg r => cases h
  | mem m =>
    obtain ⟨hy, k, hk, hin⟩ := writeSeg_refused h
    exact ⟨hy, _, _, _, k, rfl, by simpa using hk, hin⟩

end Sys2Proof.Machine
end

