-- ==== Sys2Proof/Laws/Segment.lean ====
section
/-! SUPPORT. The load of a segment register: descriptor fetch, accessed bit (20_memory.md R62), and the three ways a load
goes (40_mov.md R121 to R125). -/

namespace Sys2Proof.Machine

theorem userAccess_sup (s : State) : userAccess s true = false := by simp [userAccess]

/-- A descriptor fetch that completes changes accessed bits only, and the descriptor is what memory then holds. -/
theorem fetchDescriptor_ok {sel : Half} {s t : State} {d : BitVec 64} (h : fetchDescriptor sel s = .ok d t) :
    Marked accessedBit (tableMarks s 8 (descriptorAddr s sel)) s t ∧
      ∃ bs, bs.length = 8 ∧ d = leValue 64 bs ∧ holdsLinear s false false t.mem (descriptorAddr s sel) bs := by
  unfold fetchDescriptor at h
  split at h
  · cases h
  · split at h
    · cases h
    · simp only [Res.andThen_ok] at h
      obtain ⟨bs, u, hb, h⟩ := h
      cases h
      obtain ⟨hm, hl, hh⟩ := readLinear_ok hb
      exact ⟨hm, bs, hl, rfl, userAccess_sup s ▸ hh⟩

theorem fetchDescriptor_complete {sel : Half} {s : State} (h : canFetchDescriptor s sel = true) :
    ∃ d t, fetchDescriptor sel s = .ok d t := by
  simp only [canFetchDescriptor, Bool.and_eq_true, Bool.not_eq_true', decide_eq_true_eq, List.all_eq_true,
    List.mem_range] at h
  obtain ⟨⟨h1, h2⟩, h3⟩ := h
  obtain ⟨bs, t, hb⟩ := readLinear_complete (sup := true) (s := s) (la := descriptorAddr s sel) (n := 8)
    fun k hk => by rw [userAccess_sup]; exact h3 k hk
  refine ⟨leValue 64 bs, t, ?_⟩
  have h2' : ¬ tableLimit s sel < 8 * selectorIndex sel + 7 := by omega
  simp only [fetchDescriptor, h1, h2', Bool.false_eq_true, if_false, hb, Res.andThen]

theorem fetchDescriptor_fault {sel : Half} {s : State} {f : Fault} (h : fetchDescriptor sel s = .fault f) :
    faultKeeps s f := by
  unfold fetchDescriptor at h
  split at h
  · exact raise_keeps h
  · split at h
    · exact raise_keeps h
    · refine andThen_keeps h (fun h => readLinear_fault h) fun _ _ _ h => ?_
      cases h

theorem fetchDescriptor_not_refused {sel : Half} {s : State} {x : Refusal} : fetchDescriptor sel s ≠ .refused x := by
  intro h
  unfold fetchDescriptor at h
  split at h
  · cases h
  · split at h
    · cases h
    · simp only [Res.andThen_refused] at h
      rcases h with h | ⟨_, _, _, h⟩
      · exact readLinear_not_refused h
      · cases h

/-- Setting the accessed bit changes memory alone (20_memory.md R62). -/
theorem markAccessed_ok {sel : Half} {d : BitVec 64} {s t : State} (h : markAccessed sel d s = .ok () t) :
    accessedEffect s sel d t ∧ MemoryOnly s t := by
  unfold markAccessed at h
  unfold accessedEffect
  split at h
  · rename_i hd
    cases h
    rw [if_pos hd]
    exact ⟨rfl, rfl, id⟩
  · rename_i hd
    have hs := writeLinear_ok (by simp) h
    have hsame : sameButMemory s t := by
      have := hs.same
      simp only [Bool.not_true, Bool.false_and, Bool.or_false] at this
      exact this
    rw [if_neg hd]
    exact ⟨⟨hsame, userAccess_sup s ▸ hs.holds, userAccess_sup s ▸ hs.bytes⟩, hsame, hs.wf⟩

theorem markAccessed_complete {sel : Half} {d : BitVec 64} {s : State} (h : canMarkAccessed s sel d = true) :
    ∃ t, markAccessed sel d s = .ok () t := by
  unfold markAccessed
  split
  · exact ⟨_, rfl⟩
  · rename_i hd
    simp only [canMarkAccessed, hd, Bool.false_or, Bool.and_eq_true] at h
    obtain ⟨xs, u, hx⟩ := translateAll_complete (wr := true) (us := userAccess s true) (n := 1)
      (la := descriptorAddr s sel + 5) (s := s) fun k hk => by
        have : k = 0 := by omega
        subst this
        simpa [userAccess_sup] using h.1
    obtain ⟨hm, hl, hp, _⟩ := translateAll_ok hx
    have hpop : firstUnpopulated u (xs.map Translated.pa) = none := by
      rw [firstUnpopulated_none]
      intro a ha
      rw [translated_pas hl fun k hk => (hp k hk).2] at ha
      obtain ⟨k, hk, hpa⟩ := mem_linearBytes.mp ha
      have hk0 : k = 0 := by omega
      subst hk0
      have h2 := h.2
      have hpa' : physAddr? s true false (descriptorAddr s sel + 5) = some a := by simpa [userAccess_sup] using hpa
      simp only [hpa'] at h2
      rw [hm.same.populated]
      exact h2
    simp only [writeLinear, List.length_cons, List.length_nil, Nat.zero_add, hx, Res.andThen, storePhys, hpop,
      Bool.not_true, Bool.false_and, Bool.false_eq_true, if_false]
    exact ⟨_, rfl⟩

theorem markAccessed_fault {sel : Half} {d : BitVec 64} {s : State} {f : Fault} (h : markAccessed sel d s = .fault f) :
    faultKeeps s f := by
  unfold markAccessed at h
  split at h
  · cases h
  · exact writeLinear_fault h

theorem markAccessed_not_refused {sel : Half} {d : BitVec 64} {s : State} {x : Refusal} :
    markAccessed sel d s ≠ .refused x := by
  intro h
  unfold markAccessed at h
  split at h
  · cases h
  · simp only [writeLinear, Res.andThen_refused] at h
    rcases h with h | ⟨_, _, _, h⟩
    · exact translateAll_not_refused h
    · simp only [Bool.not_true, Bool.false_and, Bool.false_eq_true, if_false] at h
      unfold storePhys at h
      split at h <;> cases h

/-- A load through a descriptor table that completes: the checks passed, and the register is the selector and its
descriptor (40_mov.md R122, R123). -/
theorem loadChecked_ok {check : State → Half → BitVec 64 → Option Exc} {r : SegReg} {sel : Half} {s t : State}
    (h : loadChecked check r sel s = .ok () t) :
    ∃ d u w, fetchDescriptor sel s = .ok d u ∧ check u sel d = none ∧ markAccessed sel d u = .ok () w ∧
      t = writeSreg r (loadedSegment sel d) w := by
  simp only [loadChecked, Res.andThen_ok] at h
  obtain ⟨d, u, hd, h⟩ := h
  split at h
  · cases h
  · simp only [Res.andThen_ok] at h
    obtain ⟨_, w, hw, h⟩ := h
    cases h
    exact ⟨d, u, w, hd, ‹_›, hw, rfl⟩

theorem MemoryOnly.of_marked {mask : Byte} {marks : List Nat} {s t : State} (h : Marked mask marks s t) :
    MemoryOnly s t := ⟨h.same, h.wf⟩

theorem MemoryOnly.trans {s t u : State} (h : MemoryOnly s t) (k : MemoryOnly t u) : MemoryOnly s u :=
  ⟨h.1.trans k.1, fun w => k.2 (h.2 w)⟩

theorem loadChecked_fault {check : State → Half → BitVec 64 → Option Exc} {r : SegReg} {sel : Half} {s : State}
    {f : Fault} (h : loadChecked check r sel s = .fault f) : faultKeeps s f := by
  refine andThen_keeps h (fun h => fetchDescriptor_fault h) fun d t ht h => ?_
  have hm := (fetchDescriptor_ok ht).1
  refine faultKeeps_of_marked hm (tableMarks_translating s 8 _) ?_
  split at h
  · exact raise_keeps h
  · refine andThen_keeps h (fun h => markAccessed_fault h) fun _ _ _ h => ?_
    cases h

/-- A segment load changes memory and that one register (40_mov.md R121 to R125); what SS then holds is usable. -/
theorem loadSreg_ok {r : SegReg} {sel : Half} {s t : State} (h : loadSreg r sel s = .ok () t) :
    ∃ g u, t = writeSreg r g u ∧ MemoryOnly s u ∧ g.sel = sel ∧
      (mode s = .protectedMode → r = .ss → g.valid = true ∧ typeOk g .write = true) := by
  unfold loadSreg at h
  split at h
  · rename_i hm
    cases h
    exact ⟨_, s, rfl, ⟨rfl, id⟩, rfl, fun hp => by rw [hm] at hp; cases hp⟩
  · rename_i hm
    cases h
    exact ⟨_, s, rfl, ⟨rfl, id⟩, rfl, fun hp => by rw [hm] at hp; cases hp⟩
  · split at h
    · rename_i hr
      unfold loadStackSegment at h
      split at h
      · cases h
      · obtain ⟨d, u, w, hd, hc, hw, rfl⟩ := loadChecked_ok h
        refine ⟨_, w, by rw [hr], (MemoryOnly.of_marked (fetchDescriptor_ok hd).1).trans (markAccessed_ok hw).2, rfl, ?_⟩
        intro _ _
        refine ⟨rfl, ?_⟩
        unfold stackLoadFault at hc
        split at hc
        · cases hc
        · split at hc
          · cases hc
          · rename_i hwd
            have hwd' : descriptorWritableData d = true := by simpa using hwd
            have hcode : descriptorIsCode d = false := by
              have h43 : d.getLsbD 43 = false := by
                cases hb : d.getLsbD 43
                · rfl
                · rw [descriptorWritableData, descriptorIsData, hb] at hwd'
                  simp at hwd'
              rw [descriptorIsCode, h43, Bool.and_false]
            refine (?_ : (!descriptorIsCode d && descriptorWritableData d) = true)
            rw [hcode, hwd']
            rfl
    · rename_i hr
      unfold loadDataSegment at h
      split at h
      · cases h
        exact ⟨_, s, rfl, ⟨rfl, id⟩, rfl, fun _ he => absurd he hr⟩
      · obtain ⟨d, u, w, hd, hc, hw, rfl⟩ := loadChecked_ok h
        exact ⟨_, w, rfl, (MemoryOnly.of_marked (fetchDescriptor_ok hd).1).trans (markAccessed_ok hw).2, rfl,
          fun _ he => absurd he hr⟩

theorem loadSreg_fault {r : SegReg} {sel : Half} {s : State} {f : Fault} (h : loadSreg r sel s = .fault f) :
    faultKeeps s f := by
  unfold loadSreg at h
  split at h
  · cases h
  · cases h
  · split at h
    · unfold loadStackSegment at h
      split at h
      · exact raise_keeps h
      · exact loadChecked_fault h
    · unfold loadDataSegment at h
      split at h
      · cases h
      · exact loadChecked_fault h

theorem loadSreg_not_refused {r : SegReg} {sel : Half} {s : State} {x : Refusal} : loadSreg r sel s ≠ .refused x := by
  have hc : ∀ check, loadChecked check r sel s ≠ .refused x := by
    intro check h
    simp only [loadChecked, Res.andThen_refused] at h
    rcases h with h | ⟨d, t, _, h⟩
    · exact fetchDescriptor_not_refused h
    · split at h
      · cases h
      · simp only [Res.andThen_refused] at h
        rcases h with h | ⟨_, _, _, h⟩
        · exact markAccessed_not_refused h
        · cases h
  intro h
  unfold loadSreg at h
  split at h
  · cases h
  · cases h
  · split at h
    · rename_i hr
      subst hr
      unfold loadStackSegment at h
      split at h
      · cases h
      · exact hc _ h
    · unfold loadDataSegment at h
      split at h
      · cases h
      · exact hc _ h

/-- A data segment register loads in protected mode where its descriptor passes the listing (40_mov.md R123). -/
theorem loadChecked_complete {check : State → Half → BitVec 64 → Option Exc} {r : SegReg} {sel : Half} {s u : State}
    {d : BitVec 64} (h : fetchDescriptor sel s = .ok d u) (hc : check u sel d = none)
    (hm : canMarkAccessed u sel d = true) :
    ∃ w, accessedEffect u sel d w ∧ MemoryOnly u w ∧
      loadChecked check r sel s = .ok () (writeSreg r (loadedSegment sel d) w) := by
  obtain ⟨w, hw⟩ := markAccessed_complete hm
  exact ⟨w, (markAccessed_ok hw).1, (markAccessed_ok hw).2, by simp [loadChecked, h, Res.andThen, hc, hw]⟩

end Sys2Proof.Machine
end

