-- ==== Sys2Proof/Laws/Meanings.lean ====
section
/-! SUPPORT. The shared parts of the meanings: the special-register moves (41_mov_special.md R140) and the string moves
(42_movs.md R160, R167). -/

namespace Sys2Proof.Machine

/-! ### Special-register moves -/

/-- A special-register move that completes: allowed, no table change waiting, and six flags undefined after it
(41_mov_special.md R140, R149, R150). -/
theorem specialMove_next {w : Bool} {mv : State → Res Unit} {s t : State} (h : specialMove w mv s = .next t) :
    mayMoveSpecial s = true ∧ (s.staleTables = true → w = true) ∧
      ∃ u, mv s = .ok () u ∧ t = undefineFlags u specialMoveFlags := by
  unfold specialMove at h
  split at h
  · cases h
  · rename_i hm
    split at h
    · cases h
    · rename_i hs
      simp only [Res.outcome_next, Res.andThen_ok] at h
      obtain ⟨_, _, u, hu, h⟩ := h
      cases h
      refine ⟨by simpa using hm, fun hst => ?_, u, hu, rfl⟩
      simpa [hst] using hs

theorem specialMove_complete {w : Bool} {mv : State → Res Unit} {s u : State} (h : mayMoveSpecial s = true)
    (hs : s.staleTables = true → w = true) (hu : mv s = .ok () u) :
    specialMove w mv s = .next (undefineFlags u specialMoveFlags) := by
  have hs' : (s.staleTables && !w) = false := by
    cases hst : s.staleTables <;> simp_all
  simp [specialMove, h, hs', hu, Res.andThen, Res.outcome]

/-- Where a special-register move may not execute it is #GP(0), and nothing has changed (41_mov_special.md R149). -/
theorem specialMove_forbidden {w : Bool} {mv : State → Res Unit} {s : State} (h : mayMoveSpecial s = false) :
    specialMove w mv s = .fault (.exception .gp (some 0) { s with inhibit := false }) := by
  simp [specialMove, h, raise, Res.outcome]

/-- A special-register move faults for want of privilege only, if its move never faults. -/
theorem specialMove_fault {w : Bool} {mv : State → Res Unit} {s : State} {f : Fault} (h : specialMove w mv s = .fault f)
    (hm : ∀ f, mv s ≠ .fault f) : mayMoveSpecial s = false ∧ f = .exception .gp (some 0) { s with inhibit := false } := by
  unfold specialMove at h
  split at h
  · rename_i hp
    exact ⟨by simpa using hp, by cases h; rfl⟩
  · split at h
    · cases h
    · simp only [Res.outcome_fault, Res.andThen_fault] at h
      rcases h with h | ⟨_, _, _, h⟩
      · exact absurd h (hm f)
      · cases h

/-! ### Access rights under marks -/

theorem byteLoads_marked {marks : List Nat} {s t : State} (h : Marked accessedAndDirty marks s t)
    (hl : alignedMarks marks) (la : Word) (us : Bool) : byteLoads t la us = byteLoads s la us := by
  unfold byteLoads
  rw [mapped_marked h hl, physAddr?_marked h hl]
  cases hp : physAddr? s false us la with
  | none => rfl
  | some pa =>
    simp only [h.same.populated]
    rcases h.bytes pa (by simp) with h1 | ⟨_, b, k, h1, _, h2⟩
    · rw [h1]
    · rw [h1, h2]; rfl

theorem byteStores_marked {marks : List Nat} {s t : State} (h : Marked accessedAndDirty marks s t)
    (hl : alignedMarks marks) (la : Word) (us : Bool) : byteStores t la us = byteStores s la us := by
  unfold byteStores
  have ht : inProgramText t la = inProgramText s la := by rw [h.same]; rfl
  rw [mapped_marked h hl, physAddr?_marked h hl, ht]
  cases hp : physAddr? s true us la with
  | none => rfl
  | some pa => simp only [h.same.populated]

theorem userAccess_same {s t : State} (h : sameButMemory s t) (sup : Bool) : userAccess t sup = userAccess s sup := by
  simp only [userAccess, h.cpl]

/-- Marks change no right to read. -/
theorem canLoad_marked {marks : List Nat} {s t : State} (h : Marked accessedAndDirty marks s t)
    (hl : alignedMarks marks) (r : SegReg) (off : Word) (n : Nat) : canLoad t r off n = canLoad s r off n := by
  simp only [canLoad, h.same.segmentFault, h.same.linearAddr, byteLoads_marked h hl, userAccess_same h.same]

/-- Marks change no right to write. -/
theorem canStore_marked {marks : List Nat} {s t : State} (h : Marked accessedAndDirty marks s t)
    (hl : alignedMarks marks) (r : SegReg) (off : Word) (n : Nat) : canStore t r off n = canStore s r off n := by
  simp only [canStore, h.same.segmentFault, h.same.linearAddr, byteStores_marked h hl, userAccess_same h.same]

/-! ### String moves -/

theorem stringReg_same {s t : State} (h : t.regs = s.regs) (asz : Size) (r : Reg) :
    stringReg t asz r = stringReg s asz r := by
  cases asz <;> simp only [stringReg, readR16, readR32, h]

/-- One element that is moved: the bytes read stand at the destination, and the indexes have moved (42_movs.md R160). -/
theorem moveElement_ok {w : Nat} {asz : Size} {src : SegReg} {s t : State} (hw : w ≤ 4096)
    (h : moveElement w asz src s = .ok () t) :
    ∃ bs u v, bs.length = w ∧ readEffect s src (stringReg s asz .esi) bs u ∧
      writeEffect u .es (stringReg s asz .edi) bs v ∧ t = stepIndexes asz w v ∧ MemoryOnly s u ∧ StoreOnly u v := by
  simp only [moveElement, Res.andThen_ok] at h
  obtain ⟨bs, u, hb, _, v, hv, h⟩ := h
  cases h
  obtain ⟨he, hl, hm⟩ := readSeg_ok hb
  have hr : stringReg u asz .edi = stringReg s asz .edi := stringReg_same hm.same.fields.1 _ _
  rw [hr] at hv
  obtain ⟨hwe, hst⟩ := writeSeg_ok (by omega) hv
  have hs1 := hwe.1
  exact ⟨bs, u, v, hl, he, hwe, rfl, ⟨hm.same, hm.wf⟩, by rw [hs1], hst.wf⟩

/-- One element is moved where its source can be read and its destination written (42_movs.md R160). -/
theorem moveElement_complete {w : Nat} {asz : Size} {src : SegReg} {s : State}
    (h1 : canLoad s src (stringReg s asz .esi) w = true) (h2 : canStore s .es (stringReg s asz .edi) w = true) :
    ∃ t, moveElement w asz src s = .ok () t := by
  obtain ⟨bs, u, hb⟩ := readSeg_complete h1
  obtain ⟨_, hl, hm⟩ := readSeg_ok hb
  have hr : stringReg u asz .edi = stringReg s asz .edi := stringReg_same hm.same.fields.1 _ _
  obtain ⟨v, hv⟩ := writeSeg_complete (s := u) (r := .es) (off := stringReg s asz .edi) (bs := bs)
    (by rw [canStore_marked (accessed_mono hm) (tableMarks_aligned s w _), hl]; exact h2)
  exact ⟨stepIndexes asz w v, by simp [moveElement, hb, Res.andThen, hr, hv]⟩

theorem moveElement_fault {w : Nat} {asz : Size} {src : SegReg} {s : State} {f : Fault}
    (h : moveElement w asz src s = .fault f) : faultKeeps s f := by
  refine andThen_keeps h (fun h => readSeg_fault h) fun bs u hb h => ?_
  refine faultKeeps_of_marked (readSeg_ok hb).2.2 (tableMarks_translating s w _) ?_
  refine andThen_keeps h (fun h => writeSeg_fault h) fun _ _ _ h => ?_
  cases h

theorem moveElement_refused {w : Nat} {asz : Size} {src : SegReg} {s : State} {x : Refusal}
    (h : moveElement w asz src s = .refused x) :
    x = .programTextStore ∧ reachesText s (some (.es, stringReg s asz .edi, w)) := by
  simp only [moveElement, Res.andThen_refused] at h
  rcases h with h | ⟨bs, u, hb, h | ⟨_, _, _, h⟩⟩
  · exact absurd h readSeg_not_refused
  · obtain ⟨_, hl, hm⟩ := readSeg_ok hb
    obtain ⟨hx, k, hk, hin⟩ := writeSeg_refused h
    rw [hm.same.linearAddr, stringReg_same hm.same.fields.1] at hin
    rw [hm.same] at hin
    exact ⟨hx, _, _, _, k, rfl, hl ▸ hk, hin⟩
  · cases h

/-- A string move, with or without REP: nothing under REP with count 0, otherwise one element, and under REP a count one
less (42_movs.md R167). -/
theorem moveString_ok {w : Nat} {rep : Bool} {asz : Size} {src : SegReg} {s t : State}
    (h : moveString w rep asz src s = .ok () t) :
    (rep = true ∧ stringReg s asz .ecx = 0#32 ∧ t = s) ∨
      (rep = false ∧ moveElement w asz src s = .ok () t) ∨
        (rep = true ∧ stringReg s asz .ecx ≠ 0#32 ∧ ∃ u, moveElement w asz src s = .ok () u ∧
          t = setStringReg asz .ecx (stringReg u asz .ecx - 1) u) := by
  cases rep with
  | false => exact .inr (.inl ⟨rfl, h⟩)
  | true =>
    simp only [moveString, if_true, repElement] at h
    split at h
    · rename_i hc
      cases h
      exact .inl ⟨rfl, hc, rfl⟩
    · rename_i hc
      simp only [Res.andThen_ok] at h
      obtain ⟨_, u, hu, h⟩ := h
      cases h
      exact .inr (.inr ⟨rfl, hc, u, hu, rfl⟩)

theorem moveString_fault {w : Nat} {rep : Bool} {asz : Size} {src : SegReg} {s : State} {f : Fault}
    (h : moveString w rep asz src s = .fault f) : faultKeeps s f := by
  cases rep with
  | false => exact moveElement_fault h
  | true =>
    simp only [moveString, if_true, repElement] at h
    split at h
    · cases h
    · refine andThen_keeps h (fun h => moveElement_fault h) fun _ _ _ h => ?_
      cases h

theorem moveString_refused {w : Nat} {rep : Bool} {asz : Size} {src : SegReg} {s : State} {x : Refusal}
    (h : moveString w rep asz src s = .refused x) :
    x = .programTextStore ∧ reachesText s (stringOperand? w rep asz s) := by
  cases rep with
  | false => simpa [stringOperand?] using moveElement_refused h
  | true =>
    simp only [moveString, if_true, repElement] at h
    split at h
    · cases h
    · rename_i hc
      simp only [Res.andThen_refused] at h
      rcases h with h | ⟨_, _, _, h⟩
      · simpa [stringOperand?, hc] using moveElement_refused h
      · cases h

/-! ### A segment register from an operand -/

/-- A MOV into a segment register that completes: the operand is read, the register is loaded, and SS sets the inhibit
(40_mov.md R108, R126). -/
theorem moveToSreg_ok {r : SegReg} {src : Rm Reg} {s t : State} (h : moveToSreg r src s = .ok () t) :
    ∃ sel u v, readRm16 src s = .ok sel u ∧ loadSreg r sel u = .ok () v ∧ t = inhibitAfter r v := by
  simp only [moveToSreg, Res.andThen_ok] at h
  obtain ⟨sel, u, hu, _, v, hv, h⟩ := h
  cases h
  exact ⟨sel, u, v, hu, hv, rfl⟩

theorem readRm16_accessedOnly {x : Rm Reg} {s u : State} {v : Half} (h : readRm16 x s = .ok v u) : AccessedOnly s u := by
  cases x with
  | reg r =>
    cases h
    exact AccessedOnly.refl _
  | mem m =>
    simp only [readRm16, readMem16, Res.andThen_ok] at h
    obtain ⟨bs, t, hb, h⟩ := h
    cases h
    exact ⟨_, tableMarks_translating _ _ _, (readSeg_ok hb).2.2⟩

theorem moveToSreg_fault {r : SegReg} {src : Rm Reg} {s : State} {f : Fault} (h : moveToSreg r src s = .fault f) :
    faultKeeps s f := by
  refine andThen_keeps h (fun h => readRm16_fault h) fun sel u hu h => ?_
  refine (readRm16_accessedOnly hu).faultKeeps ?_
  refine andThen_keeps h (fun h => loadSreg_fault h) fun _ _ _ h => ?_
  cases h

theorem moveToSreg_not_refused {r : SegReg} {src : Rm Reg} {s : State} {x : Refusal} :
    moveToSreg r src s ≠ .refused x := by
  intro h
  simp only [moveToSreg, Res.andThen_refused] at h
  rcases h with h | ⟨_, _, _, h | ⟨_, _, _, h⟩⟩
  · exact readRm16_not_refused h
  · exact loadSreg_not_refused h
  · cases h

end Sys2Proof.Machine
end

