-- ==== Sys2Proof/Laws/PerInstr.lean ====
section
/-! SUPPORT. One lemma per instruction: how long its encoding is. -/

namespace Sys2Proof

/-! ### The parts of an encoding -/

theorem length_sizePrefix (d : Size) (b : Byte) (o : Option Size) : (sizePrefix d b o).length ≤ 1 := by
  cases o <;> simp only [sizePrefix] <;> (try split) <;> simp

theorem length_prefixBytes (d : Size) (osz asz : Option Size) (seg : Option SegReg) (rep : Bool) :
    (prefixBytes d osz asz seg rep).length ≤ if rep then 4 else 3 := by
  have h1 := length_sizePrefix d 0x66#8 osz
  have h2 := length_sizePrefix d 0x67#8 asz
  cases seg <;> cases rep <;> simp [prefixBytes] <;> omega

theorem length_addrBytes (reg : BitVec 3) (a : Addr) : 1 ≤ (a.bytes reg).length ∧ (a.bytes reg).length ≤ 6 := by
  rcases a with (⟨b, _ | _ | _⟩ | _) | (⟨b, _ | _ | _⟩ | _ | ⟨i, b, _ | _ | _⟩ | _) <;>
    simp [Addr.bytes, Disp16.parts, Disp32.parts]

theorem length_rmBytes {ρ : Type} (bits : ρ → BitVec 3) (reg : BitVec 3) (x : Rm ρ) :
    1 ≤ (x.bytes bits reg).length ∧ (x.bytes bits reg).length ≤ 6 := by
  cases x with
  | reg r => simp [Rm.bytes]
  | mem m => exact length_addrBytes reg m.addr

theorem length_moffsBytes (o : Moffs) : (o.bytes).length ≤ 4 := by cases o <;> simp [Moffs.bytes]

theorem length_encodeRm {ρ : Type} (d : Size) (osz : Option Size) (opcode : List Byte) (bits : ρ → BitVec 3)
    (reg : BitVec 3) (x : Rm ρ) (imm : List Byte) (ho : 1 ≤ opcode.length) (hl : opcode.length + imm.length ≤ 5) :
    1 ≤ (encodeRm d osz opcode bits reg x imm).length ∧ (encodeRm d osz opcode bits reg x imm).length ≤ 14 := by
  have h1 := length_prefixBytes d osz x.asz? x.seg? false
  have h2 := length_rmBytes bits reg x
  simp only [encodeRm, List.length_append, Bool.false_eq_true, if_false] at *
  omega

theorem length_encodeMoffs (d : Size) (osz : Option Size) (b : Byte) (seg : Option SegReg) (o : Moffs) :
    1 ≤ (encodeMoffs d osz b seg o).length ∧ (encodeMoffs d osz b seg o).length ≤ 14 := by
  have h1 := length_prefixBytes d osz (some o.size) seg false
  have h2 := length_moffsBytes o
  simp only [encodeMoffs, List.length_append, List.length_singleton, Bool.false_eq_true, if_false] at *
  omega

theorem length_encodeMovs (d : Size) (osz : Option Size) (b : Byte) (rep : Bool) (asz : Size) (seg : Option SegReg) :
    1 ≤ (encodeMovs d osz b rep asz seg).length ∧ (encodeMovs d osz b rep asz seg).length ≤ 14 := by
  have h1 := length_prefixBytes d osz (some asz) seg rep
  simp only [encodeMovs, List.length_append, List.length_singleton] at *
  split at h1 <;> omega

/-! ### The instructions -/

namespace Laws.EncodedLength

/-- An instruction takes between 1 and 14 bytes: one less than MAX_INSN_LEN (30_encoding.md R87), since a lock prefix is
never part of it. -/
def Statement (i : Instr) : Prop :=
  ∀ (p : Params) (d : Size), 1 ≤ (encode p d i).length ∧ (encode p d i).length ≤ 14

theorem movRm8R8 (dst : Rm Reg8) (src : Reg8) : Statement (.movRm8R8 dst src) := fun _ d =>
  length_encodeRm d _ _ _ _ _ _ (by simp) (by simp)

theorem movRm16R16 (dst : Rm Reg) (src : Reg) : Statement (.movRm16R16 dst src) := fun _ d =>
  length_encodeRm d _ _ _ _ _ _ (by simp) (by simp)

theorem movRm32R32 (dst : Rm Reg) (src : Reg) : Statement (.movRm32R32 dst src) := fun _ d =>
  length_encodeRm d _ _ _ _ _ _ (by simp) (by simp)

theorem movR8Rm8 (dst : Reg8) (src : Rm Reg8) : Statement (.movR8Rm8 dst src) := fun _ d =>
  length_encodeRm d _ _ _ _ _ _ (by simp) (by simp)

theorem movR16Rm16 (dst : Reg) (src : Rm Reg) : Statement (.movR16Rm16 dst src) := fun _ d =>
  length_encodeRm d _ _ _ _ _ _ (by simp) (by simp)

theorem movR32Rm32 (dst : Reg) (src : Rm Reg) : Statement (.movR32Rm32 dst src) := fun _ d =>
  length_encodeRm d _ _ _ _ _ _ (by simp) (by simp)

theorem movRm16Sreg (osz : Size) (dst : Rm Reg) (src : SregField) : Statement (.movRm16Sreg osz dst src) := fun _ d =>
  length_encodeRm d _ _ _ _ _ _ (by simp) (by simp)

theorem movSregRm16 (dst : SregField) (src : Rm Reg) : Statement (.movSregRm16 dst src) := fun _ d =>
  length_encodeRm d _ _ _ _ _ _ (by simp) (by simp)

theorem movAlMoffs8 (seg : Option SegReg) (off : Moffs) : Statement (.movAlMoffs8 seg off) := fun _ d => length_encodeMoffs d _ _ _ _

theorem movAxMoffs16 (seg : Option SegReg) (off : Moffs) : Statement (.movAxMoffs16 seg off) := fun _ d => length_encodeMoffs d _ _ _ _

theorem movEaxMoffs32 (seg : Option SegReg) (off : Moffs) : Statement (.movEaxMoffs32 seg off) := fun _ d => length_encodeMoffs d _ _ _ _

theorem movMoffs8Al (seg : Option SegReg) (off : Moffs) : Statement (.movMoffs8Al seg off) := fun _ d => length_encodeMoffs d _ _ _ _

theorem movMoffs16Ax (seg : Option SegReg) (off : Moffs) : Statement (.movMoffs16Ax seg off) := fun _ d => length_encodeMoffs d _ _ _ _

theorem movMoffs32Eax (seg : Option SegReg) (off : Moffs) : Statement (.movMoffs32Eax seg off) := fun _ d => length_encodeMoffs d _ _ _ _

theorem movReg8Imm8 (dst : Reg8) (imm : Byte) : Statement (.movReg8Imm8 dst imm) := fun _ _ => by simp [encode]

theorem movReg16Imm16 (dst : Reg) (imm : Half) : Statement (.movReg16Imm16 dst imm) := fun _ d => by
  have h := length_sizePrefix d 0x66#8 (some .s16)
  simp [encode]
  omega

theorem movReg32Imm32 (dst : Reg) (imm : Word) : Statement (.movReg32Imm32 dst imm) := fun _ d => by
  have h := length_sizePrefix d 0x66#8 (some .s32)
  simp [encode]
  omega

theorem movRm8Imm8 (dst : Rm Reg8) (imm : Byte) : Statement (.movRm8Imm8 dst imm) := fun _ d =>
  length_encodeRm d _ _ _ _ _ _ (by simp) (by simp)

theorem movRm16Imm16 (dst : Rm Reg) (imm : Half) : Statement (.movRm16Imm16 dst imm) := fun _ d =>
  length_encodeRm d _ _ _ _ _ _ (by simp) (by simp)

theorem movRm32Imm32 (dst : Rm Reg) (imm : Word) : Statement (.movRm32Imm32 dst imm) := fun _ d =>
  length_encodeRm d _ _ _ _ _ _ (by simp) (by simp)

theorem movR32Cr (dst : Reg) (src : CtlReg) : Statement (.movR32Cr dst src) := fun _ _ => by simp [encode, encodeSpecial]

theorem movCrR32 (dst : CtlReg) (src : Reg) : Statement (.movCrR32 dst src) := fun _ _ => by simp [encode, encodeSpecial]

theorem movR32Dr03 (dst : Reg) (src : BreakReg) : Statement (.movR32Dr03 dst src) := fun _ _ => by simp [encode, encodeSpecial]

theorem movR32Dr67 (dst : Reg) (src : DebugReg) : Statement (.movR32Dr67 dst src) := fun _ _ => by simp [encode, encodeSpecial]

theorem movDr03R32 (dst : BreakReg) (src : Reg) : Statement (.movDr03R32 dst src) := fun _ _ => by simp [encode, encodeSpecial]

theorem movDr67R32 (dst : DebugReg) (src : Reg) : Statement (.movDr67R32 dst src) := fun _ _ => by simp [encode, encodeSpecial]

theorem movR32Tr (dst : Reg) (src : TestReg) : Statement (.movR32Tr dst src) := fun _ _ => by simp [encode, encodeSpecial]

theorem movTrR32 (dst : TestReg) (src : Reg) : Statement (.movTrR32 dst src) := fun _ _ => by simp [encode, encodeSpecial]

theorem movsM8M8 (rep : Bool) (asz : Size) (src : SegReg) : Statement (.movsM8M8 rep asz src) := fun _ d => length_encodeMovs d _ _ _ _ _

theorem movsM16M16 (rep : Bool) (asz : Size) (src : SegReg) : Statement (.movsM16M16 rep asz src) := fun _ d => length_encodeMovs d _ _ _ _ _

theorem movsM32M32 (rep : Bool) (asz : Size) (src : SegReg) : Statement (.movsM32M32 rep asz src) := fun _ d => length_encodeMovs d _ _ _ _ _

theorem movsb (rep : Bool) (asz : Size) : Statement (.movsb rep asz) := fun _ d => length_encodeMovs d _ _ _ _ _

theorem movsw (rep : Bool) (asz : Size) : Statement (.movsw rep asz) := fun _ d => length_encodeMovs d _ _ _ _ _

theorem movsd (rep : Bool) (asz : Size) : Statement (.movsd rep asz) := fun _ d => length_encodeMovs d _ _ _ _ _

theorem movsxR16Rm8 (dst : Reg) (src : Rm Reg8) : Statement (.movsxR16Rm8 dst src) := fun _ d =>
  length_encodeRm d _ _ _ _ _ _ (by simp) (by simp)

theorem movsxR32Rm8 (dst : Reg) (src : Rm Reg8) : Statement (.movsxR32Rm8 dst src) := fun _ d =>
  length_encodeRm d _ _ _ _ _ _ (by simp) (by simp)

theorem movsxR32Rm16 (osz : Size) (dst : Reg) (src : Rm Reg) : Statement (.movsxR32Rm16 osz dst src) := fun _ d =>
  length_encodeRm d _ _ _ _ _ _ (by simp) (by simp)

theorem movzxR16Rm8 (dst : Reg) (src : Rm Reg8) : Statement (.movzxR16Rm8 dst src) := fun _ d =>
  length_encodeRm d _ _ _ _ _ _ (by simp) (by simp)

theorem movzxR32Rm8 (dst : Reg) (src : Rm Reg8) : Statement (.movzxR32Rm8 dst src) := fun _ d =>
  length_encodeRm d _ _ _ _ _ _ (by simp) (by simp)

theorem movzxR32Rm16 (osz : Size) (dst : Reg) (src : Rm Reg) : Statement (.movzxR32Rm16 osz dst src) := fun _ d =>
  length_encodeRm d _ _ _ _ _ _ (by simp) (by simp)

theorem mulAlRm8 (src : Rm Reg8) : Statement (.mulAlRm8 src) := fun _ d =>
  length_encodeRm d _ _ _ _ _ _ (by simp) (by simp)

theorem mulAxRm16 (src : Rm Reg) : Statement (.mulAxRm16 src) := fun _ d =>
  length_encodeRm d _ _ _ _ _ _ (by simp) (by simp)

theorem mulEaxRm32 (src : Rm Reg) : Statement (.mulEaxRm32 src) := fun _ d =>
  length_encodeRm d _ _ _ _ _ _ (by simp) (by simp)

end Laws.EncodedLength

end Sys2Proof
end

