-- ==== Sys2Proof/Laws/Step.lean ====
section
/-! SUPPORT. The step: what the boundary, the fetch and the completion can do (10_state.md R15). -/

namespace Sys2Proof.Machine

/-! ### The fetch -/

/-- A byte that is fetched changes accessed bits only (20_memory.md R58). -/
theorem fetchByte_ok {i : Nat} {s t : State} {b : Byte} (h : fetchByte i s = .ok b t) :
    AccessedOnly s t := by
  unfold fetchByte at h
  split at h
  · cases h
  · split at h
    · cases h
    · simp only [Res.andThen_ok, readPhysByte_ok] at h
      obtain ⟨x, u, hx, hu, _⟩ := h
      subst u
      exact ⟨_, tableMarks_translating s 1 _, (translate_ok hx).1⟩

theorem fetchByte_fault {i : Nat} {s : State} {f : Fault} (h : fetchByte i s = .fault f) : faultKeeps s f := by
  unfold fetchByte at h
  split at h
  · exact raise_keeps h
  · split at h
    · cases h
    · refine andThen_keeps h (fun h => translate_fault h) fun x t hx h => ?_
      rcases readPhysByte_fault h with rfl | rfl <;> trivial

/-- A decoder fed from memory: the bytes are fetched one after another, and the answer is the decoder's on those bytes
(30_encoding.md R87). -/
theorem fetchParse_ok {α : Type} {p : Parse α} {i n : Nat} {s t : State} {a : α}
    (h : fetchParse p i s = .ok (a, n) t) :
    AccessedOnly s t ∧
      ∃ bs, n = i + bs.length ∧ n ≤ max i maxInsnLen ∧ fetches i bs s t ∧ p.onBytes bs = some (a, []) := by
  induction p generalizing i s with
  | done x =>
    cases h
    exact ⟨AccessedOnly.refl _, [], rfl, Nat.le_max_left _ _, rfl, rfl⟩
  | need k ih =>
    unfold fetchParse at h
    split at h
    · rename_i hi
      simp only [Res.andThen_ok] at h
      obtain ⟨b, u, hb, h⟩ := h
      obtain ⟨ha, bs, hn, hm, hf, hp⟩ := ih b h
      refine ⟨(fetchByte_ok hb).trans ha, b :: bs, ?_, ?_, ⟨u, hb, hf⟩, hp⟩
      · simp only [List.length_cons]; omega
      · omega
    · unfold lengthFault at h
      split at h <;> cases h

/-- The bytes of an instruction that are fetched feed the decoder (30_encoding.md R87). -/
theorem fetchParse_complete {α : Type} {p : Parse α} {i : Nat} {s t : State} {a : α} {bs : List Byte}
    (hf : fetches i bs s t) (hp : p.onBytes bs = some (a, [])) (hl : i + bs.length ≤ maxInsnLen) :
    fetchParse p i s = .ok (a, i + bs.length) t := by
  induction bs generalizing p i s with
  | nil =>
    cases p with
    | done x =>
      cases hf
      simp only [Parse.onBytes, Option.some.injEq, Prod.mk.injEq, and_true] at hp
      rw [← hp]
      rfl
    | need k => cases hp
  | cons b bs ih =>
    cases p with
    | done x => simp [Parse.onBytes] at hp
    | need k =>
      obtain ⟨u, hb, hf⟩ := hf
      simp only [List.length_cons] at hl ⊢
      have hi : i < maxInsnLen := by omega
      simp only [fetchParse, hi, if_true, hb, Res.andThen]
      rw [ih (p := k b) hf hp (by omega)]
      congr 2
      omega

theorem fetchParse_fault {α : Type} {p : Parse α} {i : Nat} {s : State} {f : Fault}
    (h : fetchParse p i s = .fault f) : faultKeeps s f := by
  induction p generalizing i s with
  | done x => cases h
  | need k ih =>
    unfold fetchParse at h
    split at h
    · exact andThen_keeps h (fun h => fetchByte_fault h) fun b t hb h => (fetchByte_ok hb).faultKeeps (ih b h)
    · unfold lengthFault at h
      split at h <;> exact raise_keeps h

/-- A fetched instruction: its bytes, its length, and accessed bits only (10_state.md R15 step 2). -/
theorem fetchInstr_ok {s t : State} {i : Instr} {n : Nat} (h : fetchInstr s = .ok (i, n) t) :
    AccessedOnly s t ∧
      ∃ bs, n = bs.length ∧ n ≤ maxInsnLen ∧ fetches 0 bs s t ∧
        decodeBytes s.params (defaultSize s) bs = some (.instr i, []) := by
  simp only [fetchInstr, Res.andThen_ok] at h
  obtain ⟨⟨d, k⟩, u, hu, h⟩ := h
  obtain ⟨hm, bs, hn, hl, hf, hp⟩ := fetchParse_ok hu
  cases d with
  | instr j =>
    cases h
    exact ⟨hm, bs, by omega, by simpa using hl, hf, hp⟩
  | invalidOpcode => cases h
  | refuse r => cases h

theorem fetchInstr_fault {s : State} {f : Fault} (h : fetchInstr s = .fault f) : faultKeeps s f := by
  refine andThen_keeps h (fun h => fetchParse_fault h) fun r t ht h => ?_
  refine (fetchParse_ok (a := r.1) (n := r.2) ht).1.faultKeeps ?_
  obtain ⟨d, k⟩ := r
  cases d with
  | instr j => cases h
  | invalidOpcode => exact raise_keeps h
  | refuse r => cases h

/-! ### The boundary and the completion -/

/-- An instruction starts in the state at the boundary (10_state.md R15, R25). -/
theorem boundary_run {s t : State} (h : boundary s = .run t) :
    t = atBoundary s ∧ s.params.endEip ≠ some s.eip ∧ interruptAt s = none ∧
      debugArmed s = false := by
  unfold boundary at h
  split at h
  · cases h
  · rename_i he
    split at h
    · cases h
    · rename_i hi
      split at h
      · cases h
      · rename_i hd
        cases h
        exact ⟨rfl, he, hi, by simpa using hd⟩

/-- Only the interrupt state changes at a boundary (60_exceptions.md R217). -/
theorem atBoundary_fields (s : State) : atBoundary s = { s with irq := (atBoundary s).irq } := by
  unfold atBoundary
  split <;> rfl

theorem complete_next {d : Size} {i : Instr} {len : Nat} {o : Outcome} {u : State}
    (h : complete d i len o = .next u) :
    ∃ w, o = .next w ∧ u = if repUnfinished i w then w else completed d i len w := by
  cases o with
  | next w =>
    cases h
    exact ⟨w, rfl, rfl⟩
  | fault f => cases h
  | refused r => cases h

theorem complete_fault {d : Size} {i : Instr} {len : Nat} {o : Outcome} {f : Fault} :
    complete d i len o = .fault f ↔ o = .fault f := by
  cases o <;> simp [complete]

theorem complete_refused {d : Size} {i : Instr} {len : Nat} {o : Outcome} {r : Refusal} :
    complete d i len o = .refused r ↔ o = .refused r := by
  cases o <;> simp [complete]

/-- An instruction that completes: fetched, executed, and EIP advanced unless a REP MOVS is to go on
(10_state.md R15). -/
theorem runInstr_next {s u : State} (h : runInstr s = .next u) :
    ∃ i n t w, fetchInstr s = .ok (i, n) t ∧ exec i t = .next w ∧
      u = if repUnfinished i w then w else completed (defaultSize s) i n w := by
  simp only [runInstr, Res.outcome_next, Res.andThen_ok] at h
  obtain ⟨_, ⟨i, n⟩, t, ht, h⟩ := h
  split at h
  · rename_i v hv
    cases h
    obtain ⟨w, hw, rfl⟩ := complete_next hv
    exact ⟨i, n, t, w, ht, hw, rfl⟩
  · cases h
  · cases h

/-- An instruction that faults: in the fetch, or in its meaning. -/
theorem runInstr_fault {s : State} {f : Fault} (h : runInstr s = .fault f) :
    fetchInstr s = .fault f ∨ ∃ i n t, fetchInstr s = .ok (i, n) t ∧ exec i t = .fault f := by
  simp only [runInstr, Res.outcome_fault, Res.andThen_fault] at h
  rcases h with h | ⟨⟨i, n⟩, t, ht, h⟩
  · exact .inl h
  · refine .inr ⟨i, n, t, ht, ?_⟩
    split at h
    · cases h
    · rename_i g hg
      cases h
      exact complete_fault.mp hg
    · cases h

/-- A step that completes: an interrupt was delivered, an instruction completed, or its exception entered a handler. -/
theorem step_next {s u : State} (h : step s = .next u) :
    (∃ vec t, interruptAt s = some (vec, t) ∧ deliverInterrupt s.params.intrModel vec t = .next u) ∨
      ∃ t, boundary s = .run t ∧
        (runInstr t = .next u ∨
          ∃ x code after, runInstr t = .fault (.exception x code after) ∧ takeException x code after = .next u) := by
  unfold step at h
  split at h
  · rename_i o hb
    refine .inl ?_
    unfold boundary at hb
    split at hb
    · cases hb
      split at h <;> cases h
    · split at hb
      · rename_i vec t hi
        cases hb
        exact ⟨vec, t, hi, h⟩
      · split at hb <;> cases hb
        cases h
  · rename_i t hb
    refine .inr ⟨t, hb, ?_⟩
    unfold settle at h
    split at h
    · rename_i x code after ho
      exact .inr ⟨x, code, after, ho, h⟩
    · exact .inl h

/-! ### Canonical memory -/

/-- Memory after reset is canonical (it lists nothing). -/
theorem reset_mem_wf : State.reset.mem.wf = true := rfl

theorem placeByte_wf {s : State} (i : Nat) (b : Byte) {m : Memory} (h : m.wf = true) :
    (placeByte s i b m).wf = true := by
  unfold placeByte
  split
  · rename_i x _ hx
    exact Memory.wf_write h b (physAddr?_lt (translate_ok hx).2.2.1)
  · exact h

/-- Storing an instruction where the step fetches it keeps memory canonical. -/
theorem placeBytes_wf {s : State} (bs : List Byte) : ∀ (i : Nat) {m : Memory}, m.wf = true →
    (placeBytes s i bs m).wf = true := by
  induction bs with
  | nil => exact fun _ _ h => h
  | cons b bs ih => exact fun i _ h => ih (i + 1) (placeByte_wf i b h)

theorem withFetchWord_wf {s : State} (nbits w : Nat) (h : s.mem.wf = true) : (s.withFetchWord nbits w).mem.wf = true :=
  placeBytes_wf _ _ h

end Sys2Proof.Machine
end

