-- ==== Sys2Proof/Laws/Stops.lean ====
section
/-! SUPPORT. Where the memory operand of an instruction stops it: the stop of the read or of the store is the instruction's
(40_mov.md R100, 42_movs.md R160). -/

namespace Sys2Proof.Machine

/-- A read through a segment whose check passes is a read at its linear address. -/
theorem readSeg_legal {r : SegReg} {off : Word} {n : Nat} {s : State} (h : segmentFault s .read r off.toNat n = none) :
    readSeg r off n s = readLinear (linearAddr s r off) n false s := by
  simp only [readSeg, h]

/-- A store through a segment whose check passes is a store at its linear address. -/
theorem writeSeg_legal {r : SegReg} {off : Word} {bs : List Byte} {s : State}
    (h : segmentFault s .write r off.toNat bs.length = none) :
    writeSeg r off bs s = writeLinear (linearAddr s r off) bs false s := by
  simp only [writeSeg, h]

theorem rmOperand?_some {ρ : Type} {n m : Nat} {x : Rm ρ} {s : State} {r : SegReg} {off : Word}
    (h : rmOperand? n x s = some (r, off, m)) :
    ∃ o, x = .mem o ∧ r = operandSegment o ∧ off = effectiveAddr s o.addr ∧ m = n := by
  cases x with
  | reg _ => cases h
  | mem o => cases h; exact ⟨o, rfl, rfl, rfl, rfl⟩

/-- A string move that moves an element stops where the element does. -/
theorem moveString_stop {w : Nat} {rep : Bool} {asz : Size} {src : SegReg} {s : State} {f : Fault}
    (hc : ¬(rep = true ∧ stringReg s asz .ecx = 0#32)) (h : moveElement w asz src s = .fault f) :
    moveString w rep asz src s = .fault f := by
  cases rep with
  | false => exact h
  | true => simp_all [moveString, repElement, Res.andThen]

/-- A string move that moves an element is refused where the element is. -/
theorem moveString_refuses {w : Nat} {rep : Bool} {asz : Size} {src : SegReg} {s : State} {x : Refusal}
    (hc : ¬(rep = true ∧ stringReg s asz .ecx = 0#32)) (h : moveElement w asz src s = .refused x) :
    moveString w rep asz src s = .refused x := by
  cases rep with
  | false => exact h
  | true => simp_all [moveString, repElement, Res.andThen]

theorem stringSource?_some {w n : Nat} {rep : Bool} {asz : Size} {src r : SegReg} {s : State} {off : Word}
    (h : stringSource? w rep asz src s = some (r, off, n)) :
    ¬(rep = true ∧ stringReg s asz .ecx = 0#32) ∧ r = src ∧ off = stringReg s asz .esi ∧ n = w := by
  unfold stringSource? at h
  split at h
  · cases h
  · cases h; exact ⟨‹_›, rfl, rfl, rfl⟩

theorem stringOperand?_some {w n : Nat} {rep : Bool} {asz : Size} {r : SegReg} {s : State} {off : Word}
    (h : stringOperand? w rep asz s = some (r, off, n)) :
    ¬(rep = true ∧ stringReg s asz .ecx = 0#32) ∧ r = .es ∧ off = stringReg s asz .edi ∧ n = w := by
  unfold stringOperand? at h
  split at h
  · cases h
  · cases h; exact ⟨‹_›, rfl, rfl, rfl⟩

/-- The stop of a string move's source is the stop of the move. -/
theorem moveString_source {w n : Nat} {rep : Bool} {asz : Size} {src r : SegReg} {s : State} {off : Word} {f : Fault}
    (h : stringSource? w rep asz src s = some (r, off, n)) (hf : readSeg r off n s = .fault f) :
    moveString w rep asz src s = .fault f := by
  obtain ⟨hc, rfl, rfl, rfl⟩ := stringSource?_some h
  exact moveString_stop hc (by simp only [moveElement, hf, Res.andThen])

/-- The stop of the read of an instruction's memory operand is the stop of the instruction. -/
theorem exec_load_stop {i : Instr} {s : State} {r : SegReg} {off : Word} {n : Nat} {f : Fault}
    (h : loadOperand? i s = some (r, off, n)) (hf : readSeg r off n s = .fault f) : exec i s = .fault f := by
  cases i
  case movR8Rm8 | movsxR16Rm8 | movsxR32Rm8 | movzxR16Rm8 | movzxR32Rm8 | mulAlRm8 =>
    obtain ⟨o, rfl, rfl, rfl, rfl⟩ := rmOperand?_some h
    simp only [exec, execMovR8Rm8, execMovsxR16Rm8, execMovsxR32Rm8, execMovzxR16Rm8, execMovzxR32Rm8, execMulAlRm8,
      readRm8, readMem8, hf, Res.andThen, Res.outcome]
  case movR16Rm16 | movsxR32Rm16 | movzxR32Rm16 | mulAxRm16 =>
    obtain ⟨o, rfl, rfl, rfl, rfl⟩ := rmOperand?_some h
    simp only [exec, execMovR16Rm16, execMovsxR32Rm16, execMovzxR32Rm16, execMulAxRm16,
      readRm16, readMem16, hf, Res.andThen, Res.outcome]
  case movR32Rm32 | mulEaxRm32 =>
    obtain ⟨o, rfl, rfl, rfl, rfl⟩ := rmOperand?_some h
    simp only [exec, execMovR32Rm32, execMulEaxRm32, readRm32, readMem32, hf, Res.andThen, Res.outcome]
  case movSregRm16 dst src =>
    cases dst with
    | named q =>
      simp only [loadOperand?] at h
      split at h
      · cases h
      · rename_i hq
        obtain ⟨o, rfl, rfl, rfl, rfl⟩ := rmOperand?_some h
        cases q <;>
          first
          | exact absurd rfl hq
          | simp only [exec, execMovSregRm16, moveToSreg, readRm16, readMem16, hf, Res.andThen, Res.outcome]
    | reserved6 => cases h
    | reserved7 => cases h
  case movAlMoffs8 | movAxMoffs16 | movEaxMoffs32 =>
    cases h
    simp only [exec, execMovAlMoffs8, execMovAxMoffs16, execMovEaxMoffs32, readMem8, readMem16, readMem32, hf,
      Res.andThen, Res.outcome]
  case movsM8M8 | movsM16M16 | movsM32M32 | movsb | movsw | movsd =>
    simp only [exec, execMovsM8M8, execMovsM16M16, execMovsM32M32, execMovsb, execMovsw, execMovsd,
      moveString_source h hf, Res.outcome]
  all_goals cases h

/-- The element of a string move makes its store from the state that the read of its source leaves (42_movs.md R160). -/
theorem moveElement_store {w n m : Nat} {rep : Bool} {asz : Size} {src r q : SegReg} {s u : State} {off o : Word}
    {bs : List Byte} (h : stringOperand? w rep asz s = some (r, off, n))
    (hs : stringSource? w rep asz src s = some (q, o, m)) (hb : readSeg q o m s = .ok bs u) :
    bs.length = n ∧ ¬(rep = true ∧ stringReg s asz .ecx = 0#32) ∧
      moveElement w asz src s = (writeSeg r off bs u).andThen fun _ t => .ok () (stepIndexes asz w t) := by
  obtain ⟨hc, rfl, rfl, rfl⟩ := stringOperand?_some h
  obtain ⟨_, rfl, rfl, rfl⟩ := stringSource?_some hs
  obtain ⟨_, hl, hm⟩ := readSeg_ok hb
  refine ⟨hl, hc, ?_⟩
  simp only [moveElement, hb, Res.andThen, stringReg_same hm.same.fields.1]

/-- The store that an instruction makes: the bytes it stores, and that a stop of that store is the instruction's. -/
structure StoresAs (i : Instr) (s : State) (r : SegReg) (off : Word) (bs : List Byte) (u : State) : Prop where
  stop : ∀ f, writeSeg r off bs u = .fault f → exec i s = .fault f
  refuses : ∀ x, writeSeg r off bs u = .refused x → exec i s = .refused x

theorem StoresAs.of_outcome {i : Instr} {s u : State} {r : SegReg} {off : Word} {bs : List Byte}
    (h : exec i s = (writeSeg r off bs u).outcome) : StoresAs i s r off bs u :=
  ⟨fun f hf => by rw [h, hf]; rfl, fun x hx => by rw [h, hx]; rfl⟩

theorem StoresAs.of_string {i : Instr} {w n : Nat} {rep : Bool} {asz : Size} {src r : SegReg} {s u : State} {off : Word}
    (hi : exec i s = (moveString w rep asz src s).outcome) (h : stringOperand? w rep asz s = some (r, off, n))
    (hl : loadOperand? i s = stringSource? w rep asz src s) (hu : storesFrom i s u) :
    ∃ bs, bs.length = n ∧ StoresAs i s r off bs u := by
  have hc := (stringOperand?_some h).1
  have hs : stringSource? w rep asz src s = some (src, stringReg s asz .esi, w) := if_neg hc
  simp only [storesFrom, hl, hs] at hu
  obtain ⟨bs, hb⟩ := hu
  obtain ⟨hn, _, he⟩ := moveElement_store h hs hb
  refine ⟨bs, hn, fun f hf => ?_, fun x hx => ?_⟩
  · rw [hi, moveString_stop hc (by rw [he, hf]; rfl)]
    rfl
  · rw [hi, moveString_refuses hc (by rw [he, hx]; rfl)]
    rfl

/-- The store of an instruction: some bytes of the form's width, from the state that the read of its source leaves. -/
theorem exec_stores {i : Instr} {s u : State} {r : SegReg} {off : Word} {n : Nat}
    (h : storeOperand? i s = some (r, off, n)) (hu : storesFrom i s u) :
    ∃ bs, bs.length = n ∧ StoresAs i s r off bs u := by
  cases i
  case movRm8R8 | movRm16R16 | movRm32R32 | movRm8Imm8 | movRm16Imm16 | movRm32Imm32 =>
    obtain ⟨o, rfl, rfl, rfl, rfl⟩ := rmOperand?_some h
    cases hu
    exact ⟨_, leBytes_length _ _, .of_outcome rfl⟩
  case movRm16Sreg z dst src =>
    cases src with
    | named q =>
      obtain ⟨o, rfl, rfl, rfl, rfl⟩ := rmOperand?_some h
      cases hu
      exact ⟨_, leBytes_length _ _, .of_outcome rfl⟩
    | reserved6 => cases h
    | reserved7 => cases h
  case movMoffs8Al | movMoffs16Ax | movMoffs32Eax =>
    cases h
    cases hu
    exact ⟨_, leBytes_length _ _, .of_outcome rfl⟩
  case movsM8M8 | movsM16M16 | movsM32M32 | movsb | movsw | movsd => exact StoresAs.of_string rfl h rfl hu
  all_goals cases h

end Sys2Proof.Machine
end

