-- ==== Sys2Proof/Tests/Slice0.lean ====
section
/-! SUPPORT. The model's own tests. The expected results are those of spec/95_test_vectors.md (its row names stand in the
comments) or are computed by hand from the rule named. Theorems called `witness_…` show that the hypotheses of the
obligation of that name can be met. -/

namespace Sys2Proof.Tests

open Sys2Proof.Machine

/-! ### States -/

/-- Bytes at consecutive addresses. -/
def cells (a : Nat) : List Byte → Memory
  | [] => []
  | b :: bs => (a, b) :: cells (a + 1) bs

/-- A flat 4-gigabyte writable data segment. -/
def flat : Segment where
  sel := 0x10
  valid := true
  base := 0
  limit := 0xFFFFFFFF#32
  ar := { AccessRights.resetData with big := true }

/-- A flat 4-gigabyte readable code segment of 32 bits. -/
def flatCode : Segment := { flat with sel := 8, ar := { AccessRights.resetCode with big := true, writable := false } }

/-- The default parameters with 16 bytes of program text. -/
def textAt (a : Nat) : Params := { Params.default with programText := [⟨a, a + 16⟩] }

/-- The "32-bit segment" of spec/95_test_vectors.md: protected mode, level 0, everything flat, no paging; the program is at
100H. -/
def prot (g : Regs) (mem : Memory) : State :=
  { State.reset with
    regs := g
    eip := 0x100
    sys := { State.reset.sys with cr0 := 1 }
    mem := mem
    params := textAt 0x100
    segs := { es := flat, cs := flatCode, ss := flat, ds := flat, fs := flat, gs := flat } }

/-- General registers that are all 0. -/
def regs0 : Regs := { eax := 0, ecx := 0, edx := 0, ebx := 0, esp := 0, ebp := 0, esi := 0, edi := 0 }

/-- A 64-kilobyte segment of real-address mode. -/
def realSegment (sel : Half) : Segment :=
  { Segment.resetData with sel := sel, base := sel.setWidth 32 <<< 4 }

/-- The "16-bit segment": real-address mode, CS base 10000H, DS and ES base 20000H, SS base 30000H. -/
def real (g : Regs) (mem : Memory) : State :=
  { State.reset with
    regs := g
    eip := 0
    mem := mem
    params := textAt 0x10000
    segs := { es := realSegment 0x2000, cs := { Segment.resetCode with sel := 0x1000, base := 0x10000 }
              ss := realSegment 0x3000, ds := realSegment 0x2000, fs := realSegment 0, gs := realSegment 0 } }

/-- A virtual-8086 state with the segments of `real`. -/
def v86 (g : Regs) (mem : Memory) : State :=
  { real g mem with
    sys := { State.reset.sys with cr0 := 1 }
    eflags := { State.reset.eflags with vm := true } }

/-- `prot` at another privilege level. -/
def atLevel (sel : Half) (s : State) : State :=
  { s with segs := { s.segs with cs := { s.segs.cs with sel := sel } } }

/-- Page tables at 1000H: linear page 0 maps to itself for user writes, page 3 to frame 3000H for user writes, page 4 is not
present, page 5 is read-only and for the supervisor; linear address 400000H has no page table. -/
def tables : Memory :=
  cells 0x1000 [0x07, 0x20, 0, 0, 0, 0, 0, 0] ++ cells 0x2000 [0x07, 0, 0, 0] ++
    cells 0x200C [0x07, 0x30, 0, 0, 0, 0, 0, 0, 0x01, 0x50, 0, 0]

/-- `prot` with paging on and the tables above. -/
def paged (g : Regs) (code : List Byte) (data : Memory) : State :=
  { prot g (cells 0x100 code ++ tables ++ data) with
    sys := { State.reset.sys with cr0 := 0x80000001#32, cr3 := 0x1000#32 } }

/-- The descriptor table of spec/95_test_vectors.md section 2.3, with one more entry: index 5 is execute-only code. -/
def gdtBytes : List Byte :=
  [0, 0, 0, 0, 0, 0, 0, 0] ++ [0xFF, 0xFF, 0, 0, 0, 0x9A, 0xCF, 0] ++ [0xFF, 0xFF, 0, 0, 0, 0x92, 0xCF, 0] ++
    [0xFF, 0xFF, 0, 0, 0x40, 0xF2, 0x40, 0] ++ [0xFF, 0xFF, 0, 0, 0, 0x12, 0xCF, 0] ++ [0xFF, 0xFF, 0, 0, 0, 0x98, 0xCF, 0]

/-- `prot` with that table at 10000H and a selector in AX. -/
def withGdt (sel : Half) (code : List Byte) : State :=
  let s := prot { regs0 with eax := sel.setWidth 32 } (cells 0x100 code ++ cells 0x10000 gdtBytes)
  { s with sys := { s.sys with gdtr := ⟨0x10000#32, 0x2F#16⟩ } }

/-! ### What a test looks at -/

/-- A value of the state after one step, if it completes. -/
def after {α : Type} (s : State) (f : State → α) : Option α := (nextOf (step s)).map f

/-- The exception that one step ends in, with its error code. -/
def excOf : Outcome → Option (Exc × Option Half)
  | .fault (.exception x c _) => some (x, c)
  | _ => none

/-- The state at the fault. -/
def faultState : Outcome → Option State
  | .fault (.exception _ _ s) => some s
  | _ => none

/-- The refusal that one step ends in. -/
def refusalOf : Outcome → Option Refusal
  | .refused r => some r
  | _ => none

/-- An instruction completes in a state. -/
def completes (i : Instr) (s : State) : Bool := (nextOf (exec i s)).isSome

/-- What an operation that completes gives. -/
def okOf {α : Type} : Res α → Option (α × State)
  | .ok a s => some (a, s)
  | _ => none

/-- Bytes of memory. -/
def bytesAt (s : State) (a n : Nat) : List (Option Byte) := (List.range n).map fun k => s.mem.read? (a + k)

/-- Decode in a 32-bit code segment. -/
def d32 (bs : List Byte) : Option (Decoded × List Byte) := decodeBytes .default .s32 bs

/-- Decode in a 16-bit code segment. -/
def d16 (bs : List Byte) : Option (Decoded × List Byte) := decodeBytes .default .s16 bs

/-- A memory operand without a segment override, 32-bit address. -/
def at32 (a : Addr32) : MemOperand := ⟨none, .a32 a⟩

/-- A memory operand without a segment override, 16-bit address. -/
def at16 (a : Addr16) : MemOperand := ⟨none, .a16 a⟩

/-! ### Well-formedness refuses what no encoding carries -/

theorem test_wf_bp_needs_displacement : (Addr16.based .bp .none).wf = false := by decide

theorem test_wf_esp_is_no_index : (SibIndex.scaled .x2 .esp).wf = false := by decide

theorem test_wf_esp_base_needs_sib : (Addr32.based .esp (.d8 4)).wf = false := by decide

theorem test_wf_ebp_base_needs_displacement : (Addr32.based .ebp .none).wf = false := by decide

theorem test_wf_sib_ebp_base_needs_displacement : (Addr32.sib (.scaled .x4 .ecx) .ebp .none).wf = false := by decide

theorem test_wf_sib_index : (Addr32.sib (.scaled .x1 .esp) .eax .none).wf = false ∧
    (Addr32.sibNoBase (.scaled .x1 .esp) 0).wf = false := by decide

theorem test_wf_reaches_the_instruction :
    (Instr.movRm8R8 (.mem (at16 (.based .bp .none))) .al).wf = false ∧
      (Instr.mulEaxRm32 (.mem (at32 (.based .esp .none)))).wf = false ∧
      (Instr.mulEaxRm32 (.mem (at32 (.sib .none .esp .none)))).wf = true := by decide

theorem test_admitted_rep : (Instr.movsd true .s32).admitted { Params.default with admitRep := false } = false ∧
    (Instr.movsd true .s32).admitted .default = true := by decide

theorem test_admitted_movx_w16 : (Instr.movsxR32Rm16 .s16 .eax (.reg .eax)).admitted .default = false ∧
    (Instr.movzxR32Rm16 .s16 .eax (.reg .eax)).admitted .default = false := by decide

/-! ### Words written out from the spec's encodings (95_test_vectors.md section 2.1 and the rules' examples) -/

theorem test_decode_mov_88_89 :
    d32 [0x88, 0xD8] = some (.instr (.movRm8R8 (.reg .al) .bl), []) ∧
    d32 [0x66, 0x89, 0xC8] = some (.instr (.movRm16R16 (.reg .eax) .ecx), []) ∧
    d16 [0x66, 0x89, 0xC8] = some (.instr (.movRm32R32 (.reg .eax) .ecx), []) ∧
    d32 [0x89, 0x15, 0x04, 0x20, 0, 0] = some (.instr (.movRm32R32 (.mem (at32 (.direct 0x2004))) .edx), []) ∧
    d16 [0x89, 0x16, 0x04, 0x20] = some (.instr (.movRm16R16 (.mem (at16 (.direct 0x2004))) .edx), []) := by decide

theorem test_decode_mov_8A_8B :
    d32 [0x8A, 0x27] = some (.instr (.movR8Rm8 .ah (.mem (at32 (.based .edi .none)))), []) ∧
    d16 [0x8B, 0x46, 0x02] = some (.instr (.movR16Rm16 .eax (.mem (at16 (.based .bp (.d8 2))))), []) ∧
    d32 [0x8B, 0x45, 0x02] = some (.instr (.movR32Rm32 .eax (.mem (at32 (.based .ebp (.d8 2))))), []) ∧
    d32 [0x8B, 0x04, 0x8B] = some (.instr (.movR32Rm32 .eax (.mem (at32 (.sib (.scaled .x4 .ecx) .ebx .none)))), []) ∧
    d32 [0x8B, 0x04, 0x25, 0, 0x20, 0, 0] =
      some (.instr (.movR32Rm32 .eax (.mem (at32 (.sibNoBase .none 0x2000)))), []) ∧
    d32 [0x67, 0x8B, 0x07] = some (.instr (.movR32Rm32 .eax (.mem (at16 (.based .bx .none)))), []) := by decide

theorem test_decode_mov_sreg :
    d16 [0x8C, 0xDA] = some (.instr (.movRm16Sreg .s16 (.reg .edx) (.named .ds)), []) ∧
    d32 [0x8C, 0x0B] = some (.instr (.movRm16Sreg .s32 (.mem (at32 (.based .ebx .none))) (.named .cs)), []) ∧
    d32 [0x8E, 0xD8] = some (.instr (.movSregRm16 (.named .ds) (.reg .eax)), []) ∧
    d32 [0x8E, 0xC8] = some (.instr (.movSregRm16 (.named .cs) (.reg .eax)), []) ∧
    d32 [0x8E, 0xF0] = some (.instr (.movSregRm16 .reserved6 (.reg .eax)), []) ∧
    decodeBytes { Params.default with sregLoad := .printed8D } .s32 [0x8D, 0xD8] =
      some (.instr (.movSregRm16 (.named .ds) (.reg .eax)), []) := by decide

theorem test_decode_moffs_loads :
    d16 [0xA0, 0x10, 0] = some (.instr (.movAlMoffs8 none (.o16 0x10)), []) ∧
    d32 [0xA0, 0x10, 0, 0, 0] = some (.instr (.movAlMoffs8 none (.o32 0x10)), []) ∧
    d32 [0x66, 0xA1, 0x10, 0, 0, 0] = some (.instr (.movAxMoffs16 none (.o32 0x10)), []) ∧
    d32 [0x67, 0xA1, 0x10, 0] = some (.instr (.movEaxMoffs32 none (.o16 0x10)), []) ∧
    d32 [0x36, 0xA0, 0x10, 0, 0, 0] = some (.instr (.movAlMoffs8 (some .ss) (.o32 0x10)), []) := by decide

theorem test_decode_moffs_stores :
    d16 [0xA2, 0x10, 0] = some (.instr (.movMoffs8Al none (.o16 0x10)), []) ∧
    d32 [0x66, 0xA3, 0, 0x20, 0, 0] = some (.instr (.movMoffs16Ax none (.o32 0x2000)), []) ∧
    d32 [0xA3, 0, 0x20, 0, 0] = some (.instr (.movMoffs32Eax none (.o32 0x2000)), []) := by decide

theorem test_decode_mov_imm :
    d32 [0xB4, 0x7F] = some (.instr (.movReg8Imm8 .ah 0x7F), []) ∧
    d32 [0x66, 0xBB, 0x34, 0x12] = some (.instr (.movReg16Imm16 .ebx 0x1234), []) ∧
    d32 [0xBC, 0, 0x80, 0, 0] = some (.instr (.movReg32Imm32 .esp 0x8000), []) ∧
    d16 [0xC6, 0x06, 0x11, 0, 0xFF] = some (.instr (.movRm8Imm8 (.mem (at16 (.direct 0x11))) 0xFF), []) ∧
    d16 [0xC7, 0x07, 0x34, 0x12] = some (.instr (.movRm16Imm16 (.mem (at16 (.based .bx .none))) 0x1234), []) ∧
    d32 [0xC7, 0x44, 0x24, 0x04, 0x78, 0x56, 0x34, 0x12] =
      some (.instr (.movRm32Imm32 (.mem (at32 (.sib .none .esp (.d8 4)))) 0x12345678), []) := by decide

/-- The longest encoding, 14 bytes, and the same ModRM byte under 16-bit addressing. -/
theorem test_decode_longest :
    d16 [0x66, 0x67, 0x2E, 0xC7, 0x84, 0x24, 0, 0x10, 0, 0, 0x78, 0x56, 0x34, 0x12] =
      some (.instr (.movRm32Imm32 (.mem ⟨some .cs, .a32 (.sib .none .esp (.d32 0x1000))⟩) 0x12345678), []) ∧
    d32 [0x67, 0xC7, 0x84, 0x24, 0, 0x34, 0x12, 0, 0] =
      some (.instr (.movRm32Imm32 (.mem (at16 (.based .si (.d16 0x24)))) 0x1234), []) := by decide

theorem test_decode_control :
    d32 [0x0F, 0x20, 0xC0] = some (.instr (.movR32Cr .eax .cr0), []) ∧
    d32 [0x66, 0x0F, 0x20, 0xC0] = some (.instr (.movR32Cr .eax .cr0), []) ∧
    d32 [0x0F, 0x20, 0xD3] = some (.instr (.movR32Cr .ebx .cr2), []) ∧
    d32 [0x0F, 0x22, 0xD8] = some (.instr (.movCrR32 .cr3 .eax), []) := by decide

theorem test_decode_debug_test :
    d32 [0x0F, 0x21, 0xC2] = some (.instr (.movR32Dr03 .edx .dr0), []) ∧
    d32 [0x0F, 0x21, 0xF9] = some (.instr (.movR32Dr67 .ecx .dr7), []) ∧
    d32 [0x0F, 0x23, 0xC2] = some (.instr (.movDr03R32 .dr0 .edx), []) ∧
    d32 [0x0F, 0x23, 0xF0] = some (.instr (.movDr67R32 .dr6 .eax), []) ∧
    d32 [0x0F, 0x24, 0xF0] = some (.instr (.movR32Tr .eax .tr6), []) ∧
    d32 [0x0F, 0x26, 0xF8] = some (.instr (.movTrR32 .tr7 .eax), []) := by decide

theorem test_decode_movs :
    d32 [0xA4] = some (.instr (.movsb false .s32), []) ∧ d32 [0x66, 0xA5] = some (.instr (.movsw false .s32), []) ∧
    d32 [0xA5] = some (.instr (.movsd false .s32), []) ∧ d32 [0xF3, 0xA5] = some (.instr (.movsd true .s32), []) ∧
    d16 [0x2E, 0xA4] = some (.instr (.movsM8M8 false .s16 .cs), []) ∧
    d16 [0x26, 0xA5] = some (.instr (.movsM16M16 false .s16 .es), []) ∧
    d32 [0x67, 0x36, 0xF3, 0xA5] = some (.instr (.movsM32M32 true .s16 .ss), []) := by decide

theorem test_decode_movx :
    d32 [0x66, 0x0F, 0xBE, 0x57, 0xFF] = some (.instr (.movsxR16Rm8 .edx (.mem (at32 (.based .edi (.d8 0xFF))))), []) ∧
    d32 [0x0F, 0xBE, 0xC4] = some (.instr (.movsxR32Rm8 .eax (.reg .ah)), []) ∧
    d32 [0x0F, 0xBF, 0xC3] = some (.instr (.movsxR32Rm16 .s32 .eax (.reg .ebx)), []) ∧
    d16 [0x0F, 0xB6, 0xC4] = some (.instr (.movzxR16Rm8 .eax (.reg .ah)), []) ∧
    d32 [0x0F, 0xB6, 0xC3] = some (.instr (.movzxR32Rm8 .eax (.reg .bl)), []) ∧
    d32 [0x0F, 0xB7, 0x4E, 0x01] = some (.instr (.movzxR32Rm16 .s32 .ecx (.mem (at32 (.based .esi (.d8 1))))), []) :=
  by decide

theorem test_decode_mul :
    d16 [0xF6, 0x26, 0, 0x05] = some (.instr (.mulAlRm8 (.mem (at16 (.direct 0x500)))), []) ∧
    d16 [0xF7, 0xE1] = some (.instr (.mulAxRm16 (.reg .ecx)), []) ∧
    d32 [0xF7, 0x24, 0x8B] = some (.instr (.mulEaxRm32 (.mem (at32 (.sib (.scaled .x4 .ecx) .ebx .none)))), []) := by
  decide

/-- The encodings that are refused or raise #UD (95_test_vectors.md section 2.1, second table). -/
theorem test_decode_refused :
    d32 [0x8D, 0x03] = some (.refuse .notInScope, [0x03]) ∧ d32 [0xC6, 0x08, 0] = some (.refuse .movImmRegField, [0]) ∧
    d32 [0x0F, 0x20, 0xC8] = some (.refuse .specialNumber, []) ∧ d32 [0x0F, 0x20, 0] = some (.refuse .specialMod, []) ∧
    d16 [0x0F, 0xBF, 0xC0] = some (.refuse .movxW16, []) ∧ d32 [0xF7, 0xF3] = some (.refuse .notInScope, []) ∧
    d32 [0xF0, 0xF7, 0xE3] = some (.invalidOpcode, []) ∧ d32 [0xF3, 0x88, 0xD8] = some (.refuse .repBeforeNonString, []) ∧
    d32 [0xF2, 0xA4] = some (.refuse .repne, []) ∧ d32 [0x26, 0x2E, 0x8A, 0x07] = some (.refuse .repeatedPrefix, [0x8A, 0x07]) :=
  by decide

/-- The host's words: bit 0 is the low bit of the first byte, and the reset segment has 16-bit sizes. -/
theorem test_decode_table_word :
    decodeTableWord 16 0xC088 = some (.movRm8R8 (.reg .al) .al) ∧
      decodeTableWord 24 0xC0200F = some (.movR32Cr .eax .cr0) ∧ decodeTableWord 8 0xA4 = some (.movsb false .s16) := by
  decide

/-! ### One step of each instruction (95_test_vectors.md sections 2.2 to 2.8; the row is in the name) -/

/-- One step of 32-bit code at 100H. -/
def run32 (g : Regs) (code : List Byte) (data : Memory) : State := prot g (cells 0x100 code ++ data)

/-- One step of 16-bit code at 1000:0000. -/
def run16 (g : Regs) (code : List Byte) (data : Memory) : State := real g (cells 0x10000 code ++ data)

theorem test_M1_88 : after (run32 { regs0 with eax := 0x11223344, ebx := 0xAABBCCDD } [0x88, 0xD8] [])
    (fun t => (readR32 t .eax, t.eip)) = some (0x112233DD, 0x102) := by decide

theorem test_M2_88_stores_AH : after (run32 { regs0 with eax := 0x11223344, edi := 0x3000 } [0x88, 0x27] [])
    (fun t => bytesAt t 0x2FFF 3) = some [none, some 0x33, none] := by decide

theorem test_M3_89_16 : after (run32 { regs0 with eax := 0x11223344, ecx := 0xAABBCCDD } [0x66, 0x89, 0xC8] [])
    (fun t => (readR32 t .eax, t.eip)) = some (0x1122CCDD, 0x103) := by decide

theorem test_M5_89_32 : after (run32 { regs0 with edx := 0x1234 } [0x89, 0x15, 0x04, 0x20, 0, 0] [])
    (fun t => bytesAt t 0x2003 6) = some [none, some 0x34, some 0x12, some 0, some 0, none] := by decide

theorem test_M6_8A : after (run32 { regs0 with eax := 0x11223344, edi := 0x3000 } [0x8A, 0x27] (cells 0x3000 [0x5A]))
    (fun t => readR32 t .eax) = some 0x11225A44 := by decide

theorem test_M7_8B_16 : after (run16 { regs0 with ebp := 0x100 } [0x8B, 0x46, 0x02] (cells 0x30102 [0xCD, 0xAB]))
    (fun t => (readR32 t .eax, t.eip)) = some (0xABCD, 3) := by decide

theorem test_M8_8B_32 :
    after (run32 { regs0 with ebx := 0x2000, ecx := 3 } [0x8B, 0x04, 0x8B] (cells 0x200C [0x78, 0x56, 0x34, 0x12]))
      (fun t => readR32 t .eax) = some 0x12345678 := by decide

theorem test_M10_8B_address_uses_old_register :
    after (run32 { regs0 with eax := 0x2000 } [0x8B, 0x00] (cells 0x2000 [0xEF, 0xBE, 0xAD, 0xDE]))
      (fun t => readR32 t .eax) = some 0xDEADBEEF := by decide

theorem test_S30_8C : after (run16 { regs0 with edx := 0xAAAA5555 } [0x8C, 0xDA] [])
    (fun t => readR32 t .edx) = some 0xAAAA2000 := by decide

theorem test_S33_8C_memory : after (run32 { regs0 with ebx := 0x2000 } [0x8C, 0x0B] [])
    (fun t => bytesAt t 0x1FFF 4) = some [none, some 8, some 0, none] := by decide

theorem test_S1_8E : after (withGdt 0x10 [0x8E, 0xD8])
    (fun t => (t.segs.ds.sel, t.segs.ds.limit, t.segs.ds.ar.writable, t.mem.read? 0x10015)) =
      some (0x10, 0xFFFFFFFF, true, some 0x93) := by decide

theorem test_S11_S13_8E_faults : excOf (step (withGdt 0x20 [0x8E, 0xD0])) = some (.ss, some 0x20) ∧
    excOf (step (withGdt 0x11 [0x8E, 0xD0])) = some (.gp, some 0x10) := by decide

theorem test_M11_A0 : after (run16 { regs0 with eax := 0x1200 } [0xA0, 0x10, 0] (cells 0x20010 [0x3F]))
    (fun t => readR32 t .eax) = some 0x123F := by decide

theorem test_A1_16 : after (run16 { regs0 with eax := 0x12340000 } [0xA1, 0x10, 0] (cells 0x20010 [0xCD, 0xAB]))
    (fun t => readR32 t .eax) = some 0x1234ABCD := by decide

theorem test_M12_A1_32 : after (run32 regs0 [0xA1, 0, 0x20, 0, 0] (cells 0x2000 [0, 0, 0x78, 0x56]))
    (fun t => readR32 t .eax) = some 0x56780000 := by decide

theorem test_M13_A2 : after (run16 { regs0 with eax := 0x3F } [0xA2, 0x10, 0] []) (fun t => bytesAt t 0x20010 2) =
    some [some 0x3F, none] := by decide

theorem test_M15_A3_16 : after (run32 { regs0 with eax := 0x56781234 } [0x66, 0xA3, 0, 0x20, 0, 0] [])
    (fun t => bytesAt t 0x2000 3) = some [some 0x34, some 0x12, none] := by decide

theorem test_M14_A3_32 : after (run32 { regs0 with eax := 0x56780000 } [0xA3, 0, 0x20, 0, 0] [])
    (fun t => bytesAt t 0x2000 5) = some [some 0, some 0, some 0x78, some 0x56, none] := by decide

theorem test_M17_B0 : after (run32 { regs0 with eax := 0x11223344 } [0xB4, 0x7F] [])
    (fun t => readR32 t .eax) = some 0x11227F44 := by decide

theorem test_M19_B8_16 : after (run16 { regs0 with eax := 0xAAAA0000 } [0xB8, 0x34, 0x12] [])
    (fun t => readR32 t .eax) = some 0xAAAA1234 := by decide

theorem test_M18_B8_32 : after (run32 regs0 [0xB8, 0x78, 0x56, 0x34, 0x12] [])
    (fun t => (readR32 t .eax, t.eip)) = some (0x12345678, 0x105) := by decide

theorem test_M20_C6 : after (run16 regs0 [0xC6, 0x06, 0x11, 0, 0xFF] []) (fun t => bytesAt t 0x20011 2) =
    some [some 0xFF, none] := by decide

theorem test_M21_C7_16 : after (run16 { regs0 with ebx := 0x200 } [0xC7, 0x07, 0x34, 0x12] [])
    (fun t => bytesAt t 0x20200 3) = some [some 0x34, some 0x12, none] := by decide

theorem test_M22_C7_32 :
    after (run32 { regs0 with esp := 0x8000 } [0xC7, 0x44, 0x24, 0x04, 0x78, 0x56, 0x34, 0x12] [])
      (fun t => bytesAt t 0x8004 4) = some [some 0x78, some 0x56, some 0x34, some 0x12] := by decide

theorem test_X2_read_CR2 : after
    { run32 regs0 [0x0F, 0x20, 0xD3] [] with sys := { State.reset.sys with cr0 := 1, cr2 := 0x00403123 } }
    (fun t => readR32 t .ebx) = some 0x00403123 := by decide

theorem test_X3_write_CR3 : after (run32 { regs0 with eax := 0x00123FFF } [0x0F, 0x22, 0xD8] [])
    (fun t => t.sys.cr3.extractLsb' 12 20) = some 0x00123 := by decide

theorem test_X4_X5_write_CR0 :
    after (run32 { regs0 with eax := 9 } [0x0F, 0x22, 0xC0] []) (fun t => t.sys.cr0) = some 9 ∧
      refusalOf (step (run32 { regs0 with eax := 8 } [0x0F, 0x22, 0xC0] [])) = some .modeSwitch := by decide

theorem test_X8_read_DR0 : after
    { run32 regs0 [0x0F, 0x21, 0xC2] [] with sys := { State.reset.sys with cr0 := 1, dr0 := 0x1000 } }
    (fun t => readR32 t .edx) = some 0x1000 := by decide

theorem test_X11_read_DR7 : after
    { run32 regs0 [0x0F, 0x21, 0xF9] [] with sys := { State.reset.sys with cr0 := 1, dr7 := 0x30000 } }
    (fun t => readR32 t .ecx) = some 0x30000 := by decide

theorem test_X7_write_DR0 : after (run32 { regs0 with ecx := 0x1000 } [0x0F, 0x23, 0xC1] []) (fun t => t.sys.dr0) =
    some 0x1000 := by decide

theorem test_X9_X10_write_DR7 :
    after (run32 { regs0 with eax := 0x30000 } [0x0F, 0x23, 0xF8] []) (fun t => t.sys.dr7) = some 0x30000 ∧
      refusalOf (step (run32 { regs0 with eax := 1 } [0x0F, 0x23, 0xF8] [])) = some .breakpointArming := by decide

theorem test_X12_read_TR6 : after (run32 regs0 [0x0F, 0x24, 0xF0] []) (fun t => (t.eip, t.draws)) = some (0x103, 7) := by
  decide

theorem test_X13_X17_write_TR7 :
    refusalOf (step (run32 regs0 [0x0F, 0x26, 0xF8] [])) = some .testRegisterWrite ∧
      excOf (step (atLevel 0x0B (run32 regs0 [0x0F, 0x26, 0xF8] []))) = some (.gp, some 0) := by decide

theorem test_V1_A4 : after (run32 { regs0 with esi := 0x1004, edi := 0x3004 } [0xA4] (cells 0x1004 [0xFE]))
    (fun t => (bytesAt t 0x3004 2, readR32 t .esi, readR32 t .edi)) = some ([some 0xFE, none], 0x1005, 0x3005) := by decide

theorem test_V3_A5_backwards : after
    { run32 { regs0 with esi := 0x1004, edi := 0x3004 } [0xA5] (cells 0x1004 [0xFE, 0x90, 0x34, 0x12]) with
      eflags := { State.reset.eflags with df := true } }
    (fun t => (bytesAt t 0x3004 4, readR32 t .esi, readR32 t .edi)) =
      some ([some 0xFE, some 0x90, some 0x34, some 0x12], 0x1000, 0x3000) := by decide

theorem test_V7_A5_16 : after (run16 { regs0 with esi := 0xFFFE, edi := 0x200 } [0xA5] (cells 0x2FFFE [0x34, 0x12]))
    (fun t => (bytesAt t 0x20200 2, readR32 t .esi, readR32 t .edi)) = some ([some 0x34, some 0x12], 0, 0x202) := by decide

theorem test_V10_2E_A4_reads_through_CS :
    after (run32 { regs0 with esi := 0x100, edi := 0x3000 } [0x2E, 0xA4] []) (fun t => bytesAt t 0x3000 1) =
      some [some 0x2E] := by decide

theorem test_36_66_A5 : after (run32 { regs0 with esi := 0x1000, edi := 0x3000 } [0x36, 0x66, 0xA5] (cells 0x1000 [1, 2]))
    (fun t => (bytesAt t 0x3000 3, readR32 t .esi)) = some ([some 1, some 2, none], 0x1002) := by decide

theorem test_V18_26_F3_A5 : after
    (run32 { regs0 with ecx := 3, esi := 0x1000, edi := 0x3000 } [0x26, 0xF3, 0xA5] (cells 0x1000 [1, 2, 3, 4]))
    (fun t => (bytesAt t 0x3000 4, readR32 t .ecx, t.eip)) = some ([some 1, some 2, some 3, some 4], 2, 0x100) := by decide

theorem test_V16_F3_A4_zero_count : after (run32 { regs0 with esi := 0x1000, edi := 0x3000 } [0xF3, 0xA4] [])
    (fun t => (readR32 t .esi, t.eip)) = some (0x1000, 0x102) := by decide

theorem test_SX5_0FBE_16 : after (run32 { regs0 with eax := 0x12340080 } [0x66, 0x0F, 0xBE, 0xC0] [])
    (fun t => readR32 t .eax) = some 0x1234FF80 := by decide

theorem test_SX4_0FBE_32 : after (run32 { regs0 with eax := 0x12349A33 } [0x0F, 0xBE, 0xC4] [])
    (fun t => readR32 t .eax) = some 0xFFFFFF9A := by decide

theorem test_SX8_0FBF : after (run32 { regs0 with eax := 0xABCD8000 } [0x0F, 0xBF, 0xC0] [])
    (fun t => readR32 t .eax) = some 0xFFFF8000 := by decide

theorem test_ZX2_0FB6_16 : after (run16 { regs0 with eax := 0x55559A33 } [0x0F, 0xB6, 0xC4] [])
    (fun t => readR32 t .eax) = some 0x5555009A := by decide

theorem test_ZX4_0FB6_32 : after (run32 { regs0 with esi := 0x1005 } [0x0F, 0xB6, 0x06] (cells 0x1005 [0x90]))
    (fun t => readR32 t .eax) = some 0x90 := by decide

theorem test_ZX3_0FB7 : after (run32 { regs0 with eax := 0xFFFF8000 } [0x0F, 0xB7, 0xC0] [])
    (fun t => readR32 t .eax) = some 0x8000 := by decide

theorem test_U8_F6 : after (run32 { regs0 with eax := 0x0503 } [0xF6, 0xE4] [])
    (fun t => (readR32 t .eax, getFlag t .cf, getFlag t .ovf)) = some (0xF, false, false) := by decide

theorem test_U10_F7_16 :
    after (run32 { regs0 with eax := 0xAAAA1234, ecx := 0x100, edx := 0xBBBB0000 } [0x66, 0xF7, 0xE1] [])
      (fun t => (readR32 t .eax, readR32 t .edx, getFlag t .cf)) = some (0xAAAA3400, 0xBBBB0012, true) := by decide

theorem test_U20_F7_32 : after (run32 { regs0 with eax := 2, edx := 0x80000000 } [0xF7, 0xE2] [])
    (fun t => (readR32 t .eax, readR32 t .edx, getFlag t .ovf)) = some (0, 1, true) := by decide

/-! ### Faults around an access -/

/-- MF1: a word at offset FFFFH in real-address mode; MF4: a doubleword across the limit. -/
theorem test_MF1_MF4 : excOf (step (run16 { regs0 with ebx := 0xFFFF } [0x8B, 0x07] [])) = some (.gp, none) ∧
    excOf (step (let s := run32 { regs0 with ebx := 0xFFD } [0x89, 0x03] []
      { s with segs := { s.segs with ds := { flat with limit := 0xFFF } } })) = some (.gp, some 0) := by decide

/-- MF10: a write to a read-only page at level 3 (P = 1, W/R = 1, U/S = 1); MF9: a page that is not present, read at level
3. Bits 15:3 are the next draw. -/
theorem test_MF10 :
    excOf (exec (.movRm8R8 (.mem (at32 (.based .ebx .none))) .al) (atLevel 0x0B (paged { regs0 with ebx := 0x5000 } [] []))) =
      some (.pf, some (pageFaultCode true true true ((Config.freeWord 0).extractLsb' 0 13))) := rfl

theorem test_MF9 :
    excOf (exec (.movR8Rm8 .al (.mem (at32 (.based .ebx .none)))) (atLevel 0x0B (paged { regs0 with ebx := 0x4000 } [] []))) =
      some (.pf, some (pageFaultCode false false true ((Config.freeWord 0).extractLsb' 0 13))) := rfl

/-- 20_memory.md R51: the three bits and their places. -/
theorem test_page_fault_code : pageFaultCode true false false 0 = 1 ∧ pageFaultCode false true false 0 = 2 ∧
    pageFaultCode false false true 0 = 4 ∧ pageFaultCode false false false 1 = 8 := by decide

/-- A given translation (20_memory.md R49): page 3 of linear memory to frame 7 for a supervisor write, and not for a read. -/
def given (g : Regs) : State :=
  let s := paged g [] []
  { s with params := { s.params with translate := .given [⟨3, true, false, .frame 7⟩] } }

theorem test_given_translation :
    (nextOf (exec (.movRm8R8 (.mem (at32 (.direct 0x3FFF))) .al) (given { regs0 with eax := 0x5A }))).map
      (fun t => (bytesAt t 0x7FFF 2, t.staleTables, t.mem.read? 0x200C)) =
        some ([some 0x5A, none], false, some 0x07) := by decide

theorem test_given_translation_fault : excOf (exec (.movR8Rm8 .al (.mem (at32 (.direct 0x3FFF)))) (given regs0)) =
    some (.pf, some (pageFaultCode false false false ((Config.freeWord 0).extractLsb' 0 13))) := rfl

/-- 42_movs.md R167 and 10_state.md R25: the inhibit of a MOV into SS holds through an unfinished REP MOVS (log 40) and ends
when it has completed; an interrupt that is pending waits. -/
theorem test_inhibit_through_rep :
    let s := fun n : Word => { run32 { regs0 with ecx := n, esi := 0x1000, edi := 0x3000 } [0xF3, 0xA4] (cells 0x1000 [1, 2])
      with inhibit := true, irq := { State.reset.irq with nmiPending := true } }
    after (s 2) (fun t => (t.inhibit, t.eip, t.irq.nmiPending)) = some (true, 0x100, true) ∧
      after (s 1) (fun t => (t.inhibit, t.eip, t.irq.nmiPending)) = some (false, 0x102, true) := by decide

/-- 92 D9 and D25: a fetch outside the program's text, and a store into it, are refused. -/
theorem test_program_text : refusalOf (step State.reset) = some .outsideProgramText ∧
    refusalOf (step (run32 { regs0 with ebx := 0x10F } [0x88, 0x03] [])) = some .programTextStore := by decide

/-- 20_memory.md R50: a store through page 3 leaves its table entry accessed and dirty. -/
theorem test_paged_store : after (paged { regs0 with ebx := 0x3000, eax := 0x5A } [0x88, 0x03] [])
    (fun t => (t.mem.read? 0x3000, t.mem.read? 0x200C, t.mem.read? 0x1000)) = some (some 0x5A, some 0x67, some 0x27) := by
  decide

/-- The interface's fetch: the word is at CS:EIP of the reset state, and the step after it runs it. -/
theorem test_with_fetch_word : after (State.reset.withFetchWord 16 0xD888)
    (fun t => (t.eip, t.mem.read? 0xFFFFFFF0)) = some (0xFFF2, some 0x88) := by decide

/-! ### Witnesses: the hypotheses of each obligation can be met -/

theorem witness_RegistersAndTheirParts : Reg.ecx ≠ Reg.eax ∧ Reg8.ah ≠ Reg8.al ∧ Reg.ecx ≠ Reg8.host .al := by decide

theorem witness_ModeAndLevelAreDerived :
    State.reset.sys.cr0.getLsbD 0 = false ∧
    ((prot regs0 []).sys.cr0.getLsbD 0 = true ∧ (prot regs0 []).eflags.vm = false) ∧
    (v86 regs0 []).sys.cr0.getLsbD 0 = true ∧ (v86 regs0 []).eflags.vm = true := by decide

/-- Both sides of the bound. -/
theorem witness_SixtyFourKilobyteBound : mode State.reset ≠ .protectedMode ∧ mode (v86 regs0 []) ≠ .protectedMode ∧
    segmentFault State.reset .read .ds 0xFFFF 1 = none ∧ segmentFault State.reset .read .ds 0xFFFF 2 = some (.gp, none) ∧
    segmentFault (v86 regs0 []) .write .cs 0xFFFE 2 = none ∧
      segmentFault (v86 regs0 []) .write .cs 0xFFFE 4 = some (.gp, some 0) := by decide

/-- An expand-down stack: offsets above the limit are legal. -/
theorem witness_ProtectedModeLegalAccess :
    let s := prot regs0 []
    let d := writeSreg .ss { flat with limit := 0xFFF, ar := { flat.ar with expandDown := true } } s
    mode s = .protectedMode ∧ segmentFault s .write .ds 0xFFFFFFFC 4 = none ∧
      segmentFault s .write .ds 0xFFFFFFFD 4 = some (.gp, some 0) ∧ segmentFault s .write .cs 0 1 = some (.gp, some 0) ∧
      mode d = .protectedMode ∧ segmentFault d .write .ss 0x1000 1 = none ∧
        segmentFault d .write .ss 0xFFF 1 = some (.ss, some 0) := by decide

theorem witness_SegmentFaultNames :
    segmentFault (writeSreg .ss { flat with valid := false } (prot regs0 [])) .read .ss 0 1 = some (.ss, some 0) ∧
    segmentFault (writeSreg .ss flatCode (prot regs0 [])) .write .ss 0 1 = some (.gp, some 0) ∧
    segmentFault State.reset .read .ss 0xFFFF 2 = some (.gp, none) ∧
    segmentFault (v86 regs0 []) .read .ss 0xFFFF 2 = some (.gp, some 0) := by decide

/-- Every width, reading and writing, through an invalid DS; and a MOVS whose source can be read while ES is invalid. -/
theorem witness_IllegalOperandReferencesNoMemory :
    let s := writeSreg .ds { flat with valid := false } (prot regs0 [])
    (∀ n ∈ [1, 2, 4], segmentFault s .read .ds (readR32 s .eax).toNat n = some (.gp, some 0) ∧
      segmentFault s .write .ds (readR32 s .eax).toNat n = some (.gp, some 0)) ∧
      operandSegment (at32 (.based .eax .none)) = .ds ∧ moffsSegment none = .ds ∧ SegReg.ds ≠ .cs := by decide

theorem witness_IllegalOperandReferencesNoMemory_movs :
    let s := writeSreg .es { flat with valid := false } (prot { regs0 with esi := 0x1000 } (cells 0x1000 [7]))
    (∃ bs u, readSeg .ds (stringReg s .s32 .esi) 1 s = .ok bs u) ∧
      segmentFault s .write .es (stringReg s .s32 .edi).toNat 1 = some (.gp, some 0) := ⟨⟨_, _, rfl⟩, by decide⟩

/-- Under REP with a count of 1: the source through an invalid DS; the destination through an invalid ES. -/
theorem witness_IllegalOperandReferencesNoMemory_rep :
    let g := { regs0 with esi := 0x1000, ecx := 1 }
    let s := writeSreg .ds { flat with valid := false } (prot g [])
    let t := writeSreg .es { flat with valid := false } (prot g (cells 0x1000 [7, 8, 9, 10]))
    (stringReg s .s32 .ecx ≠ 0#32 ∧ segmentFault s .read .ds (stringReg s .s32 .esi).toNat 4 = some (.gp, some 0)) ∧
      stringReg t .s32 .ecx ≠ 0#32 ∧ (∃ bs u, readSeg .ds (stringReg t .s32 .esi) 4 t = .ok bs u) ∧
        segmentFault t .write .es (stringReg t .s32 .edi).toNat 4 = some (.gp, some 0) :=
  ⟨by decide, by decide, ⟨_, _, rfl⟩, by decide⟩

/-- The state that the read of an operand leaves. -/
def afterRead (r : SegReg) (off : Word) (n : Nat) (s : State) : State := ((okOf (readSeg r off n s)).map Prod.snd).getD s

/-- `prot` with the populated addresses 0 to 2FFFH. -/
def small (g : Regs) (data : Memory) : State :=
  { prot g data with params := { textAt 0x100 with populated := [⟨0, 0x3000⟩] } }

/-- A read whose first byte was never written, and one whose last byte is not populated, the byte below it readable; by
hand from 10_state.md R29 and 20_memory.md R49. -/
theorem witness_IllegalOperandReferencesNoMemory_load :
    let s := small regs0 (cells 0x2FFF [7])
    let i : Instr := .movR16Rm16 .eax (.mem (at32 (.direct 0x2FFF)))
    let j : Instr := .mulEaxRm32 (.mem (at32 (.direct 0x1000)))
    (loadOperand? i s = some (.ds, 0x2FFF, 2) ∧ segmentFault s .read .ds 0x2FFF 2 = none ∧
      (∀ k, k < 2 → mapped s (linearAddr s .ds 0x2FFF + BitVec.ofNat 32 k) false (userAccess s false) = true) ∧
      byteLoads s (linearAddr s .ds 0x2FFF + BitVec.ofNat 32 0) (userAccess s false) = true ∧
      physAddr? s false (userAccess s false) (linearAddr s .ds 0x2FFF + BitVec.ofNat 32 1) = some 0x3000 ∧
      byteStop? s 0x3000 = some (.unpopulated 0x3000)) ∧
    (loadOperand? j s = some (.ds, 0x1000, 4) ∧ segmentFault s .read .ds 0x1000 4 = none ∧
      byteStop? s 0x1000 = some (.unwritten 0x1000)) ∧
    exec i s = .fault (.unpopulated 0x3000) ∧ exec j s = .fault (.unwritten 0x1000) :=
  ⟨by decide, by decide, rfl, rfl⟩

/-- A store of MOVSW whose second byte is not populated; by hand from 20_memory.md R49. -/
theorem witness_IllegalOperandReferencesNoMemory_store :
    let s := small { regs0 with esi := 0x1000, edi := 0x2FFF } (cells 0x1000 [1, 2])
    let u := afterRead .ds 0x1000 2 s
    let i : Instr := .movsw false .s32
    storesFrom i s u ∧ (storeOperand? i s = some (.es, 0x2FFF, 2) ∧ segmentFault u .write .es 0x2FFF 2 = none ∧
      (∀ k, k < 2 → mapped u (linearAddr u .es 0x2FFF + BitVec.ofNat 32 k) true (userAccess u false) = true ∧
        inProgramText u (linearAddr u .es 0x2FFF + BitVec.ofNat 32 k) = false) ∧
      byteStores u (linearAddr u .es 0x2FFF + BitVec.ofNat 32 0) (userAccess u false) = true ∧
      physAddr? u true (userAccess u false) (linearAddr u .es 0x2FFF + BitVec.ofNat 32 1) = some 0x3000 ∧
      populated u 0x3000 = false) ∧ exec i s = .fault (.unpopulated 0x3000) := ⟨⟨_, rfl⟩, by decide, rfl⟩

theorem witness_TranslationFollowsTheTables : paging (prot regs0 []) = false ∧
    paging (paged regs0 [] []) = true ∧ (paged regs0 [] []).params.translate = .twoLevel ∧
    mapped (paged regs0 [] []) 0x3FFF true true = true ∧ mapped (paged regs0 [] []) 0x3000 false true = true ∧
    paging (given regs0) = true ∧ (given regs0).params.translate = .given [⟨3, true, false, .frame 7⟩] ∧
    PageLine.answerOf [⟨3, true, false, .frame 7⟩] ((0x3FFF : Word).extractLsb' 12 20) true false = .frame 7 ∧
    PageLine.answerOf [⟨3, true, false, .frame 7⟩] ((0x3FFF : Word).extractLsb' 12 20) false false = .fault false := by decide

/-- No page table (400000H); a page that is not present (4000H); a page that is not the user's (5000H). -/
theorem witness_PageFaultReportsCodeAndAddress :
    let s := paged regs0 [] []
    paging s = true ∧ s.params.translate = .twoLevel ∧
    (entryPopulated s (pdeAddr s 0x400000) = true ∧ listed32 s.mem (pdeAddr s 0x400000) = some 0 ∧
      (0 : Word).getLsbD 0 = false) ∧
    (entryPopulated s (pdeAddr s 0x4000) = true ∧ listed32 s.mem (pdeAddr s 0x4000) = some 0x2007 ∧
      (0x2007 : Word).getLsbD 0 = true ∧ entryPopulated s (pteAddr 0x2007 0x4000) = true ∧
      listed32 s.mem (pteAddr 0x2007 0x4000) = some 0) ∧
    listed32 s.mem (pdeAddr s 0x5000) = some 0x2007 ∧ entryPopulated s (pteAddr 0x2007 0x5000) = true ∧
      listed32 s.mem (pteAddr 0x2007 0x5000) = some 0x5001 ∧ (0x5001 : Word).getLsbD 0 = true ∧
      (0x5001 : Word).getLsbD 2 = false := by decide

/-- An operand whose first byte has no page, and one whose last byte has none; by hand from 20_memory.md R50 and R51. -/
theorem witness_PageFaultReportsCodeAndAddress_load :
    let s := paged regs0 [] []
    let i := fun o => Instr.movR32Rm32 .eax (.mem (at32 (.direct o)))
    (loadOperand? (i 0x4000) s = some (.ds, 0x4000, 4) ∧ segmentFault s .read .ds 0x4000 4 = none ∧
      pageFaultBit? s (linearAddr s .ds 0x4000 + BitVec.ofNat 32 0) false (userAccess s false) = some false) ∧
    loadOperand? (i 0x3FFD) s = some (.ds, 0x3FFD, 4) ∧ segmentFault s .read .ds 0x3FFD 4 = none ∧
      (∀ k, k < 3 → mapped s (linearAddr s .ds 0x3FFD + BitVec.ofNat 32 k) false (userAccess s false) = true) ∧
      pageFaultBit? s (linearAddr s .ds 0x3FFD + BitVec.ofNat 32 3) false (userAccess s false) = some false ∧
      (faultState (exec (i 0x3FFD) s)).map (·.sys.cr2) = some 0x4000#32 := by decide

/-- A user's MOVSW whose destination crosses into a page that is not present, and a user's store to a page of the
supervisor. -/
theorem witness_PageFaultReportsCodeAndAddress_store :
    let s := atLevel 3 (paged { regs0 with esi := 0x3000, edi := 0x3FFF } [] (cells 0x3000 [1, 2]))
    let u := afterRead .ds 0x3000 2 s
    let i : Instr := .movsw false .s32
    let j : Instr := .movRm8R8 (.mem (at32 (.direct 0x5000))) .al
    storesFrom i s u ∧ storesFrom j s s ∧ (storeOperand? i s = some (.es, 0x3FFF, 2) ∧
      segmentFault u .write .es 0x3FFF 2 = none ∧
      mapped u (linearAddr u .es 0x3FFF + BitVec.ofNat 32 0) true (userAccess u false) = true ∧
      pageFaultBit? u (linearAddr u .es 0x3FFF + BitVec.ofNat 32 1) true (userAccess u false) = some false) ∧
    storeOperand? j s = some (.ds, 0x5000, 1) ∧ segmentFault s .write .ds 0x5000 1 = none ∧
      pageFaultBit? s (linearAddr s .ds 0x5000 + BitVec.ofNat 32 0) true (userAccess s false) = some true :=
  ⟨⟨_, rfl⟩, rfl, by decide, by decide⟩

theorem witness_StoresMarkPagesDirty :
    let s := paged { regs0 with ebx := 0x3000 } [] []
    paging s = true ∧ s.params.translate = .twoLevel ∧
      storeOperand? (.movRm32R32 (.mem (at32 (.based .ebx .none))) .eax) s = some (.ds, 0x3000, 4) ∧
      completes (.movRm32R32 (.mem (at32 (.based .ebx .none))) .eax) s = true ∧
      (∀ k ∈ [0, 3], listed32 s.mem (pdeAddr s (0x3000 + BitVec.ofNat 32 k)) = some 0x2007 ∧
        pteAddr 0x2007 (0x3000 + BitVec.ofNat 32 k) ∉ operandBytes s .ds 0x3000 4) := by decide

theorem witness_MemoryReadsWhatWasWritten : Memory.wf (cells 0x1000 [1, 2]) = true ∧
    Memory.wf (Memory.write (cells 0x1000 [1, 2]) 0xFFFFFFFF 9) = true ∧ Memory.wf [] = true := by decide

theorem witness_StoreThenLoadIsLittleEndian :
    let s := prot { regs0 with eax := 0x12345678, ebx := 0x3000 } []
    paging s = false ∧ (nextOf (exec (.movRm32R32 (.mem (at32 (.based .ebx .none))) .eax) s)).any (fun t =>
      canLoad t .ds 0x3000 4 && canLoad t .ds 0x3003 1) = true := by decide

/-- Every width, from a register and from memory up to the last byte of a real-address segment. -/
theorem witness_reads :
    let s := real { regs0 with ebx := 0xFFFC } (cells 0x2FFFC [1, 2, 3, 4])
    let m := at16 (.based .bx .none)
    canReadRm 1 (.mem m : Rm Reg8) s = true ∧ canReadRm 2 (.mem m : Rm Reg) s = true ∧
      canReadRm 4 (.mem m : Rm Reg) s = true ∧ canReadRm 4 (.reg .eax : Rm Reg) s = true := by decide

theorem witness_writes :
    let s := real { regs0 with ebx := 0xFFFC } []
    let m := at16 (.based .bx .none)
    canWriteRm 1 (.mem m : Rm Reg8) s = true ∧ canWriteRm 2 (.mem m : Rm Reg) s = true ∧
      canWriteRm 4 (.mem m : Rm Reg) s = true ∧ canWriteRm 2 (.reg .eax : Rm Reg) s = true := by decide

theorem witness_MoveOperandToRegister :
    let s := real { regs0 with ebx := 0xFFFC } (cells 0x2FFFC [1, 2, 3, 4])
    completes (.movR8Rm8 .al (.mem (at16 (.based .bx .none)))) s = true ∧
      completes (.movR16Rm16 .eax (.mem (at16 (.based .bx .none)))) s = true ∧
      completes (.movR32Rm32 .eax (.mem (at16 (.based .bx .none)))) s = true := by decide

theorem witness_MoveRegisterToOperand :
    let s := real { regs0 with ebx := 0xFFFC } []
    completes (.movRm8R8 (.mem (at16 (.based .bx .none))) .al) s = true ∧
      completes (.movRm16R16 (.mem (at16 (.based .bx .none))) .eax) s = true ∧
      completes (.movRm32R32 (.mem (at16 (.based .bx .none))) .eax) s = true := by decide

theorem witness_MoveImmediate :
    let s := real { regs0 with ebx := 0xFFFC } []
    completes (.movRm8Imm8 (.mem (at16 (.based .bx .none))) 1) s = true ∧
      completes (.movRm16Imm16 (.mem (at16 (.based .bx .none))) 1) s = true ∧
      completes (.movRm32Imm32 (.mem (at16 (.based .bx .none))) 1) s = true := by decide

theorem witness_MoveBetweenAccumulatorAndOffset :
    let s := real regs0 (cells 0x2FFFC [1, 2, 3, 4])
    (∀ n ∈ [1, 2, 4], canLoad s .ds 0xFFFC n = true ∧ canStore s .ds 0xFFFC n = true) ∧
      completes (.movAlMoffs8 none (.o16 0xFFFF)) s = true ∧ completes (.movAxMoffs16 none (.o16 0xFFFE)) s = true ∧
      completes (.movEaxMoffs32 none (.o16 0xFFFC)) s = true ∧ completes (.movMoffs8Al none (.o16 0xFFFF)) s = true ∧
      completes (.movMoffs16Ax none (.o16 0xFFFE)) s = true ∧ completes (.movMoffs32Eax none (.o16 0xFFFC)) s = true := by
  decide

theorem witness_StoreSegmentSelector :
    canWriteRm 2 (.mem (at16 (.direct 0xFFFE)) : Rm Reg) (real regs0 []) = true := by decide

theorem witness_SegmentNumbersWithoutRegister :
    canWriteRm 2 (.mem (at32 (.direct 0x2000)) : Rm Reg) (prot regs0 []) = true ∧
      completes (.movRm16Sreg .s32 (.mem (at32 (.direct 0x2000))) (.named .cs)) (prot regs0 []) = true := by decide

/-- S22 and S24: real-address and virtual-8086 mode, the largest selector. -/
theorem witness_SegmentLoadOutsideProtectedMode :
    let g := { regs0 with eax := 0xFFFF }
    mode (real g []) = .realAddress ∧ mode (v86 g []) = .virtual8086 ∧ SegReg.ds ≠ .cs ∧
      canReadRm 2 (.reg .eax : Rm Reg) (v86 g []) = true ∧
      completes (.movSregRm16 (.named .ss) (.reg .eax)) (real g []) = true ∧
      completes (.movSregRm16 (.named .ds) (.reg .eax)) (v86 g []) = true := by decide

/-- S3: the largest null selector. -/
theorem witness_NullSelectorLoadClearsValid : mode (withGdt 3 []) = .protectedMode ∧ SegReg.ds ≠ .cs ∧ SegReg.ds ≠ .ss ∧
    readRm16 (.reg .eax) (withGdt 3 []) = .ok 3 (withGdt 3 []) ∧ (3 : Half).toNat ≤ 3 :=
  ⟨by decide, by decide, by decide, rfl, by decide⟩

/-- S8 and S19 for the first clause, and the last entry of the table for the second. -/
theorem witness_DescriptorFetchChecksTheTable :
    tableLimit (withGdt 0 []) 0x30 < 8 * selectorIndex 0x30 + 7 ∧
    (selectorTi 0x0C = true ∧ (withGdt 0 []).sys.ldtr.valid = false) ∧
    canFetchDescriptor (withGdt 0 []) 0x28 = true := by decide

/-- A descriptor that crosses into a page that is not present (index 5 of a table at 3FD4H); one whose first byte was never
written; one whose last byte is not populated. -/
theorem witness_DescriptorFetchChecksTheTable_stops :
    let p := paged regs0 [] []
    let s := { p with sys := { p.sys with gdtr := ⟨0x3FD4#32, 0x2F#16⟩ } }
    let m := small regs0 (cells 0x2FF9 [1, 2, 3, 4, 5, 6, 7])
    let q := { m with sys := { m.sys with gdtr := ⟨0x2FD1#32, 0x2F#16⟩ } }
    (selectorTi 0x28 = false ∧ tableLimit s 0x28 = 0x2F ∧
      (∀ k, k < 4 → mapped s (descriptorAddr s 0x28 + BitVec.ofNat 32 k) false false = true) ∧
      pageFaultBit? s (descriptorAddr s 0x28 + BitVec.ofNat 32 4) false false = some false) ∧
    (∀ k, k < 8 → mapped q (descriptorAddr q 0x28 + BitVec.ofNat 32 k) false false = true) ∧
      (∀ k, k < 7 → byteLoads q (descriptorAddr q 0x28 + BitVec.ofNat 32 k) false = true) ∧
      physAddr? q false false (descriptorAddr q 0x28 + BitVec.ofNat 32 7) = some 0x3000 ∧
      byteStop? q 0x3000 = some (.unpopulated 0x3000) ∧
      physAddr? q false false (descriptorAddr q 8 + BitVec.ofNat 32 0) = some 0x2FD9 ∧
      byteStop? q 0x2FD9 = some (.unwritten 0x2FD9) := by decide

/-- Each clause of the listing: outside the table; neither data nor readable code (index 5); RPL above DPL; not present;
and a load that completes. -/
theorem witness_DataSegmentLoadFollowsTheListing :
    (∃ f, fetchDescriptor 0x30 (withGdt 0x30 []) = .fault f) ∧
    fetchDescriptor 0x28 (withGdt 0x28 []) = .ok 0x00CF98000000FFFF#64 (withGdt 0x28 []) ∧
    fetchDescriptor 0x13 (withGdt 0x13 []) = .ok 0x00CF92000000FFFF#64 (withGdt 0x13 []) ∧
    fetchDescriptor 0x20 (withGdt 0x20 []) = .ok 0x00CF12000000FFFF#64 (withGdt 0x20 []) ∧
    fetchDescriptor 4 (withGdt 4 []) = .fault (.exception .gp (some 4) (withGdt 4 [])) ∧
    fetchDescriptor 0x10 (withGdt 0x10 []) = .ok 0x00CF92000000FFFF#64 (withGdt 0x10 []) ∧
    canMarkAccessed (withGdt 0x10 []) 0x10 0x00CF92000000FFFF#64 = true ∧
    completes (.movSregRm16 (.named .ds) (.reg .eax)) (withGdt 0x10 []) = true :=
  ⟨⟨_, rfl⟩, rfl, rfl, rfl, rfl, rfl, by decide, by decide⟩

/-- Each clause of the listing: null; outside the table; RPL, type and DPL wrong; not present; and a load that completes. -/
theorem witness_StackSegmentLoadFollowsTheListing :
    readRm16 (.reg .eax) (withGdt 3 []) = .ok 3 (withGdt 3 []) ∧
    (∃ f, fetchDescriptor 0x30 (withGdt 0x30 []) = .fault f) ∧
    fetchDescriptor 0x11 (withGdt 0x11 []) = .ok 0x00CF92000000FFFF#64 (withGdt 0x11 []) ∧
    fetchDescriptor 8 (withGdt 8 []) = .ok 0x00CF9A000000FFFF#64 (withGdt 8 []) ∧
    fetchDescriptor 0x18 (withGdt 0x18 []) = .ok 0x0040F2400000FFFF#64 (withGdt 0x18 []) ∧
    fetchDescriptor 0x20 (withGdt 0x20 []) = .ok 0x00CF12000000FFFF#64 (withGdt 0x20 []) ∧
    fetchDescriptor 0x10 (withGdt 0x10 []) = .ok 0x00CF92000000FFFF#64 (withGdt 0x10 []) ∧
    canMarkAccessed (withGdt 0x10 []) 0x10 0x00CF92000000FFFF#64 = true ∧
    completes (.movSregRm16 (.named .ss) (.reg .eax)) (withGdt 0x10 []) = true :=
  ⟨rfl, ⟨_, rfl⟩, rfl, rfl, rfl, rfl, rfl, by decide, by decide⟩

theorem witness_DescriptorFieldsAreTheTable : (0x00CF92000000FFFF#64).getLsbD 55 = true ∧
    (0x0040F2400000FFFF#64).getLsbD 55 = false := by decide

/-- P5: a load of SS; another instruction; an exception; a boundary under the inhibit with both interrupts pending. -/
theorem witness_InhibitComesFromStackSegmentLoads :
    let h := { prot regs0 [] with
      inhibit := true, irq := { State.reset.irq with nmiPending := true, intrPending := some 0x20 } }
    completes (.movSregRm16 (.named .ss) (.reg .eax)) (withGdt 0x10 []) = true ∧
    completes (.movReg8Imm8 .al 1) h = true ∧ excOf (exec (.movSregRm16 (.named .cs) (.reg .eax)) h) = some (.ud, none) ∧
    complete .s32 (.movReg8Imm8 .al 1) 2 (.next h) = .next (completed .s32 (.movReg8Imm8 .al 1) 2 h) ∧
    repUnfinished (.movReg8Imm8 .al 1) h = false ∧ repUnfinished (.movsb true .s32) { h with regs := { regs0 with ecx := 1 } } = true ∧
    (∃ t, boundary h = .run t) ∧ h.inhibit = true ∧ h.irq.nmiPending = true ∧ h.irq.intrPending.isSome = true :=
  ⟨by decide, by decide, by decide, rfl, by decide, by decide, ⟨_, rfl⟩, rfl, rfl, rfl⟩

theorem witness_SpecialMovesNeedLevelZero : isSpecialMove (.movR32Cr .eax .cr0) = true ∧
    mode (v86 regs0 []) = .virtual8086 ∧
    (mode (atLevel 0x09 (prot regs0 [])) = .protectedMode ∧ cpl (atLevel 0x09 (prot regs0 [])) ≠ 0) ∧
    mode State.reset = .realAddress ∧ mode (prot regs0 []) = .protectedMode ∧ cpl (prot regs0 []) = 0 := by decide

theorem witness_SpecialMoveFlagsAreUndefined : isSpecialMove (.movR32Dr67 .eax .dr7) = true ∧
    completes (.movR32Dr67 .eax .dr7) (prot regs0 []) = true ∧ Flag.cf ∈ arithmeticFlags ∧ Flag.df ∉ arithmeticFlags := by
  decide

theorem witness_ReadSpecialRegister : mayMoveSpecial (prot regs0 []) = true ∧ (prot regs0 []).staleTables = false ∧
    completes (.movR32Cr .eax .cr0) (prot regs0 []) = true ∧ completes (.movR32Cr .eax .cr2) (prot regs0 []) = true ∧
    completes (.movR32Cr .eax .cr3) (prot regs0 []) = true ∧ completes (.movR32Dr03 .eax .dr3) (prot regs0 []) = true ∧
    completes (.movR32Dr67 .eax .dr6) (prot regs0 []) = true ∧ completes (.movR32Tr .eax .tr6) (prot regs0 []) = true := by
  decide

/-- A CR0 write that keeps PE and PG; one that changes PE, with the switch off and on; and a CR3 write that ends a wait. -/
theorem witness_WriteControlRegister :
    let s := prot { regs0 with eax := 0x9 } []
    let w := { s with params := { s.params with admitModeSwitch := true } }
    mayMoveSpecial s = true ∧ s.staleTables = false ∧ mayMoveSpecial w = true ∧ w.params.admitModeSwitch = true ∧
    (readR32 s .eax).getLsbD 0 = s.sys.cr0.getLsbD 0 ∧ (readR32 s .eax).getLsbD 31 = s.sys.cr0.getLsbD 31 ∧
    (readR32 s .ebx).getLsbD 0 ≠ s.sys.cr0.getLsbD 0 ∧ s.params.admitModeSwitch = false ∧
    completes (.movCrR32 .cr0 .eax) s = true ∧ completes (.movCrR32 .cr0 .ebx) w = true ∧
    completes (.movCrR32 .cr2 .eax) s = true ∧ completes (.movCrR32 .cr3 .eax) { s with staleTables := true } = true := by
  decide

/-- A DR7 write without and with an enable bit; test-register writes with the switch off and on. -/
theorem witness_WriteDebugOrTestRegister :
    let s := prot { regs0 with eax := 0x30000, ebx := 0x2000 } []
    let w := { s with params := { s.params with admitBreakpoints := true, admitTrWrite := true } }
    mayMoveSpecial s = true ∧ s.staleTables = false ∧ readR32 s .eax &&& 0x20FF#32 = 0#32 ∧
    readR32 s .ebx &&& 0x20FF#32 ≠ 0#32 ∧ s.params.admitBreakpoints = false ∧ s.params.admitTrWrite = false ∧
    completes (.movDr03R32 .dr0 .eax) s = true ∧ completes (.movDr67R32 .dr6 .ebx) s = true ∧
    completes (.movDr67R32 .dr7 .eax) s = true ∧ completes (.movDr67R32 .dr7 .ebx) w = true ∧
    completes (.movTrR32 .tr6 .eax) w = true := by decide

theorem witness_StringMoveMovesOneElement :
    let s := prot { regs0 with esi := 0x1000, edi := 0x3000 } (cells 0x1000 [1, 2, 3, 4])
    ∀ w ∈ [1, 2, 4], canMoveElement w .s32 .ds s = true ∧ canMoveElement w .s16 .ss s = true := by decide

theorem witness_StringMoveCompletes :
    let s := prot { regs0 with esi := 0x1000, edi := 0x3000 } (cells 0x1000 [1, 2, 3, 4])
    completes (.movsM8M8 false .s32 .fs) s = true ∧ completes (.movsM16M16 false .s32 .gs) s = true ∧
      completes (.movsM32M32 false .s32 .es) s = true ∧ completes (.movsb false .s32) s = true ∧
      completes (.movsw false .s16) s = true ∧ completes (.movsd false .s16) s = true := by decide

/-- The count 0, 1 and 2. -/
theorem witness_RepeatedStringMoveCountsDown :
    let s := fun n : Word => prot { regs0 with ecx := n, esi := 0x1000, edi := 0x3000 } (cells 0x1000 [1, 2, 3, 4])
    stringReg (s 0) .s32 .ecx = 0#32 ∧
    (stringReg (s 1) .s32 .ecx ≠ 0#32 ∧ canMoveElement 4 .s32 .ds (s 1) = true ∧
      (nextOf (exec (.movsd true .s32) (s 1))).map (repUnfinished (.movsd true .s32)) = some false) ∧
    stringReg (s 2) .s32 .ecx ≠ 0#32 ∧ canMoveElement 4 .s32 .ds (s 2) = true ∧
      (nextOf (exec (.movsd true .s32) (s 2))).map (repUnfinished (.movsd true .s32)) = some true := by decide

theorem witness_DirectionFlagMovesTheIndexes :
    let s := prot { regs0 with ecx := 2, esi := 0x1000, edi := 0x3000 } (cells 0x1000 [1, 2, 3, 4])
    stringReg s .s16 .ecx ≠ 0#32 ∧ completes (.movsb true .s16) s = true ∧ completes (.movsM32M32 true .s16 .ds) s = true ∧
      completes (.movsw false .s32) s = true := by decide

theorem witness_SignExtendingMove :
    let s := prot { regs0 with ebx := 0x1000 } (cells 0x1000 [0x80, 0xFF])
    canReadRm 1 (.mem (at32 (.based .ebx .none)) : Rm Reg8) s = true ∧
      canReadRm 2 (.mem (at32 (.based .ebx .none)) : Rm Reg) s = true ∧
      completes (.movsxR16Rm8 .eax (.mem (at32 (.based .ebx .none)))) s = true ∧
      completes (.movsxR32Rm16 .s16 .eax (.mem (at32 (.based .ebx .none)))) s = true := by decide

theorem witness_ZeroExtendingMove :
    let s := prot { regs0 with ebx := 0x1000 } (cells 0x1000 [0x80, 0xFF])
    canReadRm 1 (.mem (at32 (.based .ebx .none)) : Rm Reg8) s = true ∧
      canReadRm 2 (.mem (at32 (.based .ebx .none)) : Rm Reg) s = true ∧
      completes (.movzxR16Rm8 .eax (.mem (at32 (.based .ebx .none)))) s = true ∧
      completes (.movzxR32Rm16 .s16 .eax (.mem (at32 (.based .ebx .none)))) s = true := by decide

theorem witness_MultiplicationIsExact :
    let s := prot { regs0 with eax := 0xFFFFFFFF, ebx := 0x1000 } (cells 0x1000 [0xFF, 0xFF, 0xFF, 0xFF])
    canReadRm 1 (.mem (at32 (.based .ebx .none)) : Rm Reg8) s = true ∧
      canReadRm 2 (.mem (at32 (.based .ebx .none)) : Rm Reg) s = true ∧
      canReadRm 4 (.mem (at32 (.based .ebx .none)) : Rm Reg) s = true := by decide

theorem witness_MultiplicationFlags :
    let s := prot { regs0 with eax := 0xFFFFFFFF, ebx := 1 } []
    isMul (.mulAlRm8 (.reg .bl)) = true ∧ completes (.mulAlRm8 (.reg .bl)) s = true ∧
      completes (.mulAxRm16 (.reg .eax)) s = true ∧ completes (.mulEaxRm32 (.reg .eax)) s = true ∧
      Flag.df ∉ arithmeticFlags ∧ Flag.sf ∈ mulUndefinedFlags := by decide

theorem witness_OnlyTwoFamiliesWriteFlags : completes (.movReg8Imm8 .al 1) (prot regs0 []) = true ∧
    isMul (.movReg8Imm8 .al 1) = false ∧ isSpecialMove (.movReg8Imm8 .al 1) = false := by decide

/-- An instruction that is no special move, and one at level 3 of virtual-8086 mode. -/
theorem witness_SystemStateNeedsPrivilege :
    completes (.movReg8Imm8 .al 1) (v86 regs0 []) = true ∧ isSpecialMove (.movReg8Imm8 .al 1) = false ∧
      mayMoveSpecial (v86 regs0 []) = false ∧ completes (.movCrR32 .cr2 .eax) (prot regs0 []) = true := by decide

theorem witness_InstructionsKeepTheRest : completes (.movSregRm16 (.named .ds) (.reg .eax)) (prot regs0 []) = true ∧
    completes (.movReg8Imm8 .al 1) (prot regs0 []) = true := by decide

/-- A page fault in the second page of an operand, after the walk of the first has marked its table entry. -/
theorem witness_FaultLeavesTheStateItFound :
    let o := exec (.movR32Rm32 .eax (.mem (at32 (.direct 0x3FFE)))) (paged regs0 [] [])
    (∃ f, o = .fault f) ∧ (excOf o).map Prod.fst = some .pf ∧
      (faultState o).map (fun t => (t.sys.cr2, t.mem.read? 0x200C)) = some (0x4000#32, some 0x27#8) :=
  ⟨⟨_, rfl⟩, rfl, by decide⟩

/-- An exception where no tables are walked. -/
theorem witness_FaultLeavesTheStateItFound_flat :
    let s := writeSreg .ds { flat with valid := false } (prot regs0 [])
    excOf (exec (.movR8Rm8 .al (.mem (at32 (.direct 0)))) s) = some (.gp, some 0) ∧ walksTables s = false := by decide

/-- Each of the five refusals happens. -/
theorem witness_RefusalsAreTheNamedOnes :
    let s := prot { regs0 with eax := 0x81 } []
    let text := { s with params := { s.params with programText := [⟨0x100, 0x200⟩] } }
    refusalOf (exec (.movRm8R8 (.mem (at32 (.direct 0x1FF))) .al) text) = some .programTextStore ∧
    refusalOf (exec (.movR32Cr .eax .cr2) { s with staleTables := true }) = some .livePageTable ∧
    refusalOf (exec (.movCrR32 .cr0 .ebx) s) = some .modeSwitch ∧
    refusalOf (exec (.movDr67R32 .dr7 .eax) s) = some .breakpointArming ∧
    refusalOf (exec (.movTrR32 .tr6 .eax) s) = some .testRegisterWrite := by decide

/-- A store whose last byte is the first of the text, with the bytes it stores read through DS; and every kind of special
move while a store into a live page table waits, of which one would be refused for itself too. -/
theorem witness_RefusalsAreTheNamedOnes_converse :
    let s := prot { regs0 with esi := 0x1000, edi := 0xFF, eax := 0x80 } (cells 0x1000 [1, 2])
    let u := afterRead .ds 0x1000 2 s
    let i : Instr := .movsw false .s32
    let w := { s with staleTables := true }
    storesFrom i s u ∧ (storeOperand? i s = some (.es, 0xFF, 2) ∧ segmentFault u .write .es 0xFF 2 = none ∧
      (∀ k, k < 2 → mapped u (linearAddr u .es 0xFF + BitVec.ofNat 32 k) true (userAccess u false) = true) ∧
      inProgramText u (linearAddr u .es 0xFF + BitVec.ofNat 32 1) = true) ∧
    (mayMoveSpecial w = true ∧ isSpecialMove (.movDr67R32 .dr7 .eax) = true) ∧
    refusalOf (exec (.movDr67R32 .dr7 .eax) w) = some .livePageTable ∧ completes (.movCrR32 .cr3 .eax) w = true :=
  ⟨⟨_, rfl⟩, by decide, by decide, by decide, by decide⟩

theorem witness_EncodeThenDecodeGivesTheInstruction :
    let i : Instr := .movRm32Imm32 (.mem ⟨some .gs, .a32 (.sib (.scaled .x8 .edi) .ebp (.d8 0x80))⟩) 0x12345678
    i.wf = true ∧ i.admitted .default = true ∧ decodeBytes .default .s16 (encode .default .s16 i) = some (.instr i, []) := by
  decide

theorem witness_DecodedInstructionsAreWellFormed : decodeBytes .default .s32 [0x88, 0xD8, 0x90] =
    some (.instr (.movRm8R8 (.reg .al) .bl), [0x90]) := by decide

theorem witness_LockPrefixIsInvalid : (Instr.mulEaxRm32 (.reg .ebx)).wf = true ∧
    (Instr.mulEaxRm32 (.reg .ebx)).admitted .default = true ∧
    encode .default .s32 (.mulEaxRm32 (.reg .ebx)) = [0xF7, 0xE3] := by decide

theorem witness_UndocumentedSpecialEncodings : (0#2 : BitVec 2) ≠ 3#2 ∧ (0x26#8 : Byte) ∈ [0x20#8, 0x21#8, 0x22#8, 0x23#8, 0x24#8, 0x26#8] ∧
    (7#3 : BitVec 3) ∈ [1#3, 4#3, 5#3, 6#3, 7#3] ∧ (4#3 : BitVec 3) ∈ [4#3, 5#3] ∧ (5#3 : BitVec 3).toNat < 6 := by decide

/-- The other classes: reg 7; OperandSize 16 not admitted; F3 and F2 before a form that is no MOVS and before MOVS; a second
segment override after all other groups; a scale without an index; an opcode out of scope, of one and of two bytes. -/
theorem witness_UndocumentedSpecialEncodings_classes :
    let pre : List Byte := [0x66, 0x67, 0xF3, 0xF0, 0x2E]
    ((7 : BitVec 3) ≠ 0#3 ∧ (7 : BitVec 3) ≠ 4#3) ∧
    ((Rm.reg Reg.ebx).wf = true ∧ Params.default.admitMovxW16 = false) ∧
    ((Instr.movSregRm16 (.named .cs) (.reg .eax)).wf = true ∧
      (Instr.movSregRm16 (.named .cs) (.reg .eax)).admitted .default = true ∧
      isStringMove (.movSregRm16 (.named .cs) (.reg .eax)) = false) ∧
    (isStringMove (.movsb false .s32) = true ∧ repAddressSize (.movsb false .s32) = none ∧
      { Params.default with admitRep := false }.admitRep = false) ∧
    ((∀ x ∈ pre, (prefixGroup x).isSome = true) ∧ (pre.map prefixGroup).Nodup ∧ prefixGroup 0x65 ∈ pre.map prefixGroup) ∧
    ((0 : BitVec 2) ≠ 3#2 ∧ (3 : BitVec 2) ≠ 0#2) ∧
    (prefixGroup 0x8D = none ∧ (0x8D : Byte).toNat / 16 ≠ 0xB ∧ (0x28 : Byte).toNat / 8 ≠ 4) := by decide

/-- 30_encoding.md R86 and R87 in one step each: an invalid opcode, a refused one, 15 bytes and no end, and a byte that the
text does not hold. -/
theorem test_step_stops :
    let run := fun code => step (prot regs0 (cells 0x100 code))
    excOf (run [0xF0, 0x88, 0xD8]) = some (.ud, none) ∧
    refusalOf (run [0xF3, 0x8E, 0xC8]) = some (.undecodable .repBeforeNonString) ∧
    excOf (step (run16 regs0 [0xF0, 0xF3, 0x66, 0x67, 0x2E, 0xC7, 0x84, 0x24, 1, 2, 3, 4, 5, 6, 7, 8] [])) =
      some (.gp, none) := by decide

/-- The bytes are an invalid opcode, refused, 15 without an end, or followed by a byte outside the text, or unwritten. -/
theorem witness_StepStopsWhereNoInstructionIsFetched :
    let s := fun code => prot regs0 (cells 0x100 code)
    let long : List Byte := [0xF0, 0xF3, 0x66, 0x67, 0x2E, 0xC7, 0x84, 0x24, 1, 2, 3, 4, 5, 6, 7]
    let r := real regs0 (cells 0x10000 long)
    (∃ t u, boundary (s [0xF0, 0x88, 0xD8]) = .run t ∧ fetches 0 [0xF0, 0x88, 0xD8] t u ∧
      decodeBytes t.params (defaultSize t) [0xF0, 0x88, 0xD8] = some (.invalidOpcode, []) ∧
      u.params.excModel = .terminal) ∧
    (∃ t u, boundary (s [0xC6, 0xC8]) = .run t ∧ fetches 0 [0xC6, 0xC8] t u ∧
      decodeBytes t.params (defaultSize t) [0xC6, 0xC8] = some (.refuse .movImmRegField, [])) ∧
    (∃ t u, boundary r = .run t ∧ fetches 0 long t u ∧ decodeBytes t.params (defaultSize t) long = none ∧
      u.params.excModel = .terminal) ∧ long.length = 15 ∧
    (∃ t u, boundary (s [0x88]) = .run t ∧ fetches 0 [0x88] t u ∧
      decodeBytes t.params (defaultSize t) [0x88] = none ∧ fetchByte 1 u = .fault (.unwritten 0x101)) :=
  ⟨⟨_, _, rfl, ⟨_, rfl, _, rfl, _, rfl, rfl⟩, by decide, rfl⟩, ⟨_, _, rfl, ⟨_, rfl, _, rfl, rfl⟩, by decide⟩,
    ⟨_, _, rfl, ⟨_, rfl, _, rfl, _, rfl, _, rfl, _, rfl, _, rfl, _, rfl, _, rfl, _, rfl, _, rfl, _, rfl, _, rfl, _, rfl,
      _, rfl, _, rfl, rfl⟩, by decide, rfl⟩, rfl, ⟨_, _, rfl, ⟨_, rfl, rfl⟩, by decide, rfl⟩⟩

/-- The byte that cannot be fetched lies outside the text; past FFFFH; and past it with the model's own switch on. -/
theorem witness_StepStopsWhereNoInstructionIsFetched_fetch :
    let s := { prot regs0 (cells 0x10F [0x88]) with eip := 0x10F }
    let r := fun m => { real regs0 (cells 0x1FFFF [0x88]) with
      eip := 0xFFFF, params := { textAt 0x1FFFF with excModel := m } }
    (boundary s = .run s ∧ fetches 0 [0x88] s s ∧ fetchByte 1 s = .refused .outsideProgramText) ∧
    ∀ m, boundary (r m) = .run (r m) ∧ fetches 0 [0x88] (r m) (r m) ∧
      decodeBytes (r m).params (defaultSize (r m)) [0x88] = none ∧
      fetchByte 1 (r m) = .fault (.exception .gp none (r m)) ∧ mode (r m) = .realAddress :=
  ⟨⟨rfl, ⟨_, rfl, rfl⟩, rfl⟩, fun m => by
    cases m <;> exact ⟨rfl, ⟨_, rfl, rfl⟩, by decide, rfl, by decide⟩⟩

theorem witness_StepRunsTheDecodedInstruction :
    let s := prot regs0 (cells 0x100 [0x88, 0xD8])
    ∃ t u, boundary s = .run t ∧ decodeBytes t.params (defaultSize t) [0x88, 0xD8] =
        some (.instr (.movRm8R8 (.reg .al) .bl), []) ∧ [0x88#8, 0xD8#8].length ≤ maxInsnLen ∧
      fetches 0 [0x88, 0xD8] t u := ⟨_, _, rfl, by decide, by decide, _, rfl, _, rfl, rfl⟩

/-- What the instruction may do in each clause: go on under REP; raise an exception, with the switch off and on; stop at an
unwritten byte; be refused. -/
theorem witness_StepRunsTheDecodedInstruction_clauses :
    let s := prot { regs0 with ecx := 2, esi := 0x1000, edi := 0x3000 } (cells 0x1000 [1, 2])
    let r := { real regs0 [] with params := { textAt 0x10000 with excModel := .vectored } }
    (nextOf (exec (.movsb true .s32) s)).map (repUnfinished (.movsb true .s32)) = some true ∧
    (faultState (exec (.movSregRm16 (.named .cs) (.reg .eax)) s)).map (·.params.excModel) = some .terminal ∧
    (faultState (exec (.movSregRm16 (.named .cs) (.reg .eax)) r)).map (fun w => (w.params.excModel, mode w)) =
      some (.vectored, .realAddress) ∧
    exec (.movR8Rm8 .al (.mem (at32 (.direct 0x5000)))) s = .fault (.unwritten 0x5000) ∧
    refusalOf (exec (.movTrR32 .tr6 .eax) s) = some .testRegisterWrite :=
  ⟨by decide, by decide, by decide, rfl, by decide⟩

/-- Nothing pending; END_EIP reached, with and without a store into a live page table that waits; an NMI pending; TF set. -/
theorem witness_BoundaryStartsAnInstruction :
    let s := prot regs0 []
    let e := { s with params := { s.params with endEip := some 0x100 } }
    let n := { s with irq := { s.irq with nmiPending := true } }
    let d := { s with eflags := { s.eflags with tf := true } }
    (s.params.endEip ≠ some s.eip ∧ interruptAt s = none ∧ debugArmed s = false) ∧
    (e.params.endEip = some e.eip ∧ e.staleTables = false ∧ { e with staleTables := true }.staleTables = true) ∧
    (n.params.endEip ≠ some n.eip ∧ interruptAt n ≠ none ∧ n.params.intrModel = .refuseOnDelivery) ∧
    d.params.endEip ≠ some d.eip ∧ interruptAt d = none ∧ debugArmed d = true := by decide

/-- none_assumed; the inhibit; an NMI that arrives; INTR with IF 1 and IF 0; an NMI in service. -/
theorem witness_InterruptsAreTakenInOrder :
    let s := prot regs0 []
    let a := { s with irq := { s.irq with arrivals := [⟨true, some 0x20⟩] } }
    let i := { s with irq := { s.irq with intrPending := some 0x20 }, eflags := { s.eflags with ie := true } }
    let b := { s with irq := { s.irq with nmiPending := true, nmiBlocked := true } }
    ({ s with params := { s.params with intrModel := .noneAssumed } }).params.intrModel = .noneAssumed ∧
    a.params.intrModel ≠ .noneAssumed ∧ { a with inhibit := true }.inhibit = true ∧
    (a.inhibit = false ∧ (latchArrival a.irq).nmiPending = true ∧ (latchArrival a.irq).nmiBlocked = false) ∧
    ((latchArrival i.irq).nmiPending = false ∧ (latchArrival i.irq).intrPending = some 0x20 ∧ i.eflags.ie = true) ∧
    (latchArrival s.irq).intrPending = none ∧ (latchArrival b.irq).nmiBlocked = true := by decide

/-- A byte that can be fetched; the last offset of each kind of segment and the one after it. -/
theorem witness_FetchReadsCodeBytes :
    let s := prot regs0 (cells 0x100 [0x90])
    let p := { s with eip := 0xFFFFFFFF }
    let r := { real regs0 [] with eip := 0xFFFF }
    (paging s = false ∧ inProgramText s (fetchAddr s 0) = true ∧ inProgramText s (fetchAddr s 16) = false ∧
      fetchFault s (s.eip.toNat + 16) = none ∧ fetchFault s (s.eip.toNat + 0) = none ∧
      populated s (fetchAddr s 0).toNat = true ∧ s.mem.read? (fetchAddr s 0).toNat = some 0x90) ∧
    (mode p = .protectedMode ∧ p.segs.cs.ar.isCode = true ∧ fetchFault p (p.eip.toNat + 0) = none ∧
      fetchFault p (p.eip.toNat + 1) = some (.gp, some 0)) ∧
    mode r ≠ .protectedMode ∧ fetchFault r (r.eip.toNat + 0) = none ∧ fetchFault r (r.eip.toNat + 1) = some (.gp, none) := by
  decide

/-- With paging on: a byte of page 0, which is mapped; and a fetch at 400100H, which has no page table. -/
theorem witness_FetchReadsCodeBytes_paged :
    let s := paged regs0 [0x90] []
    let f := { s with eip := 0x400100, params := textAt 0x400100 }
    let level3 := decide (cpl s = 3)
    (fetchFault s (s.eip.toNat + 0) = none ∧ inProgramText s (fetchAddr s 0) = true ∧ paging s = true ∧
      mapped s (fetchAddr s 0) false level3 = true ∧ physAddr? s false level3 (fetchAddr s 0) = some 0x100 ∧
      populated s 0x100 = true ∧ s.mem.read? 0x100 = some 0x90) ∧
    fetchFault f (f.eip.toNat + 0) = none ∧ inProgramText f (fetchAddr f 0) = true ∧
      ∃ g, translate (fetchAddr f 0) false level3 f = .fault g := ⟨by decide, by decide, by decide, ⟨_, rfl⟩⟩

/-- A byte of the text that nothing has written, and one that is not populated. -/
theorem witness_FetchReadsCodeBytes_stops :
    let s := prot regs0 []
    let q := { prot regs0 [] with params := { textAt 0x100 with populated := [⟨0, 0x100⟩] } }
    let la := s.segs.cs.base + s.eip + BitVec.ofNat 32 0
    (fetchFault s (s.eip.toNat + 0) = none ∧ inProgramText s la = true ∧ mapped s la false (decide (cpl s = 3)) = true ∧
      physAddr? s false (decide (cpl s = 3)) la = some 0x100 ∧ byteStop? s 0x100 = some (.unwritten 0x100)) ∧
    fetchFault q (q.eip.toNat + 0) = none ∧ inProgramText q la = true ∧ mapped q la false (decide (cpl q = 3)) = true ∧
      physAddr? q false (decide (cpl q = 3)) la = some 0x100 ∧ byteStop? q 0x100 = some (.unpopulated 0x100) := by decide

/-- Vector 13 at 34H, its handler at 1234:5678, a stack of 3000:0006 that the three words fill. -/
theorem witness_VectoredExceptionEntersItsHandler :
    let s := real { regs0 with esp := 6 } (cells 0x34 [0x78, 0x56, 0x34, 0x12])
    let e : List Byte := [0x78, 0x56, 0x34, 0x12]
    let at' := s.sys.idtr.base + BitVec.ofNat 32 (4 * 13)
    let sp := readR16 s .esp
    mode s = .realAddress ∧ paging s = false ∧ e.length = 4 ∧
      (∀ k, k < 4 → populated s (at' + BitVec.ofNat 32 k).toNat = true) ∧
      (∀ k, k < 4 → physAddr? s false false (at' + BitVec.ofNat 32 k) = some (0x34 + k) ∧ s.mem.read? (0x34 + k) = e[k]?) ∧
      6 ≤ sp.toNat ∧ canStore s .ss ((sp - 2).setWidth 32) 2 = true ∧
      canStore s .ss ((sp - 4).setWidth 32) 2 = true ∧ canStore s .ss ((sp - 6).setWidth 32) 2 = true := by decide

theorem witness_StepKeepsModeAndParameters :
    (nextOf (step (prot regs0 (cells 0x100 [0x88, 0xD8])))).isSome = true ∧
      (prot regs0 (cells 0x100 [0x88, 0xD8])).params.admitModeSwitch = false := by decide

theorem witness_EveryStepKeepsTheInvariant :
    MachineInv (prot regs0 (cells 0x100 [0x88, 0xD8])) ∧
      (nextOf (step (prot regs0 (cells 0x100 [0x88, 0xD8])))).isSome = true :=
  ⟨⟨by decide, by decide, by decide⟩, by decide⟩

end Sys2Proof.Tests
end

/-! SUPPORT. The parts of the state: general registers (10_state.md R10 to R12), mode and level (R18), the advance of
EIP (R15). -/

namespace Sys2Proof.Machine

/-! ### Registers -/

theorem readR32_writeR32 (r q : Reg) (v : Word) (s : State) :
    readR32 (writeR32 r v s) q = if q = r then v else readR32 s q := by
  split
  · next h => rw [h, readR32_writeR32_same]
  · next h => exact readR32_writeR32_ne v s h

/-- An 8-bit write keeps bits 31:16 of every register (10_state.md R12). -/
theorem writeR8_high (r : Reg8) (v : Byte) (s : State) (q : Reg) :
    (readR32 (writeR8 r v s) q).extractLsb' 16 16 = (readR32 s q).extractLsb' 16 16 := by
  by_cases h : q = Reg8.host r
  · subst h
    rw [writeR8, readR32_writeR32_same]
    exact putByte_high _ _ _
  · rw [readR32_writeR8_ne v s h]

/-- The number of an 8-bit register: bits 1:0 name the doubleword register it is part of, bit 2 which of its low bytes
(10_state.md R12). -/
theorem Reg8.ofBits_parts (n : BitVec 3) :
    Reg8.host (Reg8.ofBits n) = Reg.ofBits (n &&& 3#3) ∧ Reg8.isHigh (Reg8.ofBits n) = decide (4 ≤ n.toNat) := by
  revert n; decide

/-- Settles O1, from the read-after-write lemmas of each width. -/
theorem registersAndTheirParts : Obligations.RegistersAndTheirParts := by
  refine ⟨by decide, by decide, Reg8.ofBits_parts, fun s r q v => ⟨readR32_writeR32 r q v s, rfl⟩, fun s r v => ?_,
    fun s r v => ?_⟩
  · exact ⟨rfl, readR16_writeR16_same r v s, writeR16_high r v s, fun q => readR32_writeR16_ne v s, rfl⟩
  · exact ⟨rfl, readR8_writeR8_same r v s, fun q => readR8_writeR8_ne v s, writeR8_high r v s,
      fun q => readR32_writeR8_ne v s, rfl⟩

/-! ### Mode and level -/

theorem mode_of_unprotected {s : State} (h : s.sys.cr0.getLsbD 0 = false) : mode s = .realAddress := by
  simp only [mode, protectionEnabled, h, Bool.false_eq_true, if_false]

theorem mode_of_protected {s : State} (h : s.sys.cr0.getLsbD 0 = true) (hv : s.eflags.vm = false) :
    mode s = .protectedMode := by
  simp [mode, protectionEnabled, getFlag, Eflags.get, h, hv]

theorem mode_of_vm {s : State} (h : s.sys.cr0.getLsbD 0 = true) (hv : s.eflags.vm = true) : mode s = .virtual8086 := by
  simp [mode, protectionEnabled, getFlag, Eflags.get, h, hv]

/-- In protected mode CPL is the selector of CS modulo 4 (10_state.md R18). -/
theorem cpl_of_protectedMode {s : State} (h : mode s = .protectedMode) : cpl s = s.segs.cs.sel.toNat % 4 := by
  simp [cpl, h, BitVec.extractLsb'_toNat]

/-- Settles O2: one lemma per mode, and what CPL is in it. -/
theorem modeAndLevelAreDerived : Obligations.ModeAndLevelAreDerived := by
  intro s
  refine ⟨fun h => ?_, fun h hv => ?_, fun h hv => ?_⟩
  · have hm := mode_of_unprotected h
    exact ⟨hm, by simp [cpl, hm]⟩
  · have hm := mode_of_protected h hv
    exact ⟨hm, cpl_of_protectedMode hm⟩
  · have hm := mode_of_vm h hv
    exact ⟨hm, by simp [cpl, hm]⟩

/-! ### The advance of EIP -/

/-- In a 16-bit code segment EIP is the sum modulo 2^16 (10_state.md R15). -/
theorem nextEip_s16 (eip : Word) (len : Nat) : (nextEip .s16 eip len).toNat = (eip.toNat + len) % 65536 := by
  simp only [nextEip, BitVec.toNat_setWidth, BitVec.extractLsb'_toNat, BitVec.toNat_add, BitVec.toNat_ofNat,
    Nat.shiftRight_zero]
  omega

/-- In a 32-bit code segment EIP is the sum modulo 2^32 (10_state.md R15). -/
theorem nextEip_s32 (eip : Word) (len : Nat) : (nextEip .s32 eip len).toNat = (eip.toNat + len) % 2 ^ 32 := by
  simp [nextEip]

/-- The default size is 16 outside protected mode and that of the D bit in it (30_encoding.md R72). -/
theorem defaultSize_eq (s : State) :
    defaultSize s = if mode s = .protectedMode ∧ s.segs.cs.ar.big = true then .s32 else .s16 := by
  unfold defaultSize
  cases mode s <;> simp

/-- Settles O54. -/
theorem instructionPointerWraps : Obligations.InstructionPointerWraps :=
  ⟨fun eip len => ⟨nextEip_s16 eip len, nextEip_s32 eip len⟩, defaultSize_eq⟩

/-- The EIP after an instruction, by the mode and the D bit of CS (10_state.md R15). -/
theorem nextEip_defaultSize (s : State) (eip : Word) (len : Nat) :
    (nextEip (defaultSize s) eip len).toNat = (eip.toNat + len) %
      (if mode s = .protectedMode ∧ s.segs.cs.ar.big = true then 2 ^ 32 else 65536) := by
  rw [defaultSize_eq]
  split
  · exact nextEip_s32 eip len
  · exact nextEip_s16 eip len

end Sys2Proof.Machine

/-! SUPPORT. What an instruction that completes can have changed, said once for all forms (10_state.md R15, R17, R25), and
that a stop of any form keeps the state (60_exceptions.md R212). -/

namespace Sys2Proof.Machine

/-! ### What data moves and special-register moves leave alone -/

/-- From `s` to `t` only the general registers, memory, the mark of a live-table store and the draw counter differ, and
memory stayed canonical. -/
structure DataOnly (s t : State) : Prop where
  same : t = { s with regs := t.regs, mem := t.mem, staleTables := t.staleTables, draws := t.draws }
  wf : s.mem.wf = true → t.mem.wf = true

/-- From `s` to `t` only the general registers, the special registers, the mark of a live-table store and the draw counter
differ. -/
def SpecialOnly (s t : State) : Prop :=
  t = { s with regs := t.regs, sys := t.sys, staleTables := t.staleTables, draws := t.draws }

theorem DataOnly.of_memoryOnly {s t : State} (h : MemoryOnly s t) : DataOnly s t := ⟨by rw [h.1], h.2⟩

theorem DataOnly.of_storeOnly {s t : State} (h : StoreOnly s t) : DataOnly s t := ⟨by rw [h.1], h.2⟩

theorem DataOnly.refl (s : State) : DataOnly s s := ⟨rfl, id⟩

theorem DataOnly.trans {s t u : State} (h : DataOnly s t) (k : DataOnly t u) : DataOnly s u :=
  ⟨by rw [k.same, h.same], fun w => k.wf (h.wf w)⟩

theorem DataOnly.writeR8 (r : Reg8) (v : Byte) (s : State) : DataOnly s (Machine.writeR8 r v s) := ⟨rfl, id⟩

theorem DataOnly.writeR16 (r : Reg) (v : Half) (s : State) : DataOnly s (Machine.writeR16 r v s) := ⟨rfl, id⟩

theorem DataOnly.writeR32 (r : Reg) (v : Word) (s : State) : DataOnly s (Machine.writeR32 r v s) := ⟨rfl, id⟩

theorem DataOnly.setStringReg (asz : Size) (r : Reg) (v : Word) (s : State) :
    DataOnly s (Machine.setStringReg asz r v s) := by
  cases asz
  · exact .writeR16 _ _ _
  · exact .writeR32 _ _ _

theorem DataOnly.stepIndexes (asz : Size) (w : Nat) (s : State) : DataOnly s (Machine.stepIndexes asz w s) :=
  (DataOnly.setStringReg _ _ _ _).trans (.setStringReg _ _ _ _)

/-! ### Operands -/

theorem readMem8_memoryOnly {r : SegReg} {off : Word} {s u : State} {v : Byte} (h : readMem8 r off s = .ok v u) :
    MemoryOnly s u := by
  simp only [readMem8, Res.andThen_ok] at h
  obtain ⟨bs, t, hb, h⟩ := h
  cases h
  exact .of_marked (readSeg_ok hb).2.2

theorem readMem16_memoryOnly {r : SegReg} {off : Word} {s u : State} {v : Half} (h : readMem16 r off s = .ok v u) :
    MemoryOnly s u := by
  simp only [readMem16, Res.andThen_ok] at h
  obtain ⟨bs, t, hb, h⟩ := h
  cases h
  exact .of_marked (readSeg_ok hb).2.2

theorem readMem32_memoryOnly {r : SegReg} {off : Word} {s u : State} {v : Word} (h : readMem32 r off s = .ok v u) :
    MemoryOnly s u := by
  simp only [readMem32, Res.andThen_ok] at h
  obtain ⟨bs, t, hb, h⟩ := h
  cases h
  exact .of_marked (readSeg_ok hb).2.2

/-- A store through a segment, of an operand's width, changes memory and the mark of a live-table store. -/
theorem writeSeg_dataOnly {r : SegReg} {off : Word} {bs : List Byte} {s t : State} (hn : bs.length ≤ 4096)
    (h : writeSeg r off bs s = .ok () t) : DataOnly s t := by
  obtain ⟨he, hs⟩ := writeSeg_ok hn h
  exact ⟨by rw [he.1], hs.wf⟩

theorem writeRm8_dataOnly {x : Rm Reg8} {v : Byte} {s t : State} (h : writeRm8 x v s = .ok () t) : DataOnly s t := by
  cases x with
  | reg r => cases h; exact .writeR8 _ _ _
  | mem m => exact writeSeg_dataOnly (by simp) h

theorem writeRm16_dataOnly {x : Rm Reg} {v : Half} {s t : State} (h : writeRm16 x v s = .ok () t) : DataOnly s t := by
  cases x with
  | reg r => cases h; exact .writeR16 _ _ _
  | mem m => exact writeSeg_dataOnly (by simp) h

theorem writeRm32_dataOnly {x : Rm Reg} {v : Word} {s t : State} (h : writeRm32 x v s = .ok () t) : DataOnly s t := by
  cases x with
  | reg r => cases h; exact .writeR32 _ _ _
  | mem m => exact writeSeg_dataOnly (by simp) h

theorem storeSelector_dataOnly {osz : Size} {x : Rm Reg} {sel : Half} {s t : State}
    (h : storeSelector osz x sel s = .ok () t) : DataOnly s t := by
  cases x with
  | mem m => exact writeSeg_dataOnly (by simp) h
  | reg r =>
    cases osz with
    | s16 => cases h; exact .writeR16 _ _ _
    | s32 => cases h; exact ⟨rfl, id⟩

theorem moveElement_dataOnly {w : Nat} {asz : Size} {src : SegReg} {s t : State} (hw : w ≤ 4096)
    (h : moveElement w asz src s = .ok () t) : DataOnly s t := by
  obtain ⟨_, u, v, _, _, _, rfl, hu, hv⟩ := moveElement_ok hw h
  exact ((DataOnly.of_memoryOnly hu).trans (.of_storeOnly hv)).trans (.stepIndexes _ _ _)

theorem moveString_dataOnly {w : Nat} {rep : Bool} {asz : Size} {src : SegReg} {s t : State} (hw : w ≤ 4096)
    (h : moveString w rep asz src s = .ok () t) : DataOnly s t := by
  rcases moveString_ok h with ⟨_, _, rfl⟩ | ⟨_, h⟩ | ⟨_, _, u, hu, rfl⟩
  · exact .refl _
  · exact moveElement_dataOnly hw h
  · exact (moveElement_dataOnly hw hu).trans (.setStringReg _ _ _ _)

/-- An instruction that reads an operand, which may mark table entries, and then changes data alone. -/
theorem readThen_dataOnly {α : Type} {r : Res α} {g : α → State → State} {s t : State}
    (h : (r.andThen fun v u => .ok () (g v u)).outcome = .next t) (hr : ∀ v u, r = .ok v u → MemoryOnly s u)
    (hg : ∀ v u, DataOnly u (g v u)) : DataOnly s t := by
  simp only [Res.outcome_next, Res.andThen_ok] at h
  obtain ⟨_, v, u, hu, h⟩ := h
  cases h
  exact (DataOnly.of_memoryOnly (hr v u hu)).trans (hg v u)

/-- An instruction that reads a factor, writes data alone, and then sets the flags of MUL (45_mul.md R200, R204). -/
theorem readThen_mulFlags {α : Type} {r : Res α} {b : α → State → Bool} {g : α → State → State} {s t : State}
    (h : (r.andThen fun v u => .ok () (mulFlags (b v u) (g v u))).outcome = .next t)
    (hr : ∀ v u, r = .ok v u → MemoryOnly s u) (hg : ∀ v u, DataOnly u (g v u)) :
    ∃ c u, DataOnly s u ∧ t = mulFlags c u := by
  simp only [Res.outcome_next, Res.andThen_ok] at h
  obtain ⟨_, v, u, hu, h⟩ := h
  cases h
  exact ⟨_, _, (DataOnly.of_memoryOnly (hr v u hu)).trans (hg v u), rfl⟩

/-! ### Special-register moves -/

theorem SpecialOnly.writeControl {dst : CtlReg} {v : Word} {s t : State} (h : Machine.writeControl dst v s = .ok () t) :
    SpecialOnly s t := by
  cases dst with
  | cr0 =>
    simp only [Machine.writeControl] at h
    split at h <;> cases h
    rfl
  | cr2 | cr3 => cases h; rfl

theorem SpecialOnly.writeDebug {r : DebugReg} {v : Word} {s t : State} (h : Machine.writeDebug r v s = .ok () t) :
    SpecialOnly s t := by
  cases r with
  | dr6 => cases h; rfl
  | dr7 =>
    simp only [Machine.writeDebug] at h
    split at h <;> cases h
    rfl

theorem SpecialOnly.writeTest {r : TestReg} {v : Word} {s t : State} (h : Machine.writeTest r v s = .ok () t) :
    SpecialOnly s t := by
  unfold Machine.writeTest at h
  split at h
  · cases r <;> cases h <;> rfl
  · cases h

theorem SpecialOnly.readControl (dst : Reg) (src : CtlReg) (s : State) : SpecialOnly s (Machine.readControl dst src s) := by
  cases src <;> rfl

theorem SpecialOnly.writeBreak (r : BreakReg) (v : Word) (s : State) : SpecialOnly s (Machine.writeBreak r v s) := by
  cases r <;> rfl

/-- A special-register move that completes changed what its move changed, and then six flags (41_mov_special.md R140). -/
theorem specialMove_specialOnly {w : Bool} {mv : State → Res Unit} {s t : State} (h : specialMove w mv s = .next t)
    (hm : ∀ u, mv s = .ok () u → SpecialOnly s u) : ∃ u, SpecialOnly s u ∧ t = undefineFlags u specialMoveFlags := by
  obtain ⟨_, _, u, hu, ht⟩ := specialMove_next h
  exact ⟨u, hm u hu, ht⟩

/-- A special-register move whose own part always completes (41_mov_special.md R140). -/
theorem specialMove_total {w : Bool} {g : State → State} {s t : State}
    (h : specialMove w (fun s => .ok () (g s)) s = .next t) (hg : SpecialOnly s (g s)) :
    ∃ u, SpecialOnly s u ∧ t = undefineFlags u specialMoveFlags :=
  specialMove_specialOnly h fun u hu => by cases hu; exact hg

/-! ### MOV Sreg -/

/-- A MOV into a segment register changes memory, that register, and for SS the inhibit (40_mov.md R108, R126). -/
theorem moveToSreg_frame {r : SegReg} {src : Rm Reg} {s t : State} (h : moveToSreg r src s = .ok () t) :
    ∃ g u, MemoryOnly s u ∧ t = inhibitAfter r (writeSreg r g u) := by
  obtain ⟨sel, u, v, hu, hv, rfl⟩ := moveToSreg_ok h
  obtain ⟨g, x, rfl, hx, _⟩ := loadSreg_ok hv
  exact ⟨g, x, (readRm16_ok hu).2.trans hx, rfl⟩

theorem inhibitAfter_ss (s : State) : (inhibitAfter .ss s).inhibit = true := rfl

theorem inhibitAfter_ne {r : SegReg} (h : r ≠ .ss) (s : State) : inhibitAfter r s = s := if_neg h

/-- The forms of MOV Sreg that have a meaning besides #UD (40_mov.md R108, R130). -/
theorem execMovSregRm16_next {dst : SregField} {src : Rm Reg} {s t : State} (h : execMovSregRm16 dst src s = .next t) :
    ∃ r, dst = .named r ∧ r ≠ .cs ∧ moveToSreg r src s = .ok () t := by
  unfold execMovSregRm16 at h
  split at h
  · cases h
  · cases h
  · cases h
  · next r hr =>
    obtain ⟨_, h⟩ := Res.outcome_next.mp h
    exact ⟨r, rfl, hr, h⟩

/-! ### Every instruction -/

/-- What an instruction that completes has done, by its family: data moves; MUL; special-register moves; MOV Sreg. -/
inductive Completion (i : Instr) (s t : State) : Prop where
  | data (hm : isMul i = false) (hp : isSpecialMove i = false) (hs : ∀ f src, i ≠ .movSregRm16 f src) (h : DataOnly s t)
  | mul (hm : isMul i = true) (hp : isSpecialMove i = false) (c : Bool) (u : State) (h : DataOnly s u)
      (ht : t = mulFlags c u)
  | special (hm : isMul i = false) (hp : isSpecialMove i = true) (u : State) (h : SpecialOnly s u)
      (ht : t = undefineFlags u specialMoveFlags)
  | sreg (r : SegReg) (src : Rm Reg) (hi : i = .movSregRm16 (.named r) src) (hr : r ≠ .cs)
      (h : moveToSreg r src s = .ok () t)

theorem Completion.of_data {i : Instr} {s t : State} (h : DataOnly s t) (hm : isMul i = false := by rfl)
    (hp : isSpecialMove i = false := by rfl) (hs : ∀ f src, i ≠ .movSregRm16 f src := by intro _ _ e; cases e) :
    Completion i s t :=
  .data hm hp hs h

theorem Completion.of_mul {i : Instr} {s t : State} (h : ∃ c u, DataOnly s u ∧ t = mulFlags c u)
    (hm : isMul i = true := by rfl) (hp : isSpecialMove i = false := by rfl) : Completion i s t :=
  let ⟨c, u, hu, ht⟩ := h
  .mul hm hp c u hu ht

theorem Completion.of_special {i : Instr} {s t : State}
    (h : ∃ u, SpecialOnly s u ∧ t = undefineFlags u specialMoveFlags) (hm : isMul i = false := by rfl)
    (hp : isSpecialMove i = true := by rfl) : Completion i s t :=
  let ⟨u, hu, ht⟩ := h
  .special hm hp u hu ht

/-- An instruction that completes has done what its family does. -/
theorem exec_next {i : Instr} {s t : State} (h : exec i s = .next t) : Completion i s t := by
  have next_ok {r : Res Unit} (h : r.outcome = .next t) : r = .ok () t := (Res.outcome_next.mp h).elim fun _ h => h
  cases i with
  | movRm8R8 | movRm8Imm8 => exact .of_data (writeRm8_dataOnly (next_ok h))
  | movRm16R16 | movRm16Imm16 => exact .of_data (writeRm16_dataOnly (next_ok h))
  | movRm32R32 | movRm32Imm32 => exact .of_data (writeRm32_dataOnly (next_ok h))
  | movR8Rm8 => exact .of_data (readThen_dataOnly h (fun _ _ h => (readRm8_ok h).2) fun _ _ => .writeR8 _ _ _)
  | movR16Rm16 => exact .of_data (readThen_dataOnly h (fun _ _ h => (readRm16_ok h).2) fun _ _ => .writeR16 _ _ _)
  | movR32Rm32 => exact .of_data (readThen_dataOnly h (fun _ _ h => (readRm32_ok h).2) fun _ _ => .writeR32 _ _ _)
  | movRm16Sreg osz dst src =>
    cases src with
    | named r => exact .of_data (storeSelector_dataOnly (next_ok h))
    | reserved6 | reserved7 => cases h
  | movSregRm16 dst src =>
    obtain ⟨r, rfl, hr, h⟩ := execMovSregRm16_next h
    exact .sreg r src rfl hr h
  | movAlMoffs8 => exact .of_data (readThen_dataOnly h (fun _ _ => readMem8_memoryOnly) fun _ _ => .writeR8 _ _ _)
  | movAxMoffs16 => exact .of_data (readThen_dataOnly h (fun _ _ => readMem16_memoryOnly) fun _ _ => .writeR16 _ _ _)
  | movEaxMoffs32 => exact .of_data (readThen_dataOnly h (fun _ _ => readMem32_memoryOnly) fun _ _ => .writeR32 _ _ _)
  | movMoffs8Al | movMoffs16Ax | movMoffs32Eax => exact .of_data (writeSeg_dataOnly (by simp) (next_ok h))
  | movReg8Imm8 => cases h; exact .of_data (.writeR8 _ _ _)
  | movReg16Imm16 => cases h; exact .of_data (.writeR16 _ _ _)
  | movReg32Imm32 => cases h; exact .of_data (.writeR32 _ _ _)
  | movR32Cr => exact .of_special (specialMove_total h (.readControl _ _ _))
  | movCrR32 => exact .of_special (specialMove_specialOnly h fun _ => .writeControl)
  | movR32Dr03 | movR32Dr67 | movR32Tr => exact .of_special (specialMove_total h rfl)
  | movDr03R32 => exact .of_special (specialMove_total h (.writeBreak _ _ _))
  | movDr67R32 => exact .of_special (specialMove_specialOnly h fun _ => .writeDebug)
  | movTrR32 => exact .of_special (specialMove_specialOnly h fun _ => .writeTest)
  | movsM8M8 | movsM16M16 | movsM32M32 | movsb | movsw | movsd =>
    exact .of_data (moveString_dataOnly (by decide) (next_ok h))
  | movsxR16Rm8 | movzxR16Rm8 =>
    exact .of_data (readThen_dataOnly h (fun _ _ h => (readRm8_ok h).2) fun _ _ => .writeR16 _ _ _)
  | movsxR32Rm8 | movzxR32Rm8 =>
    exact .of_data (readThen_dataOnly h (fun _ _ h => (readRm8_ok h).2) fun _ _ => .writeR32 _ _ _)
  | movsxR32Rm16 osz | movzxR32Rm16 osz =>
    refine .of_data (readThen_dataOnly h (fun _ _ h => (readRm16_ok h).2) fun _ _ => ?_)
    cases osz
    · exact .writeR16 _ _ _
    · exact .writeR32 _ _ _
  | mulAlRm8 => exact .of_mul (readThen_mulFlags h (fun _ _ h => (readRm8_ok h).2) fun _ _ => .writeR16 _ _ _)
  | mulAxRm16 =>
    exact .of_mul (readThen_mulFlags h (fun _ _ h => (readRm16_ok h).2) fun _ _ =>
      (DataOnly.writeR16 _ _ _).trans (.writeR16 _ _ _))
  | mulEaxRm32 =>
    exact .of_mul (readThen_mulFlags h (fun _ _ h => (readRm32_ok h).2) fun _ _ =>
      (DataOnly.writeR32 _ _ _).trans (.writeR32 _ _ _))

end Sys2Proof.Machine

/-! SUPPORT. The frame of every instruction (10_state.md R15, R17, R25, R131) and where the interrupt inhibit comes from
(R25, 60_exceptions.md R218). -/

namespace Sys2Proof.Machine

/-! ### The fields that a whole family keeps -/

theorem DataOnly.eip {s t : State} (h : DataOnly s t) : t.eip = s.eip := by rw [h.same]
theorem DataOnly.eflags {s t : State} (h : DataOnly s t) : t.eflags = s.eflags := by rw [h.same]
theorem DataOnly.segs {s t : State} (h : DataOnly s t) : t.segs = s.segs := by rw [h.same]
theorem DataOnly.irq {s t : State} (h : DataOnly s t) : t.irq = s.irq := by rw [h.same]
theorem DataOnly.inhibit {s t : State} (h : DataOnly s t) : t.inhibit = s.inhibit := by rw [h.same]
theorem DataOnly.params {s t : State} (h : DataOnly s t) : t.params = s.params := by rw [h.same]

theorem SpecialOnly.eip {s t : State} (h : SpecialOnly s t) : t.eip = s.eip := by rw [h]
theorem SpecialOnly.eflags {s t : State} (h : SpecialOnly s t) : t.eflags = s.eflags := by rw [h]
theorem SpecialOnly.segs {s t : State} (h : SpecialOnly s t) : t.segs = s.segs := by rw [h]
theorem SpecialOnly.irq {s t : State} (h : SpecialOnly s t) : t.irq = s.irq := by rw [h]
theorem SpecialOnly.inhibit {s t : State} (h : SpecialOnly s t) : t.inhibit = s.inhibit := by rw [h]
theorem SpecialOnly.params {s t : State} (h : SpecialOnly s t) : t.params = s.params := by rw [h]

theorem getFlag_of_eflags {s t : State} (h : t.eflags = s.eflags) (f : Flag) : getFlag t f = getFlag s f := by
  rw [getFlag, getFlag, h]

/-! ### The flags -/

theorem mulFlags_iopl (c : Bool) (s : State) : (mulFlags c s).eflags.iopl = s.eflags.iopl := by
  rw [mulFlags, undefineFlags_iopl]
  simp [setFlag]

/-- An instruction that is neither MUL nor a special-register move keeps EFLAGS (10_state.md R17). -/
theorem Completion.eflags {i : Instr} {s t : State} (h : Completion i s t) (hm : isMul i = false)
    (hp : isSpecialMove i = false) : t.eflags = s.eflags := by
  cases h with
  | data _ _ _ h => exact h.eflags
  | mul hm' => rw [hm] at hm'; cases hm'
  | special _ hp' => rw [hp] at hp'; cases hp'
  | sreg r src _ _ h =>
    obtain ⟨g, u, hu, rfl⟩ := moveToSreg_frame h
    rw [inhibitAfter_eflags, writeSreg_eflags, (DataOnly.of_memoryOnly hu).eflags]

/-- Every instruction keeps the flags that are no arithmetic ones, and IOPL (10_state.md R17). -/
theorem Completion.otherFlags {i : Instr} {s t : State} (h : Completion i s t) :
    (∀ f, f ∉ arithmeticFlags → getFlag t f = getFlag s f) ∧ t.eflags.iopl = s.eflags.iopl := by
  have of_eflags (he : t.eflags = s.eflags) :
      (∀ f, f ∉ arithmeticFlags → getFlag t f = getFlag s f) ∧ t.eflags.iopl = s.eflags.iopl :=
    ⟨fun f _ => getFlag_of_eflags he f, by rw [he]⟩
  cases h with
  | data hm hp hs h => exact of_eflags (Completion.eflags (.data hm hp hs h) hm hp)
  | mul _ _ c u hu ht =>
    subst ht
    have he := hu.eflags
    exact ⟨fun f hf => (mulFlags_other c u f hf).trans (getFlag_of_eflags he f), by rw [mulFlags_iopl, he]⟩
  | special _ _ u hu ht =>
    subst ht
    have he := hu.eflags
    exact ⟨fun f hf => (getFlag_undefineFlags u _ f hf).trans (getFlag_of_eflags he f), by rw [undefineFlags_iopl, he]⟩
  | sreg r src hi hr h => exact of_eflags (Completion.eflags (.sreg r src hi hr h) (by rw [hi]; rfl) (by rw [hi]; rfl))

/-- Settles O40, by the family of the instruction. -/
theorem onlyTwoFamiliesWriteFlags : Obligations.OnlyTwoFamiliesWriteFlags := fun _ _ _ h =>
  ⟨(exec_next h).eflags, (exec_next h).otherFlags⟩

/-! ### EIP, interrupts, parameters and segment registers -/

/-- No instruction by itself changes EIP, the interrupts or the parameters (10_state.md R15, R25). -/
theorem Completion.context {i : Instr} {s t : State} (h : Completion i s t) :
    t.eip = s.eip ∧ t.irq = s.irq ∧ t.params = s.params := by
  cases h with
  | data _ _ _ h => exact ⟨h.eip, h.irq, h.params⟩
  | mul _ _ c u hu ht => simp [ht, hu.eip, hu.irq, hu.params]
  | special _ _ u hu ht => simp [ht, hu.eip, hu.irq, hu.params]
  | sreg r src _ _ h =>
    obtain ⟨g, u, hm, rfl⟩ := moveToSreg_frame h
    have hu := DataOnly.of_memoryOnly hm
    simp [hu.eip, hu.irq, hu.params]

/-- Only MOV Sreg changes a segment register (40_mov.md R131). -/
theorem Completion.segs {i : Instr} {s t : State} (h : Completion i s t) (hs : ∀ f src, i ≠ .movSregRm16 f src) :
    t.segs = s.segs := by
  cases h with
  | data _ _ _ h => exact h.segs
  | mul _ _ c u hu ht => rw [ht, mulFlags_segs, hu.segs]
  | special _ _ u hu ht => rw [ht, undefineFlags_segs, hu.segs]
  | sreg r src hi => exact absurd hi (hs _ _)

/-- No instruction changes CS (40_mov.md R131). -/
theorem Completion.cs {i : Instr} {s t : State} (h : Completion i s t) : t.segs.cs = s.segs.cs := by
  cases h with
  | data hm hp hs h => rw [Completion.segs (.data hm hp hs h) hs]
  | mul _ _ c u hu ht => rw [ht, mulFlags_segs, hu.segs]
  | special _ _ u hu ht => rw [ht, undefineFlags_segs, hu.segs]
  | sreg r src _ hr h =>
    obtain ⟨g, u, hu, rfl⟩ := moveToSreg_frame h
    rw [inhibitAfter_segs]
    exact (readSreg_writeSreg_ne g u (Ne.symm hr)).trans (congrArg Segments.cs (DataOnly.of_memoryOnly hu).segs)

/-- Settles O42, by the family of the instruction. -/
theorem instructionsKeepTheRest : Obligations.InstructionsKeepTheRest := by
  intro i s t h
  have hc := exec_next h
  obtain ⟨heip, hirq, hparams⟩ := hc.context
  exact ⟨heip, hirq, hparams, hc.cs, hc.segs⟩

/-! ### Stops -/

/-- An instruction that reads an operand and then completes stops where the read does. -/
theorem readThen_faultKeeps {α : Type} {r : Res α} {g : α → State → State} {s : State} {f : Fault}
    (h : (r.andThen fun v u => .ok () (g v u)).outcome = .fault f) (hr : r = .fault f → faultKeeps s f) :
    faultKeeps s f :=
  andThen_keeps (Res.outcome_fault.mp h) hr fun _ _ _ h => by cases h

theorem readMem8_fault {r : SegReg} {off : Word} {s : State} {f : Fault} (h : readMem8 r off s = .fault f) :
    faultKeeps s f :=
  andThen_keeps h readSeg_fault fun _ _ _ h => by cases h

theorem readMem16_fault {r : SegReg} {off : Word} {s : State} {f : Fault} (h : readMem16 r off s = .fault f) :
    faultKeeps s f :=
  andThen_keeps h readSeg_fault fun _ _ _ h => by cases h

theorem readMem32_fault {r : SegReg} {off : Word} {s : State} {f : Fault} (h : readMem32 r off s = .fault f) :
    faultKeeps s f :=
  andThen_keeps h readSeg_fault fun _ _ _ h => by cases h

theorem storeSelector_fault {osz : Size} {x : Rm Reg} {sel : Half} {s : State} {f : Fault}
    (h : storeSelector osz x sel s = .fault f) : faultKeeps s f := by
  cases x with
  | mem m => exact writeSeg_fault h
  | reg r => cases osz <;> cases h

/-- A special-register move that stops is #GP(0), for want of privilege (41_mov_special.md R149). -/
theorem specialMove_faultKeeps {w : Bool} {mv : State → Res Unit} {s : State} {f : Fault}
    (h : specialMove w mv s = .fault f) (hm : ∀ f, mv s ≠ .fault f) : faultKeeps s f := by
  obtain ⟨_, rfl⟩ := specialMove_fault h hm
  exact raise_keeps (α := Unit) rfl

/-- A special-register move whose own part always completes stops for want of privilege only. -/
theorem specialMove_total_faultKeeps {w : Bool} {g : State → State} {s : State} {f : Fault}
    (h : specialMove w (fun s => .ok () (g s)) s = .fault f) : faultKeeps s f :=
  specialMove_faultKeeps h fun _ h => by cases h

theorem writeControl_no_fault (dst : CtlReg) (v : Word) (s : State) (f : Fault) : writeControl dst v s ≠ .fault f := by
  cases dst with
  | cr0 => simp only [writeControl]; split <;> nofun
  | cr2 | cr3 => nofun

theorem writeDebug_no_fault (r : DebugReg) (v : Word) (s : State) (f : Fault) : writeDebug r v s ≠ .fault f := by
  cases r with
  | dr6 => nofun
  | dr7 => simp only [writeDebug]; split <;> nofun

theorem writeTest_no_fault (r : TestReg) (v : Word) (s : State) (f : Fault) : writeTest r v s ≠ .fault f := by
  unfold writeTest
  split
  · cases r <;> nofun
  · nofun

/-- An instruction that stops has changed what 60_exceptions.md R212 lets a fault change, and no more. -/
theorem exec_fault {i : Instr} {s : State} {f : Fault} (h : exec i s = .fault f) : faultKeeps s f := by
  have stop {r : Res Unit} (h : r.outcome = .fault f) : r = .fault f := Res.outcome_fault.mp h
  cases i with
  | movRm8R8 | movRm8Imm8 => exact writeRm8_fault (stop h)
  | movRm16R16 | movRm16Imm16 => exact writeRm16_fault (stop h)
  | movRm32R32 | movRm32Imm32 => exact writeRm32_fault (stop h)
  | movR8Rm8 | movsxR16Rm8 | movsxR32Rm8 | movzxR16Rm8 | movzxR32Rm8 | mulAlRm8 =>
    exact readThen_faultKeeps h readRm8_fault
  | movR16Rm16 | movsxR32Rm16 | movzxR32Rm16 | mulAxRm16 => exact readThen_faultKeeps h readRm16_fault
  | movR32Rm32 | mulEaxRm32 => exact readThen_faultKeeps h readRm32_fault
  | movRm16Sreg osz dst src =>
    cases src with
    | named r => exact storeSelector_fault (stop h)
    | reserved6 | reserved7 => exact raise_keeps (stop h)
  | movSregRm16 dst src =>
    cases dst with
    | named r =>
      cases r with
      | cs => exact raise_keeps (stop h)
      | es | ss | ds | fs | gs => exact moveToSreg_fault (stop h)
    | reserved6 | reserved7 => exact raise_keeps (stop h)
  | movAlMoffs8 => exact readThen_faultKeeps h readMem8_fault
  | movAxMoffs16 => exact readThen_faultKeeps h readMem16_fault
  | movEaxMoffs32 => exact readThen_faultKeeps h readMem32_fault
  | movMoffs8Al | movMoffs16Ax | movMoffs32Eax => exact writeSeg_fault (stop h)
  | movReg8Imm8 | movReg16Imm16 | movReg32Imm32 => cases h
  | movR32Cr | movR32Dr03 | movR32Dr67 | movDr03R32 | movR32Tr => exact specialMove_total_faultKeeps h
  | movCrR32 => exact specialMove_faultKeeps h (writeControl_no_fault _ _ _)
  | movDr67R32 => exact specialMove_faultKeeps h (writeDebug_no_fault _ _ _)
  | movTrR32 => exact specialMove_faultKeeps h (writeTest_no_fault _ _ _)
  | movsM8M8 | movsM16M16 | movsM32M32 | movsb | movsw | movsd => exact moveString_fault (stop h)

/-! ### The interrupt inhibit -/

theorem loadsStackSegment_iff {i : Instr} : loadsStackSegment i = true ↔ ∃ src, i = .movSregRm16 (.named .ss) src := by
  constructor
  · intro h
    unfold loadsStackSegment at h
    split at h
    · exact ⟨_, rfl⟩
    · cases h
  · rintro ⟨src, rfl⟩
    rfl

theorem loadsStackSegment_eq_false {i : Instr} (h : ∀ src, i ≠ .movSregRm16 (.named .ss) src) :
    loadsStackSegment i = false := by
  rw [← Bool.not_eq_true, loadsStackSegment_iff]
  exact fun ⟨src, e⟩ => h src e

/-- An instruction's meaning sets the inhibit if it is a MOV into SS, and keeps it otherwise (10_state.md R25). -/
theorem Completion.inhibit {i : Instr} {s t : State} (h : Completion i s t) :
    t.inhibit = (loadsStackSegment i || s.inhibit) := by
  cases h with
  | data _ _ hs h => rw [loadsStackSegment_eq_false fun src => hs _ src, Bool.false_or, h.inhibit]
  | mul hm _ c u hu ht =>
    have hi : ∀ src, i ≠ .movSregRm16 (.named .ss) src := fun src e => by rw [e] at hm; cases hm
    rw [loadsStackSegment_eq_false hi, Bool.false_or, ht, mulFlags_inhibit, hu.inhibit]
  | special _ hp u hu ht =>
    have hi : ∀ src, i ≠ .movSregRm16 (.named .ss) src := fun src e => by rw [e] at hp; cases hp
    rw [loadsStackSegment_eq_false hi, Bool.false_or, ht, undefineFlags_inhibit, hu.inhibit]
  | sreg r src hi _ h =>
    obtain ⟨g, u, hu, rfl⟩ := moveToSreg_frame h
    by_cases hr : r = .ss
    · subst hi hr
      rfl
    · have hss : ∀ src, i ≠ .movSregRm16 (.named .ss) src := fun src e => hr (by rw [hi] at e; cases e; rfl)
      rw [inhibitAfter_ne hr, writeSreg_inhibit, loadsStackSegment_eq_false hss, Bool.false_or,
        (DataOnly.of_memoryOnly hu).inhibit]

/-- The inhibit at the end of an instruction's step (10_state.md R25; log 40 for a REP MOVS that is to go on). -/
theorem complete_inhibit {d : Size} {i : Instr} {len : Nat} {s t : State} (h : complete d i len (.next s) = .next t) :
    t.inhibit = ((repUnfinished i s || loadsStackSegment i) && s.inhibit) := by
  obtain ⟨w, hw, rfl⟩ := complete_next h
  cases hw
  split
  · next hr => rw [hr, Bool.true_or, Bool.true_and]
  · next hr => rw [Bool.eq_false_of_not_eq_true hr, Bool.false_or, completed_inhibit]

/-- Under the inhibit no interrupt is delivered (60_exceptions.md R218). -/
theorem interruptAt_of_inhibit {s : State} (h : s.inhibit = true) : interruptAt s = none := by
  have hb : (atBoundary s).inhibit = true := by rw [atBoundary_fields]; exact h
  unfold interruptAt
  split
  · rfl
  · simp only [pendingVector, hb, if_true]
  · simp only [pendingVector, hb, if_true]

/-- What is pending stays pending when an arrival is announced (60_exceptions.md R217, R218). -/
theorem latchArrival_keeps_pending (q : Interrupts) :
    (q.nmiPending = true → (latchArrival q).nmiPending = true) ∧
      (q.intrPending.isSome = true → (latchArrival q).intrPending.isSome = true) := by
  unfold latchArrival
  split
  · exact ⟨id, id⟩
  · refine ⟨fun h => by simp [h], fun h => ?_⟩
    dsimp only
    split
    · rfl
    · exact h

theorem atBoundary_keeps_pending (s : State) :
    (s.irq.nmiPending = true → (atBoundary s).irq.nmiPending = true) ∧
      (s.irq.intrPending.isSome = true → (atBoundary s).irq.intrPending.isSome = true) := by
  unfold atBoundary
  split
  · exact ⟨id, id⟩
  · exact latchArrival_keeps_pending s.irq
  · exact latchArrival_keeps_pending s.irq

/-- Settles O27: the inhibit after an instruction's meaning, after its step, and at the boundary. -/
theorem inhibitComesFromStackSegmentLoads : Obligations.InhibitComesFromStackSegmentLoads := by
  refine ⟨fun s t src h => (exec_next h).inhibit, fun i s t hi h => ?_, fun i s t x c h => ?_,
    fun d i len s t h => ⟨fun hr => ?_, fun hr hi => ?_, fun hi => ?_⟩, fun s t h => ?_,
    fun s h => ⟨interruptAt_of_inhibit h, atBoundary_keeps_pending s⟩⟩
  · rw [(exec_next h).inhibit, loadsStackSegment_eq_false hi, Bool.false_or]
  · obtain ⟨ht, _⟩ := exec_fault h
    rw [ht]
  · rw [complete_inhibit h, hr, Bool.true_or, Bool.true_and]
  · rw [complete_inhibit h, hr, loadsStackSegment_eq_false hi]
    rfl
  · rw [complete_inhibit h, loadsStackSegment_iff.mpr hi, Bool.or_true, Bool.true_and]
  · rw [(boundary_run h).1, atBoundary_fields]

end Sys2Proof.Machine

/-! SUPPORT. The step from its parts (10_state.md R15): the boundary, the decoded instruction, and the fetch of its bytes
(20_memory.md R58). -/

namespace Sys2Proof.Machine

/-! ### The boundary -/

theorem boundary_of_end {s : State} (h : s.params.endEip = some s.eip) :
    boundary s = .stop (if s.staleTables then .refused .livePageTable else .fault (.endOfRun s)) := if_pos h

theorem boundary_of_interrupt {s t : State} {vec : Nat} (he : s.params.endEip ≠ some s.eip)
    (hi : interruptAt s = some (vec, t)) : boundary s = .stop (deliverInterrupt s.params.intrModel vec t) := by
  simp only [boundary, if_neg he, hi]

theorem boundary_of_none {s : State} (he : s.params.endEip ≠ some s.eip) (hi : interruptAt s = none) :
    boundary s = if debugArmed s then .stop (.refused .debugArmed) else .run (atBoundary s) := by
  simp only [boundary, if_neg he, hi]

theorem step_of_stop {s : State} {o : Outcome} (h : boundary s = .stop o) : step s = o := by
  simp only [step, h]

theorem step_of_run {s t : State} (h : boundary s = .run t) : step s = settle (runInstr t) := by
  simp only [step, h]

/-- Settles O51, by the checks of the boundary in their order. -/
theorem boundaryStartsAnInstruction : Obligations.BoundaryStartsAnInstruction := by
  refine fun s => ⟨fun he hi hd => ?_, fun he hs => ?_, fun he hs => ?_, fun he hi hm => ?_, fun he hi hd => ?_⟩
  · rw [boundary_of_none he hi, hd, if_neg Bool.false_ne_true]
  · rw [step_of_stop (boundary_of_end he), hs, if_neg Bool.false_ne_true]
  · rw [step_of_stop (boundary_of_end he), hs, if_pos rfl]
  · obtain ⟨⟨vec, t⟩, hv⟩ := Option.ne_none_iff_exists'.mp hi
    rw [step_of_stop (boundary_of_interrupt he hv), hm]
    rfl
  · exact step_of_stop (by rw [boundary_of_none he hi, hd, if_pos rfl])

/-! ### Taking an exception -/

/-- An exception ends the run unless it is vectored in real-address mode (60_exceptions.md R215; log 8). -/
theorem takeException_terminal {x : Exc} {c : Option Half} {w : State}
    (h : w.params.excModel = .terminal ∨ mode w ≠ .realAddress) : takeException x c w = .fault (.exception x c w) := by
  unfold takeException
  split
  · next hv hm =>
    rw [hv] at h
    exact absurd hm (h.resolve_left nofun)
  · rfl

theorem takeException_vectored {x : Exc} {c : Option Half} {w : State} (hv : w.params.excModel = .vectored)
    (hm : mode w = .realAddress) : takeException x c w = deliver (Exc.vector x) w := by
  simp only [takeException, hv, hm]

/-- A stop that is no exception of the chip is the step's as it is. -/
theorem settle_other_fault {f : Fault} (h : ∀ x c w, f ≠ .exception x c w) : settle (.fault f) = .fault f := by
  unfold settle
  split
  · next he => cases he; exact absurd rfl (h _ _ _)
  · rfl

/-! ### The decoded instruction -/

/-- Bytes that are fetched and decode to an instruction are that instruction, with its length (10_state.md R15 step 2). -/
theorem fetchInstr_complete {t u : State} {i : Instr} {bs : List Byte} (hf : fetches 0 bs t u)
    (hd : decodeBytes t.params (defaultSize t) bs = some (.instr i, [])) (hl : bs.length ≤ maxInsnLen) :
    fetchInstr t = .ok (i, bs.length) u := by
  have hp := fetchParse_complete hf hd (by omega)
  rw [Nat.zero_add] at hp
  simp only [fetchInstr, hp, Res.andThen, decodedResult]

/-- The run of a fetched instruction is its completion (10_state.md R15 steps 3 and 4). -/
theorem runInstr_of_fetchInstr {t u : State} {i : Instr} {n : Nat} (h : fetchInstr t = .ok (i, n) u) :
    runInstr t = complete (defaultSize t) i n (exec i u) := by
  simp only [runInstr, h, Res.andThen]
  cases complete (defaultSize t) i n (exec i u) <;> rfl

/-- Settles O50: the step of a fetched instruction is its completion, with an exception settled. -/
theorem stepRunsTheDecodedInstruction : Obligations.StepRunsTheDecodedInstruction := by
  intro s t u i bs hb hd hl hf
  have hstep : step s = settle (complete (defaultSize t) i bs.length (exec i u)) := by
    rw [step_of_run hb, runInstr_of_fetchInstr (fetchInstr_complete hf hd hl)]
  refine ⟨fun v hv hr => ?_, fun v hv hr => ?_, fun x c w hx ht => ?_, fun x c w hx hv hm => ?_, fun f hx hn => ?_,
    fun r hx => ?_⟩
  · refine ⟨nextEip (defaultSize t) v.eip bs.length, loadsStackSegment i && v.inhibit, ?_,
      nextEip_defaultSize t v.eip bs.length, ?_⟩
    · rw [hstep, hv]
      simp only [complete, hr, Bool.false_eq_true, if_false, settle, completed]
    · rw [Bool.and_eq_true, loadsStackSegment_iff, and_comm]
  · rw [hstep, hv]
    simp only [complete, hr, if_true, settle]
  · rw [hstep, hx]
    exact takeException_terminal ht
  · rw [hstep, hx]
    exact takeException_vectored hv hm
  · rw [hstep, hx]
    exact settle_other_fault hn
  · rw [hstep, hx]
    rfl

/-! ### The fetch of a byte -/

/-- Within the limit and PROGRAM_TEXT the fetch is a read at the current privilege level (20_memory.md R58). -/
theorem fetchByte_eq {i : Nat} {s : State} (hf : fetchFault s (s.eip.toNat + i) = none)
    (ht : inProgramText s (fetchAddr s i) = true) :
    fetchByte i s = (translate (fetchAddr s i) false (decide (cpl s = 3)) s).andThen fun x s => readPhysByte x.pa s := by
  have hu : userAccess s false = decide (cpl s = 3) := by simp [userAccess]
  simp only [fetchByte, hf, ht, hu, Bool.not_true, Bool.false_eq_true, if_false]

theorem fetchByte_outside {i : Nat} {s : State} (hf : fetchFault s (s.eip.toNat + i) = none)
    (ht : inProgramText s (fetchAddr s i) = false) : fetchByte i s = .refused .outsideProgramText := by
  simp only [fetchByte, hf, ht, Bool.not_false, if_true]

theorem fetchByte_illegal {i : Nat} {s : State} {x : Exc} {c : Option Half}
    (hf : fetchFault s (s.eip.toNat + i) = some (x, c)) :
    fetchByte i s = .fault (.exception x c { s with inhibit := false }) := by
  simp only [fetchByte, hf]
  rfl

/-- A fetch whose byte translates reads it from the memory that the translation leaves (20_memory.md R58). -/
theorem fetchByte_of_mapped {i pa : Nat} {s : State} (hf : fetchFault s (s.eip.toNat + i) = none)
    (ht : inProgramText s (fetchAddr s i) = true) (hm : mapped s (fetchAddr s i) false (decide (cpl s = 3)) = true)
    (hpa : physAddr? s false (decide (cpl s = 3)) (fetchAddr s i) = some pa) :
    ∃ t, fetchByte i s = readPhysByte pa t ∧ Marked accessedBit (entryMarks s (fetchAddr s i)) s t := by
  obtain ⟨x, t, hx⟩ := translate_complete hm
  obtain ⟨hmk, _, hp, _⟩ := translate_ok hx
  rw [hpa] at hp
  cases hp
  refine ⟨t, by simp only [fetchByte_eq hf ht, hx, Res.andThen], ?_⟩
  simpa [tableMarks] using hmk

/-- In a code segment the fetch checks the limit alone, readable or not (10_state.md R14, R15). -/
theorem fetchFault_protected {s : State} (hm : mode s = .protectedMode) (hc : s.segs.cs.ar.isCode = true) (off : Nat) :
    fetchFault s off = none ↔ off ≤ s.segs.cs.limit.toNat := by
  simp [fetchFault, hm, limitOk, hc]

theorem fetchFault_unprotected {s : State} (hm : mode s ≠ .protectedMode) (off : Nat) :
    fetchFault s off = none ↔ off ≤ 0xFFFF := by
  cases h : mode s with
  | protectedMode => exact absurd h hm
  | realAddress | virtual8086 => simp [fetchFault, h]

/-- The exception of a fetch past the limit, by the mode (20_memory.md R58, 60_exceptions.md R210). -/
theorem fetchFault_name {s : State} {off : Nat} {x : Exc} {c : Option Half} (h : fetchFault s off = some (x, c)) :
    x = .gp ∧ c = if mode s = .realAddress then none else some 0 := by
  unfold fetchFault at h
  split at h
  · next hm =>
    split at h <;> cases h
    exact ⟨rfl, by rw [hm]; rfl⟩
  · next hm =>
    split at h <;> cases h
    exact ⟨rfl, by simp only [int13Code, hm, if_true]⟩
  · next hm =>
    split at h <;> cases h
    exact ⟨rfl, by rw [int13Code, hm]; rfl⟩

/-- Settles O53: the fetch is its limit check, the check of PROGRAM_TEXT, the translation, and one physical byte. -/
theorem fetchReadsCodeBytes : Obligations.FetchReadsCodeBytes := by
  intro s i la level3
  refine ⟨fun hp b hf ht hpop hr => ?_, fun pa b hf ht hm hpa hpop hr => ?_, fun f hf ht hx => ?_,
    fun pa f hf ht hm hpa hs => ?_, fun hf ht => fetchByte_outside hf ht, fun hm hc => fetchFault_protected hm hc _,
    fun hm => fetchFault_unprotected hm _, fun x c h => ⟨fetchByte_illegal h, fetchFault_name h⟩⟩
  · have htr : translate la false level3 s = .ok ⟨la.toNat, none⟩ s := by
      simp only [translate, hp, Bool.false_eq_true, if_false]
    exact (fetchByte_eq hf ht).trans (Res.andThen_ok.mpr ⟨_, _, htr, readPhysByte_ok.mpr ⟨rfl, hpop, hr⟩⟩)
  · obtain ⟨t, he, hmk⟩ := fetchByte_of_mapped hf ht hm hpa
    have hstop : byteStop? t pa = none := by
      rw [byteStop?_marked hmk]
      exact byteStop?_none.mpr ⟨hpop, b, hr⟩
    obtain ⟨hpt, c, hc⟩ := byteStop?_none.mp hstop
    exact ⟨c, t, he.trans (readPhysByte_ok.mpr ⟨rfl, hpt, hc⟩), hc, hmk.same, hmk.bytes⟩
  · rw [fetchByte_eq hf ht]
    exact Res.andThen_fault.mpr (.inl hx)
  · obtain ⟨t, he, hmk⟩ := fetchByte_of_mapped hf ht hm hpa
    rw [he]
    exact readPhysByte_stop (by rw [byteStop?_marked hmk]; exact hs)

end Sys2Proof.Machine

/-! SUPPORT. A memory operand that fails its segment check, or that reaches a byte which is not populated or was never
written (20_memory.md R46 to R49, 10_state.md R29). -/

namespace Sys2Proof.Machine

/-! ### The segment check -/

theorem readSeg_illegal {r : SegReg} {off : Word} {n : Nat} {s : State} {x : Exc} {c : Option Half}
    (h : segmentFault s .read r off.toNat n = some (x, c)) :
    readSeg r off n s = .fault (.exception x c { s with inhibit := false }) := by
  simp only [readSeg, h]
  rfl

theorem writeSeg_illegal {r : SegReg} {off : Word} {bs : List Byte} {s : State} {x : Exc} {c : Option Half}
    (h : segmentFault s .write r off.toNat bs.length = some (x, c)) :
    writeSeg r off bs s = .fault (.exception x c { s with inhibit := false }) := by
  simp only [writeSeg, h]
  rfl

/-- An instruction whose memory operand fails the read check ends in that exception, with nothing changed but the inhibit
(20_memory.md R46). -/
theorem exec_load_illegal {i : Instr} {s : State} {r : SegReg} {off : Word} {n : Nat} {x : Exc} {c : Option Half}
    (hl : loadOperand? i s = some (r, off, n)) (h : segmentFault s .read r off.toNat n = some (x, c)) :
    exec i s = .fault (.exception x c { s with inhibit := false }) :=
  exec_load_stop hl (readSeg_illegal h)

/-- An instruction whose destination fails the write check ends in that exception, with nothing changed but the inhibit
since the state it stores from (20_memory.md R47). -/
theorem exec_store_illegal {i : Instr} {s u : State} {r : SegReg} {off : Word} {n : Nat} {x : Exc} {c : Option Half}
    (hs : storeOperand? i s = some (r, off, n)) (hu : storesFrom i s u)
    (h : segmentFault u .write r off.toNat n = some (x, c)) :
    exec i s = .fault (.exception x c { u with inhibit := false }) := by
  obtain ⟨bs, rfl, hst⟩ := exec_stores hs hu
  exact hst.stop _ (writeSeg_illegal h)

/-- Both checks of a string move: the source's, and, from the state that the read of the source leaves, the destination's
(42_movs.md R160, R170). -/
theorem exec_string_illegal {i : Instr} {s : State} {g : SegReg} {src dst : Word} {n : Nat} {x : Exc} {c : Option Half}
    (hl : loadOperand? i s = some (g, src, n)) (hs : storeOperand? i s = some (.es, dst, n)) :
    (segmentFault s .read g src.toNat n = some (x, c) → exec i s = .fault (.exception x c { s with inhibit := false })) ∧
      ∀ (bs : List Byte) (u : State), readSeg g src n s = .ok bs u →
        segmentFault s .write .es dst.toNat n = some (x, c) →
          exec i s = .fault (.exception x c { u with inhibit := false }) := by
  refine ⟨exec_load_illegal hl, fun bs u hb hf => exec_store_illegal hs ?_ ?_⟩
  · simp only [storesFrom, hl]
    exact ⟨bs, hb⟩
  · rw [(readSeg_ok hb).2.2.same.segmentFault]
    exact hf

/-! ### Bytes that stop an access -/

/-- An instruction whose memory operand may be read, and translates, stops at its lowest byte that is not populated or was
never written (20_memory.md R49, 10_state.md R29; log 6). -/
theorem exec_load_byteStop {i : Instr} {s : State} {r : SegReg} {off : Word} {n k pa : Nat} {f : Fault} (hk : k < n)
    (hl : loadOperand? i s = some (r, off, n)) (hf : segmentFault s .read r off.toNat n = none)
    (hm : ∀ j, j < n → mapped s (linearAddr s r off + BitVec.ofNat 32 j) false (userAccess s false) = true)
    (hj : ∀ j, j < k → byteLoads s (linearAddr s r off + BitVec.ofNat 32 j) (userAccess s false) = true)
    (hpa : physAddr? s false (userAccess s false) (linearAddr s r off + BitVec.ofNat 32 k) = some pa)
    (hs : byteStop? s pa = some f) : exec i s = .fault f :=
  exec_load_stop hl ((readSeg_legal hf).trans (readLinear_stop hk hm hj hpa hs))

/-- An instruction whose destination may be written, translates, and reaches no program text is stuck at its lowest byte
that is not populated (20_memory.md R49; log 18). -/
theorem exec_store_unpopulated {i : Instr} {s u : State} {r : SegReg} {off : Word} {n k pa : Nat} (hk : k < n)
    (hs : storeOperand? i s = some (r, off, n)) (hu : storesFrom i s u)
    (hf : segmentFault u .write r off.toNat n = none)
    (hm : ∀ j, j < n → mapped u (linearAddr u r off + BitVec.ofNat 32 j) true (userAccess u false) = true ∧
      inProgramText u (linearAddr u r off + BitVec.ofNat 32 j) = false)
    (hj : ∀ j, j < k → byteStores u (linearAddr u r off + BitVec.ofNat 32 j) (userAccess u false) = true)
    (hpa : physAddr? u true (userAccess u false) (linearAddr u r off + BitVec.ofNat 32 k) = some pa)
    (hp : populated u pa = false) : exec i s = .fault (.unpopulated pa) := by
  obtain ⟨bs, rfl, hst⟩ := exec_stores hs hu
  exact hst.stop _ ((writeSeg_legal hf).trans (writeLinear_stop hk hm hj hpa hp))

/-- Settles O9: each form names its operand (`loadOperand?`, `storeOperand?`), and the stop of that operand is the form's. -/
theorem illegalOperandReferencesNoMemory : Obligations.IllegalOperandReferencesNoMemory := by
  refine ⟨fun s x code => ⟨fun m => ?_, fun g o => ?_, fun a r rep hc => ?_⟩, fun i s u r off n k pa hk => ?_⟩
  · refine ⟨fun h => ?_, fun h => ?_, fun h => ?_, fun h => ?_, fun h => ?_, fun h => ?_⟩
    · exact ⟨fun _ => exec_load_illegal rfl h, exec_load_illegal rfl h, fun _ => ⟨exec_load_illegal rfl h,
        exec_load_illegal rfl h, exec_load_illegal rfl h, exec_load_illegal rfl h⟩⟩
    · exact ⟨fun _ => exec_load_illegal rfl h, exec_load_illegal rfl h,
        fun _ _ => ⟨exec_load_illegal rfl h, exec_load_illegal rfl h⟩, fun _ hr => exec_load_illegal (if_neg hr) h⟩
    · exact ⟨fun _ => exec_load_illegal rfl h, exec_load_illegal rfl h⟩
    · exact ⟨fun _ => exec_store_illegal rfl rfl h, fun _ => exec_store_illegal rfl rfl h⟩
    · exact ⟨fun _ => exec_store_illegal rfl rfl h, fun _ => exec_store_illegal rfl rfl h,
        fun _ _ => exec_store_illegal rfl rfl h⟩
    · exact ⟨fun _ => exec_store_illegal rfl rfl h, fun _ => exec_store_illegal rfl rfl h⟩
  · exact ⟨exec_load_illegal rfl, exec_load_illegal rfl, exec_load_illegal rfl, exec_store_illegal rfl rfl,
      exec_store_illegal rfl rfl, exec_store_illegal rfl rfl⟩
  · have hn : ¬(rep = true ∧ stringReg s a .ecx = 0#32) := by
      rintro ⟨rfl, hz⟩
      exact hc.elim nofun (absurd hz)
    have hl (g : SegReg) (w : Nat) : stringSource? w rep a g s = some (g, stringReg s a .esi, w) := if_neg hn
    have hs (w : Nat) : stringOperand? w rep a s = some (.es, stringReg s a .edi, w) := if_neg hn
    exact ⟨exec_string_illegal (hl r 1) (hs 1), exec_string_illegal (hl r 2) (hs 2), exec_string_illegal (hl r 4) (hs 4),
      exec_string_illegal (hl .ds 1) (hs 1), exec_string_illegal (hl .ds 2) (hs 2), exec_string_illegal (hl .ds 4) (hs 4)⟩
  · exact ⟨fun _ => exec_load_byteStop hk, exec_store_unpopulated hk⟩

end Sys2Proof.Machine

/-! SUPPORT. The operand address and its segment check (20_memory.md R42 to R48), physical memory (R41, R55), and what a
segment register takes from a descriptor (R60). -/

namespace Sys2Proof.Machine

/-! ### The segment check -/

/-- Settles O3. -/
theorem linearAddressIsBasePlusOffset : Obligations.LinearAddressIsBasePlusOffset :=
  fun s r off => BitVec.toNat_add (readSreg s r).base off

/-- Outside protected mode the check is the bound of 64K alone, and its failure is Interrupt 13 (20_memory.md R45). -/
theorem segmentFault_unprotected {s : State} (hm : mode s ≠ .protectedMode) (acc : Access) (r : SegReg) (off n : Nat) :
    segmentFault s acc r off n = if off + n - 1 ≤ 0xFFFF then none else some (.gp, int13Code s) := by
  unfold segmentFault
  split
  · next h => exact absurd h hm
  · rfl
  · rfl

/-- Settles O6. -/
theorem sixtyFourKilobyteBound : Obligations.SixtyFourKilobyteBound := by
  intro s acc r off n hm _
  rw [segmentFault_unprotected hm]
  simp

/-- In protected mode the check is three checks in the model's order: validity, type, limit (20_memory.md R44, R48;
log 24). -/
theorem segmentFault_protected {s : State} (hm : mode s = .protectedMode) (acc : Access) (r : SegReg) (off n : Nat) :
    segmentFault s acc r off n =
      if (readSreg s r).valid = false then some (illegalAddress r, some (0 : Half))
      else if typeOk (readSreg s r) acc = false then some (if acc = .write then .gp else illegalAddress r, some 0)
      else if limitOk (readSreg s r) off n = false then some (illegalAddress r, some 0)
      else none := by
  unfold segmentFault
  simp only [hm, Bool.not_eq_true']
  cases acc <;> rfl

/-- An access passes where it passes all three checks (20_memory.md R44). -/
theorem segmentFault_none_iff {s : State} (hm : mode s = .protectedMode) (acc : Access) (r : SegReg) (off n : Nat) :
    segmentFault s acc r off n = none ↔
      (readSreg s r).valid = true ∧ limitOk (readSreg s r) off n = true ∧ typeOk (readSreg s r) acc = true := by
  rw [segmentFault_protected hm]
  cases (readSreg s r).valid <;> cases typeOk (readSreg s r) acc <;> cases limitOk (readSreg s r) off n <;> simp

/-- The limit condition in numbers (20_memory.md R44 condition 2). -/
theorem limitOk_iff (g : Segment) (off n : Nat) :
    limitOk g off n = true ↔ if g.ar.expandDown = true ∧ g.ar.isCode = false then
      g.limit.toNat < off ∧ off + n - 1 ≤ (if g.ar.big then 0xFFFFFFFF else 0xFFFF)
    else off + n - 1 ≤ g.limit.toNat := by
  have hc : (g.ar.expandDown && !g.ar.isCode) = true ↔ g.ar.expandDown = true ∧ g.ar.isCode = false := by simp
  unfold limitOk
  by_cases h : g.ar.expandDown = true ∧ g.ar.isCode = false
  · rw [if_pos (hc.mpr h), if_pos h, Bool.and_eq_true, decide_eq_true_eq, decide_eq_true_eq]
  · rw [if_neg (mt hc.mp h), if_neg h, decide_eq_true_eq]

/-- The type condition by the kind of access (20_memory.md R44 conditions 3 and 4). -/
theorem typeOk_iff (g : Segment) (acc : Access) :
    typeOk g acc = true ↔ (acc = .read → g.ar.isCode = false ∨ g.ar.readable = true) ∧
      (acc = .write → g.ar.isCode = false ∧ g.ar.writable = true) := by
  cases acc <;> simp [typeOk]

/-- Settles O7. -/
theorem protectedModeLegalAccess : Obligations.ProtectedModeLegalAccess := by
  intro s acc r off n hm _
  rw [segmentFault_none_iff hm, limitOk_iff, typeOk_iff]

/-- The exception of a failed check in protected mode: #GP for a destination that is not writable, otherwise by the
segment (20_memory.md R48; log 24). -/
theorem segmentFault_protected_name {s : State} (hm : mode s = .protectedMode) {acc : Access} {r : SegReg} {off n : Nat}
    {x : Exc} {code : Option Half} (h : segmentFault s acc r off n = some (x, code)) :
    code = some 0 ∧ x = if (readSreg s r).valid = false ∨ acc = .read ∨ typeOk (readSreg s r) .write = true
      then illegalAddress r else .gp := by
  rw [segmentFault_protected hm] at h
  split at h
  · next hv =>
    cases h
    exact ⟨rfl, (if_pos (.inl hv)).symm⟩
  · next hv =>
    split at h
    · next ht =>
      cases h
      cases acc with
      | read => exact ⟨rfl, by simp⟩
      | write => exact ⟨rfl, by simp_all⟩
    · next ht =>
      split at h <;> cases h
      refine ⟨rfl, (if_pos (.inr ?_)).symm⟩
      cases acc with
      | read => exact .inl rfl
      | write => exact .inr (by simpa using ht)

theorem illegalAddress_eq (r : SegReg) : illegalAddress r = if r = .ss then .ss else .gp := by
  cases r <;> rfl

/-- Settles O8. -/
theorem segmentFaultNames : Obligations.SegmentFaultNames := by
  refine fun s acc r off n x code h => ⟨fun hm => ?_, fun hm => ?_, fun hm => ?_⟩
  · obtain ⟨hc, hx⟩ := segmentFault_protected_name hm h
    rw [hx, illegalAddress_eq, ite_and]
    refine ⟨hc, ?_⟩
    split_ifs <;> rfl
  · rw [segmentFault_unprotected (by rw [hm]; nofun)] at h
    split at h <;> cases h
    exact ⟨rfl, by rw [int13Code, hm]⟩
  · rw [segmentFault_unprotected (by rw [hm]; nofun)] at h
    split at h <;> cases h
    exact ⟨rfl, by rw [int13Code, hm]⟩

/-! ### Physical memory -/

/-- Settles O13. -/
theorem memoryReadsWhatWasWritten : Obligations.MemoryReadsWhatWasWritten :=
  ⟨Memory.read?_write, fun _ _ v hm ha => Memory.wf_write hm v ha, fun _ _ => Memory.eq_of_read?⟩

/-! ### Descriptors -/

/-- The base as a number: bytes 7, 4, 3, 2 (20_memory.md R60). -/
theorem descriptorBase_toNat (d : BitVec 64) :
    (descriptorBase d).toNat = d.toNat / 2 ^ 56 * 2 ^ 24 + d.toNat / 2 ^ 16 % 2 ^ 24 := by
  have := d.isLt
  refine (toNat_append_eq (d.extractLsb' 56 8) (d.extractLsb' 16 24)).trans ?_
  simp only [BitVec.extractLsb'_toNat, Nat.shiftRight_eq_div_pow]
  omega

/-- The limit field as a number, before the granularity (20_memory.md R60). -/
theorem limitField_toNat (d : BitVec 64) :
    (d.extractLsb' 48 4 ++ d.extractLsb' 0 16).toNat = d.toNat / 2 ^ 48 % 16 * 65536 + d.toNat % 65536 := by
  rw [toNat_append_eq]
  simp only [BitVec.extractLsb'_toNat, Nat.shiftRight_eq_div_pow]
  omega

/-- The limit with byte granularity (20_memory.md R60). -/
theorem descriptorLimit_byte {d : BitVec 64} (h : d.getLsbD 55 = false) :
    (descriptorLimit d).toNat = d.toNat / 2 ^ 48 % 16 * 65536 + d.toNat % 65536 := by
  have hr := limitField_toNat d
  have := (d.extractLsb' 48 4 ++ d.extractLsb' 0 16).isLt
  simp only [descriptorLimit, h, Bool.false_eq_true, if_false, BitVec.toNat_setWidth]
  omega

/-- The limit with page granularity (20_memory.md R60). -/
theorem descriptorLimit_page {d : BitVec 64} (h : d.getLsbD 55 = true) :
    (descriptorLimit d).toNat = (d.toNat / 2 ^ 48 % 16 * 65536 + d.toNat % 65536) * 4096 + 4095 := by
  rw [descriptorLimit, if_pos h, ← limitField_toNat]
  exact toNat_append_eq _ _

/-- Settles O26. -/
theorem descriptorFieldsAreTheTable : Obligations.DescriptorFieldsAreTheTable := by
  refine fun sel d => ⟨rfl, rfl, descriptorBase_toNat d, descriptorLimit_byte, descriptorLimit_page, rfl, ?_, rfl, rfl, rfl,
    rfl, rfl, rfl⟩
  simp [loadedSegment, descriptorRights, BitVec.extractLsb'_toNat, Nat.shiftRight_eq_div_pow]

end Sys2Proof.Machine

/-! SUPPORT. What a translation answers and the entries it marks, and the page fault it raises (20_memory.md R49 to R51). -/

namespace Sys2Proof.Machine

/-! ### Bits that are set -/

/-- The byte at `a` is listed, and its bit `i` is set. -/
def hasBit (m : Memory) (a i : Nat) : Prop := ∃ b, m.read? a = some b ∧ b.getLsbD i = true

/-- A byte that is listed stays listed under marks. -/
theorem Marked.listed {mask : Byte} {marks : List Nat} {s t : State} (h : Marked mask marks s t) {a : Nat}
    (hb : ∃ b, s.mem.read? a = some b) : ∃ b, t.mem.read? a = some b := by
  rcases h.bytes a (by simp) with h1 | ⟨_, b, k, _, _, h2⟩
  · rw [h1]
    exact hb
  · exact ⟨_, h2⟩

/-- Marks clear no bit. -/
theorem Marked.hasBit {mask : Byte} {marks : List Nat} {s t : State} (h : Marked mask marks s t) {a i : Nat}
    (hb : hasBit s.mem a i) : Machine.hasBit t.mem a i := by
  obtain ⟨b, hb, hi⟩ := hb
  rcases h.bytes a (by simp) with h1 | ⟨_, c, k, h1, _, h2⟩
  · exact ⟨b, h1.trans hb, hi⟩
  · rw [hb] at h1
    cases h1
    exact ⟨_, h2, by rw [BitVec.getLsbD_or, hi, Bool.true_or]⟩

/-- Bits that are set in a listed byte are set. -/
theorem setMemBits_hasBit {a i : Nat} {k : Byte} {s : State} (h : ∃ b, s.mem.read? a = some b)
    (hk : k.getLsbD i = true) : hasBit (setMemBits a k s).mem a i := by
  obtain ⟨b, hb⟩ := h
  refine ⟨b ||| k, ?_, by rw [BitVec.getLsbD_or, hk, Bool.or_true]⟩
  simp only [setMemBits, hb, Memory.read?_write_same]

/-- Setting bits in a byte is a mark of it. -/
theorem setMemBits_marked_self (a : Nat) (k : Byte) (s : State) : Marked k [a] s (setMemBits a k s) :=
  setMemBits_marked a k k s (BitVec.and_not_self k)

/-! ### The walk -/

/-- What a byte that passes the walk needs of its two entries (20_memory.md R50). -/
theorem tableMapped_iff {s : State} {la : Word} {wr us : Bool} :
    tableMapped s la wr us = true ↔ ∃ pde pte, listed32 s.mem (pdeAddr s la) = some pde ∧
      listed32 s.mem (pteAddr pde la) = some pte ∧ entryPopulated s (pdeAddr s la) = true ∧
        entryPopulated s (pteAddr pde la) = true ∧ pde.getLsbD 0 = true ∧ pte.getLsbD 0 = true ∧
          (us && !(userMayAccess pde wr && userMayAccess pte wr)) = false := by
  unfold tableMapped
  cases hp : listed32 s.mem (pdeAddr s la) with
  | none => simp
  | some pde =>
    cases hq : listed32 s.mem (pteAddr pde la) with
    | none => simp [hq]
    | some pte => cases us <;> simp [hq, and_assoc]

/-- The walk that passes answers the frame of the table entry, and marks both entries accessed (20_memory.md R50). -/
theorem walk_eq {s : State} {la pde pte : Word} {wr us : Bool} (hpde : listed32 s.mem (pdeAddr s la) = some pde)
    (hpte : listed32 s.mem (pteAddr pde la) = some pte) (hpp : entryPopulated s (pdeAddr s la) = true)
    (htp : entryPopulated s (pteAddr pde la) = true) (h0 : pde.getLsbD 0 = true) (h1 : pte.getLsbD 0 = true)
    (hu : (us && !(userMayAccess pde wr && userMayAccess pte wr)) = false) :
    walk la wr us s = .ok ⟨frameOf pte + la.toNat % 4096, some (pteAddr pde la)⟩
      (setMemBits (pteAddr pde la) accessedBit (setMemBits (pdeAddr s la) accessedBit s)) := by
  simp only [walk, readPhys32_ok.mpr ⟨rfl, hpp, hpde⟩, readPhys32_ok.mpr ⟨rfl, htp, hpte⟩, Res.andThen, h0, h1, hu,
    Bool.not_true, Bool.false_eq_true, if_false, accessedBit]

/-- Byte 0 of a listed entry is listed. -/
theorem listed32_byte {m : Memory} {a : Nat} {e : Word} (h : listed32 m a = some e) : ∃ b, m.read? a = some b :=
  let ⟨b, _, _, _, hb, _⟩ := listed32_some.mp h
  ⟨b, hb⟩

/-- Both entries of a walk that passes are accessed after it (20_memory.md R50). -/
theorem setMemBits_accessed {s : State} {a c : Nat} {e f : Word} (ha : listed32 s.mem a = some e)
    (hc : listed32 s.mem c = some f) :
    hasBit (setMemBits c accessedBit (setMemBits a accessedBit s)).mem a 5 ∧
      hasBit (setMemBits c accessedBit (setMemBits a accessedBit s)).mem c 5 :=
  ⟨(setMemBits_marked_self c _ _).hasBit (setMemBits_hasBit (listed32_byte ha) (by decide)),
    setMemBits_hasBit ((setMemBits_marked_self a _ _).listed (listed32_byte hc)) (by decide)⟩

/-- From the marks of the two entries, nothing else has changed (20_memory.md R50). -/
theorem setMemBits_twice_marked (s : State) (a c : Nat) :
    Marked accessedBit [a, c] s (setMemBits c accessedBit (setMemBits a accessedBit s)) :=
  ((setMemBits_marked_self a _ s).mono (fun _ h => h) (by simp)).trans
    ((setMemBits_marked_self c _ _).mono (fun _ h => h) (by simp))

theorem translate_flat {s : State} (h : paging s = false) (la : Word) (wr us : Bool) :
    translate la wr us s = .ok ⟨la.toNat, none⟩ s := by
  simp only [translate, h, Bool.false_eq_true, if_false]

theorem translate_twoLevel {s : State} (hp : paging s = true) (ht : s.params.translate = .twoLevel) (la : Word)
    (wr us : Bool) : translate la wr us s = walk la wr us s := by
  simp only [translate, hp, ht, if_true]

theorem mapped_twoLevel {s : State} (hp : paging s = true) (ht : s.params.translate = .twoLevel) (la : Word)
    (wr us : Bool) : mapped s la wr us = tableMapped s la wr us := by
  simp only [mapped, hp, ht, if_true]

/-! ### The page fault -/

/-- A byte that raises a page fault: CR2 takes its address, bits 2:0 of the code say how it was accessed, the rest of the
code is a draw, and nothing else has changed but the inhibit (20_memory.md R51; log 11). -/
theorem translate_pageFault_exception {s : State} {la : Word} {wr us p : Bool} (h : pageFaultBit? s la wr us = some p) :
    ∃ c : Half, translate la wr us s = .fault (.exception .pf (some c)
        { s with sys := { s.sys with cr2 := la }, inhibit := false, draws := s.draws + 1 }) ∧
      c.toNat % 8 = (if p then 1 else 0) + (if wr then 2 else 0) + (if us then 4 else 0) ∧
      c.toNat / 8 = (Config.freeWord s.draws).toNat % 8192 := by
  refine ⟨_, translate_pageFault h, ?_, ?_⟩ <;> rw [pageFaultCode_toNat]
  · cases p <;> cases wr <;> cases us <;> simp <;> omega
  · have := Bool.toNat_lt p
    have := Bool.toNat_lt wr
    have := Bool.toNat_lt us
    rw [BitVec.extractLsb'_toNat, Nat.shiftRight_zero, drawn]
    omega

theorem pageFaultBit?_given {s : State} {lines : List PageLine} {la : Word} {wr us p : Bool} (hp : paging s = true)
    (ht : s.params.translate = .given lines) (hf : PageLine.answerOf lines (la.extractLsb' 12 20) wr us = .fault p) :
    pageFaultBit? s la wr us = some p := by
  simp only [pageFaultBit?, hp, ht, hf, if_true]

/-- Settles O10: one lemma for each of the three translations. -/
theorem translationFollowsTheTables : Obligations.TranslationFollowsTheTables := by
  refine fun s la wr us => ⟨fun hp => translate_flat hp la wr us, fun hp ht hm => ?_, fun lines hp ht => ⟨fun f hf => ?_,
    fun p hf => ?_⟩⟩
  · rw [mapped_twoLevel hp ht] at hm
    obtain ⟨pde, pte, hpde, hpte, hpp, htp, h0, h1, hu⟩ := tableMapped_iff.mp hm
    have hk := setMemBits_twice_marked s (pdeAddr s la) (pteAddr pde la)
    obtain ⟨ha, hc⟩ := setMemBits_accessed hpde hpte
    exact ⟨pde, pte, _, hpde, hpte, (translate_twoLevel hp ht la wr us).trans (walk_eq hpde hpte hpp htp h0 h1 hu),
      hk.same, hk.bytes, ha, hc⟩
  · simp only [translate, hp, ht, if_true, translateGiven, hf, inFrame]
  · obtain ⟨c, hc, hbits, _⟩ := translate_pageFault_exception (pageFaultBit?_given hp ht hf)
    exact ⟨c, hc, hbits⟩

/-- A directory entry that is not present is a page fault with P = 0 (20_memory.md R50, R51). -/
theorem pageFaultBit?_pde {s : State} {la pde : Word} (wr us : Bool) (hp : paging s = true)
    (ht : s.params.translate = .twoLevel) (hpp : entryPopulated s (pdeAddr s la) = true)
    (hpde : listed32 s.mem (pdeAddr s la) = some pde) (h0 : pde.getLsbD 0 = false) :
    pageFaultBit? s la wr us = some false := by
  simp only [pageFaultBit?, hp, ht, hpde, hpp, h0, Bool.not_true, Bool.not_false, Bool.false_eq_true, if_true, if_false]

/-- With the directory entry present the table entry decides: not present, or an access that the two do not admit
(20_memory.md R50, R51). -/
theorem pageFaultBit?_pte {s : State} {la pde pte : Word} (wr us : Bool) (hp : paging s = true)
    (ht : s.params.translate = .twoLevel) (hpp : entryPopulated s (pdeAddr s la) = true)
    (hpde : listed32 s.mem (pdeAddr s la) = some pde) (h0 : pde.getLsbD 0 = true)
    (htp : entryPopulated s (pteAddr pde la) = true) (hpte : listed32 s.mem (pteAddr pde la) = some pte) :
    pageFaultBit? s la wr us = if pte.getLsbD 0 = false then some false
      else if us && !(userMayAccess pde wr && userMayAccess pte wr) then some true else none := by
  simp only [pageFaultBit?, hp, ht, hpde, hpp, h0, hpte, htp, Bool.not_true, Bool.not_eq_true', Bool.false_eq_true, if_true,
    if_false]

/-- Entries that withhold the right keep a user-level access out (20_memory.md R50). -/
theorem userMayAccess_withheld {pde pte : Word} {wr : Bool} (h : pde.getLsbD 2 = false ∨ pte.getLsbD 2 = false ∨
    (wr = true ∧ (pde.getLsbD 1 = false ∨ pte.getLsbD 1 = false))) :
    (userMayAccess pde wr && userMayAccess pte wr) = false := by
  unfold userMayAccess
  rcases h with h | h | ⟨rfl, h | h⟩ <;> rw [h] <;> simp

/-- The page fault of the read of an instruction's memory operand is the instruction's (20_memory.md R46, R51). -/
theorem exec_load_pageFault {i : Instr} {s : State} {r : SegReg} {off : Word} {n k : Nat} {p : Bool} (hk : k < n)
    (hl : loadOperand? i s = some (r, off, n)) (hf : segmentFault s .read r off.toNat n = none)
    (hm : ∀ j, j < k → mapped s (linearAddr s r off + BitVec.ofNat 32 j) false (userAccess s false) = true)
    (hp : pageFaultBit? s (linearAddr s r off + BitVec.ofNat 32 k) false (userAccess s false) = some p) :
    ∃ f, exec i s = .fault f ∧ pageFaulted s (linearAddr s r off) k p false (userAccess s false) f := by
  obtain ⟨f, hr, hq⟩ := readLinear_pageFault hk hm hp
  exact ⟨f, exec_load_stop hl ((readSeg_legal hf).trans hr), hq⟩

/-- The page fault of an instruction's store is the instruction's, from the state it stores from (20_memory.md R47, R51). -/
theorem exec_store_pageFault {i : Instr} {s u : State} {r : SegReg} {off : Word} {n k : Nat} {p : Bool} (hk : k < n)
    (hs : storeOperand? i s = some (r, off, n)) (hu : storesFrom i s u)
    (hf : segmentFault u .write r off.toNat n = none)
    (hm : ∀ j, j < k → mapped u (linearAddr u r off + BitVec.ofNat 32 j) true (userAccess u false) = true)
    (hp : pageFaultBit? u (linearAddr u r off + BitVec.ofNat 32 k) true (userAccess u false) = some p) :
    ∃ f, exec i s = .fault f ∧ pageFaulted u (linearAddr u r off) k p true (userAccess u false) f := by
  obtain ⟨bs, rfl, hst⟩ := exec_stores hs hu
  obtain ⟨f, hw, hq⟩ := writeLinear_pageFault hk hm hp
  exact ⟨f, hst.stop _ ((writeSeg_legal hf).trans hw), hq⟩

/-- Settles O11: the bit P that the entries give decides the fault, and the fault of the operand is the form's. -/
theorem pageFaultReportsCodeAndAddress : Obligations.PageFaultReportsCodeAndAddress := by
  refine ⟨fun s la wr us pde hp ht hpp hpde => ?_, fun i s u r off n k p hk =>
    ⟨exec_load_pageFault hk, exec_store_pageFault hk⟩⟩
  refine ⟨fun h0 => translate_pageFault_exception (pageFaultBit?_pde wr us hp ht hpp hpde h0), fun pte h0 htp hpte => ?_⟩
  have hbit := pageFaultBit?_pte wr us hp ht hpp hpde h0 htp hpte
  refine ⟨fun h1 => translate_pageFault_exception ?_, fun h1 hus hw => translate_pageFault_exception ?_⟩
  · rw [hbit, if_pos h1]
  · rw [hbit, hus, userMayAccess_withheld hw, h1]
    rfl

end Sys2Proof.Machine

/-! SUPPORT. A store and a load with paging off: the bytes read are those stored, whatever the widths (20_memory.md R41, R47).
-/

namespace Sys2Proof.Machine

/-! ### Little-endian numbers -/

theorem leBytes_succ {w : Nat} (n : Nat) (v : BitVec w) :
    leBytes (n + 1) v = v.extractLsb' 0 8 :: leBytes n (v >>> 8) := by
  simp only [leBytes, List.range_succ_eq_map, List.map_cons, List.map_map, Nat.mul_zero]
  congr 1
  refine List.map_congr_left fun i _ => BitVec.eq_of_toNat_eq ?_
  simp only [Function.comp_apply, BitVec.extractLsb'_toNat, BitVec.toNat_ushiftRight, ← Nat.shiftRight_add]
  rw [Nat.mul_succ, Nat.add_comm]

/-- The bytes of a value, lowest first, denote it (20_memory.md R41). -/
theorem leNat_leBytes {w : Nat} (n : Nat) (v : BitVec w) : leNat (leBytes n v) = v.toNat % 256 ^ n := by
  induction n generalizing v with
  | zero => rw [Nat.pow_zero, Nat.mod_one]; rfl
  | succ n ih =>
    rw [leBytes_succ, leNat, ih, BitVec.extractLsb'_toNat, BitVec.toNat_ushiftRight, Nat.shiftRight_zero,
      Nat.shiftRight_eq_div_pow, show 256 ^ (n + 1) = 256 * 256 ^ n from Nat.pow_succ', Nat.mod_mul]

theorem leValue_leBytes (v : Word) : leValue 32 (leBytes 4 v) = v := by
  have hv : v.toNat < 256 ^ 4 := v.isLt
  rw [leValue, leNat_leBytes, Nat.mod_eq_of_lt hv, BitVec.ofNat_toNat, BitVec.setWidth_eq]

/-- Byte `k` of a value (20_memory.md R41). -/
theorem leBytes_getElem? {w n k : Nat} (v : BitVec w) (hk : k < n) :
    (leBytes n v)[k]? = some (v.extractLsb' (8 * k) 8) := by
  simp [leBytes, hk]

/-! ### Accesses with paging off -/

/-- With paging off the bytes of an operand stand at its linear addresses (20_memory.md R49). -/
theorem holdsLinear_flat {s : State} (h : paging s = false) {wr us : Bool} {m : Memory} {la : Word} {bs : List Byte} :
    holdsLinear s wr us m la bs ↔ ∀ k, k < bs.length → m.read? (la + BitVec.ofNat 32 k).toNat = bs[k]? := by
  simp [holdsLinear, physAddr?, h]

theorem translateAll_flat {s t : State} (h : paging s = false) {wr us : Bool} {n : Nat} {la : Word}
    {xs : List Translated} (hx : translateAll wr us n la s = .ok xs t) : t = s := by
  induction n generalizing la xs with
  | zero => cases hx; rfl
  | succ n ih =>
    simp only [translateAll, translate, h, Bool.false_eq_true, if_false, Res.andThen_ok] at hx
    obtain ⟨_, _, hu, ys, v, hv, hx⟩ := hx
    cases hu
    cases hx
    exact ih hv

/-- With paging off a read changes nothing (20_memory.md R46, R49). -/
theorem readSeg_flat {r : SegReg} {off : Word} {n : Nat} {s t : State} {bs : List Byte} (h : paging s = false)
    (hb : readSeg r off n s = .ok bs t) : t = s := by
  unfold readSeg at hb
  split at hb
  · cases hb
  · simp only [readLinear, Res.andThen_ok, readPhys_ok] at hb
    obtain ⟨_, _, hx, hu, _⟩ := hb
    exact hu.trans (translateAll_flat h hx)

/-- The state after a store has the linear addresses and the paging of the state before it. -/
theorem writeEffect.linearAddr {s t : State} {r : SegReg} {off : Word} {bs : List Byte} (h : writeEffect s r off bs t)
    (q : SegReg) (o : Word) : Machine.linearAddr t q o = Machine.linearAddr s q o := by
  rw [h.1]
  rfl

theorem writeEffect.paging {s t : State} {r : SegReg} {off : Word} {bs : List Byte} (h : writeEffect s r off bs t) :
    Machine.paging t = Machine.paging s := by
  rw [h.1]
  rfl

theorem linearAddr_add (s : State) (r : SegReg) (off d : Word) : linearAddr s r (off + d) = linearAddr s r off + d :=
  (BitVec.add_assoc _ _ _).symm

/-- With paging off a legal read inside what a store has just written gives those bytes of it (20_memory.md R41, R47). -/
theorem readSeg_after_writeSeg_flat {r : SegReg} {off : Word} {bs : List Byte} {s t : State} {k n : Nat}
    (hp : paging s = false) (hl : bs.length ≤ 4096) (hw : writeSeg r off bs s = .ok () t) (hk : k + n ≤ bs.length)
    (hc : canLoad t r (off + BitVec.ofNat 32 k) n = true) :
    readSeg r (off + BitVec.ofNat 32 k) n t = .ok ((bs.drop k).take n) t := by
  have he := (writeSeg_ok hl hw).1
  have hpt : paging t = false := he.paging.trans hp
  obtain ⟨cs, u, hr⟩ := readSeg_complete hc
  obtain ⟨hre, hn, _⟩ := readSeg_ok hr
  have hut := readSeg_flat hpt hr
  subst u
  have hstored := (holdsLinear_flat hp).mp he.2.1
  have hread := (holdsLinear_flat hpt).mp hre.2.1
  have hcs : cs = (bs.drop k).take n := by
    refine List.ext_getElem? fun i => ?_
    by_cases hi : i < n
    · rw [List.getElem?_take_of_lt hi, List.getElem?_drop, ← hstored (k + i) (by omega), ← hread i (by omega),
        he.linearAddr, linearAddr_add, BitVec.ofNat_add, BitVec.add_assoc]
    · rw [List.getElem?_eq_none (by omega), List.getElem?_eq_none (by simp; omega)]
  rw [hr, hcs]

/-- Settles O14: the reads are parts of what the store wrote. -/
theorem storeThenLoadIsLittleEndian : Obligations.StoreThenLoadIsLittleEndian := by
  intro s t m src hp he
  obtain ⟨_, hw⟩ := Res.outcome_next.mp he
  have hlen : (leBytes 4 (readR32 s src)).length = 4 := leBytes_length 4 _
  refine ⟨fun hc => ?_, fun k hk hc => ?_⟩
  · have h0 : effectiveAddr s m.addr + BitVec.ofNat 32 0 = effectiveAddr s m.addr := BitVec.add_zero _
    have hr := readSeg_after_writeSeg_flat (k := 0) (n := 4) hp (by omega) hw (by omega) (by rw [h0]; exact hc)
    rw [h0, List.drop_zero, List.take_of_length_le (by omega)] at hr
    exact ⟨_, hr, leValue_leBytes _⟩
  · rw [readSeg_after_writeSeg_flat hp (by omega) hw (by omega) hc, List.take_one, List.head?_drop,
      leBytes_getElem? _ hk]
    rfl

end Sys2Proof.Machine

/-! SUPPORT. The descriptor fetch: its two checks of the table, and where its read stops (20_memory.md R61, R62). -/

namespace Sys2Proof.Machine

/-- The index of a selector is the selector without its low three bits (20_memory.md R61). -/
theorem selectorIndex_eq (sel : Half) : selectorIndex sel = sel.toNat / 8 := by
  have := sel.isLt
  rw [selectorIndex, BitVec.extractLsb'_toNat, Nat.shiftRight_eq_div_pow]
  omega

/-- The checks of a descriptor fetch before it reads: a valid LDTR if the selector names the LDT, and the 8 bytes within
the table (20_memory.md R61, R62). -/
def descriptorInTable (s : State) (sel : Half) : Prop :=
  ¬(selectorTi sel = true ∧ s.sys.ldtr.valid = false) ∧ 8 * selectorIndex sel + 7 ≤ tableLimit s sel

/-- Outside its table the fetch is #GP(selector), with nothing changed but the inhibit (20_memory.md R62, R213). -/
theorem fetchDescriptor_outside {s : State} {sel : Half} (h : ¬ descriptorInTable s sel) :
    fetchDescriptor sel s = .fault (.exception .gp (some (selectorCode sel)) { s with inhibit := false }) := by
  unfold fetchDescriptor
  split
  · rfl
  · next hv =>
    split
    · rfl
    · next hl => exact absurd ⟨by simpa using hv, Nat.le_of_not_lt hl⟩ h

/-- Inside its table the fetch is the read of 8 bytes at supervisor level (20_memory.md R62). -/
theorem fetchDescriptor_inside {s : State} {sel : Half} (h : descriptorInTable s sel) :
    fetchDescriptor sel s =
      (readLinear (descriptorAddr s sel) 8 true s).andThen fun bs s => .ok (leValue 64 bs) s := by
  obtain ⟨hv, hl⟩ := h
  rw [fetchDescriptor, if_neg (by simpa using hv), if_neg (Nat.not_lt_of_le hl)]

theorem fetchDescriptor_read_stop {s : State} {sel : Half} {f : Fault} (h : descriptorInTable s sel)
    (hf : readLinear (descriptorAddr s sel) 8 true s = .fault f) : fetchDescriptor sel s = .fault f := by
  rw [fetchDescriptor_inside h, hf]
  rfl

/-- The lowest byte of a descriptor that raises a page fault, at supervisor level, raises it (20_memory.md R49, R62). -/
theorem fetchDescriptor_pageFault {s : State} {sel : Half} {k : Nat} {p : Bool} (h : descriptorInTable s sel) (hk : k < 8)
    (hm : ∀ j, j < k → mapped s (descriptorAddr s sel + BitVec.ofNat 32 j) false false = true)
    (hp : pageFaultBit? s (descriptorAddr s sel + BitVec.ofNat 32 k) false false = some p) :
    ∃ f, fetchDescriptor sel s = .fault f ∧ pageFaulted s (descriptorAddr s sel) k p false false f := by
  obtain ⟨f, hf, hq⟩ := readLinear_pageFault (sup := true) hk (by rwa [userAccess_sup]) (by rwa [userAccess_sup])
  rw [userAccess_sup] at hq
  exact ⟨f, fetchDescriptor_read_stop h hf, hq⟩

/-- The lowest byte of a descriptor that is not populated or was never written stops the fetch (20_memory.md R49,
10_state.md R29; log 6). -/
theorem fetchDescriptor_byteStop {s : State} {sel : Half} {k pa : Nat} {f : Fault} (h : descriptorInTable s sel)
    (hk : k < 8) (hm : ∀ j, j < 8 → mapped s (descriptorAddr s sel + BitVec.ofNat 32 j) false false = true)
    (hj : ∀ j, j < k → byteLoads s (descriptorAddr s sel + BitVec.ofNat 32 j) false = true)
    (hpa : physAddr? s false false (descriptorAddr s sel + BitVec.ofNat 32 k) = some pa) (hf : byteStop? s pa = some f) :
    fetchDescriptor sel s = .fault f := by
  exact fetchDescriptor_read_stop h (readLinear_stop (sup := true) hk (by rwa [userAccess_sup]) (by rwa [userAccess_sup])
    (by rwa [userAccess_sup]) hf)

/-- Settles O23: the two checks, and then the read. -/
theorem descriptorFetchChecksTheTable : Obligations.DescriptorFetchChecksTheTable := by
  intro s sel
  rw [← selectorIndex_eq]
  refine ⟨fun h => fetchDescriptor_outside fun ⟨hv, hl⟩ => ?_, fun h => ?_, fun hv hl k hk =>
    ⟨fun p => fetchDescriptor_pageFault ⟨hv, hl⟩ hk, fun pa f => fetchDescriptor_byteStop ⟨hv, hl⟩ hk⟩⟩
  · exact h.elim hv (Nat.not_lt_of_le hl)
  · obtain ⟨d, u, hd⟩ := fetchDescriptor_complete h
    obtain ⟨hm, bs, hl, rfl, hh⟩ := fetchDescriptor_ok hd
    exact ⟨bs, u, hl, hd, hm.same, hh, hm.bytes⟩

end Sys2Proof.Machine

/-! SUPPORT. The accessed and dirty bits that a store leaves in the page-table entries it goes through (20_memory.md R50). -/

namespace Sys2Proof.Machine

/-! ### The entry of a translated byte -/

/-- A byte that a walk has translated: its table entry is named, and accessed (20_memory.md R50). -/
theorem translate_entry {la pde : Word} {wr us : Bool} {s t : State} {x : Translated} (hp : paging s = true)
    (ht : s.params.translate = .twoLevel) (h : translate la wr us s = .ok x t)
    (hpde : listed32 s.mem (pdeAddr s la) = some pde) :
    x.pte = some (pteAddr pde la) ∧ hasBit t.mem (pteAddr pde la) 5 := by
  obtain ⟨_, hm, _, _⟩ := translate_ok h
  rw [mapped_twoLevel hp ht] at hm
  obtain ⟨e, pte, he, hpte, hpp, htp, h0, h1, hu⟩ := tableMapped_iff.mp hm
  rw [hpde] at he
  cases he
  rw [translate_twoLevel hp ht, walk_eq hpde hpte hpp htp h0 h1 hu] at h
  cases h
  exact ⟨rfl, (setMemBits_accessed hpde hpte).2⟩

/-- A directory entry names the same page table after marks. -/
theorem pteAddr_marked {marks : List Nat} {s t : State} (h : Marked accessedAndDirty marks s t)
    (hl : alignedMarks marks) {la pde : Word} (hpde : listed32 s.mem (pdeAddr s la) = some pde) :
    ∃ e, listed32 t.mem (pdeAddr t la) = some e ∧ pteAddr e la = pteAddr pde la := by
  rw [pdeAddr_same h.same]
  obtain ⟨e, he, hee⟩ := (listed32_marked h hl (pdeAddr_aligned s la)).1 pde hpde
  exact ⟨e, he, pteAddr_same hee la⟩

/-- Of several bytes that a walk has translated, each has its table entry named, and accessed (20_memory.md R50). -/
theorem translateAll_entry {la pde : Word} {wr us : Bool} {n k : Nat} {s t : State} {xs : List Translated}
    (hp : paging s = true) (ht : s.params.translate = .twoLevel) (h : translateAll wr us n la s = .ok xs t) (hk : k < n)
    (hpde : listed32 s.mem (pdeAddr s (la + BitVec.ofNat 32 k)) = some pde) :
    (∃ x ∈ xs, x.pte = some (pteAddr pde (la + BitVec.ofNat 32 k))) ∧
      hasBit t.mem (pteAddr pde (la + BitVec.ofNat 32 k)) 5 := by
  induction n generalizing la s xs k pde with
  | zero => exact absurd hk (Nat.not_lt_zero k)
  | succ n ih =>
    simp only [translateAll, Res.andThen_ok] at h
    obtain ⟨x, u, hx, ys, v, hy, h⟩ := h
    cases h
    cases k with
    | zero =>
      rw [show la + BitVec.ofNat 32 0 = la from BitVec.add_zero la] at hpde ⊢
      obtain ⟨hxp, hb⟩ := translate_entry hp ht hx hpde
      exact ⟨⟨x, List.mem_cons_self, hxp⟩, (translateAll_ok hy).1.hasBit hb⟩
    | succ k =>
      rw [← addr_succ] at hpde ⊢
      have hm := (translate_ok hx).1
      obtain ⟨e, he, hee⟩ := pteAddr_marked (accessed_mono hm) (tableMarks_aligned s 1 la) hpde
      obtain ⟨⟨y, hyx, hyp⟩, hb⟩ := ih (hm.same.paging.trans hp) (hm.same.translate.trans ht) hy (by omega) he
      rw [hee] at hyp hb
      exact ⟨⟨y, List.mem_cons_of_mem _ hyx, hyp⟩, hb⟩

/-! ### The dirty bits of a store -/

/-- The dirty bits of a store clear no bit. -/
theorem setDirty_keepsBit {xs : List Translated} {s : State} {a i : Nat} (h : hasBit s.mem a i) :
    hasBit (setDirty xs s).mem a i :=
  (setDirty_marked (marks := xs.filterMap Translated.pte) xs s fun x hx _ ha =>
    List.mem_filterMap.mpr ⟨x, hx, ha⟩).hasBit h

/-- Each entry that a store went through is dirty (20_memory.md R50). -/
theorem setDirty_dirty {xs : List Translated} {s : State} {a : Nat} {x : Translated} (hx : x ∈ xs)
    (hp : x.pte = some a) (h : ∃ b, s.mem.read? a = some b) : hasBit (setDirty xs s).mem a 6 := by
  induction xs generalizing s with
  | nil => cases hx
  | cons y ys ih =>
    rcases List.mem_cons.mp hx with rfl | hx
    · simp only [setDirty, hp]
      exact setDirty_keepsBit (setMemBits_hasBit h (by decide))
    · unfold setDirty
      split
      · exact ih hx ((setMemBits_marked_self _ _ s).listed h)
      · exact ih hx h

/-- The bytes of a store that completes leave every other byte as the dirty bits left it. -/
theorem storePhys_outside {xs : List Translated} {bs : List Byte} {sup : Bool} {s t : State} {a : Nat}
    (h : storePhys xs bs sup s = .ok () t) (ha : a ∉ xs.map Translated.pa) :
    t.mem.read? a = (setDirty xs s).mem.read? a := by
  unfold storePhys at h
  split at h
  · cases h
  · cases h
    exact Memory.read?_writeAll_outside _ _ _ fun hm =>
      let ⟨_, hc, he⟩ := List.mem_map.mp hm
      ha (he ▸ (List.of_mem_zip hc).1)

/-- A store that completes leaves the table entry of each of its bytes accessed and dirty, unless it wrote there
(20_memory.md R50). -/
theorem writeLinear_dirty {la pde : Word} {bs : List Byte} {sup : Bool} {k : Nat} {s t : State} (hp : paging s = true)
    (ht : s.params.translate = .twoLevel) (h : writeLinear la bs sup s = .ok () t) (hk : k < bs.length)
    (hpde : listed32 s.mem (pdeAddr s (la + BitVec.ofNat 32 k)) = some pde)
    (ha : pteAddr pde (la + BitVec.ofNat 32 k) ∉ linearBytes s true (userAccess s sup) la bs.length) :
    hasBit t.mem (pteAddr pde (la + BitVec.ofNat 32 k)) 5 ∧ hasBit t.mem (pteAddr pde (la + BitVec.ofNat 32 k)) 6 := by
  simp only [writeLinear, Res.andThen_ok] at h
  obtain ⟨xs, u, hx, h⟩ := h
  obtain ⟨_, hl, hq, _⟩ := translateAll_ok hx
  rw [← translated_pas hl fun k hk => (hq k hk).2] at ha
  obtain ⟨⟨x, hxs, hxp⟩, h5⟩ := translateAll_entry hp ht hx hk hpde
  split at h
  · cases h
  · simp only [hasBit, storePhys_outside h ha]
    obtain ⟨b, hb, _⟩ := id h5
    exact ⟨setDirty_keepsBit h5, setDirty_dirty hxs hxp ⟨b, hb⟩⟩

/-! ### The store of an instruction that completes -/

/-- The instruction has made its store: from a state that differs from the one before in accessed bits alone, the store of
its operand, whose memory is the one that the instruction leaves. -/
def StoreMade (s : State) (r : SegReg) (off : Word) (n : Nat) (t : State) : Prop :=
  ∃ u v bs, AccessedOnly s u ∧ bs.length = n ∧ writeSeg r off bs u = .ok () v ∧ t.mem = v.mem

theorem StoreMade.of_outcome {s t : State} {r : SegReg} {off : Word} {n : Nat} {bs : List Byte} (hl : bs.length = n)
    (h : (writeSeg r off bs s).outcome = .next t) : StoreMade s r off n t :=
  let ⟨_, h⟩ := Res.outcome_next.mp h
  ⟨s, t, bs, .refl s, hl, h, rfl⟩

theorem StoreMade.of_element {w : Nat} {asz : Size} {src : SegReg} {s t : State}
    (h : moveElement w asz src s = .ok () t) : StoreMade s .es (stringReg s asz .edi) w t := by
  simp only [moveElement, Res.andThen_ok] at h
  obtain ⟨bs, u, hb, _, v, hv, h⟩ := h
  cases h
  obtain ⟨_, hl, hm⟩ := readSeg_ok hb
  rw [stringReg_same hm.same.fields.1] at hv
  exact ⟨u, v, bs, ⟨_, tableMarks_translating s w _, hm⟩, hl, hv, stepIndexes_mem _ _ _⟩

theorem StoreMade.of_string {w n : Nat} {rep : Bool} {asz : Size} {src r : SegReg} {s t : State} {off : Word}
    (ho : stringOperand? w rep asz s = some (r, off, n)) (h : (moveString w rep asz src s).outcome = .next t) :
    StoreMade s r off n t := by
  obtain ⟨hc, rfl, rfl, rfl⟩ := stringOperand?_some ho
  obtain ⟨_, h⟩ := Res.outcome_next.mp h
  rcases moveString_ok h with ⟨hr, hz, _⟩ | ⟨_, h⟩ | ⟨_, _, u, hu, rfl⟩
  · exact absurd ⟨hr, hz⟩ hc
  · exact .of_element h
  · obtain ⟨x, v, bs, hx, hl, hv, hm⟩ := StoreMade.of_element hu
    exact ⟨x, v, bs, hx, hl, hv, (setStringReg_mem _ _ _ _).trans hm⟩

/-- Every form that stores has made its store when it completes (40_mov.md R101 to R120, 42_movs.md R160). -/
theorem exec_store_next {i : Instr} {s t : State} {r : SegReg} {off : Word} {n : Nat}
    (ho : storeOperand? i s = some (r, off, n)) (h : exec i s = .next t) : StoreMade s r off n t := by
  cases i
  case movRm8R8 | movRm16R16 | movRm32R32 | movRm8Imm8 | movRm16Imm16 | movRm32Imm32 =>
    obtain ⟨o, rfl, rfl, rfl, rfl⟩ := rmOperand?_some ho
    exact .of_outcome (leBytes_length _ _) h
  case movRm16Sreg z dst src =>
    cases src with
    | named q =>
      obtain ⟨o, rfl, rfl, rfl, rfl⟩ := rmOperand?_some ho
      exact .of_outcome (leBytes_length _ _) h
    | reserved6 | reserved7 => cases ho
  case movMoffs8Al | movMoffs16Ax | movMoffs32Eax =>
    cases ho
    exact .of_outcome (leBytes_length _ _) h
  case movsM8M8 | movsM16M16 | movsM32M32 | movsb | movsw | movsd => exact .of_string ho h
  all_goals cases ho

/-- The bytes of an operand are those of the state before accessed bits were set. -/
theorem operandBytes_marked {marks : List Nat} {s t : State} (h : Marked accessedAndDirty marks s t)
    (hl : alignedMarks marks) (r : SegReg) (off : Word) (n : Nat) : operandBytes t r off n = operandBytes s r off n := by
  simp only [operandBytes, h.same.linearAddr, userAccess_same h.same, linearBytes_marked h hl]

/-- A store through a segment that completes is one at its linear address. -/
theorem writeSeg_linear {r : SegReg} {off : Word} {bs : List Byte} {s t : State} (h : writeSeg r off bs s = .ok () t) :
    writeLinear (linearAddr s r off) bs false s = .ok () t := by
  unfold writeSeg at h
  split at h
  · cases h
  · exact h

/-- Settles O12: the store goes through the entries that the state before it names, and marks them. -/
theorem storesMarkPagesDirty : Obligations.StoresMarkPagesDirty := by
  intro i s t r off n k pde hp ht ho hk h la hpde ha
  obtain ⟨u, v, bs, ⟨marks, hmarks, hm⟩, rfl, hv, htm⟩ := exec_store_next ho h
  have hu := accessed_mono hm
  have hal : alignedMarks marks := fun a ha => translatingEntry_aligned (hmarks a ha)
  obtain ⟨e, he, hee⟩ := pteAddr_marked hu hal hpde
  rw [← hee, ← operandBytes_marked hu hal, operandBytes, hm.same.linearAddr] at ha
  have hw := writeSeg_linear hv
  rw [hm.same.linearAddr] at hw
  obtain ⟨⟨b, hb, h5⟩, c, hc, h6⟩ :=
    writeLinear_dirty (hm.same.paging.trans hp) (hm.same.translate.trans ht) hw hk he ha
  rw [hb] at hc
  cases hc
  exact ⟨b, by rw [htm, ← hee]; exact hb, h5, h6⟩

end Sys2Proof.Machine

/-! SUPPORT. The decoder on the bytes of an encoder: prefixes, fields, addresses, and each form, after LOCK or
without it (30_encoding.md R70 to R85). -/

namespace Sys2Proof

open Machine (toNat_append_eq)

/-! ### Numbers of registers and fields -/

theorem Reg.ofBits_bits (r : Reg) : Reg.ofBits r.bits = r := by cases r <;> rfl

theorem Reg8.ofBits_bits (r : Reg8) : Reg8.ofBits r.bits = r := by cases r <;> rfl

theorem Reg.bits_inj {r q : Reg} (h : r.bits = q.bits) : r = q := by rw [← ofBits_bits r, h, ofBits_bits]

theorem SregField.ofBits_bits (r : SregField) : SregField.ofBits r.bits = r := by
  rcases r with (_ | _ | _ | _ | _ | _) | _ | _ <;> rfl

theorem Base16.ofBits_bits (b : Base16) : Base16.ofBits b.bits = b := by cases b <;> rfl

theorem Base16.bits_inj {b c : Base16} (h : b.bits = c.bits) : b = c := by rw [← ofBits_bits b, h, ofBits_bits]

theorem Scale.ofBits_bits (s : Scale) : Scale.ofBits s.bits = s := by cases s <;> rfl

theorem CtlReg.ofBits?_bits (r : CtlReg) : CtlReg.ofBits? r.bits = some r := by cases r <;> rfl

theorem TestReg.ofBits?_bits (r : TestReg) : TestReg.ofBits? r.bits = some r := by cases r <;> rfl

theorem debugRegOfBits?_break (r : BreakReg) : debugRegOfBits? r.bits = some (.inl r) := by cases r <;> rfl

theorem debugRegOfBits?_debug (r : DebugReg) : debugRegOfBits? r.bits = some (.inr r) := by cases r <;> rfl

/-- The three fields of a ModRM or SIB byte (30_encoding.md R74, R77). -/
theorem fieldByte_fields (hi : BitVec 2) (mid lo : BitVec 3) :
    (fieldByte hi mid lo).extractLsb' 6 2 = hi ∧ (fieldByte hi mid lo).extractLsb' 3 3 = mid ∧
      (fieldByte hi mid lo).extractLsb' 0 3 = lo := by
  revert hi mid lo; decide

/-! ### Multi-byte fields -/

theorem need16_onBytes (k : Half → Parse Decoded) (h : Half) (rest : List Byte) :
    (need16 k).onBytes (leBytes 2 h ++ rest) = (k h).onBytes rest := by
  have e : (h.extractLsb' 8 8 ++ h.extractLsb' 0 8 : Half) = h := by
    refine BitVec.eq_of_toNat_eq ((toNat_append_eq _ _).trans ?_)
    have := h.isLt
    simp only [BitVec.extractLsb'_toNat, Nat.shiftRight_eq_div_pow]
    omega
  exact congrArg (fun v => (k v).onBytes rest) e

theorem need32_onBytes (k : Word → Parse Decoded) (w : Word) (rest : List Byte) :
    (need32 k).onBytes (leBytes 4 w ++ rest) = (k w).onBytes rest := by
  have e : (w.extractLsb' 24 8 ++ w.extractLsb' 16 8 ++ w.extractLsb' 8 8 ++ w.extractLsb' 0 8 : Word) = w := by
    refine BitVec.eq_of_toNat_eq ((toNat_append_eq _ _).trans ?_)
    rw [toNat_append_eq, toNat_append_eq]
    have := w.isLt
    simp only [BitVec.extractLsb'_toNat, Nat.shiftRight_eq_div_pow]
    omega
  exact congrArg (fun v => (k v).onBytes rest) e

theorem needModRm_onBytes (k : BitVec 2 → BitVec 3 → BitVec 3 → Parse Decoded) (mod : BitVec 2) (reg rm : BitVec 3)
    (rest : List Byte) : (needModRm k).onBytes (fieldByte mod reg rm :: rest) = (k mod reg rm).onBytes rest := by
  obtain ⟨h1, h2, h3⟩ := fieldByte_fields mod reg rm
  rw [needModRm, Parse.onBytes, h1, h2, h3]

theorem parseMoffs_onBytes (k : Moffs → Parse Decoded) (o : Moffs) (rest : List Byte) :
    (parseMoffs o.size k).onBytes (o.bytes ++ rest) = (k o).onBytes rest := by
  cases o with
  | o16 h => exact need16_onBytes (fun h => k (.o16 h)) h rest
  | o32 w => exact need32_onBytes (fun w => k (.o32 w)) w rest

/-! ### Addresses -/

/-- `bytes` are a ModRM byte with the given reg field and a mod other than 11, and bytes from which the parser of addresses
reads `a` and leaves the rest (30_encoding.md R74). -/
def ReadsAddr {α : Type} (parse : BitVec 2 → BitVec 3 → (α → Parse Decoded) → Parse Decoded) (reg : BitVec 3)
    (bytes : List Byte) (a : α) : Prop :=
  ∃ mod rm tail, bytes = fieldByte mod reg rm :: tail ∧ mod ≠ 3#2 ∧
    ∀ k rest, (parse mod rm k).onBytes (tail ++ rest) = (k a).onBytes rest

/-- 30_encoding.md R78. -/
theorem parseAddr16_reads {a : Addr16} (h : a.wf = true) (reg : BitVec 3) :
    ReadsAddr parseAddr16 reg ((Addr.a16 a).bytes reg) a := by
  cases a with
  | direct d => exact ⟨0#2, 6#3, _, rfl, by decide, fun k rest => need16_onBytes (fun d => k (.direct d)) d rest⟩
  | based b d =>
    refine ⟨d.parts.1, b.bits, d.parts.2, rfl, ?_, fun k rest => ?_⟩
    · cases d <;> nofun
    · cases d with
      | none =>
        have hb : b.bits ≠ 6#3 := fun e => by
          cases Base16.bits_inj (c := .bp) e
          cases h
        show (parseAddr16 0#2 b.bits k).onBytes rest = _
        rw [parseAddr16, if_pos rfl, if_neg hb, Base16.ofBits_bits]
      | d8 x => exact congrArg (fun b => (k (.based b (.d8 x))).onBytes rest) (Base16.ofBits_bits b)
      | d16 x =>
        refine (need16_onBytes (fun d => k (.based (Base16.ofBits b.bits) (.d16 d))) x rest).trans ?_
        rw [Base16.ofBits_bits]

/-- 30_encoding.md R76. -/
theorem parseDisp32_onBytes (k : Disp32 → Parse Decoded) (d : Disp32) (rest : List Byte) :
    (parseDisp32 d.parts.1 k).onBytes (d.parts.2 ++ rest) = (k d).onBytes rest := by
  cases d with
  | none => rfl
  | d8 b => rfl
  | d32 w => exact need32_onBytes (fun d => k (.d32 d)) w rest

/-- 30_encoding.md R77. -/
theorem sibIndex?_fields {i : SibIndex} (h : i.wf = true) : sibIndex? i.fields.1 i.fields.2 = some i := by
  cases i with
  | none => rfl
  | scaled sc r =>
    have hr : r.bits ≠ 4#3 := fun e => by
      cases Reg.bits_inj (q := .esp) e
      cases h
    rw [SibIndex.fields, sibIndex?, if_neg hr, Scale.ofBits_bits, Reg.ofBits_bits]

theorem parseSib_eq {i : SibIndex} (h : i.wf = true) (mod : BitVec 2) (base : BitVec 3) (k : Addr32 → Parse Decoded) :
    parseSib mod (sibByte i base) k =
      if base = 5#3 ∧ mod = 0#2 then need32 fun d => k (.sibNoBase i d)
      else parseDisp32 mod fun d => k (.sib i (Reg.ofBits base) d) := by
  obtain ⟨h1, h2, h3⟩ := fieldByte_fields i.fields.1 i.fields.2 base
  rw [parseSib, sibByte, h1, h2, h3, sibIndex?_fields h]

theorem Addr32.wf_based {b : Reg} {d : Disp32} :
    (Addr32.based b d).wf = true ↔ b ≠ .esp ∧ ¬(b = .ebp ∧ d = .none) := by
  cases b <;> cases d <;> simp [Addr32.wf]

theorem Addr32.wf_sib {i : SibIndex} {b : Reg} {d : Disp32} :
    (Addr32.sib i b d).wf = true ↔ i.wf = true ∧ ¬(b = .ebp ∧ d = .none) := by
  cases b <;> cases d <;> simp [Addr32.wf]

/-- A base with no displacement is not EBP, which mod = 00 has not (30_encoding.md R76, R77). -/
theorem Disp32.parts_base {b : Reg} {d : Disp32} (h : ¬(b = .ebp ∧ d = .none)) : ¬(b.bits = 5#3 ∧ d.parts.1 = 0#2) := by
  rintro ⟨hb, hd⟩
  refine h ⟨Reg.bits_inj (q := .ebp) hb, ?_⟩
  cases d with
  | none => rfl
  | d8 | d32 => cases hd

theorem Disp32.parts_mod (d : Disp32) : d.parts.1 ≠ 3#2 := by cases d <;> nofun

/-- 30_encoding.md R76, R77. -/
theorem parseAddr32_reads {a : Addr32} (h : a.wf = true) (reg : BitVec 3) :
    ReadsAddr parseAddr32 reg ((Addr.a32 a).bytes reg) a := by
  cases a with
  | direct w => exact ⟨0#2, 5#3, _, rfl, by decide, fun k rest => need32_onBytes (fun d => k (.direct d)) w rest⟩
  | based b d =>
    refine ⟨d.parts.1, b.bits, d.parts.2, rfl, d.parts_mod, fun k rest => ?_⟩
    obtain ⟨hb, hd⟩ := Addr32.wf_based.mp h
    have hb : b.bits ≠ 4#3 := mt (Reg.bits_inj (q := .esp)) hb
    rw [parseAddr32, if_neg hb, if_neg (Disp32.parts_base hd), parseDisp32_onBytes, Reg.ofBits_bits]
  | sib i b d =>
    refine ⟨d.parts.1, 4#3, sibByte i b.bits :: d.parts.2, rfl, d.parts_mod, fun k rest => ?_⟩
    obtain ⟨hi, hd⟩ := Addr32.wf_sib.mp h
    rw [parseAddr32, if_pos rfl, List.cons_append, Parse.onBytes, parseSib_eq hi, if_neg (Disp32.parts_base hd),
      parseDisp32_onBytes, Reg.ofBits_bits]
  | sibNoBase i w =>
    refine ⟨0#2, 4#3, sibByte i 5#3 :: leBytes 4 w, rfl, by decide, fun k rest => ?_⟩
    rw [parseAddr32, if_pos rfl, List.cons_append, Parse.onBytes, parseSib_eq h, if_pos ⟨rfl, rfl⟩, need32_onBytes]

/-! ### Prefixes -/

/-- Whether a form that needs the size `o` has the byte that turns the default into it (30_encoding.md R72). -/
def toggled (d : Size) (o : Option Size) : Bool := o.any fun z => decide (z ≠ d)

theorem sizeAttr_toggled (d z : Size) : sizeAttr d (toggled d (some z)) = z := by
  cases d <;> cases z <;> rfl

theorem sizePrefix_cases (d : Size) (b : Byte) (o : Option Size) :
    (sizePrefix d b o = [] ∧ toggled d o = false) ∨ (sizePrefix d b o = [b] ∧ toggled d o = true) := by
  cases o with
  | none => exact .inl ⟨rfl, rfl⟩
  | some z => by_cases h : z = d <;> simp [sizePrefix, toggled, h]

/-- The prefixes that have been read after those of a form, after LOCK or without it. -/
def prefixesOf (lock : Bool) (d : Size) (osz asz : Option Size) (seg : Option SegReg) (rep : Bool) : Prefixes :=
  ⟨toggled d osz, toggled d asz, seg, if rep then some true else none, lock⟩

/-- The bytes `bytes`, prefixes and at most `c` of them, take the decoder from the prefixes `pf` to `pf'` (30_encoding.md R71). -/
def ReadsPrefixes (p : Params) (d : Size) (c : Nat) (pf : Prefixes) (bytes : List Byte) (pf' : Prefixes) : Prop :=
  ∀ n, c ≤ n → ∃ m, n ≤ m + c ∧
    ∀ rest, (decodeFrom p d n pf).onBytes (bytes ++ rest) = (decodeFrom p d m pf').onBytes rest

theorem ReadsPrefixes.none (p : Params) (d : Size) (pf : Prefixes) : ReadsPrefixes p d 1 pf [] pf :=
  fun n _ => ⟨n, Nat.le_add_right n 1, fun _ => rfl⟩

theorem ReadsPrefixes.one {p : Params} {d : Size} {pf pf' : Prefixes} {b : Byte} (h : pf.add b = .added pf') :
    ReadsPrefixes p d 1 pf [b] pf' := by
  intro n hn
  obtain ⟨m, rfl⟩ := Nat.exists_eq_add_of_le' hn
  refine ⟨m, Nat.le_refl _, fun rest => ?_⟩
  rw [decodeFrom, List.singleton_append, Parse.onBytes, h]

theorem ReadsPrefixes.append {p : Params} {d : Size} {c c' : Nat} {pf pf' pf'' : Prefixes} {bytes bytes' : List Byte}
    (h : ReadsPrefixes p d c pf bytes pf') (k : ReadsPrefixes p d c' pf' bytes' pf'') :
    ReadsPrefixes p d (c + c') pf (bytes ++ bytes') pf'' := by
  intro n hn
  obtain ⟨m, hm, e⟩ := h n (by omega)
  obtain ⟨l, hl, e'⟩ := k m (by omega)
  exact ⟨l, by omega, fun rest => by rw [List.append_assoc, e, e']⟩

/-- The byte that turns a size, where one is needed (30_encoding.md R72). -/
theorem ReadsPrefixes.size {p : Params} {d : Size} {b : Byte} {o : Option Size} (pf : Bool → Prefixes)
    (h : (pf false).add b = .added (pf true)) :
    ReadsPrefixes p d 1 (pf false) (sizePrefix d b o) (pf (toggled d o)) := by
  rcases sizePrefix_cases d b o with ⟨hb, ht⟩ | ⟨hb, ht⟩ <;> rw [hb, ht]
  · exact .none p d _
  · exact .one h

/-- The prefixes of a form (30_encoding.md R71, R72). -/
theorem ReadsPrefixes.form (p : Params) (d : Size) (lock : Bool) (osz asz : Option Size) (seg : Option SegReg)
    (rep : Bool) :
    ReadsPrefixes p d 4 ⟨false, false, .none, .none, lock⟩ (prefixBytes d osz asz seg rep) (prefixesOf lock d osz asz seg rep) := by
  have hosz : ReadsPrefixes p d 1 ⟨false, false, .none, .none, lock⟩ (sizePrefix d 0x66#8 osz)
      ⟨toggled d osz, false, .none, .none, lock⟩ := .size (fun o => ⟨o, false, .none, .none, lock⟩) rfl
  have hasz : ReadsPrefixes p d 1 ⟨toggled d osz, false, .none, .none, lock⟩ (sizePrefix d 0x67#8 asz)
      ⟨toggled d osz, toggled d asz, .none, .none, lock⟩ := .size (fun a => ⟨toggled d osz, a, .none, .none, lock⟩) rfl
  have hseg : ReadsPrefixes p d 1 ⟨toggled d osz, toggled d asz, .none, .none, lock⟩
      (match seg with | .none => [] | some r => [r.prefixByte]) ⟨toggled d osz, toggled d asz, seg, .none, lock⟩ := by
    cases seg with
    | none => exact .none p d _
    | some r => cases r <;> exact .one rfl
  have hrep : ReadsPrefixes p d 1 ⟨toggled d osz, toggled d asz, seg, .none, lock⟩ (if rep then [0xF3#8] else [])
      (prefixesOf lock d osz asz seg rep) := by
    cases rep
    · exact .none p d _
    · exact .one rfl
  exact ((hosz.append hasz).append hseg).append hrep

/-! ### Forms -/

/-- What the decoder answers for an instruction: LOCK before it makes it an invalid opcode (20_memory.md R57). -/
def lockedOr (lock : Bool) (i : Instr) : Decoded := if lock then .invalidOpcode else .instr i

/-- The parser reads `i` from `bytes`, or after LOCK an invalid opcode, and leaves the rest. -/
def ReadsInstr (lock : Bool) (parse : Parse Decoded) (bytes : List Byte) (i : Instr) : Prop :=
  ∀ rest, parse.onBytes (bytes ++ rest) = some (lockedOr lock i, rest)

/-- The decoder, with no prefixes read but perhaps LOCK, reads `i` from `bytes` so (30_encoding.md R71). -/
def DecodesTo (p : Params) (d : Size) (lock : Bool) (bytes : List Byte) (i : Instr) : Prop :=
  ∀ n, 5 ≤ n → ReadsInstr lock (decodeFrom p d n ⟨false, false, none, none, lock⟩) bytes i

/-- A form is its prefixes, its opcode byte and what that opcode reads (30_encoding.md R70). -/
theorem DecodesTo.form {p : Params} {d : Size} {lock rep : Bool} {osz asz : Option Size} {seg : Option SegReg} {op : Byte}
    {tail : List Byte} {i : Instr} (hop : (prefixesOf lock d osz asz seg rep).add op = .opcode)
    (h : ReadsInstr lock (decodeOp p d (prefixesOf lock d osz asz seg rep) op) tail i) :
    DecodesTo p d lock (prefixBytes d osz asz seg rep ++ op :: tail) i := by
  intro n hn rest
  obtain ⟨m, hm, e⟩ := ReadsPrefixes.form p d lock osz asz seg rep n (by omega)
  obtain ⟨m, rfl⟩ := Nat.exists_eq_add_of_le' (show 1 ≤ m by omega)
  rw [List.append_assoc, e, List.cons_append, decodeFrom, Parse.onBytes, hop]
  exact h rest

theorem ReadsInstr.finish {lock : Bool} {d : Size} {osz asz : Option Size} {seg : Option SegReg} {i : Instr} :
    ReadsInstr lock (Sys2Proof.finish (prefixesOf lock d osz asz seg false) i) [] i :=
  fun _ => rfl

theorem ReadsInstr.finishString {p : Params} {lock rep : Bool} {d : Size} {osz asz : Option Size} {seg : Option SegReg}
    {i : Bool → Instr} (h : (!rep || p.admitRep) = true) :
    ReadsInstr lock (Sys2Proof.finishString p (prefixesOf lock d osz asz seg rep) i) [] (i rep) := by
  intro rest
  cases rep with
  | false => rfl
  | true =>
    have h : p.admitRep = true := h
    simp only [Sys2Proof.finishString, prefixesOf, h, if_true]
    rfl

section

variable {ρ : Type} {ofBits : BitVec 3 → ρ} {seg : Option SegReg} {rm : BitVec 3} {k : Rm ρ → Parse Decoded}

theorem parseRm_reg {asz : Size} : parseRm ofBits asz seg 3#2 rm k = k (.reg (ofBits rm)) := if_pos rfl

theorem parseRm_s16 {mod : BitVec 2} (h : mod ≠ 3#2) :
    parseRm ofBits .s16 seg mod rm k = parseAddr16 mod rm fun a => k (.mem ⟨seg, .a16 a⟩) := if_neg h

theorem parseRm_s32 {mod : BitVec 2} (h : mod ≠ 3#2) :
    parseRm ofBits .s32 seg mod rm k = parseAddr32 mod rm fun a => k (.mem ⟨seg, .a32 a⟩) := if_neg h

end

/-- The `r/m` operand of a form: its bytes are read as it, and what follows them as the form says (30_encoding.md R74). -/
theorem ReadsInstr.rm {ρ : Type} {ofBits : BitVec 3 → ρ} {bits : ρ → BitVec 3} (hb : ∀ r, ofBits (bits r) = r)
    {x : Rm ρ} (hx : x.wf = true) {d : Size} {lock : Bool} {reg : BitVec 3}
    {f : BitVec 2 → BitVec 3 → BitVec 3 → Parse Decoded} {k : Rm ρ → Parse Decoded}
    (hf : ∀ mod rm, f mod reg rm = parseRm ofBits (sizeAttr d (toggled d x.asz?)) x.seg? mod rm k) {imm : List Byte}
    {i : Instr} (hk : ReadsInstr lock (k x) imm i) : ReadsInstr lock (needModRm f) (x.bytes bits reg ++ imm) i := by
  intro rest
  rw [List.append_assoc]
  cases x with
  | reg r =>
    rw [Rm.bytes, List.singleton_append, needModRm_onBytes, hf, parseRm_reg, hb]
    exact hk rest
  | mem m =>
    obtain ⟨seg, a⟩ := m
    cases a with
    | a16 a =>
      obtain ⟨mod, rm, tail, e, hmod, h⟩ := parseAddr16_reads hx reg
      rw [Rm.bytes, e, List.cons_append, needModRm_onBytes, hf, Rm.asz?, Addr.size,
        sizeAttr_toggled, parseRm_s16 hmod]
      exact (h _ _).trans (hk rest)
    | a32 a =>
      obtain ⟨mod, rm, tail, e, hmod, h⟩ := parseAddr32_reads hx reg
      rw [Rm.bytes, e, List.cons_append, needModRm_onBytes, hf, Rm.asz?, Addr.size,
        sizeAttr_toggled, parseRm_s32 hmod]
      exact (h _ _).trans (hk rest)

theorem ReadsInstr.moffs {d : Size} {lock : Bool} {o : Moffs} {k : Moffs → Parse Decoded} {i : Instr}
    (hk : ReadsInstr lock (k o) [] i) :
    ReadsInstr lock (parseMoffs (sizeAttr d (toggled d (some o.size))) k) o.bytes i := by
  intro rest
  rw [sizeAttr_toggled, parseMoffs_onBytes]
  exact hk rest

/-- A special-register move: mod is 11 (41_mov_special.md R151). -/
theorem ReadsInstr.special {lock : Bool} {n : BitVec 3} {g : Reg} {k : BitVec 3 → Reg → Parse Decoded} {i : Instr}
    (hk : ReadsInstr lock (k n g) [] i) : ReadsInstr lock (parseSpecial k) [fieldByte 3#2 n g.bits] i := by
  intro rest
  rw [parseSpecial, List.singleton_append, needModRm_onBytes, if_pos rfl, Reg.ofBits_bits]
  exact hk rest

theorem ReadsInstr.imm16 {lock : Bool} {v : Half} {k : Half → Parse Decoded} {i : Instr}
    (hk : ReadsInstr lock (k v) [] i) : ReadsInstr lock (need16 k) (leBytes 2 v) i :=
  fun rest => (need16_onBytes k v rest).trans (hk rest)

theorem ReadsInstr.imm32 {lock : Bool} {v : Word} {k : Word → Parse Decoded} {i : Instr}
    (hk : ReadsInstr lock (k v) [] i) : ReadsInstr lock (need32 k) (leBytes 4 v) i :=
  fun rest => (need32_onBytes k v rest).trans (hk rest)

theorem ReadsInstr.byte {lock : Bool} {b : Byte} {tail : List Byte} {k : Byte → Parse Decoded} {i : Instr}
    (hk : ReadsInstr lock (k b) tail i) : ReadsInstr lock (.need k) (b :: tail) i :=
  hk

section

variable {p : Params} {d : Size} {lock : Bool} {osz asz : Option Size} {seg : Option SegReg} {rep : Bool}

@[simp] theorem prefixesOf_opSize : (prefixesOf lock d osz asz seg rep).opSize = toggled d osz := rfl

@[simp] theorem prefixesOf_addrSize : (prefixesOf lock d osz asz seg rep).addrSize = toggled d asz := rfl

@[simp] theorem prefixesOf_seg : (prefixesOf lock d osz asz seg rep).seg = seg := rfl

/-! ### Opcodes -/

theorem add_regImm8 (pf : Prefixes) (r : Reg8) : pf.add (0b10110#5 ++ r.bits) = .opcode := by cases r <;> rfl

theorem add_regImm (pf : Prefixes) (r : Reg) : pf.add (0b10111#5 ++ r.bits) = .opcode := by cases r <;> rfl

theorem decodeOp_regImm8 (pf : Prefixes) (r : Reg8) :
    decodeOp p d pf (0b10110#5 ++ r.bits) = .need fun imm => finish pf (.movReg8Imm8 r imm) := by
  obtain ⟨sl, _, _, _, _, _, _, _, _, _, _, _⟩ := p
  cases sl <;> cases r <;> rfl

theorem decodeOp_regImm16 {pf : Prefixes} (h : sizeAttr d pf.opSize = .s16) (r : Reg) :
    decodeOp p d pf (0b10111#5 ++ r.bits) = need16 fun imm => finish pf (.movReg16Imm16 r imm) := by
  obtain ⟨sl, _, _, _, _, _, _, _, _, _, _, _⟩ := p
  simp only [decodeOp, h]
  cases sl <;> cases r <;> rfl

theorem decodeOp_regImm32 {pf : Prefixes} (h : sizeAttr d pf.opSize = .s32) (r : Reg) :
    decodeOp p d pf (0b10111#5 ++ r.bits) = need32 fun imm => finish pf (.movReg32Imm32 r imm) := by
  obtain ⟨sl, _, _, _, _, _, _, _, _, _, _, _⟩ := p
  simp only [decodeOp, h]
  cases sl <;> cases r <;> rfl

/-- The byte that loads a segment register is one of two (40_mov.md R108, 92 D2). -/
theorem eq_sregLoadByte {b : Byte} {c : SregLoadOpcode} :
    b = sregLoadByte c ↔ (c = .taken8E ∧ b = 0x8E#8) ∨ (c = .printed8D ∧ b = 0x8D#8) := by
  cases c <;> simp [sregLoadByte]

/-- The opcodes after B0 to BF are none of them (30_encoding.md R84). -/
theorem opcode_high : (0xC6#8).extractLsb' 3 5 = 24#5 ∧ (0xC7#8).extractLsb' 3 5 = 24#5 ∧
    (0xF6#8).extractLsb' 3 5 = 30#5 ∧ (0xF7#8).extractLsb' 3 5 = 30#5 := by decide

theorem sregLoadByte_add (pf : Prefixes) (c : SregLoadOpcode) : pf.add (sregLoadByte c) = .opcode := by
  cases c <;> rfl

theorem decodeOp_sregLoad (pf : Prefixes) : decodeOp p d pf (sregLoadByte p.sregLoad) =
    needModRm fun mod reg rm => parseRm Reg.ofBits (sizeAttr d pf.addrSize) pf.seg mod rm fun src =>
      finish pf (.movSregRm16 (SregField.ofBits reg) src) := by
  obtain ⟨sl, _, _, _, _, _, _, _, _, _, _, _⟩ := p
  cases sl <;> rfl

/-! ### Families of forms -/

/-- A form without prefixes. -/
theorem DecodesTo.bare {op : Byte} {tail : List Byte} {i : Instr}
    (hop : (prefixesOf lock d none none none false).add op = .opcode)
    (h : ReadsInstr lock (decodeOp p d (prefixesOf lock d none none none false) op) tail i) :
    DecodesTo p d lock (op :: tail) i :=
  .form hop h

/-- A form with no prefixes but that of the operand size. -/
theorem DecodesTo.sized {op : Byte} {tail : List Byte} {i : Instr}
    (hop : (prefixesOf lock d osz none none false).add op = .opcode)
    (h : ReadsInstr lock (decodeOp p d (prefixesOf lock d osz none none false) op) tail i) :
    DecodesTo p d lock (sizePrefix d 0x66#8 osz ++ [op] ++ tail) i := by
  have e : sizePrefix d 0x66#8 osz = prefixBytes d osz none none false := by simp [prefixBytes, sizePrefix]
  rw [e, List.append_assoc]
  exact .form hop h

theorem DecodesTo.rm {ρ : Type} {bits : ρ → BitVec 3} {reg : BitVec 3} {x : Rm ρ} {imm : List Byte} {op : Byte} {i : Instr}
    (hop : (prefixesOf lock d osz x.asz? x.seg? false).add op = .opcode)
    (h : ReadsInstr lock (decodeOp p d (prefixesOf lock d osz x.asz? x.seg? false) op) (x.bytes bits reg ++ imm) i) :
    DecodesTo p d lock (encodeRm d osz [op] bits reg x imm) i := by
  rw [encodeRm, List.append_assoc, List.append_assoc]
  exact .form hop h

theorem DecodesTo.rm2 {ρ : Type} {bits : ρ → BitVec 3} {reg : BitVec 3} {x : Rm ρ} {imm : List Byte} {op : Byte} {i : Instr}
    (h : ReadsInstr lock (decodeOp2 p d (prefixesOf lock d osz x.asz? x.seg? false) op) (x.bytes bits reg ++ imm) i) :
    DecodesTo p d lock (encodeRm d osz [0x0F#8, op] bits reg x imm) i := by
  rw [encodeRm, List.append_assoc, List.append_assoc]
  exact .form rfl (.byte h)

theorem DecodesTo.moffs {op : Byte} {off : Moffs} {i : Instr}
    (hop : (prefixesOf lock d osz (some off.size) seg false).add op = .opcode)
    (h : ReadsInstr lock (decodeOp p d (prefixesOf lock d osz (some off.size) seg false) op) off.bytes i) :
    DecodesTo p d lock (encodeMoffs d osz op seg off) i := by
  rw [encodeMoffs, List.append_assoc]
  exact .form hop h

theorem DecodesTo.special {op : Byte} {n : BitVec 3} {g : Reg} {i : Instr}
    (h : ReadsInstr lock (decodeOp2 p d (prefixesOf lock d none none none false) op) [fieldByte 3#2 n g.bits] i) :
    DecodesTo p d lock (encodeSpecial op n g) i :=
  .bare rfl (.byte h)

theorem DecodesTo.movs {op : Byte} {z : Size} {i : Instr}
    (hop : (prefixesOf lock d osz (some z) seg rep).add op = .opcode)
    (h : ReadsInstr lock (decodeOp p d (prefixesOf lock d osz (some z) seg rep) op) [] i) :
    DecodesTo p d lock (encodeMovs d osz op rep z seg) i :=
  .form hop h

end

/-! ### Every instruction -/

/-- The decoder reads every well-formed, admitted instruction from its bytes; after LOCK it is an invalid opcode
(30_encoding.md R70 to R86). -/
theorem decodesTo_encode (p : Params) (d : Size) (lock : Bool) {i : Instr} (hw : i.wf = true) (ha : i.admitted p = true) :
    DecodesTo p d lock (encode p d i) i := by
  cases i
  case movRm8R8 | movR8Rm8 =>
    refine .rm rfl ?_
    simp only [decodeOp, BitVec.reduceEq, if_false, if_true]
    refine .rm Reg8.ofBits_bits hw (fun _ _ => rfl) ?_
    rw [Reg8.ofBits_bits]
    exact .finish
  case movRm16R16 | movRm32R32 | movR16Rm16 | movR32Rm32 =>
    refine .rm rfl ?_
    simp only [decodeOp, BitVec.reduceEq, if_false, if_true]
    refine .rm Reg.ofBits_bits hw (fun _ _ => rfl) ?_
    simp only [Reg.ofBits_bits, prefixesOf_opSize, sizeAttr_toggled]
    exact .finish
  case movRm16Sreg =>
    refine .rm rfl ?_
    simp only [decodeOp, BitVec.reduceEq, if_false, if_true]
    refine .rm Reg.ofBits_bits hw (fun _ _ => rfl) ?_
    rw [SregField.ofBits_bits, prefixesOf_opSize, sizeAttr_toggled]
    exact .finish
  case movSregRm16 =>
    refine .rm (sregLoadByte_add _ _) ?_
    rw [decodeOp_sregLoad]
    refine .rm Reg.ofBits_bits hw (fun _ _ => rfl) ?_
    rw [SregField.ofBits_bits]
    exact .finish
  case movAlMoffs8 | movMoffs8Al | movAxMoffs16 | movEaxMoffs32 | movMoffs16Ax | movMoffs32Eax =>
    refine .moffs rfl ?_
    simp only [decodeOp, BitVec.reduceEq, eq_sregLoadByte, and_false, or_false, if_false, if_true, prefixesOf_opSize,
      sizeAttr_toggled]
    exact .moffs .finish
  case movReg8Imm8 =>
    refine .bare (add_regImm8 _ _) ?_
    rw [decodeOp_regImm8]
    exact .byte .finish
  case movReg16Imm16 =>
    refine .sized (add_regImm _ _) ?_
    rw [decodeOp_regImm16 (sizeAttr_toggled _ _)]
    exact .imm16 .finish
  case movReg32Imm32 =>
    refine .sized (add_regImm _ _) ?_
    rw [decodeOp_regImm32 (sizeAttr_toggled _ _)]
    exact .imm32 .finish
  case movRm8Imm8 =>
    refine .rm rfl ?_
    simp only [decodeOp, BitVec.reduceEq, eq_sregLoadByte, opcode_high, and_false, or_false, if_false, if_true]
    exact .rm Reg8.ofBits_bits hw (fun _ _ => if_pos rfl) (.byte .finish)
  case movRm16Imm16 =>
    refine .rm rfl ?_
    simp only [decodeOp, BitVec.reduceEq, eq_sregLoadByte, opcode_high, and_false, or_false, if_false, if_true,
      prefixesOf_opSize, sizeAttr_toggled]
    exact .rm Reg.ofBits_bits hw (fun _ _ => if_pos rfl) (.imm16 .finish)
  case movRm32Imm32 =>
    refine .rm rfl ?_
    simp only [decodeOp, BitVec.reduceEq, eq_sregLoadByte, opcode_high, and_false, or_false, if_false, if_true,
      prefixesOf_opSize, sizeAttr_toggled]
    exact .rm Reg.ofBits_bits hw (fun _ _ => if_pos rfl) (.imm32 .finish)
  case movR32Cr | movCrR32 =>
    refine .special ?_
    simp only [decodeOp2, BitVec.reduceEq, if_false, if_true]
    refine .special ?_
    simp only [CtlReg.ofBits?_bits]
    exact .finish
  case movR32Dr03 | movR32Dr67 | movDr03R32 | movDr67R32 =>
    refine .special ?_
    simp only [decodeOp2, BitVec.reduceEq, if_false, if_true]
    refine .special ?_
    simp only [debugRegOfBits?_break, debugRegOfBits?_debug]
    exact .finish
  case movR32Tr | movTrR32 =>
    refine .special ?_
    simp only [decodeOp2, BitVec.reduceEq, if_false, if_true]
    refine .special ?_
    simp only [TestReg.ofBits?_bits]
    exact .finish
  case movsM8M8 | movsM16M16 | movsM32M32 | movsb | movsw | movsd =>
    refine .movs rfl ?_
    simp only [decodeOp, BitVec.reduceEq, eq_sregLoadByte, and_false, or_false, if_false, if_true, prefixesOf_opSize,
      prefixesOf_addrSize, prefixesOf_seg, sizeAttr_toggled]
    exact .finishString ha
  case movsxR16Rm8 | movsxR32Rm8 | movzxR16Rm8 | movzxR32Rm8 =>
    refine .rm2 ?_
    simp only [decodeOp2, BitVec.reduceEq, or_false, if_false, if_true, prefixesOf_opSize, sizeAttr_toggled]
    refine .rm Reg8.ofBits_bits hw (fun _ _ => rfl) ?_
    rw [Reg.ofBits_bits]
    exact .finish
  case movsxR32Rm16 osz dst src | movzxR32Rm16 osz dst src =>
    have hosz : ¬(osz = .s16 ∧ (!p.admitMovxW16) = true) := by
      rintro ⟨rfl, h⟩
      rw [show p.admitMovxW16 = true from ha] at h
      cases h
    refine .rm2 ?_
    simp only [decodeOp2, BitVec.reduceEq, or_false, if_false, if_true, prefixesOf_opSize, sizeAttr_toggled, if_neg hosz]
    refine .rm Reg.ofBits_bits hw (fun _ _ => rfl) ?_
    rw [Reg.ofBits_bits]
    exact .finish
  case mulAlRm8 =>
    refine .rm rfl ?_
    simp only [decodeOp, BitVec.reduceEq, eq_sregLoadByte, opcode_high, and_false, or_false, if_false, if_true]
    exact .rm Reg8.ofBits_bits hw (fun _ _ => if_pos rfl) .finish
  case mulAxRm16 | mulEaxRm32 =>
    refine .rm rfl ?_
    simp only [decodeOp, BitVec.reduceEq, eq_sregLoadByte, opcode_high, and_false, or_false, if_false, if_true,
      prefixesOf_opSize, sizeAttr_toggled]
    exact .rm Reg.ofBits_bits hw (fun _ _ => if_pos rfl) .finish

/-- Settles O47: LOCK is recorded, and the form after it as it is without. -/
theorem lockPrefixIsInvalid : Obligations.LockPrefixIsInvalid :=
  fun p d _ rest hw ha => decodesTo_encode p d true hw ha 5 (Nat.le_refl 5) rest

end Sys2Proof

/-! SUPPORT. What the decoder answers: every instruction it reads is well formed and admitted, and the bytes it has used,
prefixes and all, are few (30_encoding.md R70 to R87). -/

namespace Sys2Proof

/-- Settles O45: the decoder starts with no prefixes, and so with no LOCK. -/
theorem encodeThenDecodeGivesTheInstruction : Obligations.EncodeThenDecodeGivesTheInstruction :=
  fun p d _ rest hw ha => decodesTo_encode p d false hw ha 6 (by decide) rest

/-! ### Well-formed addresses -/

theorem Reg.bits_ofBits (n : BitVec 3) : (Reg.ofBits n).bits = n := by revert n; decide

theorem Base16.bits_ofBits (n : BitVec 3) : (Base16.ofBits n).bits = n := by revert n; decide

theorem Reg.ofBits_ne {n : BitVec 3} {r : Reg} (h : n ≠ r.bits) : Reg.ofBits n ≠ r := by
  rintro rfl
  exact h (Reg.bits_ofBits n).symm

/-- Only r/m = 110 is the base BP (30_encoding.md R78). -/
theorem Base16.ofBits_ne_bp {n : BitVec 3} (h : n ≠ 6#3) : Base16.ofBits n ≠ .bp := by
  intro e
  exact h ((Base16.bits_ofBits n).symm.trans (congrArg Base16.bits e))

theorem Addr16.wf_based {b : Base16} {d : Disp16} : (Addr16.based b d).wf = true ↔ ¬(b = .bp ∧ d = .none) := by
  cases b <;> cases d <;> simp [Addr16.wf]

/-- An index part that a SIB byte gives is no ESP (30_encoding.md R77). -/
theorem sibIndex?_wf {sc : BitVec 2} {index : BitVec 3} {i : SibIndex} (h : sibIndex? sc index = some i) :
    i.wf = true := by
  unfold sibIndex? at h
  split at h
  · split at h <;> cases h
    rfl
  · next hi =>
    cases h
    have hr : Reg.ofBits index ≠ .esp := Reg.ofBits_ne hi
    generalize Reg.ofBits index = r at hr
    cases r <;> first | rfl | exact absurd rfl hr

/-! ### Answers of a parser -/

/-- The bytes left are no more than there were. -/
theorem Parse.onBytes_length {α : Type} {parse : Parse α} {bs rest : List Byte} {a : α}
    (h : parse.onBytes bs = some (a, rest)) : rest.length ≤ bs.length := by
  induction parse generalizing bs with
  | done x => cases h; exact Nat.le_refl _
  | need k ih =>
    cases bs with
    | nil => cases h
    | cons b bs => exact Nat.le_succ_of_le (ih b h)

/-- Every instruction that the parser answers is well formed and admitted, and the bytes used for it, with `c` bytes before
them, are at most `n`. -/
def Answers (p : Params) (c n : Nat) (parse : Parse Decoded) : Prop :=
  ∀ bs i rest, parse.onBytes bs = some (.instr i, rest) →
    (i.wf = true ∧ i.admitted p = true) ∧ bs.length + c ≤ rest.length + n

namespace Answers

variable {p : Params} {c n : Nat}

theorem mono {m : Nat} {x : Parse Decoded} (hx : Answers p c m x) (h : m ≤ n) : Answers p c n x := by
  intro bs i rest hr
  obtain ⟨hi, hl⟩ := hx bs i rest hr
  exact ⟨hi, by omega⟩

theorem refuse (r : DecodeRefusal) : Answers p c n (.done (.refuse r)) := by
  intro bs i rest h
  rw [Parse.onBytes] at h
  cases h

theorem need {k : Byte → Parse Decoded} (h : ∀ b, Answers p c n (k b)) : Answers p c (n + 1) (.need k) := by
  intro bs i rest hr
  cases bs with
  | nil => cases hr
  | cons b bs =>
    obtain ⟨hi, hl⟩ := h b bs i rest hr
    exact ⟨hi, by rw [List.length_cons]; omega⟩

/-- A byte that was read counts among those before. -/
theorem pull {x : Parse Decoded} (h : Answers p (c + 1) (n + 1) x) : Answers p c n x := by
  intro bs i rest hr
  obtain ⟨hi, hl⟩ := h bs i rest hr
  exact ⟨hi, by omega⟩

theorem ite {q : Prop} [Decidable q] {x y : Parse Decoded} (hx : q → Answers p c n x) (hy : ¬q → Answers p c n y) :
    Answers p c n (if q then x else y) := iteInduction hx hy

theorem need16 {k : Half → Parse Decoded} (h : ∀ v, Answers p c n (k v)) : Answers p c (n + 2) (need16 k) :=
  .need fun _ => .need fun _ => h _

theorem need32 {k : Word → Parse Decoded} (h : ∀ v, Answers p c n (k v)) : Answers p c (n + 4) (need32 k) :=
  .need fun _ => .need fun _ => .need fun _ => .need fun _ => h _

theorem modRm {k : BitVec 2 → BitVec 3 → BitVec 3 → Parse Decoded} (h : ∀ mod reg rm, Answers p c n (k mod reg rm)) :
    Answers p c (n + 1) (needModRm k) :=
  .need fun _ => h _ _ _

/-! ### Addresses -/

/-- 30_encoding.md R78. -/
theorem addr16 {mod : BitVec 2} {rm : BitVec 3} {k : Addr16 → Parse Decoded}
    (h : ∀ a, a.wf = true → Answers p c n (k a)) : Answers p c (n + 2) (parseAddr16 mod rm k) := by
  refine .ite (fun _ => .ite (fun _ => .need16 fun d => h _ rfl) fun hrm => ?_)
    fun _ => .ite (fun _ => ?_) fun _ => .need16 fun d => ?_
  · exact (h _ (Addr16.wf_based.mpr fun e => Base16.ofBits_ne_bp hrm e.1)).mono (by omega)
  · exact (need fun b => h _ (Addr16.wf_based (d := .d8 b).mpr fun e => nomatch e.2)).mono (by omega)
  · exact h _ (Addr16.wf_based.mpr fun e => nomatch e.2)

/-- 30_encoding.md R76: the displacement is absent with mod = 00 only. -/
theorem disp32 {mod : BitVec 2} {k : Disp32 → Parse Decoded}
    (h : ∀ d, (d = .none → mod = 0#2) → Answers p c n (k d)) : Answers p c (n + 4) (parseDisp32 mod k) := by
  refine .ite (fun hm => ?_) fun _ => .ite (fun _ => ?_) fun _ => .need32 fun d => h _ nofun
  · exact (h _ fun _ => hm).mono (by omega)
  · exact (need fun b => h (.d8 b) nofun).mono (by omega)

/-- 30_encoding.md R77. -/
theorem sib {mod : BitVec 2} {b : Byte} {k : Addr32 → Parse Decoded}
    (h : ∀ a, a.wf = true → Answers p c n (k a)) : Answers p c (n + 4) (parseSib mod b k) := by
  unfold parseSib
  split
  · exact .refuse _
  · next i hi =>
    have hi : i.wf = true := sibIndex?_wf hi
    refine .ite (fun _ => .need32 fun d => h _ hi) fun hb => .disp32 fun d hd => h _ ?_
    refine Addr32.wf_sib.mpr ⟨hi, fun ⟨hr, hn⟩ => hb ⟨?_, hd hn⟩⟩
    exact (Reg.bits_ofBits _).symm.trans (congrArg Reg.bits hr)

/-- 30_encoding.md R76. -/
theorem addr32 {mod : BitVec 2} {rm : BitVec 3} {k : Addr32 → Parse Decoded}
    (h : ∀ a, a.wf = true → Answers p c n (k a)) : Answers p c (n + 5) (parseAddr32 mod rm k) := by
  refine .ite (fun _ => .need fun b => .sib h) fun hesp => .ite (fun _ => ?_) fun hebp => ?_
  · exact (need32 fun d => h _ rfl).mono (by omega)
  · refine (disp32 fun d hd => h _ (Addr32.wf_based.mpr ⟨Reg.ofBits_ne hesp, fun ⟨hr, hn⟩ => ?_⟩)).mono (by omega)
    exact hebp ⟨(Reg.bits_ofBits _).symm.trans (congrArg Reg.bits hr), hd hn⟩

/-- An `r/m` operand takes at most a SIB byte and four bytes after the ModRM byte (30_encoding.md R74). -/
theorem rm {ρ : Type} {ofBits : BitVec 3 → ρ} {asz : Size} {seg : Option SegReg} {mod : BitVec 2} {rm : BitVec 3}
    {k : Rm ρ → Parse Decoded} (h : ∀ x, x.wf = true → Answers p c n (k x)) :
    Answers p c (n + 5) (parseRm ofBits asz seg mod rm k) := by
  refine .ite (fun _ => (h _ rfl).mono (by omega)) fun _ => ?_
  cases asz with
  | s16 => exact (addr16 fun a ha => h (.mem ⟨seg, .a16 a⟩) ha).mono (by omega)
  | s32 => exact .addr32 fun a ha => h (.mem ⟨seg, .a32 a⟩) ha

theorem moffs {asz : Size} {k : Moffs → Parse Decoded} (h : ∀ o, Answers p c n (k o)) :
    Answers p c (n + 4) (parseMoffs asz k) := by
  cases asz with
  | s16 => exact (need16 fun v => h _).mono (by omega)
  | s32 => exact .need32 fun v => h _

end Answers

/-! ### Prefixes and the ends of forms -/

/-- How many prefixes have been read: one for each group that is there (30_encoding.md R71). -/
def Prefixes.count (pf : Prefixes) : Nat :=
  pf.opSize.toNat + pf.addrSize.toNat + pf.seg.isSome.toNat + pf.rep.isSome.toNat + pf.lock.toNat

/-- What is recorded adds one to the count; a repeated byte and an opcode are not recorded. -/
def Prefixes.AddsOne (pf : Prefixes) (x : PrefixByte) : Prop := ∀ pf', x = .added pf' → pf'.count = pf.count + 1

/-- A slot that is free is filled, and one that is not is repeated (30_encoding.md R71). -/
theorem Prefixes.AddsOne.slot {pf new : Prefixes} {taken : Bool} (h : taken = false → new.count = pf.count + 1) :
    pf.AddsOne (if taken then .repeated else .added new) := by
  intro pf' e
  cases taken with
  | false => cases e; exact h rfl
  | true => cases e

theorem Prefixes.addsOne_addSeg (pf : Prefixes) (r : SegReg) : pf.AddsOne (pf.addSeg r) :=
  .slot fun h => by simp only [count, h, Option.isSome_some, Bool.toNat_true, Bool.toNat_false]; omega

theorem Prefixes.addsOne_addRep (pf : Prefixes) (f3 : Bool) : pf.AddsOne (pf.addRep f3) :=
  .slot fun h => by simp only [count, h, Option.isSome_some, Bool.toNat_true, Bool.toNat_false]; omega

/-- By the rows of the table (30_encoding.md R71). -/
theorem Prefixes.addsOne_add (pf : Prefixes) (b : Byte) : pf.AddsOne (pf.add b) := by
  refine iteInduction (fun _ => .slot fun h => ?_) fun _ => ?_
  · simp only [count, h, Bool.toNat_true, Bool.toNat_false]; omega
  refine iteInduction (fun _ => .slot fun h => ?_) fun _ => ?_
  · simp only [count, h, Bool.toNat_true, Bool.toNat_false]; omega
  refine iteInduction (fun _ => pf.addsOne_addSeg .es) fun _ => ?_
  refine iteInduction (fun _ => pf.addsOne_addSeg .cs) fun _ => ?_
  refine iteInduction (fun _ => pf.addsOne_addSeg .ss) fun _ => ?_
  refine iteInduction (fun _ => pf.addsOne_addSeg .ds) fun _ => ?_
  refine iteInduction (fun _ => pf.addsOne_addSeg .fs) fun _ => ?_
  refine iteInduction (fun _ => pf.addsOne_addSeg .gs) fun _ => ?_
  refine iteInduction (fun _ => pf.addsOne_addRep true) fun _ => ?_
  refine iteInduction (fun _ => pf.addsOne_addRep false) fun _ => ?_
  refine iteInduction (fun _ => .slot fun h => ?_) fun _ => nofun
  simp only [count, h, Bool.toNat_true, Bool.toNat_false]

namespace Answers

variable {p : Params} {d : Size} {pf : Prefixes} {n : Nat}

/-- A form that is no string move is answered without REP and LOCK: at most three prefixes (30_encoding.md R71). -/
theorem finish {i : Instr} (h : i.wf = true ∧ i.admitted p = true) : Answers p pf.count (n + 3) (finish pf i) := by
  intro bs j rest hr
  unfold Sys2Proof.finish at hr
  split at hr
  · cases hr
  · cases hr
  · next hrep =>
    split at hr <;> cases hr
    next hlock =>
    have := pf.opSize.toNat_le
    have := pf.addrSize.toNat_le
    have := pf.seg.isSome.toNat_le
    refine ⟨h, ?_⟩
    simp only [Prefixes.count, hrep, hlock, Option.isSome_none, Bool.toNat_false]
    omega

/-- A string move is answered without LOCK: at most four prefixes, REP only where it is admitted (42_movs.md R167). -/
theorem finishString {i : Bool → Instr}
    (h : ∀ rep, (!rep || p.admitRep) = true → (i rep).wf = true ∧ (i rep).admitted p = true) :
    Answers p pf.count (n + 4) (finishString p pf i) := by
  intro bs j rest hr
  have hcount : pf.lock = false → pf.count ≤ 4 := fun hlock => by
    have := pf.opSize.toNat_le
    have := pf.addrSize.toNat_le
    have := pf.seg.isSome.toNat_le
    have := pf.rep.isSome.toNat_le
    simp only [Prefixes.count, hlock, Bool.toNat_false]
    omega
  unfold Sys2Proof.finishString at hr
  split at hr
  · cases hr
  · split at hr
    · next hadmit =>
      split at hr <;> cases hr
      next hlock =>
      have := hcount (Bool.eq_false_of_not_eq_true hlock)
      exact ⟨h true (by rw [hadmit, Bool.or_true]), by omega⟩
    · cases hr
  · split at hr <;> cases hr
    next hlock =>
    have := hcount (Bool.eq_false_of_not_eq_true hlock)
    exact ⟨h false rfl, by omega⟩

/-! ### Opcodes -/

theorem special {k : BitVec 3 → Reg → Parse Decoded} (h : ∀ m g, Answers p pf.count n (k m g)) :
    Answers p pf.count (n + 1) (parseSpecial k) :=
  .modRm fun _ _ _ => .ite (fun _ => h _ _) fun _ => .refuse _

/-- A form that is refused with OperandSize 16 unless ADMIT_MOVX_W16 (92 D13). -/
theorem movxW16 {o : Size} {i : Instr} (hw : i.wf = true)
    (ha : ¬(o = .s16 ∧ (!p.admitMovxW16) = true) → i.admitted p = true) :
    Answers p pf.count (n + 3) (if o = .s16 ∧ !p.admitMovxW16 then .done (.refuse .movxW16) else Sys2Proof.finish pf i) :=
  .ite (fun _ => .refuse _) fun h => .finish ⟨hw, ha h⟩

theorem admitted_of_not_refused {o : Size} (h : ¬(o = .s16 ∧ (!p.admitMovxW16) = true)) (g : Reg) (x : Rm Reg) :
    (Instr.movzxR32Rm16 o g x).admitted p = true ∧ (Instr.movsxR32Rm16 o g x).admitted p = true := by
  cases o with
  | s16 =>
    have : p.admitMovxW16 = true := by simpa using h
    exact ⟨this, this⟩
  | s32 => exact ⟨rfl, rfl⟩

/-- The opcodes `0F xx`, in the order of the definition (30_encoding.md R84). -/
theorem decodeOp2 (op : Byte) : Answers p pf.count 12 (decodeOp2 p d pf op) := by
  unfold Sys2Proof.decodeOp2
  generalize sizeAttr d pf.opSize = o
  refine .ite (fun _ => .special fun m g => ?_) fun _ => ?_
  · cases CtlReg.ofBits? m <;> [exact .refuse _; exact .finish ⟨rfl, rfl⟩]
  refine .ite (fun _ => .special fun m g => ?_) fun _ => ?_
  · rcases debugRegOfBits? m with _ | r | r <;> [exact .refuse _; exact .finish ⟨rfl, rfl⟩; exact .finish ⟨rfl, rfl⟩]
  refine .ite (fun _ => .special fun m g => ?_) fun _ => ?_
  · cases CtlReg.ofBits? m <;> [exact .refuse _; exact .finish ⟨rfl, rfl⟩]
  refine .ite (fun _ => .special fun m g => ?_) fun _ => ?_
  · rcases debugRegOfBits? m with _ | r | r <;> [exact .refuse _; exact .finish ⟨rfl, rfl⟩; exact .finish ⟨rfl, rfl⟩]
  refine .ite (fun _ => .special fun m g => ?_) fun _ => ?_
  · cases TestReg.ofBits? m <;> [exact .refuse _; exact .finish ⟨rfl, rfl⟩]
  refine .ite (fun _ => .special fun m g => ?_) fun _ => ?_
  · cases TestReg.ofBits? m <;> [exact .refuse _; exact .finish ⟨rfl, rfl⟩]
  refine .ite (fun _ => .refuse _) fun _ => ?_
  refine .ite (fun _ => .modRm fun mod reg m => .rm fun x hx => .finish ?_) fun _ => ?_
  · cases o <;> exact ⟨hx, rfl⟩
  refine .ite (fun _ => .modRm fun mod reg m => .rm fun x hx => .movxW16 hx fun h => ?_) fun _ => ?_
  · exact (admitted_of_not_refused h _ _).1
  refine .ite (fun _ => .modRm fun mod reg m => .rm fun x hx => .finish ?_) fun _ => ?_
  · cases o <;> exact ⟨hx, rfl⟩
  refine .ite (fun _ => .modRm fun mod reg m => .rm fun x hx => .movxW16 hx fun h => ?_) fun _ => .refuse _
  exact (admitted_of_not_refused h _ _).2

/-- The opcode map, in the order of the definition: what follows an opcode and three prefixes is at most ten bytes (30_encoding.md R84). -/
theorem decodeOp (op : Byte) : Answers p pf.count 13 (decodeOp p d pf op) := by
  unfold Sys2Proof.decodeOp
  generalize sizeAttr d pf.opSize = o
  refine .ite (fun _ => .need fun op => .decodeOp2 op) fun _ => ?_
  refine .ite (fun _ => .modRm fun mod reg m => .rm fun x hx => .finish ⟨hx, rfl⟩) fun _ => ?_
  refine .ite (fun _ => .modRm fun mod reg m => .rm fun x hx => .finish ?_) fun _ => ?_
  · cases o <;> exact ⟨hx, rfl⟩
  refine .ite (fun _ => .modRm fun mod reg m => .rm fun x hx => .finish ⟨hx, rfl⟩) fun _ => ?_
  refine .ite (fun _ => .modRm fun mod reg m => .rm fun x hx => .finish ?_) fun _ => ?_
  · cases o <;> exact ⟨hx, rfl⟩
  refine .ite (fun _ => .modRm fun mod reg m => .rm fun x hx => .finish ⟨hx, rfl⟩) fun _ => ?_
  refine .ite (fun _ => .modRm fun mod reg m => .rm fun x hx => .finish ⟨hx, rfl⟩) fun _ => ?_
  refine .ite (fun _ => .moffs fun off => .finish ⟨rfl, rfl⟩) fun _ => ?_
  refine .ite (fun _ => .moffs fun off => .finish ?_) fun _ => ?_
  · cases o <;> exact ⟨rfl, rfl⟩
  refine .ite (fun _ => .moffs fun off => .finish ⟨rfl, rfl⟩) fun _ => ?_
  refine .ite (fun _ => .moffs fun off => .finish ?_) fun _ => ?_
  · cases o <;> exact ⟨rfl, rfl⟩
  refine .ite (fun _ => .finishString fun rep h => ?_) fun _ => ?_
  · cases pf.seg <;> exact ⟨rfl, h⟩
  refine .ite (fun _ => .finishString fun rep h => ?_) fun _ => ?_
  · cases pf.seg <;> cases o <;> exact ⟨rfl, h⟩
  refine .ite (fun _ => .need fun imm => .finish ⟨rfl, rfl⟩) fun _ => ?_
  refine .ite (fun _ => ?_) fun _ => ?_
  · cases o with
    | s16 => exact .need16 fun imm => .finish ⟨rfl, rfl⟩
    | s32 => exact .need32 fun imm => .finish ⟨rfl, rfl⟩
  refine .ite (fun _ => .modRm fun mod reg m => .ite (fun _ => ?_) fun _ => .refuse _) fun _ => ?_
  · exact .rm fun x hx => .need fun imm => .finish ⟨hx, rfl⟩
  refine .ite (fun _ => .modRm fun mod reg m => .ite (fun _ => .rm fun x hx => ?_) fun _ => .refuse _) fun _ => ?_
  · cases o with
    | s16 => exact .need16 fun imm => .finish ⟨hx, rfl⟩
    | s32 => exact .need32 fun imm => .finish ⟨hx, rfl⟩
  refine .ite (fun _ => .modRm fun mod reg m => .ite (fun _ => ?_) fun _ => .refuse _) fun _ => ?_
  · exact .rm fun x hx => .finish ⟨hx, rfl⟩
  refine .ite (fun _ => .modRm fun mod reg m => .ite (fun _ => ?_) fun _ => .refuse _) fun _ => .refuse _
  refine .rm fun x hx => .finish ?_
  cases o <;> exact ⟨hx, rfl⟩

/-- The prefixes, by the fuel of their reader, and then the opcode (30_encoding.md R87). -/
theorem decodeFrom (m : Nat) (pf : Prefixes) : Answers p pf.count 14 (decodeFrom p d m pf) := by
  induction m generalizing pf with
  | zero => exact .refuse _
  | succ m ih =>
    refine .need fun b => ?_
    cases hb : pf.add b with
    | opcode => exact .decodeOp b
    | repeated => exact .refuse _
    | added pf' =>
      refine .pull ?_
      rw [← pf.addsOne_add b pf' hb]
      exact ih pf'

end Answers

/-- Settles O46: a form takes at most 14 bytes with its prefixes, and the decoder asks for a byte before it answers. -/
theorem decodedInstructionsAreWellFormed : Obligations.DecodedInstructionsAreWellFormed := by
  intro p d bs rest i h
  obtain ⟨⟨hw, ha⟩, hl⟩ := Answers.decodeFrom 6 Prefixes.empty bs i rest h
  refine ⟨hw, ha, ?_, hl⟩
  cases bs with
  | nil => cases h
  | cons b bs => exact Nat.succ_le_succ (Parse.onBytes_length h)

end Sys2Proof

/-! SUPPORT. Effective addresses as numbers: the sum of their parts, modulo the address size (30_encoding.md R76 to R79). -/

namespace Sys2Proof.Machine

/-- A byte, sign-extended: from 128 on it is 256 less, modulo the width (30_encoding.md R76, R78). -/
theorem toNat_signExtend_byte {w : Nat} (hw : 8 ≤ w) (b : Byte) :
    (b.signExtend w).toNat = if b.toNat < 128 then b.toNat else 2 ^ w - 256 + b.toNat := by
  have hb : b.toNat < 2 ^ w := b.isLt.trans_le (Nat.pow_le_pow_right (by decide) hw)
  rw [BitVec.toNat_signExtend, BitVec.toNat_setWidth, Nat.mod_eq_of_lt hb, BitVec.msb_eq_decide]
  by_cases h : b.toNat < 128
  · simp [h]
  · simp only [h, if_false, decide_eq_true (show 2 ^ (8 - 1) ≤ b.toNat by omega), if_true]
    omega

/-! ### 16-bit addresses -/

theorem toNat_add_modEq {w : Nat} (x y : BitVec w) : (x + y).toNat ≡ x.toNat + y.toNat [MOD 2 ^ w] := by
  rw [BitVec.toNat_add]
  exact Nat.mod_modEq _ _

/-- The sum is taken modulo 2^16 and zero-extended (30_encoding.md R78). -/
theorem effectiveAddr_based16 (s : State) (b : Base16) (d : Disp16) :
    (effectiveAddr s (.a16 (.based b d))).toNat = ((base16Value s b).toNat + (disp16Value d).toNat) % 65536 := by
  rw [effectiveAddr, BitVec.toNat_setWidth_of_le (by decide), BitVec.toNat_add]

/-- Settles O4: base and displacement one by one, and their sum. -/
theorem effectiveAddressSixteen : Obligations.EffectiveAddressSixteen := by
  refine ⟨by decide, fun s b d => ⟨?_, ?_⟩, fun s h => ⟨BitVec.toNat_setWidth_of_le (by decide), rfl⟩⟩
  · refine (effectiveAddr_based16 s b d).trans (Nat.ModEq.add ?_ ?_)
    · cases b with
      | bxSi | bxDi | bpSi | bpDi => exact toNat_add_modEq _ _
      | si | di | bp | bx => rfl
    · cases d with
      | none | d16 => rfl
      | d8 x => exact congrArg (· % 65536) (toNat_signExtend_byte (by decide) x)
  · cases b <;> rfl

/-! ### 32-bit addresses -/

/-- The sum is taken modulo 2^32 (30_encoding.md R76, R77). -/
theorem effectiveAddr_sib (s : State) (i : SibIndex) (b : Reg) (d : Disp32) :
    (effectiveAddr s (.a32 (.sib i b d))).toNat =
      ((readR32 s b).toNat + (sibIndexValue s i).toNat + (disp32Value d).toNat) % 2 ^ 32 := by
  rw [effectiveAddr, BitVec.toNat_add, BitVec.toNat_add, Nat.mod_add_mod]

/-- A scaled index is the register times a power of two, modulo 2^32 (30_encoding.md R77). -/
theorem sibIndexValue_scaled (s : State) (sc : Scale) (r : Reg) :
    (sibIndexValue s (.scaled sc r)).toNat ≡ 2 ^ scaleShift sc * (readR32 s r).toNat [MOD 2 ^ 32] := by
  rw [sibIndexValue, BitVec.toNat_shiftLeft, Nat.shiftLeft_eq, Nat.mul_comm]
  exact Nat.mod_modEq _ _

theorem base32Segment_eq_ss {b : Reg} : base32Segment b = .ss ↔ b = .esp ∨ b = .ebp := by
  cases b <;> simp [base32Segment]

theorem base32Segment_eq_ds {b : Reg} : base32Segment b = .ds ↔ b ≠ .esp ∧ b ≠ .ebp := by
  cases b <;> simp [base32Segment]

/-- Settles O5: index and displacement one by one, their sum with the base, and the segments. -/
theorem effectiveAddressThirtyTwo : Obligations.EffectiveAddressThirtyTwo := by
  refine ⟨fun s b d => ⟨?_, rfl⟩, fun s i b d => ⟨?_, base32Segment_eq_ss, base32Segment_eq_ds⟩,
    fun s i w => ⟨BitVec.add_comm _ _, rfl, rfl, rfl⟩, fun r a => ⟨rfl, rfl⟩⟩
  · exact congrArg (· + disp32Value d) (BitVec.add_zero (readR32 s b)).symm
  · refine (effectiveAddr_sib s i b d).trans (Nat.ModEq.add (Nat.ModEq.add_left _ ?_) ?_)
    · cases i with
      | none => rfl
      | scaled sc r =>
        have h := sibIndexValue_scaled s sc r
        cases sc with
        | x1 => exact h.trans (by rw [scaleShift, Nat.pow_zero, Nat.one_mul])
        | x2 | x4 | x8 => exact h
    · cases d with
      | none | d32 => rfl
      | d8 x => exact congrArg (· % 2 ^ 32) (toNat_signExtend_byte (by decide) x)

end Sys2Proof.Machine

/-! SUPPORT. The step where the bytes at CS:EIP are no instruction: an invalid opcode, refused, too long, or cut short by a
byte that cannot be fetched (30_encoding.md R86, R87). -/

namespace Sys2Proof.Machine

/-! ### The fetch -/

/-- A decoder that has had the bytes fetched so far and has no answer yet asks for the next one (30_encoding.md R87). -/
theorem fetchParse_incomplete {α : Type} {p : Parse α} {i : Nat} {s u : State} {bs : List Byte}
    (hf : fetches i bs s u) (hp : p.onBytes bs = none) (hl : i + bs.length ≤ maxInsnLen) :
    ∃ k : Byte → Parse α, fetchParse p i s = fetchParse (.need k) (i + bs.length) u := by
  induction bs generalizing p i s with
  | nil =>
    cases hf
    cases p with
    | done x => cases hp
    | need k => exact ⟨k, rfl⟩
  | cons b bs ih =>
    cases p with
    | done x => cases hp
    | need k =>
      obtain ⟨t, hb, hf⟩ := hf
      rw [List.length_cons] at hl
      obtain ⟨k', hk⟩ := ih (p := k b) hf hp (by omega)
      refine ⟨k', ?_⟩
      rw [fetchParse, if_pos (by omega), hb, Res.andThen, hk, List.length_cons, Nat.add_right_comm, Nat.add_assoc]

/-- The exception of an instruction that is too long, by the mode (30_encoding.md R87, 60_exceptions.md R210). -/
theorem lengthFault_eq {α : Type} (s : State) : (lengthFault s : Res α) =
    .fault (.exception .gp (if mode s = .realAddress then none else some 0) { s with inhibit := false }) := by
  unfold lengthFault
  split
  · next hm => rw [hm]; rfl
  · next hm => rw [int13Code, hm]; rfl
  · next hm => rw [int13Code, hm]; rfl

section

variable {t u : State} {bs : List Byte}

/-- Bytes that decode to no instruction are its stop (30_encoding.md R86). -/
theorem fetchInstr_of_decoded {d : Decoded} (hf : fetches 0 bs t u)
    (hd : decodeBytes t.params (defaultSize t) bs = some (d, [])) (hl : bs.length ≤ maxInsnLen) :
    fetchInstr t = decodedResult d bs.length u := by
  have hp := fetchParse_complete hf hd (by omega)
  rw [Nat.zero_add] at hp
  rw [fetchInstr, hp, Res.andThen]

/-- Fifteen bytes and no answer are the length fault (30_encoding.md R87). -/
theorem fetchInstr_too_long (hf : fetches 0 bs t u) (hd : decodeBytes t.params (defaultSize t) bs = none)
    (hl : bs.length = maxInsnLen) : fetchInstr t = lengthFault u := by
  obtain ⟨k, hk⟩ := fetchParse_incomplete hf hd (by omega)
  rw [fetchInstr, hk, fetchParse, if_neg (by omega), lengthFault_eq, lengthFault_eq, Res.andThen]

/-- With fewer bytes and no answer the next byte is fetched (30_encoding.md R87). -/
theorem fetchInstr_next_byte (hf : fetches 0 bs t u) (hd : decodeBytes t.params (defaultSize t) bs = none)
    (hl : bs.length < maxInsnLen) :
    ∃ k : Byte → State → Res (Instr × Nat), fetchInstr t = (fetchByte bs.length u).andThen k := by
  obtain ⟨k, hk⟩ := fetchParse_incomplete hf hd (by omega)
  rw [Nat.zero_add] at hk
  rw [fetchInstr, hk, fetchParse, if_pos hl]
  exact ⟨_, by cases fetchByte bs.length u <;> rfl⟩

end

/-! ### The step -/

section

variable {s t : State}

theorem step_of_fetch_fault {f : Fault} (hb : boundary s = .run t) (h : fetchInstr t = .fault f) :
    step s = settle (.fault f) := by
  rw [step_of_run hb, runInstr, h]
  rfl

theorem step_of_fetch_refused {r : Refusal} (hb : boundary s = .run t) (h : fetchInstr t = .refused r) :
    step s = .refused r := by
  rw [step_of_run hb, runInstr, h]
  rfl

/-- An exception of the fetch ends the run, or enters its handler (60_exceptions.md R215; log 8). -/
theorem step_of_fetch_exception {x : Exc} {c : Option Half} {w : State} (hb : boundary s = .run t)
    (h : fetchInstr t = .fault (.exception x c w)) :
    (w.params.excModel = .terminal ∨ mode w ≠ .realAddress → step s = .fault (.exception x c w)) ∧
      (w.params.excModel = .vectored → mode w = .realAddress → step s = deliver (Exc.vector x) w) := by
  have hstep : step s = takeException x c w := step_of_fetch_fault hb h
  exact ⟨fun ht => hstep.trans (takeException_terminal ht), fun hv hm => hstep.trans (takeException_vectored hv hm)⟩

end

/-- Settles O60: what the fetch does with the bytes, and what the step makes of its stop. -/
theorem stepStopsWhereNoInstructionIsFetched : Obligations.StepStopsWhereNoInstructionIsFetched := by
  intro s t u bs hb hl hf
  refine ⟨fun r hd => ?_, fun hd => ?_, fun hd hn => ?_, fun hd hn => ?_⟩
  · exact step_of_fetch_refused hb (fetchInstr_of_decoded hf hd hl)
  · exact step_of_fetch_exception hb (fetchInstr_of_decoded hf hd hl)
  · exact step_of_fetch_exception hb ((fetchInstr_too_long hf hd hn).trans (lengthFault_eq u))
  · obtain ⟨k, hk⟩ := fetchInstr_next_byte hf hd hn
    have hfault : ∀ f, fetchByte bs.length u = .fault f → fetchInstr t = .fault f := fun f h => by
      rw [hk, h, Res.andThen]
    refine ⟨fun r h => step_of_fetch_refused hb (by rw [hk, h, Res.andThen]), fun x c w h => ?_, fun x c w h => ?_,
      fun f h hx => (step_of_fetch_fault hb (hfault f h)).trans (settle_other_fault hx)⟩
    · exact (step_of_fetch_exception hb (hfault _ h)).1
    · exact (step_of_fetch_exception hb (hfault _ h)).2

end Sys2Proof.Machine

/-! SUPPORT. MOV between registers, memory, immediates and the accumulator: where the operand can be read or written the
move completes, and what it has then done (40_mov.md R100 to R120). -/

namespace Sys2Proof.Machine

/-! ### A read or a store that completes -/

/-- An operation whose value is put somewhere by `g` completes where the operation does. -/
theorem readThen_next {α : Type} {r : Res α} {v : α} {u : State} (h : r = .ok v u) (g : α → State → State) :
    (r.andThen fun v s => .ok () (g v s)).outcome = .next (g v u) := by
  rw [h]
  rfl

/-- Where an operand of memory can be read its value is put where `g` puts it (20_memory.md R46). -/
theorem readSeg_then {w n : Nat} {r : SegReg} {off : Word} {s : State} (h : canLoad s r off n = true)
    (g : BitVec w → State → State) :
    ∃ bs u, bs.length = n ∧ readEffect s r off bs u ∧
      (((readSeg r off n s).andThen fun bs s => .ok (leValue w bs) s).andThen fun v s => .ok () (g v s)).outcome =
        .next (g (leValue w bs) u) := by
  obtain ⟨bs, u, hb⟩ := readSeg_complete h
  obtain ⟨he, hl, _⟩ := readSeg_ok hb
  exact ⟨bs, u, hl, he, readThen_next (by rw [hb]; rfl) g⟩

theorem readRm8_then {x : Rm Reg8} {s : State} (h : canReadRm 1 x s = true) (g : Byte → State → State) :
    ∃ v u, reads8 s x v u ∧ ((readRm8 x s).andThen fun v s => .ok () (g v s)).outcome = .next (g v u) := by
  obtain ⟨v, u, hv⟩ := readRm8_complete h
  exact ⟨v, u, (readRm8_ok hv).1, readThen_next hv g⟩

theorem readRm16_then {x : Rm Reg} {s : State} (h : canReadRm 2 x s = true) (g : Half → State → State) :
    ∃ v u, reads16 s x v u ∧ ((readRm16 x s).andThen fun v s => .ok () (g v s)).outcome = .next (g v u) := by
  obtain ⟨v, u, hv⟩ := readRm16_complete h
  exact ⟨v, u, (readRm16_ok hv).1, readThen_next hv g⟩

theorem readRm32_then {x : Rm Reg} {s : State} (h : canReadRm 4 x s = true) (g : Word → State → State) :
    ∃ v u, reads32 s x v u ∧ ((readRm32 x s).andThen fun v s => .ok () (g v s)).outcome = .next (g v u) := by
  obtain ⟨v, u, hv⟩ := readRm32_complete h
  exact ⟨v, u, (readRm32_ok hv).1, readThen_next hv g⟩

/-- Where an operand of memory can be written a value is stored there, low byte first (20_memory.md R41, R47). -/
theorem writeSeg_next {w n : Nat} {r : SegReg} {off : Word} {s : State} (hn : n ≤ 4096) (h : canStore s r off n = true)
    (v : BitVec w) : ∃ t, writeEffect s r off (leBytes n v) t ∧ (writeSeg r off (leBytes n v) s).outcome = .next t := by
  obtain ⟨t, ht⟩ := writeSeg_complete (bs := leBytes n v) (by rw [leBytes_length]; exact h)
  exact ⟨t, (writeSeg_ok (by rw [leBytes_length]; exact hn) ht).1, Res.outcome_next.mpr ⟨(), ht⟩⟩

theorem writeRm8_next {x : Rm Reg8} {s : State} (h : canWriteRm 1 x s = true) (v : Byte) :
    ∃ t, writes8 s x v t ∧ (writeRm8 x v s).outcome = .next t := by
  obtain ⟨t, ht⟩ := writeRm8_complete (v := v) h
  exact ⟨t, (writeRm8_ok ht).1, Res.outcome_next.mpr ⟨(), ht⟩⟩

theorem writeRm16_next {x : Rm Reg} {s : State} (h : canWriteRm 2 x s = true) (v : Half) :
    ∃ t, writes16 s x v t ∧ (writeRm16 x v s).outcome = .next t := by
  obtain ⟨t, ht⟩ := writeRm16_complete (v := v) h
  exact ⟨t, (writeRm16_ok ht).1, Res.outcome_next.mpr ⟨(), ht⟩⟩

theorem writeRm32_next {x : Rm Reg} {s : State} (h : canWriteRm 4 x s = true) (v : Word) :
    ∃ t, writes32 s x v t ∧ (writeRm32 x v s).outcome = .next t := by
  obtain ⟨t, ht⟩ := writeRm32_complete (v := v) h
  exact ⟨t, (writeRm32_ok ht).1, Res.outcome_next.mpr ⟨(), ht⟩⟩

/-! ### The moves -/

/-- Settles O15: a read that completes, then the register. -/
theorem moveOperandToRegister : Obligations.MoveOperandToRegister := fun _ =>
  ⟨fun dst _ h => readRm8_then h (writeR8 dst), fun dst _ h => readRm16_then h (writeR16 dst),
    fun dst _ h => readRm32_then h (writeR32 dst)⟩

/-- Settles O16: the source register is read before the store. -/
theorem moveRegisterToOperand : Obligations.MoveRegisterToOperand := fun s =>
  ⟨fun _ src h => writeRm8_next h (readR8 s src), fun _ src h => writeRm16_next h (readR16 s src),
    fun _ src h => writeRm32_next h (readR32 s src)⟩

/-- Settles O17: a register takes the immediate at once, an operand by a store that completes. -/
theorem moveImmediate : Obligations.MoveImmediate := fun _ =>
  ⟨fun _ _ => rfl, fun _ _ => rfl, fun _ _ => rfl, fun _ v h => writeRm8_next h v, fun _ v h => writeRm16_next h v,
    fun _ v h => writeRm32_next h v⟩

/-- Settles O18: the loads and stores of memory operands, at the segment and the offset that the form names. -/
theorem moveBetweenAccumulatorAndOffset : Obligations.MoveBetweenAccumulatorAndOffset := fun s seg off =>
  have load {w n : Nat} (g : BitVec w → State → State) (h : canLoad s (moffsSegment seg) (moffsOffset off) n = true) :=
    readSeg_then h g
  have store {w n : Nat} (v : BitVec w) (hn : n ≤ 4096)
      (h : canStore s (moffsSegment seg) (moffsOffset off) n = true) := writeSeg_next hn h v
  ⟨load (writeR8 .al), load (writeR16 .eax), load (writeR32 .eax), store (readR8 s .al) (by decide),
    store (readR16 s .eax) (by decide), store (readR32 s .eax) (by decide)⟩

/-- Settles O48: each word is run through the decoder. -/
theorem writtenOutWordsDecode : Obligations.WrittenOutWordsDecode :=
  ⟨rfl, rfl, rfl, rfl, rfl, rfl, rfl, rfl, rfl, rfl, rfl⟩

end Sys2Proof.Machine

/-! SUPPORT. MOV to and from a segment register: the store of a selector, and the load by the mode and by the listing of the
protected mode (40_mov.md R107, R108, R121 to R130). -/

namespace Sys2Proof.Machine

/-! ### The store of a selector -/

/-- A selector is stored wherever its destination can be written, at either operand size (40_mov.md R107). -/
theorem storeSelector_complete {dst : Rm Reg} {s : State} (h : canWriteRm 2 dst s = true) (z : Size) (sel : Half) :
    ∃ t, storeSelector z dst sel s = .ok () t := by
  cases dst with
  | reg r => cases z <;> exact ⟨_, rfl⟩
  | mem m => exact writeRm16_complete h

/-- MOV r,Sreg with OperandSize 16 writes the selector to the low half (40_mov.md R107). -/
theorem exec_movRegSreg (s : State) (g : Reg) (r : SegReg) :
    exec (.movRm16Sreg .s16 (.reg g) (.named r)) s = .next (writeR16 g (readSreg s r).sel s) := rfl

/-- Settles O19: memory takes the selector as any word, a register by the operand size. -/
theorem storeSegmentSelector : Obligations.StoreSegmentSelector := fun s r =>
  ⟨fun _ _ h => writeRm16_next h (readSreg s r).sel, fun g => exec_movRegSreg s g r, fun _ => rfl⟩

/-- Settles O20: the numbers are looked at before the operand, in either direction. -/
theorem segmentNumbersWithoutRegister : Obligations.SegmentNumbersWithoutRegister := by
  refine ⟨fun s src f hf => ?_, fun s z dst f hf => ?_, fun s z dst h => ?_⟩
  · rcases hf with rfl | rfl | rfl <;> rfl
  · rcases hf with rfl | rfl <;> rfl
  · obtain ⟨t, ht⟩ := storeSelector_complete h z (readSreg s .cs).sel
    exact ⟨t, Res.outcome_next.mpr ⟨(), ht⟩⟩

/-! ### MOV Sreg by its load -/

/-- MOV Sreg to a register but CS reads its operand, loads the register, and sets the inhibit for SS (40_mov.md R108,
R126). -/
theorem exec_movSreg {r : SegReg} {src : Rm Reg} {sel : Half} {s u : State} (hr : r ≠ .cs)
    (hu : readRm16 src s = .ok sel u) : exec (.movSregRm16 (.named r) src) s =
      ((loadSreg r sel u).andThen fun _ t => .ok () (inhibitAfter r t)).outcome := by
  have hm : exec (.movSregRm16 (.named r) src) s = (moveToSreg r src s).outcome := by
    cases r with
    | cs => exact absurd rfl hr
    | es | ss | ds | fs | gs => rfl
  rw [hm, moveToSreg, hu]
  rfl

section

variable {r : SegReg} {src : Rm Reg} {sel : Half} {s u : State}

theorem exec_movSreg_next {v : State} (hr : r ≠ .cs) (hu : readRm16 src s = .ok sel u)
    (h : loadSreg r sel u = .ok () v) : exec (.movSregRm16 (.named r) src) s = .next (inhibitAfter r v) := by
  rw [exec_movSreg hr hu, h]
  rfl

theorem exec_movSreg_fault {f : Fault} (hr : r ≠ .cs) (hu : readRm16 src s = .ok sel u)
    (h : loadSreg r sel u = .fault f) : exec (.movSregRm16 (.named r) src) s = .fault f := by
  rw [exec_movSreg hr hu, h]
  rfl

end

theorem inhibitAfter_eq (r : SegReg) (s : State) :
    inhibitAfter r s = { s with inhibit := s.inhibit || decide (r = .ss) } := by
  unfold inhibitAfter
  split
  · next h => simp [h]
  · next h => simp [h]

theorem sameButMemory.readSreg {s t : State} (h : sameButMemory s t) (r : SegReg) :
    Machine.readSreg t r = Machine.readSreg s r := by
  rw [h]
  rfl

/-- The read of a selector operand keeps the mode, the level and the segment registers (20_memory.md R50). -/
theorem readRm16_same {src : Rm Reg} {sel : Half} {s u : State} (h : readRm16 src s = .ok sel u) : sameButMemory s u :=
  (readRm16_ok h).2.1

/-! ### Outside protected mode -/

theorem paragraph_toNat (sel : Half) : (sel.setWidth 32 <<< 4 : Word).toNat = 16 * sel.toNat := by
  have := sel.isLt
  rw [BitVec.toNat_shiftLeft, BitVec.toNat_setWidth, Nat.shiftLeft_eq]
  omega

/-- What a segment register holds after a load of `sel` outside protected mode, by the mode and what it held before
(40_mov.md R125). -/
structure UnprotectedLoad (m : Mode) (old : Segment) (sel : Half) (g : Segment) : Prop where
  selector : g.sel = sel
  base : g.base.toNat = 16 * sel.toNat
  valid : g.valid = true
  real : m = .realAddress → g.limit = old.limit ∧ g.ar = old.ar
  virtual : m = .virtual8086 → g.limit = 0xFFFF#32 ∧ g.ar = virtualRights

/-- Outside protected mode a load completes for every selector (40_mov.md R125). -/
theorem loadSreg_unprotected {s : State} (hm : mode s ≠ .protectedMode) (r : SegReg) (sel : Half) :
    ∃ g, loadSreg r sel s = .ok () (writeSreg r g s) ∧ UnprotectedLoad (mode s) (readSreg s r) sel g := by
  unfold loadSreg
  cases h : mode s with
  | realAddress => exact ⟨_, rfl, rfl, paragraph_toNat sel, rfl, fun _ => ⟨rfl, rfl⟩, nofun⟩
  | virtual8086 => exact ⟨_, rfl, rfl, paragraph_toNat sel, rfl, nofun, fun _ => ⟨rfl, rfl⟩⟩
  | protectedMode => exact absurd h hm

/-- Settles O21: the operand is read, and no selector is refused. -/
theorem segmentLoadOutsideProtectedMode : Obligations.SegmentLoadOutsideProtectedMode := by
  intro s r src hm hr h
  obtain ⟨sel, u, hu⟩ := readRm16_complete h
  have hsame := readRm16_same hu
  obtain ⟨g, hl, hg⟩ := loadSreg_unprotected (hsame.mode ▸ hm) r sel
  rw [hsame.mode, hsame.readSreg] at hg
  refine ⟨sel, u, g, (readRm16_ok hu).1, ?_, hg.selector, hg.base, hg.valid, hg.real, fun hv => ?_⟩
  · rw [exec_movSreg_next hr hu hl, inhibitAfter_eq]
    rfl
  · obtain ⟨hlimit, har⟩ := hg.virtual hv
    rw [har]
    exact ⟨hlimit, rfl, rfl, rfl, rfl, rfl⟩

/-! ### Selectors in protected mode -/

/-- The null selectors are 0000H to 0003H (20_memory.md R61). -/
theorem selectorNull_iff {sel : Half} : selectorNull sel = true ↔ sel.toNat ≤ 3 := by
  have := sel.isLt
  rw [selectorNull, decide_eq_true_iff, ← BitVec.toNat_inj, BitVec.extractLsb'_toNat, Nat.shiftRight_eq_div_pow,
    BitVec.toNat_ofNat]
  omega

theorem selectorRpl_eq (sel : Half) : selectorRpl sel = sel.toNat % 4 := by
  rw [selectorRpl, BitVec.extractLsb'_toNat]
  rfl

section

variable {r : SegReg} {sel : Half} {s : State}

theorem loadSreg_null (hm : mode s = .protectedMode) (hr : r ≠ .ss) (hn : sel.toNat ≤ 3) :
    loadSreg r sel s = .ok () (writeSreg r { readSreg s r with sel := sel, valid := false } s) := by
  simp only [loadSreg, hm, if_neg hr, loadDataSegment, selectorNull_iff.mpr hn, if_true]

/-- A null selector for SS is #GP(0) (40_mov.md R122). -/
theorem loadSreg_null_stack (hm : mode s = .protectedMode) (hn : sel.toNat ≤ 3) :
    loadSreg .ss sel s = .fault (.exception .gp (some 0) { s with inhibit := false }) := by
  simp only [loadSreg, hm, if_true, loadStackSegment, selectorNull_iff.mpr hn, raise]

/-- A selector that is not null loads DS, ES, FS or GS by the listing of R123. -/
theorem loadSreg_data (hm : mode s = .protectedMode) (hr : r ≠ .ss) (hn : 4 ≤ sel.toNat) :
    loadSreg r sel s = loadChecked dataLoadFault r sel s := by
  have hnull : ¬ selectorNull sel = true := fun h => absurd (selectorNull_iff.mp h) (by omega)
  simp only [loadSreg, hm, if_neg hr, loadDataSegment, if_neg hnull]

/-- A selector that is not null loads SS by the listing of R122. -/
theorem loadSreg_stack (hm : mode s = .protectedMode) (hn : 4 ≤ sel.toNat) :
    loadSreg .ss sel s = loadChecked stackLoadFault .ss sel s := by
  have hnull : ¬ selectorNull sel = true := fun h => absurd (selectorNull_iff.mp h) (by omega)
  simp only [loadSreg, hm, if_true, loadStackSegment, if_neg hnull]

end

/-- Settles O22: the load keeps the hidden parts, and the selector can be read back. -/
theorem nullSelectorLoadClearsValid : Obligations.NullSelectorLoadClearsValid := by
  intro s u r src sel hm hr hss hu hn
  have hsame := readRm16_same hu
  have hl := loadSreg_null (hsame.mode.trans hm) hss hn
  rw [hsame.readSreg] at hl
  refine ⟨by rw [exec_movSreg_next hr hu hl, inhibitAfter_ne hss], fun g => ?_⟩
  rw [exec_movRegSreg, readSreg_writeSreg_same]

/-! ### A load through a descriptor table -/

section

variable {check : State → Half → BitVec 64 → Option Exc} {r : SegReg} {src : Rm Reg} {sel : Half} {s u w : State}
  {d : BitVec 64}

/-- The stop of the descriptor fetch is the stop of the load. -/
theorem exec_movSreg_fetch_stop {f : Fault} (hr : r ≠ .cs) (hu : readRm16 src s = .ok sel u)
    (hl : loadSreg r sel u = loadChecked check r sel u) (h : fetchDescriptor sel u = .fault f) :
    exec (.movSregRm16 (.named r) src) s = .fault f := by
  refine exec_movSreg_fault hr hu ?_
  rw [hl, loadChecked, h]
  rfl

/-- A check that fails raises its exception, with the selector as its code (40_mov.md R122, R123). -/
theorem exec_movSreg_check_fails {x : Exc} (hr : r ≠ .cs) (hu : readRm16 src s = .ok sel u)
    (hl : loadSreg r sel u = loadChecked check r sel u) (hw : fetchDescriptor sel u = .ok d w)
    (hc : check w sel d = some x) : exec (.movSregRm16 (.named r) src) s =
      .fault (.exception x (some (selectorCode sel)) { w with inhibit := false }) := by
  refine exec_movSreg_fault hr hu ?_
  simp only [hl, loadChecked, hw, Res.andThen, hc, raise]

/-- Checks that pass leave the accessed bit and the register (40_mov.md R122, R123). -/
theorem exec_movSreg_loaded (hr : r ≠ .cs) (hu : readRm16 src s = .ok sel u)
    (hl : loadSreg r sel u = loadChecked check r sel u) (hw : fetchDescriptor sel u = .ok d w)
    (hc : check w sel d = none) (ha : canMarkAccessed w sel d = true) :
    ∃ v, accessedEffect w sel d v ∧
      exec (.movSregRm16 (.named r) src) s = .next (inhibitAfter r (writeSreg r (loadedSegment sel d) v)) := by
  obtain ⟨v, hv, _, hload⟩ := loadChecked_complete hw hc ha
  exact ⟨v, hv, exec_movSreg_next hr hu (hl.trans hload)⟩

end

/-- The descriptor of a selector operand was fetched at the level of the instruction (10_state.md R18). -/
theorem cpl_fetched {src : Rm Reg} {sel : Half} {d : BitVec 64} {s u w : State} (hu : readRm16 src s = .ok sel u)
    (hw : fetchDescriptor sel u = .ok d w) : cpl w = cpl s :=
  ((readRm16_same hu).trans (fetchDescriptor_ok hw).1.same).cpl

/-! ### The listing for DS, ES, FS and GS -/

theorem descriptorDataOrReadable_iff {d : BitVec 64} : descriptorDataOrReadable d = true ↔
    (d.getLsbD 44 = true ∧ d.getLsbD 43 = false) ∨
      ((d.getLsbD 44 = true ∧ d.getLsbD 43 = true) ∧ d.getLsbD 41 = true) := by
  simp [descriptorDataOrReadable, descriptorIsData, descriptorIsCode]

theorem descriptorDataOrNonconforming_iff {d : BitVec 64} : descriptorDataOrNonconforming d = true ↔
    (d.getLsbD 44 = true ∧ d.getLsbD 43 = false) ∨
      ((d.getLsbD 44 = true ∧ d.getLsbD 43 = true) ∧ d.getLsbD 42 = false) := by
  simp [descriptorDataOrNonconforming, descriptorIsData, descriptorIsCode]

/-- The privilege check of the listing for a data segment register (40_mov.md R123). -/
def dataPrivilegeOk (s : State) (sel : Half) (d : BitVec 64) : Prop :=
  descriptorDataOrNonconforming d = true → selectorRpl sel ≤ descriptorDpl d ∧ cpl s ≤ descriptorDpl d

section

variable {sel : Half} {d : BitVec 64} {s : State}

theorem not_dataPrivilegeOk_iff : ¬ dataPrivilegeOk s sel d ↔ (descriptorDataOrNonconforming d &&
    !(decide (selectorRpl sel ≤ descriptorDpl d) && decide (cpl s ≤ descriptorDpl d))) = true := by
  simp only [dataPrivilegeOk, Classical.not_imp, not_and_or, Bool.and_eq_true, Bool.not_eq_true', Bool.and_eq_false_iff,
    decide_eq_false_iff_not]

/-- The listing for a data segment register: type, privilege, present (40_mov.md R123). -/
theorem dataLoadFault_gp (h : ¬ descriptorDataOrReadable d = true ∨ ¬ dataPrivilegeOk s sel d) :
    dataLoadFault s sel d = some .gp := by
  unfold dataLoadFault
  split
  · rfl
  · next ht =>
    have hp : ¬ dataPrivilegeOk s sel d := h.resolve_left fun h => ht (by simpa using h)
    rw [if_pos (not_dataPrivilegeOk_iff.mp hp)]

theorem dataLoadFault_passed (ht : descriptorDataOrReadable d = true) (hp : dataPrivilegeOk s sel d) :
    dataLoadFault s sel d = if d.getLsbD 47 then none else some .np := by
  rw [dataLoadFault, if_neg (by simp [ht]), if_neg (mt not_dataPrivilegeOk_iff.mpr (not_not.mpr hp)), descriptorPresent]
  cases d.getLsbD 47 <;> rfl

end

/-- Settles O24: the fetch, then the checks in their order, then the accessed bit and the register. -/
theorem dataSegmentLoadFollowsTheListing : Obligations.DataSegmentLoadFollowsTheListing := by
  intro s u r src sel hm hr hss hu hn
  have hl := loadSreg_data ((readRm16_same hu).mode.trans hm) hss hn
  refine ⟨fun f => exec_movSreg_fetch_stop hr hu hl, fun d w hw => ?_⟩
  intro data code typeOk privOk
  have htype : descriptorDataOrReadable d = true ↔ typeOk := descriptorDataOrReadable_iff
  have hpriv : dataPrivilegeOk w sel d ↔ privOk := by
    rw [dataPrivilegeOk, selectorRpl_eq, cpl_fetched hu hw, descriptorDataOrNonconforming_iff]
    rfl
  have passed (ht : typeOk) (hp : privOk) := dataLoadFault_passed (htype.mpr ht) (hpriv.mpr hp)
  refine ⟨fun h => ?_, fun ht hp hd => ?_, fun ht hp hd ha => ?_⟩
  · exact exec_movSreg_check_fails hr hu hl hw (dataLoadFault_gp (h.imp (mt htype.mp) (mt hpriv.mp)))
  · exact exec_movSreg_check_fails hr hu hl hw ((passed ht hp).trans (by rw [hd]; rfl))
  · obtain ⟨v, hv, h⟩ := exec_movSreg_loaded hr hu hl hw ((passed ht hp).trans (if_pos hd)) ha
    exact ⟨v, hv, by rwa [inhibitAfter_ne hss] at h⟩

/-! ### The listing for SS -/

theorem descriptorWritableData_iff {d : BitVec 64} : descriptorWritableData d = true ↔
    d.getLsbD 44 = true ∧ d.getLsbD 43 = false ∧ d.getLsbD 41 = true := by
  simp [descriptorWritableData, descriptorIsData, and_assoc]

section

variable {sel : Half} {d : BitVec 64} {s : State}

/-- The listing for SS: RPL, type, DPL, present (40_mov.md R122). -/
theorem stackLoadFault_gp
    (h : ¬ selectorRpl sel = cpl s ∨ ¬ descriptorWritableData d = true ∨ ¬ descriptorDpl d = cpl s) :
    stackLoadFault s sel d = some .gp := by
  unfold stackLoadFault
  split
  · rfl
  · next hrpl =>
    split
    · rfl
    · next ht =>
      have hdpl : ¬ descriptorDpl d = cpl s := (h.resolve_left hrpl).resolve_left fun h => ht (by simpa using h)
      rw [if_pos hdpl]

theorem stackLoadFault_passed (hrpl : selectorRpl sel = cpl s) (ht : descriptorWritableData d = true)
    (hdpl : descriptorDpl d = cpl s) : stackLoadFault s sel d = if d.getLsbD 47 then none else some .ss := by
  rw [stackLoadFault, if_neg (not_not.mpr hrpl), if_neg (by simp [ht]), if_neg (not_not.mpr hdpl), descriptorPresent]
  cases d.getLsbD 47 <;> rfl

end

/-- Settles O25: the null selector, the fetch, the checks in their order, then the accessed bit, the register and the
inhibit. -/
theorem stackSegmentLoadFollowsTheListing : Obligations.StackSegmentLoadFollowsTheListing := by
  intro s u src sel hm hu
  have hmode := (readRm16_same hu).mode.trans hm
  have hr : SegReg.ss ≠ .cs := by decide
  refine ⟨fun hn => exec_movSreg_fault hr hu (loadSreg_null_stack hmode hn), fun hn f =>
    exec_movSreg_fetch_stop hr hu (loadSreg_stack hmode hn), fun hn d w hw => ?_⟩
  have hl := loadSreg_stack hmode hn
  rw [← cpl_fetched hu hw, ← selectorRpl_eq, ← descriptorWritableData_iff]
  refine ⟨fun h => ?_, fun hrpl ht hdpl hd => ?_, fun hrpl ht hdpl hd ha => ?_⟩
  · exact exec_movSreg_check_fails hr hu hl hw (stackLoadFault_gp h)
  · exact exec_movSreg_check_fails hr hu hl hw ((stackLoadFault_passed hrpl ht hdpl).trans (by rw [hd]; rfl))
  · exact exec_movSreg_loaded hr hu hl hw ((stackLoadFault_passed hrpl ht hdpl).trans (if_pos hd)) ha

end Sys2Proof.Machine

/-! SUPPORT. The special-register moves (41_mov_special.md): the privilege they need (R149), the flags they leave
undefined (R150), what each reads and writes (R141 to R148), and that no other instruction changes a special register. -/

namespace Sys2Proof.Machine

/-! ### The privilege -/

theorem mayMoveSpecial_iff {s : State} :
    mayMoveSpecial s = true ↔ mode s = .realAddress ∨ (mode s = .protectedMode ∧ cpl s = 0) := by
  unfold mayMoveSpecial
  cases mode s <;> simp

theorem mayMoveSpecial_eq_false_iff {s : State} :
    mayMoveSpecial s = false ↔ mode s = .virtual8086 ∨ (mode s = .protectedMode ∧ cpl s ≠ 0) := by
  unfold mayMoveSpecial
  cases mode s <;> simp

/-! ### The eight forms -/

/-- The descriptor-table registers and the task register are the same. -/
def SameTables (y z : SysRegs) : Prop := z.gdtr = y.gdtr ∧ z.ldtr = y.ldtr ∧ z.idtr = y.idtr ∧ z.task = y.task

/-- What holds of every form's own part of a special-register move from `s`: it raises no exception, takes draws but gives
none back, and keeps the descriptor-table registers. -/
structure SpecialPart (s : State) (r : Res Unit) : Prop where
  no_fault : ∀ f, r ≠ .fault f
  moved : ∀ u, r = .ok () u → s.draws ≤ u.draws ∧ SameTables s.sys u.sys

theorem SpecialPart.ok {s u : State} (hd : s.draws ≤ u.draws) (ht : SameTables s.sys u.sys) : SpecialPart s (.ok () u) :=
  ⟨fun _ h => (by cases h), fun _ h => (by cases h; exact ⟨hd, ht⟩)⟩

theorem SpecialPart.refused (s : State) (x : Refusal) : SpecialPart s (.refused x) :=
  ⟨fun _ h => (by cases h), fun _ h => (by cases h)⟩

theorem SpecialPart.readControl (dst : Reg) (src : CtlReg) (s : State) :
    SpecialPart s (.ok () (Machine.readControl dst src s)) := by
  cases src with
  | cr0 | cr3 => exact .ok (Nat.le_succ _) ⟨rfl, rfl, rfl, rfl⟩
  | cr2 => exact .ok (Nat.le_refl _) ⟨rfl, rfl, rfl, rfl⟩

theorem SpecialPart.writeControl (dst : CtlReg) (v : Word) (s : State) :
    SpecialPart s (Machine.writeControl dst v s) := by
  cases dst with
  | cr0 => exact iteInduction (fun _ => .ok (Nat.le_refl _) ⟨rfl, rfl, rfl, rfl⟩) fun _ => .refused s _
  | cr2 | cr3 => exact .ok (Nat.le_refl _) ⟨rfl, rfl, rfl, rfl⟩

theorem SpecialPart.writeBreak (r : BreakReg) (v : Word) (s : State) :
    SpecialPart s (.ok () (Machine.writeBreak r v s)) := by
  cases r <;> exact .ok (Nat.le_refl _) ⟨rfl, rfl, rfl, rfl⟩

theorem SpecialPart.writeDebug (r : DebugReg) (v : Word) (s : State) : SpecialPart s (Machine.writeDebug r v s) := by
  cases r with
  | dr6 => exact .ok (Nat.le_refl _) ⟨rfl, rfl, rfl, rfl⟩
  | dr7 => exact iteInduction (fun _ => .refused s _) fun _ => .ok (Nat.le_refl _) ⟨rfl, rfl, rfl, rfl⟩

theorem SpecialPart.writeTest (r : TestReg) (v : Word) (s : State) : SpecialPart s (Machine.writeTest r v s) := by
  refine iteInduction (fun _ => ?_) fun _ => .refused s _
  cases r <;> exact .ok (Nat.le_refl _) ⟨rfl, rfl, rfl, rfl⟩

section

variable (g : Reg) (s : State)

theorem exec_movR32Cr (c : CtlReg) :
    exec (.movR32Cr g c) s = specialMove false (fun s => .ok () (readControl g c s)) s := rfl

theorem exec_movCrR32 (c : CtlReg) :
    exec (.movCrR32 c g) s = specialMove (decide (c = .cr3)) (fun s => writeControl c (readR32 s g) s) s := rfl

theorem exec_movR32Dr03 (r : BreakReg) :
    exec (.movR32Dr03 g r) s = specialMove false (fun s => .ok () (writeR32 g (readBreak s r) s)) s := rfl

theorem exec_movR32Dr67 (r : DebugReg) :
    exec (.movR32Dr67 g r) s = specialMove false (fun s => .ok () (writeR32 g (readDebug s r) s)) s := rfl

theorem exec_movDr03R32 (r : BreakReg) :
    exec (.movDr03R32 r g) s = specialMove false (fun s => .ok () (writeBreak r (readR32 s g) s)) s := rfl

theorem exec_movDr67R32 (r : DebugReg) :
    exec (.movDr67R32 r g) s = specialMove false (fun s => writeDebug r (readR32 s g) s) s := rfl

theorem exec_movR32Tr (r : TestReg) :
    exec (.movR32Tr g r) s = specialMove false (fun s => .ok () (readTest g s)) s := rfl

theorem exec_movTrR32 (r : TestReg) :
    exec (.movTrR32 r g) s = specialMove false (fun s => writeTest r (readR32 s g) s) s := rfl

end

/-- Every special-register move is the common sequence around its own part (41_mov_special.md R140). -/
theorem exec_special {i : Instr} (h : isSpecialMove i = true) (s : State) :
    ∃ w mv, exec i s = specialMove w mv s ∧ SpecialPart s (mv s) := by
  cases i with
  | movR32Cr g c => exact ⟨_, _, exec_movR32Cr g s c, .readControl g c s⟩
  | movCrR32 c g => exact ⟨_, _, exec_movCrR32 g s c, .writeControl c (readR32 s g) s⟩
  | movR32Dr03 g r => exact ⟨_, _, exec_movR32Dr03 g s r, .ok (Nat.le_refl _) ⟨rfl, rfl, rfl, rfl⟩⟩
  | movR32Dr67 g r => exact ⟨_, _, exec_movR32Dr67 g s r, .ok (Nat.le_refl _) ⟨rfl, rfl, rfl, rfl⟩⟩
  | movDr03R32 r g => exact ⟨_, _, exec_movDr03R32 g s r, .writeBreak r (readR32 s g) s⟩
  | movDr67R32 r g => exact ⟨_, _, exec_movDr67R32 g s r, .writeDebug r (readR32 s g) s⟩
  | movR32Tr g r => exact ⟨_, _, exec_movR32Tr g s r, .ok (Nat.le_succ _) ⟨rfl, rfl, rfl, rfl⟩⟩
  | movTrR32 r g => exact ⟨_, _, exec_movTrR32 g s r, .writeTest r (readR32 s g) s⟩
  | _ => cases h

/-- A special-register move that completes had the privilege, moved, and left six flags undefined (41_mov_special.md R140,
R149, R150). -/
theorem exec_special_next {i : Instr} {s t : State} (h : isSpecialMove i = true) (ht : exec i s = .next t) :
    mayMoveSpecial s = true ∧
      ∃ u, s.draws ≤ u.draws ∧ SameTables s.sys u.sys ∧ t = undefineFlags u specialMoveFlags := by
  obtain ⟨w, mv, he, hmv⟩ := exec_special h s
  obtain ⟨hm, _, u, hu, ht⟩ := specialMove_next (he ▸ ht)
  obtain ⟨hdraws, htables⟩ := hmv.moved u hu
  exact ⟨hm, u, hdraws, htables, ht⟩

/-- Settles O28: the check of the common sequence is the only fault, since no form's own part has one. -/
theorem specialMovesNeedLevelZero : Obligations.SpecialMovesNeedLevelZero := by
  intro i s h
  obtain ⟨w, mv, he, hmv⟩ := exec_special h s
  rw [← mayMoveSpecial_iff, ← mayMoveSpecial_eq_false_iff, he]
  refine ⟨specialMove_forbidden, fun hm f hf => ?_⟩
  obtain ⟨hm', _⟩ := specialMove_fault hf hmv.no_fault
  rw [hm] at hm'
  cases hm'

/-! ### The undefined flags -/

/-- A flag that is made undefined holds the draw of its place in the list (92 D20). -/
theorem getFlag_undefineFlags_mem (s : State) {fs : List Flag} (hn : fs.Nodup) {f : Flag} (hf : f ∈ fs) :
    getFlag (undefineFlags s fs) f = (Config.freeWord (s.draws + fs.idxOf f)).getLsbD 0 := by
  induction fs generalizing s with
  | nil => cases hf
  | cons g fs ih =>
    obtain ⟨hg, hn⟩ := List.nodup_cons.mp hn
    rw [undefineFlags]
    by_cases h : f = g
    · subst h
      rw [getFlag_undefineFlags _ _ _ hg, List.idxOf_cons_self]
      exact getFlag_setFlag_same s f _
    · have hf : f ∈ fs := (List.mem_cons.mp hf).resolve_left h
      rw [ih _ hn hf, List.idxOf_cons_ne _ (Ne.symm h)]
      exact congrArg (fun n => (Config.freeWord n).getLsbD 0) (by simp only [undefineFlag, advanceDraw, setFlag]; omega)

/-- Flags made undefined after `s` are draws taken since `s`, at different places (92 D20). -/
theorem undefineFlags_drawn {s u : State} (h : s.draws ≤ u.draws) {fs : List Flag} (hn : fs.Nodup) :
    ∃ n : Flag → Nat, (∀ f, f ∈ fs → flagDrawn s (undefineFlags u fs) f (n f)) ∧
      ∀ f g, f ∈ fs → g ∈ fs → n f = n g → f = g := by
  refine ⟨fun f => u.draws + fs.idxOf f, fun f hf => ?_,
    fun f g hf _ e => (List.idxOf_inj hf).mp (Nat.add_left_cancel e)⟩
  have := List.idxOf_lt_length_of_mem hf
  exact ⟨by dsimp only; omega, by rw [undefineFlags_draws]; dsimp only; omega, getFlag_undefineFlags_mem u hn hf⟩

/-- Settles O29: six draws at different places; the rest is what every instruction keeps of EFLAGS. -/
theorem specialMoveFlagsAreUndefined : Obligations.SpecialMoveFlagsAreUndefined := by
  intro i s t h ht
  obtain ⟨_, u, hdraws, _, rfl⟩ := exec_special_next h ht
  exact ⟨undefineFlags_drawn hdraws (by decide), (exec_next ht).otherFlags⟩

/-! ### Who changes special registers -/

theorem DataOnly.sys {s t : State} (h : DataOnly s t) : t.sys = s.sys := by rw [h.same]

theorem inhibitAfter_writeSreg_sys (r : SegReg) (g : Segment) (s : State) :
    (inhibitAfter r (writeSreg r g s)).sys = s.sys := by simp

/-- An instruction that is no special-register move keeps the special registers (10_state.md R24, R28). -/
theorem Completion.sys {i : Instr} {s t : State} (h : Completion i s t) (hp : isSpecialMove i = false) :
    t.sys = s.sys := by
  cases h with
  | data _ _ _ h => exact h.sys
  | mul _ _ c u hu ht => rw [ht, mulFlags_sys, hu.sys]
  | special _ hp' => rw [hp] at hp'; cases hp'
  | sreg r src _ _ h =>
    obtain ⟨g, u, hu, rfl⟩ := moveToSreg_frame h
    rw [inhibitAfter_writeSreg_sys, (DataOnly.of_memoryOnly hu).sys]

/-- Settles O41: a special-register move that completes had the privilege and keeps the tables; the other instructions keep
all special registers. -/
theorem systemStateNeedsPrivilege : Obligations.SystemStateNeedsPrivilege := by
  intro i s t h
  cases hi : isSpecialMove i with
  | false =>
    have hsys := (exec_next h).sys hi
    exact ⟨fun _ => hsys, by rw [hsys]; exact ⟨rfl, rfl, rfl, rfl⟩⟩
  | true =>
    obtain ⟨hm, u, _, htables, rfl⟩ := exec_special_next hi h
    rw [undefineFlags_sys]
    refine ⟨?_, htables⟩
    rintro (hno | hno)
    · cases hno
    · rw [hm] at hno; cases hno

/-! ### Reads and writes that complete -/

theorem undefineFlags_frame (s : State) (fs : List Flag) : undefineFlags s fs =
    { s with eflags := (undefineFlags s fs).eflags, draws := (undefineFlags s fs).draws } := by
  induction fs generalizing s with
  | nil => rfl
  | cons f fs ih => exact ih (undefineFlag s f)

section

variable {i : Instr} {s u : State} {w : Bool} {mv : State → Res Unit}

/-- A special-register move that may execute leaves what its own part leaves, but for flags and draws
(41_mov_special.md R140). -/
theorem exec_special_completes (he : exec i s = specialMove w mv s) (hm : mayMoveSpecial s = true)
    (hs : s.staleTables = true → w = true) (hu : mv s = .ok () u) :
    ∃ t, exec i s = .next t ∧ t = { u with eflags := t.eflags, draws := t.draws } :=
  ⟨_, he.trans (specialMove_complete hm hs hu), undefineFlags_frame u _⟩

/-- Where no live-table store waits, any special-register move may run, writing CR3 or not (20_memory.md R59). -/
theorem no_wait (hs : s.staleTables = false) (h : s.staleTables = true) : w = true := by
  rw [hs] at h
  cases h

/-- A special-register move that may execute is refused where its own part is (41_mov_special.md R153 to R155). -/
theorem exec_special_refused {x : Refusal} (he : exec i s = specialMove w mv s) (hm : mayMoveSpecial s = true)
    (hs : s.staleTables = false) (hx : mv s = .refused x) : exec i s = .refused x := by
  rw [he]
  simp [specialMove, hm, hs, hx, Res.andThen, Res.outcome]

/-- A special-register move that may execute and whose own part loads a general register (41_mov_special.md R141, R143,
R144, R147). -/
theorem exec_special_reads {dst : Reg} {v : Word} {n : Nat} (he : exec i s = specialMove w mv s)
    (hm : mayMoveSpecial s = true) (hs : s.staleTables = false)
    (hu : mv s = .ok () { writeR32 dst v s with draws := n }) :
    ∃ t, exec i s = .next t ∧ readR32 t dst = v ∧ (∀ q, q ≠ dst → readR32 t q = readR32 s q) ∧
      t = { s with regs := t.regs, eflags := t.eflags, draws := t.draws } := by
  obtain ⟨t, ht, e⟩ := exec_special_completes he hm (no_wait hs) hu
  have hregs : t.regs = (writeR32 dst v s).regs := by rw [e]
  refine ⟨t, ht, ?_, fun q hq => ?_, by rw [e]; rfl⟩
  · rw [readR32, hregs]
    exact readR32_writeR32_same dst v s
  · rw [readR32, hregs]
    exact readR32_writeR32_ne v s hq

end

/-- Settles O30: each read loads its value; the reserved bits of CR0 and CR3 are those outside the defined ones. -/
theorem readSpecialRegister : Obligations.ReadSpecialRegister := by
  intro s dst hm hs
  refine ⟨?_, ?_, ?_, ?_, ?_, ?_, ?_, ?_, ?_, ?_, ?_⟩
  · exact exec_special_reads (exec_movR32Cr dst s .cr2) hm hs rfl
  · exact exec_special_reads (exec_movR32Cr dst s .cr0) hm hs rfl
  · exact exec_special_reads (exec_movR32Cr dst s .cr3) hm hs rfl
  · exact exec_special_reads (exec_movR32Dr03 dst s .dr0) hm hs rfl
  · exact exec_special_reads (exec_movR32Dr03 dst s .dr1) hm hs rfl
  · exact exec_special_reads (exec_movR32Dr03 dst s .dr2) hm hs rfl
  · exact exec_special_reads (exec_movR32Dr03 dst s .dr3) hm hs rfl
  · exact exec_special_reads (exec_movR32Dr67 dst s .dr6) hm hs rfl
  · exact exec_special_reads (exec_movR32Dr67 dst s .dr7) hm hs rfl
  · exact exec_special_reads (exec_movR32Tr dst s .tr6) hm hs rfl
  · exact exec_special_reads (exec_movR32Tr dst s .tr7) hm hs rfl

theorem keepsMode_iff {old new : Word} :
    keepsMode old new = true ↔ new.getLsbD 0 = old.getLsbD 0 ∧ new.getLsbD 31 = old.getLsbD 31 := by
  simp only [keepsMode, Bool.and_eq_true, decide_eq_true_eq]
  exact and_congr eq_comm eq_comm

theorem armsBreakpoint_iff {v : Word} : armsBreakpoint v = true ↔ v &&& 0x20FF#32 ≠ 0#32 := by
  simp [armsBreakpoint]

/-- Settles O31: a CR0 write asks whether PE and PG keep, a CR3 write asks nothing. -/
theorem writeControlRegister : Obligations.WriteControlRegister := by
  intro s src hm
  refine ⟨fun hs => ?_, exec_special_completes (exec_movCrR32 src s .cr3) hm (fun _ => rfl) rfl⟩
  rw [← keepsMode_iff]
  refine ⟨fun h => ?_, fun h hno => ?_, exec_special_completes (exec_movCrR32 src s .cr2) hm (no_wait hs) rfl⟩
  · exact exec_special_completes (exec_movCrR32 src s .cr0) hm (no_wait hs) (if_pos ((Bool.or_eq_true _ _).mpr h))
  · exact exec_special_refused (exec_movCrR32 src s .cr0) hm hs (if_neg (by simp [h, hno]))

/-- Settles O32: DR7 asks whether the value arms a breakpoint, TR6 and TR7 whether the switch admits the write. -/
theorem writeDebugOrTestRegister : Obligations.WriteDebugOrTestRegister := by
  intro s src hm hs
  refine ⟨?_, ?_, ?_, ?_, ?_, fun h => ?_, fun harm hno => ?_, fun hno r => ?_, fun hadmit => ⟨?_, ?_⟩⟩
  · exact exec_special_completes (exec_movDr03R32 src s .dr0) hm (no_wait hs) rfl
  · exact exec_special_completes (exec_movDr03R32 src s .dr1) hm (no_wait hs) rfl
  · exact exec_special_completes (exec_movDr03R32 src s .dr2) hm (no_wait hs) rfl
  · exact exec_special_completes (exec_movDr03R32 src s .dr3) hm (no_wait hs) rfl
  · exact exec_special_completes (exec_movDr67R32 src s .dr6) hm (no_wait hs) rfl
  · refine exec_special_completes (exec_movDr67R32 src s .dr7) hm (no_wait hs) (if_neg ?_)
    rcases h with h | h <;> simp [armsBreakpoint_iff, h]
  · exact exec_special_refused (exec_movDr67R32 src s .dr7) hm hs (if_pos (by simp [armsBreakpoint_iff, harm, hno]))
  · exact exec_special_refused (exec_movTrR32 src s r) hm hs (if_neg (by simp [hno]))
  · exact exec_special_completes (exec_movTrR32 src s .tr6) hm (no_wait hs) (if_pos hadmit)
  · exact exec_special_completes (exec_movTrR32 src s .tr7) hm (no_wait hs) (if_pos hadmit)

end Sys2Proof.Machine

/-! SUPPORT. What the decoder refuses (30_encoding.md R71, R77, R85, R86; 41_mov_special.md R151, R152): what the bytes of a
form spell is one question, what REP, LOCK and the parameters make of it is another. -/

namespace Sys2Proof

open Machine

/-! ### One prefix byte -/

/-- The slot of a prefix group is taken (30_encoding.md R71). -/
def Prefixes.has (pf : Prefixes) : Nat → Bool
  | 0 => pf.opSize
  | 1 => pf.addrSize
  | 2 => pf.seg.isSome
  | 3 => pf.rep.isSome
  | 4 => pf.lock
  | _ => false

/-- What the prefix reader makes of a byte, by its group: an opcode, a repeated group, or a slot taken. The slot of REP and
REPNE matters to its own group only. -/
inductive Prefixes.Reads (pf : Prefixes) (b : Byte) : Prop where
  | opcode (hg : prefixGroup b = none) (h : ∀ r, { pf with rep := r }.add b = .opcode)
  | repeated (g : Nat) (hg : prefixGroup b = some g) (hh : pf.has g = true) (h : pf.add b = .repeated)
  | added (g : Nat) (pf' : Prefixes) (hg : prefixGroup b = some g) (hfree : pf.has g = false) (h : pf.add b = .added pf')
      (hh : ∀ k ∈ [0, 1, 2, 3, 4], pf'.has k = (pf.has k || k == g))
      (hr : g ≠ 3 → pf'.rep = pf.rep ∧ ∀ r, { pf with rep := r }.add b = .added { pf' with rep := r })

/-- A row of the prefix table whose group is not that of REP (30_encoding.md R71). -/
theorem Prefixes.Reads.row {pf : Prefixes} {b : Byte} {g : Nat} {pf' : Prefixes} (hg : prefixGroup b = some g)
    (h : ∀ r, { pf with rep := r }.add b = if pf.has g then .repeated else .added { pf' with rep := r })
    (hh : ∀ k ∈ [0, 1, 2, 3, 4], pf'.has k = (pf.has k || k == g)) (hr : pf'.rep = pf.rep) : pf.Reads b := by
  have hadd : pf.add b = if pf.has g then .repeated else .added pf' := (h pf.rep).trans (by rw [← hr])
  cases hs : pf.has g with
  | true => exact .repeated g hg hs (by rw [hadd, hs]; rfl)
  | false =>
    refine .added g pf' hg hs (by rw [hadd, hs]; rfl) hh fun _ => ⟨hr, fun r => ?_⟩
    rw [h r, hs]
    rfl

/-- The rows of the prefix table for F3 and F2 (30_encoding.md R71). -/
theorem Prefixes.Reads.rep {pf : Prefixes} {b : Byte} {f3 : Bool} (hg : prefixGroup b = some 3)
    (h : pf.add b = pf.addRep f3) : pf.Reads b := by
  unfold addRep at h
  cases hs : pf.rep.isSome with
  | true => exact .repeated 3 hg hs (by rw [h, hs]; rfl)
  | false =>
    refine .added 3 { pf with rep := some f3 } hg hs (by rw [h, hs]; rfl) (by simp [has]) fun h => absurd rfl h

/-- A byte with no group is none of the table (30_encoding.md R71). -/
theorem prefixGroup_eq_none {b : Byte} : prefixGroup b = none ↔
    b ∉ [0x66#8, 0x67#8, 0x26#8, 0x2E#8, 0x36#8, 0x3E#8, 0x64#8, 0x65#8, 0xF3#8, 0xF2#8, 0xF0#8] := by
  revert b; decide

/-- The prefix table, row by row (30_encoding.md R71). -/
theorem Prefixes.reads (pf : Prefixes) (b : Byte) : pf.Reads b := by
  by_cases hb : prefixGroup b = none
  · refine .opcode hb fun r => ?_
    rw [prefixGroup_eq_none] at hb
    simp only [List.mem_cons, List.not_mem_nil, or_false, not_or] at hb
    simp only [add, hb, if_false]
  · rw [prefixGroup_eq_none, not_not] at hb
    simp only [List.mem_cons, List.not_mem_nil, or_false] at hb
    rcases hb with rfl | rfl | rfl | rfl | rfl | rfl | rfl | rfl | rfl | rfl | rfl
    · exact .row (g := 0) (pf' := { pf with opSize := true }) rfl (fun _ => rfl) (by simp [has]) rfl
    · exact .row (g := 1) (pf' := { pf with addrSize := true }) rfl (fun _ => rfl) (by simp [has]) rfl
    · exact .row (g := 2) (pf' := { pf with seg := some .es }) rfl (fun _ => rfl) (by simp [has]) rfl
    · exact .row (g := 2) (pf' := { pf with seg := some .cs }) rfl (fun _ => rfl) (by simp [has]) rfl
    · exact .row (g := 2) (pf' := { pf with seg := some .ss }) rfl (fun _ => rfl) (by simp [has]) rfl
    · exact .row (g := 2) (pf' := { pf with seg := some .ds }) rfl (fun _ => rfl) (by simp [has]) rfl
    · exact .row (g := 2) (pf' := { pf with seg := some .fs }) rfl (fun _ => rfl) (by simp [has]) rfl
    · exact .row (g := 2) (pf' := { pf with seg := some .gs }) rfl (fun _ => rfl) (by simp [has]) rfl
    · exact .rep (f3 := true) rfl rfl
    · exact .rep (f3 := false) rfl rfl
    · exact .row (g := 4) (pf' := { pf with lock := true }) rfl (fun _ => rfl) (by simp [has]) rfl

theorem prefixGroup_mem {b : Byte} {g : Nat} (h : prefixGroup b = some g) : g ∈ [0, 1, 2, 3, 4] := by
  revert h
  unfold prefixGroup
  split_ifs <;> rintro ⟨⟩ <;> decide

/-! ### What the bytes spell, and what is made of it -/

/-- The answer of a parser, changed. -/
def Parse.map {α β : Type} (f : α → β) : Parse α → Parse β
  | .done a => .done (f a)
  | .need k => .need fun b => (k b).map f

theorem Parse.map_onBytes {α β : Type} (f : α → β) (x : Parse α) (bs : List Byte) :
    (x.map f).onBytes bs = (x.onBytes bs).map fun r => (f r.1, r.2) := by
  induction x generalizing bs with
  | done a => rfl
  | need k ih =>
    cases bs with
    | nil => rfl
    | cons b bs => exact ih b bs

/-- Replace an instruction by another answer; a stop stays. -/
def Decoded.mapInstr (f : Instr → Decoded) : Decoded → Decoded
  | .instr i => f i
  | .invalidOpcode => .invalidOpcode
  | .refuse r => .refuse r

/-- The string move with REP (42_movs.md R167). -/
def Instr.repeated : Instr → Instr
  | .movsM8M8 _ asz src => .movsM8M8 true asz src
  | .movsM16M16 _ asz src => .movsM16M16 true asz src
  | .movsM32M32 _ asz src => .movsM32M32 true asz src
  | .movsb _ asz => .movsb true asz
  | .movsw _ asz => .movsw true asz
  | .movsd _ asz => .movsd true asz
  | i => i

/-- The parameters, with the 16-bit forms of MOVSX and MOVZX admitted (92 D13). -/
def Params.withMovxW16 (p : Params) : Params := { p with admitMovxW16 := true }

/-- The prefixes that say how the bytes after them are read: REP, REPNE and LOCK left out. -/
def Prefixes.bare (pf : Prefixes) : Prefixes := { pf with rep := none, lock := false }

@[simp] theorem Prefixes.bare_opSize (pf : Prefixes) : pf.bare.opSize = pf.opSize := rfl

@[simp] theorem Prefixes.bare_seg (pf : Prefixes) : pf.bare.seg = pf.seg := rfl

/-- What is made of the instruction `i` that the bytes spell, where `rep` is F3 or F2 before it, by R71, R86 and the
parameters. -/
def answerFor (p : Params) (rep : Option Bool) (lock : Bool) (i : Instr) : Decoded :=
  if i.admitted p then
    match rep with
    | none => lockedOr lock i
    | some false => .refuse .repne
    | some true =>
      if isStringMove i then (if p.admitRep then lockedOr lock i.repeated else .refuse .repNotAdmitted)
      else .refuse .repBeforeNonString
  else .refuse .movxW16

section

variable {p : Params} {lock : Bool} {i : Instr}

theorem answerFor_none (ha : i.admitted p = true) : answerFor p none lock i = lockedOr lock i := if_pos ha

theorem answerFor_repne (ha : i.admitted p = true) : answerFor p (some false) lock i = .refuse .repne := if_pos ha

theorem answerFor_rep_string (ha : i.admitted p = true) (hs : isStringMove i = true) :
    answerFor p (some true) lock i = if p.admitRep then lockedOr lock i.repeated else .refuse .repNotAdmitted :=
  (if_pos ha).trans (if_pos hs)

theorem answerFor_rep_other (ha : i.admitted p = true) (hs : isStringMove i = false) :
    answerFor p (some true) lock i = .refuse .repBeforeNonString :=
  (if_pos ha).trans (if_neg (by rw [hs]; decide))

theorem answerFor_not_admitted {rep : Option Bool} (ha : i.admitted p = false) :
    answerFor p rep lock i = .refuse .movxW16 :=
  if_neg (by rw [ha]; decide)

end

/-- The parser `x`, after the prefixes `pf`, answers what is made of the instruction that `y` spells. -/
def Spells (p : Params) (pf : Prefixes) (x y : Parse Decoded) : Prop :=
  x = y.map (.mapInstr (answerFor p pf.rep pf.lock))

namespace Spells

variable {p : Params} {pf : Prefixes}

theorem refuse (r : DecodeRefusal) : Spells p pf (.done (.refuse r)) (.done (.refuse r)) := rfl

theorem need {k l : Byte → Parse Decoded} (h : ∀ b, Spells p pf (k b) (l b)) : Spells p pf (.need k) (.need l) :=
  congrArg Parse.need (funext h)

theorem ite {q : Prop} [Decidable q] {x y x' y' : Parse Decoded} (hx : q → Spells p pf x x')
    (hy : ¬q → Spells p pf y y') : Spells p pf (if q then x else y) (if q then x' else y') := by
  split
  · next h => exact hx h
  · next h => exact hy h

theorem need16 {k l : Half → Parse Decoded} (h : ∀ v, Spells p pf (k v) (l v)) : Spells p pf (need16 k) (need16 l) :=
  .need fun _ => .need fun _ => h _

theorem need32 {k l : Word → Parse Decoded} (h : ∀ v, Spells p pf (k v) (l v)) : Spells p pf (need32 k) (need32 l) :=
  .need fun _ => .need fun _ => .need fun _ => .need fun _ => h _

theorem modRm {k l : BitVec 2 → BitVec 3 → BitVec 3 → Parse Decoded}
    (h : ∀ mod reg rm, Spells p pf (k mod reg rm) (l mod reg rm)) : Spells p pf (needModRm k) (needModRm l) :=
  .need fun _ => h _ _ _

theorem special {k l : BitVec 3 → Reg → Parse Decoded} (h : ∀ n g, Spells p pf (k n g) (l n g)) :
    Spells p pf (parseSpecial k) (parseSpecial l) :=
  .modRm fun _ _ _ => .ite (fun _ => h _ _) fun _ => .refuse _

/-! ### Addresses -/

theorem addr16 {mod : BitVec 2} {rm : BitVec 3} {k l : Addr16 → Parse Decoded} (h : ∀ a, Spells p pf (k a) (l a)) :
    Spells p pf (parseAddr16 mod rm k) (parseAddr16 mod rm l) :=
  .ite (fun _ => .ite (fun _ => .need16 fun _ => h _) fun _ => h _)
    fun _ => .ite (fun _ => .need fun _ => h _) fun _ => .need16 fun _ => h _

theorem disp32 {mod : BitVec 2} {k l : Disp32 → Parse Decoded} (h : ∀ d, Spells p pf (k d) (l d)) :
    Spells p pf (parseDisp32 mod k) (parseDisp32 mod l) :=
  .ite (fun _ => h _) fun _ => .ite (fun _ => .need fun _ => h _) fun _ => .need32 fun _ => h _

theorem sib {mod : BitVec 2} {b : Byte} {k l : Addr32 → Parse Decoded} (h : ∀ a, Spells p pf (k a) (l a)) :
    Spells p pf (parseSib mod b k) (parseSib mod b l) := by
  unfold parseSib
  split
  · exact .refuse _
  · exact .ite (fun _ => .need32 fun _ => h _) fun _ => .disp32 fun _ => h _

theorem addr32 {mod : BitVec 2} {rm : BitVec 3} {k l : Addr32 → Parse Decoded} (h : ∀ a, Spells p pf (k a) (l a)) :
    Spells p pf (parseAddr32 mod rm k) (parseAddr32 mod rm l) :=
  .ite (fun _ => .need fun _ => .sib h)
    fun _ => .ite (fun _ => .need32 fun _ => h _) fun _ => .disp32 fun _ => h _

theorem rm {ρ : Type} {ofBits : BitVec 3 → ρ} {asz : Size} {seg : Option SegReg} {mod : BitVec 2} {rm : BitVec 3}
    {k l : Rm ρ → Parse Decoded} (h : ∀ x, Spells p pf (k x) (l x)) :
    Spells p pf (parseRm ofBits asz seg mod rm k) (parseRm ofBits asz seg mod rm l) := by
  refine .ite (fun _ => h _) fun _ => ?_
  cases asz with
  | s16 => exact .addr16 fun _ => h _
  | s32 => exact .addr32 fun _ => h _

theorem moffs {asz : Size} {k l : Moffs → Parse Decoded} (h : ∀ o, Spells p pf (k o) (l o)) :
    Spells p pf (parseMoffs asz k) (parseMoffs asz l) := by
  cases asz with
  | s16 => exact .need16 fun _ => h _
  | s32 => exact .need32 fun _ => h _

/-! ### The ends of forms -/

theorem finish {i : Instr} (hs : isStringMove i = false := by rfl) (ha : i.admitted p = true := by rfl) :
    Spells p pf (finish pf i) (finish pf.bare i) := by
  show Sys2Proof.finish pf i = .done (answerFor p pf.rep pf.lock i)
  unfold Sys2Proof.finish
  rcases pf.rep with _ | _ | _
  · rw [answerFor_none ha]; rfl
  · rw [answerFor_repne ha]
  · rw [answerFor_rep_other ha hs]

theorem finishString {i : Bool → Instr} (hs : isStringMove (i false) = true := by rfl)
    (ha : (i false).admitted p = true := by rfl) (hr : (i false).repeated = i true := by rfl) :
    Spells p pf (finishString p pf i) (finishString p.withMovxW16 pf.bare i) := by
  show Sys2Proof.finishString p pf i = .done (answerFor p pf.rep pf.lock (i false))
  unfold Sys2Proof.finishString
  rcases pf.rep with _ | _ | _
  · rw [answerFor_none ha]; rfl
  · rw [answerFor_repne ha]
  · rw [answerFor_rep_string ha hs, hr]; rfl

/-- A form that is refused with OperandSize 16 unless ADMIT_MOVX_W16 (92 D13). -/
theorem movxW16 {o : Size} {i : Instr} (hs : isStringMove i = false := by rfl)
    (ha : i.admitted p = match o with | .s16 => p.admitMovxW16 | .s32 => true) :
    Spells p pf (if o = .s16 ∧ !p.admitMovxW16 then .done (.refuse .movxW16) else Sys2Proof.finish pf i)
      (if o = .s16 ∧ !p.withMovxW16.admitMovxW16 then .done (.refuse .movxW16) else Sys2Proof.finish pf.bare i) := by
  rw [if_neg (show ¬(o = .s16 ∧ (!p.withMovxW16.admitMovxW16) = true) from fun h => nomatch h.2)]
  split
  · next h =>
    obtain ⟨rfl, h⟩ := h
    have ha : i.admitted p = false := ha.trans (by simpa using h)
    show Parse.done (Decoded.refuse .movxW16) = .done (answerFor p pf.rep pf.lock i)
    rw [answerFor_not_admitted ha]
  · next h => exact .finish hs (ha.trans (by cases o <;> simp_all))

/-! ### Opcodes -/

/-- The opcodes `0F xx`, in the order of the definition (30_encoding.md R84). -/
theorem decodeOp2 (d : Size) (op : Byte) :
    Spells p pf (decodeOp2 p d pf op) (decodeOp2 p.withMovxW16 d pf.bare op) := by
  unfold Sys2Proof.decodeOp2
  rw [Prefixes.bare_opSize]
  generalize sizeAttr d pf.opSize = o
  refine .ite (fun _ => .special fun m g => ?_) fun _ => ?_
  · cases CtlReg.ofBits? m <;> [exact .refuse _; exact .finish]
  refine .ite (fun _ => .special fun m g => ?_) fun _ => ?_
  · rcases debugRegOfBits? m with _ | r | r <;> [exact .refuse _; exact .finish; exact .finish]
  refine .ite (fun _ => .special fun m g => ?_) fun _ => ?_
  · cases CtlReg.ofBits? m <;> [exact .refuse _; exact .finish]
  refine .ite (fun _ => .special fun m g => ?_) fun _ => ?_
  · rcases debugRegOfBits? m with _ | r | r <;> [exact .refuse _; exact .finish; exact .finish]
  refine .ite (fun _ => .special fun m g => ?_) fun _ => ?_
  · cases TestReg.ofBits? m <;> [exact .refuse _; exact .finish]
  refine .ite (fun _ => .special fun m g => ?_) fun _ => ?_
  · cases TestReg.ofBits? m <;> [exact .refuse _; exact .finish]
  refine .ite (fun _ => .refuse _) fun _ => ?_
  refine .ite (fun _ => .modRm fun mod reg m => .rm fun x => ?_) fun _ => ?_
  · cases o <;> exact .finish
  refine .ite (fun _ => .modRm fun mod reg m => .rm fun x => .movxW16 (ha := ?_)) fun _ => ?_
  · cases o <;> rfl
  refine .ite (fun _ => .modRm fun mod reg m => .rm fun x => ?_) fun _ => ?_
  · cases o <;> exact .finish
  refine .ite (fun _ => .modRm fun mod reg m => .rm fun x => .movxW16 (ha := ?_)) fun _ => .refuse _
  cases o <;> rfl

/-- The opcode map, in the order of the definition (30_encoding.md R84). -/
theorem decodeOp (d : Size) (op : Byte) :
    Spells p pf (decodeOp p d pf op) (decodeOp p.withMovxW16 d pf.bare op) := by
  unfold Sys2Proof.decodeOp
  rw [Prefixes.bare_opSize, Prefixes.bare_seg]
  generalize sizeAttr d pf.opSize = o
  refine .ite (fun _ => .need fun op => .decodeOp2 d op) fun _ => ?_
  refine .ite (fun _ => .modRm fun mod reg m => .rm fun x => .finish) fun _ => ?_
  refine .ite (fun _ => .modRm fun mod reg m => .rm fun x => ?_) fun _ => ?_
  · cases o <;> exact .finish
  refine .ite (fun _ => .modRm fun mod reg m => .rm fun x => .finish) fun _ => ?_
  refine .ite (fun _ => .modRm fun mod reg m => .rm fun x => ?_) fun _ => ?_
  · cases o <;> exact .finish
  refine .ite (fun _ => .modRm fun mod reg m => .rm fun x => .finish) fun _ => ?_
  refine .ite (fun _ => .modRm fun mod reg m => .rm fun x => .finish) fun _ => ?_
  refine .ite (fun _ => .moffs fun off => .finish) fun _ => ?_
  refine .ite (fun _ => .moffs fun off => ?_) fun _ => ?_
  · cases o <;> exact .finish
  refine .ite (fun _ => .moffs fun off => .finish) fun _ => ?_
  refine .ite (fun _ => .moffs fun off => ?_) fun _ => ?_
  · cases o <;> exact .finish
  refine .ite (fun _ => ?_) fun _ => ?_
  · cases pf.seg <;> exact .finishString
  refine .ite (fun _ => ?_) fun _ => ?_
  · cases pf.seg <;> cases o <;> exact .finishString
  refine .ite (fun _ => .need fun imm => .finish) fun _ => ?_
  refine .ite (fun _ => ?_) fun _ => ?_
  · cases o with
    | s16 => exact .need16 fun imm => .finish
    | s32 => exact .need32 fun imm => .finish
  refine .ite (fun _ => .modRm fun mod reg m => .ite (fun _ => ?_) fun _ => .refuse _) fun _ => ?_
  · exact .rm fun x => .need fun imm => .finish
  refine .ite (fun _ => .modRm fun mod reg m => .ite (fun _ => .rm fun x => ?_) fun _ => .refuse _) fun _ => ?_
  · cases o with
    | s16 => exact .need16 fun imm => .finish
    | s32 => exact .need32 fun imm => .finish
  refine .ite (fun _ => .modRm fun mod reg m => .ite (fun _ => ?_) fun _ => .refuse _) fun _ => ?_
  · exact .rm fun x => .finish
  refine .ite (fun _ => .modRm fun mod reg m => .ite (fun _ => .rm fun x => ?_) fun _ => .refuse _) fun _ => .refuse _
  cases o <;> exact .finish

end Spells

/-! ### From the opcode to the prefixes -/

section

variable {p : Params} {d : Size}

theorem decodeOp_of_spelled {pf : Prefixes} {op : Byte} {bs rest : List Byte} {i : Instr}
    (h : (decodeOp p.withMovxW16 d pf.bare op).onBytes bs = some (.instr i, rest)) :
    (decodeOp p d pf op).onBytes bs = some (answerFor p pf.rep pf.lock i, rest) := by
  rw [Spells.decodeOp, Parse.map_onBytes, h]
  rfl

theorem decodeOp_spelled {pf : Prefixes} {op : Byte} {bs rest : List Byte} {i : Instr}
    (h : (decodeOp p d pf op).onBytes bs = some (.instr i, rest)) :
    ∃ j, (decodeOp p.withMovxW16 d pf.bare op).onBytes bs = some (.instr j, rest) ∧
      answerFor p pf.rep pf.lock j = .instr i := by
  rw [Spells.decodeOp, Parse.map_onBytes, Option.map_eq_some_iff] at h
  obtain ⟨⟨x, bs'⟩, hx, e⟩ := h
  obtain ⟨hi, rfl⟩ := Prod.mk.inj e
  cases x with
  | instr j => exact ⟨j, hx, hi⟩
  | invalidOpcode | refuse => cases hi

theorem lockedOr_eq_instr {lock : Bool} {i j : Instr} (h : lockedOr lock j = .instr i) : lock = false ∧ j = i := by
  cases lock with
  | false => cases h; exact ⟨rfl, rfl⟩
  | true => cases h

theorem repAddressSize_repeated {i : Instr} (h : isStringMove i = true) : repAddressSize i.repeated ≠ none := by
  cases i with
  | movsM8M8 | movsM16M16 | movsM32M32 | movsb | movsw | movsd => nofun
  | _ => cases h

/-- Without REP and REPNE an answer is the instruction spelled, and there was no LOCK. -/
theorem answerFor_none_instr {lock : Bool} {i j : Instr} (h : answerFor p none lock j = .instr i) :
    lock = false ∧ j = i := by
  cases ha : j.admitted p with
  | false => rw [answerFor_not_admitted ha] at h; cases h
  | true => exact lockedOr_eq_instr ((answerFor_none ha).symm.trans h)

/-- After REP or REPNE an answer is a string move with REP. -/
theorem answerFor_some_instr {f3 lock : Bool} {i j : Instr} (h : answerFor p (some f3) lock j = .instr i) :
    repAddressSize i ≠ none := by
  cases ha : j.admitted p with
  | false => rw [answerFor_not_admitted ha] at h; cases h
  | true =>
    cases f3 with
    | false => rw [answerFor_repne ha] at h; cases h
    | true =>
      cases hs : isStringMove j with
      | false => rw [answerFor_rep_other ha hs] at h; cases h
      | true =>
        rw [answerFor_rep_string ha hs] at h
        split at h
        · rw [← (lockedOr_eq_instr h).2]
          exact repAddressSize_repeated hs
        · cases h

theorem decodeFrom_opcode {n : Nat} {pf : Prefixes} {b : Byte} (h : pf.add b = .opcode) (bs : List Byte) :
    (decodeFrom p d (n + 1) pf).onBytes (b :: bs) = (decodeOp p d pf b).onBytes bs := by
  rw [decodeFrom, Parse.onBytes, h]

theorem decodeFrom_added {n : Nat} {pf pf' : Prefixes} {b : Byte} (h : pf.add b = .added pf') (bs : List Byte) :
    (decodeFrom p d (n + 1) pf).onBytes (b :: bs) = (decodeFrom p d n pf').onBytes bs := by
  rw [decodeFrom, Parse.onBytes, h]

theorem decodeFrom_again {n : Nat} {pf : Prefixes} {b : Byte} (h : pf.add b = .repeated) (bs : List Byte) :
    (decodeFrom p d (n + 1) pf).onBytes (b :: bs) = some (.refuse .repeatedPrefix, bs) := by
  rw [decodeFrom, Parse.onBytes, h]
  rfl

/-- Once REP or REPNE has been read, an instruction that is answered is a string move with REP. -/
theorem decodeFrom_after_rep {n : Nat} {pf : Prefixes} {bs rest : List Byte} {i : Instr} (hpf : pf.rep.isSome = true)
    (h : (decodeFrom p d n pf).onBytes bs = some (.instr i, rest)) : repAddressSize i ≠ none := by
  induction n generalizing pf bs with
  | zero => cases h
  | succ n ih =>
    cases bs with
    | nil => cases h
    | cons b bs =>
      cases pf.reads b with
      | opcode hg hadd =>
        rw [decodeFrom_opcode (hadd pf.rep)] at h
        obtain ⟨j, _, hj⟩ := decodeOp_spelled h
        obtain ⟨f3, hf3⟩ := Option.isSome_iff_exists.mp hpf
        rw [hf3] at hj
        exact answerFor_some_instr hj
      | repeated g hg hh hadd =>
        rw [decodeFrom_again hadd] at h
        cases h
      | added g pf' hg hfree hadd hh hr =>
        rw [decodeFrom_added hadd] at h
        have h3 : pf'.has 3 = true := by
          rw [hh 3 (by decide), show pf.has 3 = true from hpf]
          rfl
        exact ih h3 h

/-- What the decoder answers with `r` for REP or REPNE, from what it answers without and with all forms admitted: the
bytes of a form without REP hold no such prefix themselves. -/
theorem decodeFrom_answerFor (r : Option Bool) {n : Nat} {pf : Prefixes} {bs rest : List Byte} {i : Instr}
    (hpf : pf.rep = none) (hi : repAddressSize i = none)
    (h : (decodeFrom p.withMovxW16 d n pf).onBytes bs = some (.instr i, rest)) :
    (decodeFrom p d n { pf with rep := r }).onBytes bs = some (answerFor p r false i, rest) := by
  induction n generalizing pf bs with
  | zero => cases h
  | succ n ih =>
    cases bs with
    | nil => cases h
    | cons b bs =>
      cases pf.reads b with
      | opcode hg hadd =>
        rw [decodeFrom_opcode (hadd pf.rep)] at h
        obtain ⟨j, hj, he⟩ := decodeOp_spelled h
        rw [hpf] at he
        obtain ⟨hlock, rfl⟩ := answerFor_none_instr he
        rw [decodeFrom_opcode (hadd r), ← hlock]
        exact decodeOp_of_spelled (pf := { pf with rep := r }) hj
      | repeated g hg hh hadd =>
        rw [decodeFrom_again hadd] at h
        cases h
      | added g pf' hg hfree hadd hh hr =>
        rw [decodeFrom_added hadd] at h
        by_cases hg3 : g = 3
        · have h3 : pf'.has 3 = true := by rw [hh 3 (by decide), hg3]; exact Bool.or_true _
          exact absurd hi (decodeFrom_after_rep h3 h)
        · obtain ⟨hrep, hadd'⟩ := hr hg3
          rw [decodeFrom_added (hadd' r)]
          exact ih (hrep.trans hpf) h

end

/-! ### Refusals before and after a form's bytes -/

theorem encode_withMovxW16 (p : Params) (d : Size) (i : Instr) : encode p.withMovxW16 d i = encode p d i := by
  cases i <;> rfl

theorem Instr.admitted_withMovxW16 {p : Params} {i : Instr} (h : repAddressSize i = none) :
    i.admitted p.withMovxW16 = true := by
  cases i with
  | movsM8M8 rep | movsM16M16 rep | movsM32M32 rep | movsb rep | movsw rep | movsd rep =>
    cases rep with
    | false => rfl
    | true => cases h
  | movsxR32Rm16 osz | movzxR32Rm16 osz => cases osz <;> rfl
  | _ => rfl

theorem repAddressSize_of_not_string {i : Instr} (h : isStringMove i = false) : repAddressSize i = none := by
  cases i with
  | movsM8M8 | movsM16M16 | movsM32M32 | movsb | movsw | movsd => cases h
  | _ => rfl

/-- The bytes of a form without REP, after REP or REPNE or neither, are answered by what is made of it (30_encoding.md R71,
R86). -/
theorem decodeFrom_encode (p : Params) (d : Size) (r : Option Bool) {n : Nat} (hn : 5 ≤ n) {i : Instr} (hw : i.wf = true)
    (hi : repAddressSize i = none) (rest : List Byte) :
    (decodeFrom p d n ⟨false, false, none, r, false⟩).onBytes (encode p d i ++ rest) =
      some (answerFor p r false i, rest) := by
  refine decodeFrom_answerFor r (pf := ⟨false, false, none, none, false⟩) rfl hi ?_
  rw [← encode_withMovxW16]
  exact decodesTo_encode p.withMovxW16 d false hw (Instr.admitted_withMovxW16 hi) n hn rest

theorem decodeBytes_rep_encode (p : Params) (d : Size) {i : Instr} (hw : i.wf = true) (hi : repAddressSize i = none)
    (rest : List Byte) : decodeBytes p d (0xF3#8 :: encode p d i ++ rest) = some (answerFor p (some true) false i, rest) :=
  decodeFrom_encode p d (some true) (Nat.le_refl 5) hw hi rest

theorem decodeBytes_repne_encode (p : Params) (d : Size) {i : Instr} (hw : i.wf = true) (hi : repAddressSize i = none)
    (rest : List Byte) : decodeBytes p d (0xF2#8 :: encode p d i ++ rest) = some (answerFor p (some false) false i, rest) :=
  decodeFrom_encode p d (some false) (Nat.le_refl 5) hw hi rest

/-- 43_movsx.md R184, 44_movzx.md R194. -/
theorem decodeBytes_movxW16 (p : Params) (d : Size) {i : Instr} (hw : i.wf = true) (hi : repAddressSize i = none)
    (ha : i.admitted p = false) (rest : List Byte) :
    decodeBytes p d (encode p d i ++ rest) = some (.refuse .movxW16, rest) := by
  rw [← answerFor_not_admitted (rep := none) (lock := false) ha]
  exact decodeFrom_encode p d none (by decide) hw hi rest

theorem string_wf_admitted {p : Params} {i : Instr} (hs : isStringMove i = true) (hi : repAddressSize i = none) :
    i.wf = true ∧ i.admitted p = true := by
  cases i with
  | movsM8M8 rep | movsM16M16 rep | movsM32M32 rep | movsb rep | movsw rep | movsd rep =>
    cases rep with
    | false => exact ⟨rfl, rfl⟩
    | true => cases hi
  | _ => cases hs

/-- Two prefixes of one group are refused at the second (30_encoding.md R71): `b` is of the group of one of the bytes `pre`,
or of a group whose slot is taken. -/
theorem decodeFrom_repeated {p : Params} {d : Size} {b : Byte} {rest pre : List Byte} {n : Nat} {pf : Prefixes}
    (hpre : ∀ x ∈ pre, (prefixGroup x).isSome = true) (hnd : (pre.map prefixGroup).Nodup)
    (hnew : ∀ x ∈ pre, ∀ g, prefixGroup x = some g → pf.has g = false)
    (hb : prefixGroup b ∈ pre.map prefixGroup ∨ ∃ g, prefixGroup b = some g ∧ pf.has g = true)
    (hn : pre.length < n) :
    (decodeFrom p d n pf).onBytes (pre ++ b :: rest) = some (.refuse .repeatedPrefix, rest) := by
  induction pre generalizing n pf with
  | nil =>
    obtain ⟨n, rfl⟩ := Nat.exists_eq_add_of_le' hn
    obtain ⟨g, hg, hh⟩ := hb.resolve_left List.not_mem_nil
    cases pf.reads b with
    | opcode hg' => rw [hg] at hg'; cases hg'
    | repeated _ _ _ hadd => exact decodeFrom_again hadd rest
    | added g' pf' hg' hfree =>
      rw [hg] at hg'
      cases hg'
      rw [hh] at hfree
      cases hfree
  | cons x pre ih =>
    obtain ⟨n, rfl⟩ := Nat.exists_eq_add_of_le' (Nat.one_le_of_lt hn)
    obtain ⟨hx, hpre⟩ := List.forall_mem_cons.mp hpre
    obtain ⟨hxnew, hnew⟩ := List.forall_mem_cons.mp hnew
    rw [List.map_cons, List.nodup_cons] at hnd
    obtain ⟨hxnot, hnd⟩ := hnd
    cases pf.reads x with
    | opcode hg => rw [hg] at hx; cases hx
    | repeated g hg hh => rw [hxnew g hg] at hh; cases hh
    | added g pf' hg _ hadd hh _ =>
      rw [List.cons_append, decodeFrom_added hadd]
      refine ih hpre hnd (fun y hy k hk => ?_) ?_ (Nat.lt_of_succ_lt_succ hn)
      · have hkg : k ≠ g := by
          rintro rfl
          exact hxnot (List.mem_map.mpr ⟨y, hy, hk.trans hg.symm⟩)
        rw [hh k (prefixGroup_mem hk), hnew y hy k hk, beq_false_of_ne hkg]
        rfl
      · rw [List.map_cons, List.mem_cons, hg] at hb
        rcases hb with (hb | hb) | ⟨k, hk, hhk⟩
        · exact .inr ⟨g, hb, by rw [hh g (prefixGroup_mem hg), beq_self_eq_true, Bool.or_true]⟩
        · exact .inl hb
        · exact .inr ⟨k, hk, by rw [hh k (prefixGroup_mem hk), hhk, Bool.true_or]⟩

/-- Prefixes of different groups are at most five (30_encoding.md R71). -/
theorem length_prefixes_le {pre : List Byte} (hpre : ∀ x ∈ pre, (prefixGroup x).isSome = true)
    (hnd : (pre.map prefixGroup).Nodup) : pre.length ≤ 5 := by
  have hsub : pre.map prefixGroup ⊆ [0, 1, 2, 3, 4].map some := by
    intro o ho
    obtain ⟨x, hx, rfl⟩ := List.mem_map.mp ho
    obtain ⟨g, hg⟩ := Option.isSome_iff_exists.mp (hpre x hx)
    rw [hg]
    exact List.mem_map_of_mem (prefixGroup_mem hg)
  simpa using (hnd.subperm hsub).length_le

theorem decodeBytes_repeated (p : Params) (d : Size) {b : Byte} {pre : List Byte} (rest : List Byte)
    (hpre : ∀ x ∈ pre, (prefixGroup x).isSome = true) (hnd : (pre.map prefixGroup).Nodup)
    (hb : prefixGroup b ∈ pre.map prefixGroup) :
    decodeBytes p d (pre ++ b :: rest) = some (.refuse .repeatedPrefix, rest) := by
  have hempty : ∀ x ∈ pre, ∀ g, prefixGroup x = some g → Prefixes.empty.has g = false := by
    intro x _ g hg
    have : ∀ k ∈ [0, 1, 2, 3, 4], Prefixes.empty.has k = false := by decide
    exact this g (prefixGroup_mem hg)
  exact decodeFrom_repeated hpre hnd hempty (.inl hb) (Nat.lt_succ_of_le (length_prefixes_le hpre hnd))

/-! ### Opcodes -/

section

variable {p : Params} {d : Size} {mod : BitVec 2} {n g : BitVec 3} {rest : List Byte}

theorem decodeFrom_of_no_group {m : Nat} {pf : Prefixes} {op : Byte} (h : prefixGroup op = none) (bs : List Byte) :
    (decodeFrom p d (m + 1) pf).onBytes (op :: bs) = (decodeOp p d pf op).onBytes bs := by
  cases pf.reads op with
  | opcode _ hadd => exact decodeFrom_opcode (hadd pf.rep) bs
  | repeated _ hg | added _ _ hg => rw [h] at hg; cases hg

theorem decodeBytes_op {op : Byte} (h : prefixGroup op = none) (bs : List Byte) :
    decodeBytes p d (op :: bs) = (decodeOp p d .empty op).onBytes bs :=
  decodeFrom_of_no_group h bs

theorem decodeBytes_op2 (op : Byte) (bs : List Byte) :
    decodeBytes p d (0x0F#8 :: op :: bs) = (decodeOp2 p d .empty op).onBytes bs := rfl

theorem parseSpecial_onBytes (k : BitVec 3 → Reg → Parse Decoded) :
    (parseSpecial k).onBytes ((mod ++ n ++ g : Byte) :: rest) =
      if mod = 3#2 then (k n (Reg.ofBits g)).onBytes rest else some (.refuse .specialMod, rest) := by
  refine (needModRm_onBytes _ mod n g rest).trans ?_
  split <;> rfl

/-- The move that an opcode of the special registers spells with a register number, if the spec names that register
(41_mov_special.md R151, R152). -/
def specialMove? (op : Byte) (n : BitVec 3) (r : Reg) : Option Instr :=
  if op = 0x20#8 then (CtlReg.ofBits? n).map (.movR32Cr r)
  else if op = 0x21#8 then (debugRegOfBits? n).map (Sum.elim (.movR32Dr03 r) (.movR32Dr67 r))
  else if op = 0x22#8 then (CtlReg.ofBits? n).map fun c => .movCrR32 c r
  else if op = 0x23#8 then (debugRegOfBits? n).map (Sum.elim (fun b => .movDr03R32 b r) fun b => .movDr67R32 b r)
  else if op = 0x24#8 then (TestReg.ofBits? n).map (.movR32Tr r)
  else if op = 0x26#8 then (TestReg.ofBits? n).map fun t => .movTrR32 t r
  else none

/-- The opcodes of the special-register moves (41_mov_special.md R151). -/
theorem decodeOp2_special {op : Byte} (hop : op ∈ [0x20#8, 0x21#8, 0x22#8, 0x23#8, 0x24#8, 0x26#8]) :
    ∃ k, decodeOp2 p d .empty op = parseSpecial k ∧
      ∀ n r, k n r = .done ((specialMove? op n r).elim (.refuse .specialNumber) .instr) := by
  simp only [List.mem_cons, List.not_mem_nil, or_false] at hop
  rcases hop with rfl | rfl | rfl | rfl | rfl | rfl <;>
    simp only [decodeOp2, specialMove?, BitVec.reduceEq, if_true, if_false] <;> refine ⟨_, rfl, fun n r => ?_⟩
  · cases CtlReg.ofBits? n <;> rfl
  · rcases debugRegOfBits? n with _ | _ | _ <;> rfl
  · cases CtlReg.ofBits? n <;> rfl
  · rcases debugRegOfBits? n with _ | _ | _ <;> rfl
  · cases TestReg.ofBits? n <;> rfl
  · cases TestReg.ofBits? n <;> rfl

theorem decodeBytes_special {op : Byte} (hop : op ∈ [0x20#8, 0x21#8, 0x22#8, 0x23#8, 0x24#8, 0x26#8]) :
    decodeBytes p d (0x0F#8 :: op :: (3#2 ++ n ++ g : Byte) :: rest) =
      some ((specialMove? op n (Reg.ofBits g)).elim (.refuse .specialNumber) .instr, rest) := by
  obtain ⟨k, hk, hkn⟩ := decodeOp2_special (p := p) (d := d) hop
  rw [decodeBytes_op2, hk, parseSpecial_onBytes, if_pos rfl, hkn]
  rfl

theorem decodeBytes_specialMod (hmod : mod ≠ 3#2) {op : Byte}
    (hop : op ∈ [0x20#8, 0x21#8, 0x22#8, 0x23#8, 0x24#8, 0x26#8]) :
    decodeBytes p d (0x0F#8 :: op :: (mod ++ n ++ g : Byte) :: rest) = some (.refuse .specialMod, rest) := by
  obtain ⟨k, hk, _⟩ := decodeOp2_special (p := p) (d := d) hop
  rw [decodeBytes_op2, hk, parseSpecial_onBytes, if_neg hmod]

/-- The numbers that D00 does not name: CR1, CR4 to CR7, DR4, DR5, TR0 to TR5 (41_mov_special.md R152). -/
def unnamedNumber (op : Byte) (n : BitVec 3) : Prop :=
  (op ∈ [0x20#8, 0x22#8] ∧ n ∈ [1#3, 4#3, 5#3, 6#3, 7#3]) ∨ (op ∈ [0x21#8, 0x23#8] ∧ n ∈ [4#3, 5#3]) ∨
    (op ∈ [0x24#8, 0x26#8] ∧ n.toNat < 6)

theorem specialMove?_of_unnamed {op : Byte} (h : unnamedNumber op n) (r : Reg) :
    op ∈ [0x20#8, 0x21#8, 0x22#8, 0x23#8, 0x24#8, 0x26#8] ∧ specialMove? op n r = none := by
  rcases h with ⟨hop, hn⟩ | ⟨hop, hn⟩ | ⟨hop, hn⟩ <;>
    simp only [List.mem_cons, List.not_mem_nil, or_false] at hop
  · have hnone : CtlReg.ofBits? n = none := by revert n; decide
    rcases hop with rfl | rfl <;> exact ⟨by decide, congrArg (Option.map _) hnone⟩
  · have hnone : debugRegOfBits? n = none := by revert n; decide
    rcases hop with rfl | rfl <;> exact ⟨by decide, congrArg (Option.map _) hnone⟩
  · have hnone : TestReg.ofBits? n = none := by revert n; decide
    rcases hop with rfl | rfl <;> exact ⟨by decide, congrArg (Option.map _) hnone⟩

theorem decodeBytes_specialNumber {op : Byte} (h : unnamedNumber op n) :
    decodeBytes p d (0x0F#8 :: op :: (3#2 ++ n ++ g : Byte) :: rest) = some (.refuse .specialNumber, rest) := by
  obtain ⟨hop, hn⟩ := specialMove?_of_unnamed h (Reg.ofBits g)
  rw [decodeBytes_special hop, hn]
  rfl

/-- A number that D00 names (41_mov_special.md R151). -/
theorem decodeBytes_specialMove {op : Byte} {i : Instr}
    (hop : op ∈ [0x20#8, 0x21#8, 0x22#8, 0x23#8, 0x24#8, 0x26#8]) (hi : specialMove? op n (Reg.ofBits g) = some i) :
    decodeBytes p d (0x0F#8 :: op :: (3#2 ++ n ++ g : Byte) :: rest) = some (.instr i, rest) := by
  rw [decodeBytes_special hop, hi]
  rfl

/-- `C6` and `C7` are MOV with reg 000 only (30_encoding.md R85). -/
theorem decodeBytes_movImm_reg (hn : n ≠ 0#3) {op : Byte} (hop : op ∈ [0xC6#8, 0xC7#8]) :
    decodeBytes p d (op :: (mod ++ n ++ g : Byte) :: rest) = some (.refuse .movImmRegField, rest) := by
  simp only [List.mem_cons, List.not_mem_nil, or_false] at hop
  rcases hop with rfl | rfl <;> rw [decodeBytes_op rfl] <;>
    simp only [decodeOp, BitVec.reduceEq, eq_sregLoadByte, opcode_high, and_false, or_false, if_false, if_true] <;>
    exact (needModRm_onBytes _ mod n g rest).trans (by rw [if_neg hn]; rfl)

/-- `F6` and `F7` are MUL with reg 100 only (30_encoding.md R85). -/
theorem decodeBytes_mul_reg (hn : n ≠ 4#3) {op : Byte} (hop : op ∈ [0xF6#8, 0xF7#8]) :
    decodeBytes p d (op :: (mod ++ n ++ g : Byte) :: rest) = some (.refuse .notInScope, rest) := by
  simp only [List.mem_cons, List.not_mem_nil, or_false] at hop
  rcases hop with rfl | rfl <;> rw [decodeBytes_op rfl] <;>
    simp only [decodeOp, BitVec.reduceEq, eq_sregLoadByte, opcode_high, and_false, or_false, if_false, if_true] <;>
    exact (needModRm_onBytes _ mod n g rest).trans (by rw [if_neg hn]; rfl)

/-- An opcode other than B0 to BF is no MOV of an immediate to a register (30_encoding.md R83). -/
theorem opcode_not_regImm {op : Byte} (h : op.toNat / 16 ≠ 0xB) :
    op.extractLsb' 3 5 ≠ 0b10110#5 ∧ op.extractLsb' 3 5 ≠ 0b10111#5 := by
  revert h
  revert op
  decide

/-- An opcode of another instruction (30_encoding.md R86). -/
theorem decodeBytes_notInScope {op : Byte} (hg : prefixGroup op = none) (hB : op.toNat / 16 ≠ 0xB)
    (hop : op ∉ [0x0F#8, 0x88#8, 0x89#8, 0x8A#8, 0x8B#8, 0x8C#8, sregLoadByte p.sregLoad, 0xA0#8, 0xA1#8, 0xA2#8,
      0xA3#8, 0xA4#8, 0xA5#8, 0xC6#8, 0xC7#8, 0xF6#8, 0xF7#8]) :
    decodeBytes p d (op :: rest) = some (.refuse .notInScope, rest) := by
  obtain ⟨h8, h32⟩ := opcode_not_regImm hB
  simp only [List.mem_cons, List.not_mem_nil, or_false, not_or] at hop
  rw [decodeBytes_op hg]
  simp only [decodeOp, hop, h8, h32, if_false]
  rfl

/-- A second opcode byte of another instruction (30_encoding.md R86). -/
theorem decodeBytes_notInScope2 {op : Byte} (h4 : op.toNat / 8 ≠ 4) (hop : op ∉ [0xB6#8, 0xB7#8, 0xBE#8, 0xBF#8]) :
    decodeBytes p d (0x0F#8 :: op :: rest) = some (.refuse .notInScope, rest) := by
  have hne (c : Byte) (hc : c.toNat / 8 = 4) : op ≠ c := fun e => h4 (e ▸ hc)
  simp only [List.mem_cons, List.not_mem_nil, or_false, not_or] at hop
  rw [decodeBytes_op2]
  simp only [decodeOp2, hop, hne 0x20#8 rfl, hne 0x21#8 rfl, hne 0x22#8 rfl, hne 0x23#8 rfl, hne 0x24#8 rfl, hne 0x25#8 rfl,
    hne 0x26#8 rfl, hne 0x27#8 rfl, or_false, if_false]
  rfl

/-! ### A scale without an index -/

/-- A form whose `r/m` operand has a SIB byte with a scale and no index (30_encoding.md R77). -/
theorem needModRm_scale_without_index {ρ : Type} {ofBits : BitVec 3 → ρ} {seg : Option SegReg}
    {k : Rm ρ → Parse Decoded} {f : BitVec 2 → BitVec 3 → BitVec 3 → Parse Decoded} {scale : BitVec 2}
    {base : BitVec 3} (hmod : mod ≠ 3#2)
    (hscale : scale ≠ 0#2) (hf : f mod n 4#3 = parseRm ofBits .s32 seg mod 4#3 k) :
    (needModRm f).onBytes ((mod ++ n ++ 4#3 : Byte) :: (scale ++ 4#3 ++ base : Byte) :: rest) =
      some (.refuse .sibScaleWithoutIndex, rest) := by
  obtain ⟨h1, h2, _⟩ := fieldByte_fields scale 4#3 base
  refine (needModRm_onBytes f mod n 4#3 _).trans ?_
  rw [hf, parseRm_s32 hmod, parseAddr32, if_pos rfl]
  show (parseSib mod (fieldByte scale 4#3 base) _).onBytes rest = _
  rw [parseSib, h1, h2, sibIndex?, if_pos rfl, if_neg hscale]
  rfl

/-- With AddressSize 32, after its prefix in a 16-bit code segment, the decoder comes to the opcode (30_encoding.md R72). -/
theorem decodeBytes_addr32 (p : Params) (d : Size) : ∃ pf : Prefixes, sizeAttr d pf.addrSize = .s32 ∧
    ∀ op bs, prefixGroup op = none →
      decodeBytes p d ((if d = .s32 then [] else [0x67#8]) ++ op :: bs) = (decodeOp p d pf op).onBytes bs := by
  cases d with
  | s16 => exact ⟨{ Prefixes.empty with addrSize := true }, rfl, fun op bs h => decodeFrom_of_no_group h bs⟩
  | s32 => exact ⟨.empty, rfl, fun op bs h => decodeFrom_of_no_group h bs⟩

end

section

variable {p : Params} {d : Size} {pf : Prefixes} {mod : BitVec 2} {n : BitVec 3} {rest : List Byte} {scale : BitVec 2}
  {base : BitVec 3} {op : Byte}

/-- The forms of MOV with a register or segment register in the reg field. -/
theorem decodeOp_scale_without_index (ha : sizeAttr d pf.addrSize = .s32) (hmod : mod ≠ 3#2) (hscale : scale ≠ 0#2)
    (hop : op ∈ [0x88#8, 0x89#8, 0x8A#8, 0x8B#8, 0x8C#8, sregLoadByte p.sregLoad]) :
    (decodeOp p d pf op).onBytes ((mod ++ n ++ 4#3 : Byte) :: (scale ++ 4#3 ++ base : Byte) :: rest) =
      some (.refuse .sibScaleWithoutIndex, rest) := by
  simp only [List.mem_cons, List.not_mem_nil, or_false] at hop
  rcases hop with rfl | rfl | rfl | rfl | rfl | rfl
  case inr.inr.inr.inr.inr =>
    rw [decodeOp_sregLoad, ha]
    exact needModRm_scale_without_index hmod hscale rfl
  all_goals
    simp only [decodeOp, ha, BitVec.reduceEq, if_false, if_true]
    exact needModRm_scale_without_index hmod hscale rfl

theorem prefixGroup_of_reg_opcode {c : SregLoadOpcode}
    (hop : op ∈ [0x88#8, 0x89#8, 0x8A#8, 0x8B#8, 0x8C#8, sregLoadByte c]) : prefixGroup op = none := by
  revert hop
  cases c <;> revert op <;> decide

/-- MOVSX and MOVZX. -/
theorem decodeOp2_scale_without_index (ha : sizeAttr d pf.addrSize = .s32) (hmod : mod ≠ 3#2) (hscale : scale ≠ 0#2)
    (hop : op ∈ [0xB6#8, 0xB7#8, 0xBE#8, 0xBF#8]) :
    (decodeOp2 p d pf op).onBytes ((mod ++ n ++ 4#3 : Byte) :: (scale ++ 4#3 ++ base : Byte) :: rest) =
      some (.refuse .sibScaleWithoutIndex, rest) := by
  simp only [List.mem_cons, List.not_mem_nil, or_false] at hop
  rcases hop with rfl | rfl | rfl | rfl <;> simp only [decodeOp2, ha, BitVec.reduceEq, or_false, if_false, if_true] <;>
    exact needModRm_scale_without_index hmod hscale rfl

/-- The forms whose reg field is part of the opcode: MOV with an immediate, and MUL. -/
theorem decodeOp_scale_without_index_of_reg (ha : sizeAttr d pf.addrSize = .s32) (hmod : mod ≠ 3#2)
    (hscale : scale ≠ 0#2) (hop : (op, n) ∈ [(0xC6#8, 0#3), (0xC7#8, 0#3), (0xF6#8, 4#3), (0xF7#8, 4#3)]) :
    (decodeOp p d pf op).onBytes ((mod ++ n ++ 4#3 : Byte) :: (scale ++ 4#3 ++ base : Byte) :: rest) =
      some (.refuse .sibScaleWithoutIndex, rest) := by
  simp only [List.mem_cons, List.not_mem_nil, or_false, Prod.mk.injEq] at hop
  rcases hop with ⟨rfl, rfl⟩ | ⟨rfl, rfl⟩ | ⟨rfl, rfl⟩ | ⟨rfl, rfl⟩ <;>
    simp only [decodeOp, ha, BitVec.reduceEq, eq_sregLoadByte, opcode_high, and_false, or_false, if_false, if_true] <;>
    exact needModRm_scale_without_index hmod hscale (if_pos rfl)

end

/-- Settles O49: each class of bytes by its lemma above. -/
theorem undocumentedSpecialEncodings : Obligations.UndocumentedSpecialEncodings := by
  intro p d mod n g rest
  refine ⟨fun hmod op hop => decodeBytes_specialMod hmod hop,
    fun op hop hn => decodeBytes_specialNumber (.inl ⟨hop, hn⟩),
    fun op hop hn => decodeBytes_specialNumber (.inr (.inl ⟨hop, hn⟩)),
    fun op hop hn => decodeBytes_specialNumber (.inr (.inr ⟨hop, hn⟩)), fun op hop => ?_,
    fun x hx => ?_, fun x hx => ?_, fun x hx => ?_, fun x hx => ?_,
    fun hn op hop => decodeBytes_movImm_reg hn hop, fun dst src hw ha => ?_, fun i hw ha hs => ?_, fun i hs hi => ?_,
    fun pre b hpre hnd hb => decodeBytes_repeated p d rest hpre hnd hb, fun scale base hmod hscale => ?_,
    fun op hg hB hop => decodeBytes_notInScope hg hB hop, fun op h4 hop => decodeBytes_notInScope2 h4 hop,
    fun hn op hop => decodeBytes_mul_reg hn hop⟩
  · simp only [List.mem_cons, List.not_mem_nil, or_false] at hop
    rcases hop with rfl | rfl <;> rfl
  · simp only [List.mem_cons, List.not_mem_nil, or_false] at hx
    rcases hx with rfl | rfl | rfl <;>
      exact ⟨decodeBytes_specialMove (by decide) rfl, decodeBytes_specialMove (by decide) rfl⟩
  · simp only [List.mem_cons, List.not_mem_nil, or_false] at hx
    rcases hx with rfl | rfl | rfl | rfl <;>
      exact ⟨decodeBytes_specialMove (by decide) rfl, decodeBytes_specialMove (by decide) rfl⟩
  · simp only [List.mem_cons, List.not_mem_nil, or_false] at hx
    rcases hx with rfl | rfl <;>
      exact ⟨decodeBytes_specialMove (by decide) rfl, decodeBytes_specialMove (by decide) rfl⟩
  · simp only [List.mem_cons, List.not_mem_nil, or_false] at hx
    rcases hx with rfl | rfl <;>
      exact ⟨decodeBytes_specialMove (by decide) rfl, decodeBytes_specialMove (by decide) rfl⟩
  · exact ⟨decodeBytes_movxW16 p d (i := .movsxR32Rm16 .s16 dst src) hw rfl ha rest,
      decodeBytes_movxW16 p d (i := .movzxR32Rm16 .s16 dst src) hw rfl ha rest⟩
  · have hi := repAddressSize_of_not_string hs
    rw [decodeBytes_rep_encode p d hw hi, decodeBytes_repne_encode p d hw hi, answerFor_rep_other ha hs,
      answerFor_repne ha]
    exact ⟨rfl, rfl⟩
  · obtain ⟨hw, ha⟩ := string_wf_admitted (p := p) hs hi
    refine ⟨?_, fun hrep => ?_⟩
    · rw [decodeBytes_repne_encode p d hw hi, answerFor_repne ha]
    · rw [decodeBytes_rep_encode p d hw hi, answerFor_rep_string ha hs, hrep]
      rfl
  · obtain ⟨pf, ha, hpf⟩ := decodeBytes_addr32 p d
    refine ⟨fun op hop => ?_, fun op hop => ?_, fun op hop => ?_, fun op hop => ?_⟩
    · exact (hpf op _ (prefixGroup_of_reg_opcode hop)).trans (decodeOp_scale_without_index ha hmod hscale hop)
    · exact (hpf 0x0F#8 _ rfl).trans (decodeOp2_scale_without_index ha hmod hscale hop)
    · simp only [List.mem_cons, List.not_mem_nil, or_false] at hop
      rcases hop with rfl | rfl <;>
        exact (hpf _ _ rfl).trans (decodeOp_scale_without_index_of_reg ha hmod hscale (by decide))
    · simp only [List.mem_cons, List.not_mem_nil, or_false] at hop
      rcases hop with rfl | rfl <;>
        exact (hpf _ _ rfl).trans (decodeOp_scale_without_index_of_reg ha hmod hscale (by decide))

end Sys2Proof

/-! SUPPORT. The string moves (42_movs.md): the index and count registers by AddressSize (R160, R167), how far an element
moves the indexes (R168), the element itself (R160 to R166), and REP before it (R167). -/

namespace Sys2Proof.Machine

/-! ### Index and count registers -/

/-- A write to an index or count register leaves the other registers, at either AddressSize (42_movs.md R160). -/
theorem readR32_setStringReg_ne {r q : Reg} (h : q ≠ r) (asz : Size) (v : Word) (s : State) :
    readR32 (setStringReg asz r v s) q = readR32 s q := by
  cases asz with
  | s16 => exact readR32_writeR16_ne _ s h
  | s32 => exact readR32_writeR32_ne _ s h

/-- An index or count register is a part of its general register. -/
theorem stringReg_of_readR32 {s t : State} {r : Reg} (h : readR32 t r = readR32 s r) (asz : Size) :
    stringReg t asz r = stringReg s asz r := by
  cases asz with
  | s16 => exact congrArg (fun v : Word => (v.extractLsb' 0 16).setWidth 32) h
  | s32 => exact h

/-- A count that is not 0 reads one less once one less is written: the subtraction borrows nothing from the upper half
(42_movs.md R167). -/
theorem stringReg_setStringReg_pred {s : State} {asz : Size} {r : Reg} (h : stringReg s asz r ≠ 0#32) (u : State) :
    stringReg (setStringReg asz r (stringReg s asz r - 1) u) asz r = stringReg s asz r - 1 := by
  cases asz with
  | s32 => exact readR32_writeR32_same r _ u
  | s16 =>
    simp only [stringReg, setStringReg, readR16_writeR16_same,
      ← BitVec.setWidth_eq_extractLsb' (show 16 ≤ 32 by decide)] at h ⊢
    bv_omega

/-! ### The indexes -/

/-- From `s` to `t` the index register `q` has moved by `w`, down if DF is 1 and up if it is 0: modulo 2^32, or modulo 2^16
with the upper half kept (42_movs.md R168). -/
def IndexMoved (asz : Size) (w : Word) (s t : State) (q : Reg) : Prop :=
  (asz = .s32 → readR32 t q = if getFlag s .df then readR32 s q - w else readR32 s q + w) ∧
    (asz = .s16 → readR16 t q = (if getFlag s .df then readR16 s q - w.setWidth 16 else readR16 s q + w.setWidth 16) ∧
      (readR32 t q).extractLsb' 16 16 = (readR32 s q).extractLsb' 16 16)

/-- How far an index has moved is about that register and DF alone. -/
theorem IndexMoved.congr {asz : Size} {w : Word} {s s' t t' : State} {q : Reg} (h : IndexMoved asz w s t q)
    (hf : s'.eflags = s.eflags) (hs : readR32 s' q = readR32 s q) (ht : readR32 t' q = readR32 t q) :
    IndexMoved asz w s' t' q := by
  have low16 (u : State) : readR16 u q = (readR32 u q).extractLsb' 0 16 := rfl
  simp only [IndexMoved, low16, getFlag_of_eflags hf, hs, ht] at h ⊢
  exact h

/-- In the low half an index moves modulo 2^16 (42_movs.md R168). -/
theorem stepIndex_low16 (df : Bool) (w : Nat) (x : Half) :
    (stepIndex df w (x.setWidth 32)).extractLsb' 0 16 =
      if df then x - (BitVec.ofNat 32 w).setWidth 16 else x + (BitVec.ofNat 32 w).setWidth 16 := by
  rw [stepIndex, ← BitVec.setWidth_eq_extractLsb' (by decide)]
  split <;> bv_omega

/-- The write that advances an index moves it, whatever was written to other registers before (42_movs.md R160). -/
theorem indexMoved_setStringReg {s u : State} {q : Reg} (hu : readR32 u q = readR32 s q) (asz : Size) (w : Nat) :
    IndexMoved asz (BitVec.ofNat 32 w) s (setStringReg asz q (stepIndex (getFlag s .df) w (stringReg s asz q)) u) q := by
  cases asz with
  | s32 => exact ⟨fun _ => readR32_writeR32_same q _ u, nofun⟩
  | s16 =>
    refine ⟨nofun, fun _ => ⟨(readR16_writeR16_same q _ u).trans (stepIndex_low16 _ w _), ?_⟩⟩
    exact (writeR16_high q _ u).trans (congrArg _ hu)

/-- Both indexes are moved (42_movs.md R160). -/
theorem indexMoved_stepIndexes (asz : Size) (w : Nat) (s : State) {q : Reg} (hq : q = .esi ∨ q = .edi) :
    IndexMoved asz (BitVec.ofNat 32 w) s (stepIndexes asz w s) q := by
  rcases hq with rfl | rfl
  · exact (indexMoved_setStringReg rfl asz w).congr rfl rfl (readR32_setStringReg_ne (by decide) _ _ _)
  · exact indexMoved_setStringReg (readR32_setStringReg_ne (by decide) _ _ _) asz w

theorem readR32_stepIndexes_ne {q : Reg} (hs : q ≠ .esi) (hd : q ≠ .edi) (asz : Size) (w : Nat) (s : State) :
    readR32 (stepIndexes asz w s) q = readR32 s q :=
  (readR32_setStringReg_ne hd _ _ _).trans (readR32_setStringReg_ne hs _ _ _)

/-! ### One element -/

section
variable {w : Nat} {asz : Size} {src : SegReg} {s t : State}

/-- An element that is moved: data changes, and then the indexes, from a state with the registers and flags of before
(42_movs.md R160). -/
theorem elementMoved.steps (h : elementMoved w asz src s t) :
    ∃ v, t = stepIndexes asz w v ∧ v.regs = s.regs ∧ v.eip = s.eip ∧ v.eflags = s.eflags := by
  obtain ⟨_, u, v, _, ⟨hu, _⟩, ⟨hv, _⟩, ht⟩ := h
  exact ⟨v, ht, by rw [hv, hu], by rw [hv, hu], by rw [hv, hu]⟩

theorem elementMoved.eip (h : elementMoved w asz src s t) : t.eip = s.eip := by
  obtain ⟨v, rfl, _, he, _⟩ := h.steps
  rw [stepIndexes_eip, he]

/-- Moving an element leaves the count. -/
theorem elementMoved.count (h : elementMoved w asz src s t) : stringReg t asz .ecx = stringReg s asz .ecx := by
  obtain ⟨v, rfl, hr, _, _⟩ := h.steps
  have hv := readR32_stepIndexes_ne (q := .ecx) (by decide) (by decide) asz w v
  exact (stringReg_of_readR32 hv asz).trans (stringReg_same hr asz .ecx)

theorem elementMoved.indexMoved (h : elementMoved w asz src s t) {q : Reg} (hq : q = .esi ∨ q = .edi) :
    IndexMoved asz (BitVec.ofNat 32 w) s t q := by
  obtain ⟨v, rfl, hr, _, hf⟩ := h.steps
  exact (indexMoved_stepIndexes asz w v hq).congr hf.symm (by rw [readR32, readR32, hr]) rfl

theorem moveElement_elementMoved (hw : w ≤ 4096) (h : moveElement w asz src s = .ok () t) :
    elementMoved w asz src s t := by
  obtain ⟨bs, u, v, hl, hr, hv, ht, _, _⟩ := moveElement_ok hw h
  exact ⟨bs, u, v, hl, hr, hv, ht⟩

theorem moveElement_of_canMove (hw : w ≤ 4096) (h : canMoveElement w asz src s = true) :
    ∃ t, elementMoved w asz src s t ∧ moveElement w asz src s = .ok () t := by
  obtain ⟨hload, hstore⟩ := Bool.and_eq_true_iff.mp h
  obtain ⟨t, ht⟩ := moveElement_complete hload hstore
  exact ⟨t, moveElement_elementMoved hw ht, ht⟩

/-! ### REP -/

/-- Under REP with the count 0 nothing is done (42_movs.md R167). -/
theorem moveString_exhausted (hz : stringReg s asz .ecx = 0#32) (w : Nat) (src : SegReg) :
    moveString w true asz src s = .ok () s := if_pos hz

/-- Under REP with a count that is not 0 one element is moved, and then one is taken off the count (42_movs.md R167). -/
theorem moveString_counted (hw : w ≤ 4096) (hc : stringReg s asz .ecx ≠ 0#32) (h : canMoveElement w asz src s = true) :
    ∃ u, elementMoved w asz src s u ∧
      moveString w true asz src s = .ok () (setStringReg asz .ecx (stringReg s asz .ecx - 1) u) := by
  obtain ⟨u, hm, hu⟩ := moveElement_of_canMove hw h
  refine ⟨u, hm, ?_⟩
  rw [← hm.count]
  simp only [moveString, if_true, repElement, if_neg hc, hu, Res.andThen]

/-- A REP MOVS is to go on while the count is not 0 (42_movs.md R167). -/
theorem repUnfinished_iff {i : Instr} (hi : repAddressSize i = some asz) :
    repUnfinished i t = true ↔ stringReg t asz .ecx ≠ 0#32 := by
  simp only [repUnfinished, hi, decide_eq_true_iff]

theorem complete_unfinished {i : Instr} (h : repUnfinished i t = true) (d : Size) (len : Nat) :
    complete d i len (.next t) = .next t := by rw [complete, if_pos h]

/-- An instruction that has finished, and is no MOV into SS, advances EIP and ends the inhibit (10_state.md R15, R25). -/
theorem complete_finished {i : Instr} (h : ¬ repUnfinished i t = true) (hl : loadsStackSegment i = false) (d : Size)
    (len : Nat) : complete d i len (.next t) = .next { t with eip := nextEip d t.eip len, inhibit := false } := by
  rw [complete, if_neg h, completed, hl, Bool.false_and]

/-- A string move that completes, and under REP had a count that was not 0, has moved both indexes (42_movs.md R168): taking
one off the count leaves them. -/
theorem moveString_indexMoved {rep : Bool} (hw : w ≤ 4096) (hc : rep = true → stringReg s asz .ecx ≠ 0#32)
    (h : moveString w rep asz src s = .ok () t) {q : Reg} (hq : q = .esi ∨ q = .edi) :
    IndexMoved asz (BitVec.ofNat 32 w) s t q := by
  rcases moveString_ok h with ⟨hr, hz, _⟩ | ⟨_, h⟩ | ⟨_, _, u, hu, rfl⟩
  · exact absurd hz (hc hr)
  · exact (moveElement_elementMoved hw h).indexMoved hq
  · have hne : q ≠ .ecx := by rcases hq with rfl | rfl <;> decide
    exact ((moveElement_elementMoved hw hu).indexMoved hq).congr rfl rfl (readR32_setStringReg_ne hne _ _ _)

end

/-! ### The obligations -/

/-- Settles O33: each form is a string move of its width through its segment. -/
theorem stringMoveMovesOneElement : Obligations.StringMoveMovesOneElement := by
  intro s a r moves
  have move {i : Instr} {w : Nat} {g : SegReg} (hw : w ≤ 4096)
      (hi : exec i s = (moveString w false a g s).outcome) : moves i w g := fun h => by
    obtain ⟨t, hm, ht⟩ := moveElement_of_canMove hw h
    exact ⟨t, hm, hi.trans (Res.outcome_next.mpr ⟨(), ht⟩)⟩
  exact ⟨move (by decide) rfl, move (by decide) rfl, move (by decide) rfl, move (by decide) rfl, move (by decide) rfl,
    move (by decide) rfl⟩

/-- Settles O34: by the count before, and for the advance of EIP by the count that is left. -/
theorem repeatedStringMoveCountsDown : Obligations.RepeatedStringMoveCountsDown := by
  intro s a r counts
  have count {i : Instr} {w : Nat} {g : SegReg} (hw : w ≤ 4096) (hi : exec i s = (moveString w true a g s).outcome)
      (ha : repAddressSize i = some a) (hl : loadsStackSegment i = false) : counts i w g := by
    refine ⟨fun hz => ⟨?_, ?_⟩, fun hc h => ?_⟩
    · exact hi.trans (Res.outcome_next.mpr ⟨(), moveString_exhausted hz w g⟩)
    · exact complete_finished (fun hu => (repUnfinished_iff ha).mp hu hz) hl
    · obtain ⟨u, hm, hu⟩ := moveString_counted hw hc h
      have hcount := stringReg_setStringReg_pred hc u
      have heip := (setStringReg_eip a .ecx (stringReg s a .ecx - 1) u).trans hm.eip
      refine ⟨u, _, hm, rfl, hcount, heip, hi.trans (Res.outcome_next.mpr ⟨(), hu⟩), fun d len => ⟨?_, ?_⟩⟩
      · intro h1
        rw [← heip]
        refine complete_finished (fun hu => (repUnfinished_iff ha).mp hu ?_) hl d len
        rw [hcount, h1]
        rfl
      · intro h1
        refine complete_unfinished ((repUnfinished_iff ha).mpr ?_) d len
        rw [hcount]
        exact fun h0 => h1 (sub_eq_zero.mp h0)
  exact ⟨count (by decide) rfl rfl rfl, count (by decide) rfl rfl rfl, count (by decide) rfl rfl rfl,
    count (by decide) rfl rfl rfl, count (by decide) rfl rfl rfl, count (by decide) rfl rfl rfl⟩

/-- Settles O35: each form is a string move of its width, which keeps all but data and moves both indexes. -/
theorem directionFlagMovesTheIndexes : Obligations.DirectionFlagMovesTheIndexes := by
  intro s t rep a r hc moved
  have move {i : Instr} {w : Nat} {g : SegReg} (hw : w ≤ 4096) (hi : exec i s = (moveString w rep a g s).outcome) :
      moved i (BitVec.ofNat 32 w) := fun h => by
    obtain ⟨_, h⟩ := Res.outcome_next.mp (hi.symm.trans h)
    exact ⟨(moveString_dataOnly hw h).eflags, fun q hq => moveString_indexMoved hw hc h hq⟩
  exact ⟨move (w := 1) (by decide) rfl, move (w := 2) (by decide) rfl, move (w := 4) (by decide) rfl,
    move (w := 1) (by decide) rfl, move (w := 2) (by decide) rfl, move (w := 4) (by decide) rfl⟩

end Sys2Proof.Machine

/-! SUPPORT. Moves that widen their operand (43_movsx.md): what is read, as a number, is what the destination then holds. -/

namespace Sys2Proof.Machine

/-- An instruction that reads `v` and writes its widening, the same number, to a register leaves that number in the register
and changes nothing else (43_movsx.md R181 to R183). `wr` and `rd` write and read the register at the new width. -/
theorem widening_completes {α β ν : Type} {reads : α → State → Prop} {o : Outcome} {wr : β → State → State} {rd : State → β}
    {widen : α → β} {oldValue : α → ν} {newValue : β → ν} (hrd : ∀ b u, rd (wr b u) = b)
    (hwiden : ∀ v, newValue (widen v) = oldValue v) (h : ∃ v u, reads v u ∧ o = .next (wr (widen v) u)) :
    ∃ v u t, reads v u ∧ o = .next t ∧ t = wr (rd t) u ∧ newValue (rd t) = oldValue v := by
  obtain ⟨v, u, hv, ho⟩ := h
  refine ⟨v, u, wr (widen v) u, hv, ho, ?_, ?_⟩
  · rw [hrd]
  · rw [hrd, hwiden]

/-- Settles O36: a read that completes, then the register, which takes the sign extension; with operand size 16 there is
nothing to extend. -/
theorem signExtendingMove : Obligations.SignExtendingMove := fun _ dst =>
  ⟨fun _ h => widening_completes (readR16_writeR16_same dst) (fun _ => BitVec.toInt_signExtend_of_le (by decide))
      (readRm8_then h fun v => writeR16 dst (v.signExtend 16)),
    fun _ h => widening_completes (readR32_writeR32_same dst) (fun _ => BitVec.toInt_signExtend_of_le (by decide))
      (readRm8_then h fun v => writeR32 dst (v.signExtend 32)),
    fun _ h => widening_completes (readR32_writeR32_same dst) (fun _ => BitVec.toInt_signExtend_of_le (by decide))
      (readRm16_then h fun v => writeR32 dst (v.signExtend 32)),
    fun _ h => readRm16_then h (writeR16 dst)⟩

end Sys2Proof.Machine

/-! SUPPORT. Moves that widen their operand with zeros (44_movzx.md): the new high bits are 0, so the unsigned number stays. -/

namespace Sys2Proof.Machine

/-- Settles O37: a read that completes, then the register, which takes the zero extension; with operand size 16 there is
nothing to extend. -/
theorem zeroExtendingMove : Obligations.ZeroExtendingMove := fun _ dst =>
  ⟨fun _ h => widening_completes (readR16_writeR16_same dst) (fun _ => BitVec.toNat_setWidth_of_le (by decide))
      (readRm8_then h fun v => writeR16 dst (v.setWidth 16)),
    fun _ h => widening_completes (readR32_writeR32_same dst) (fun _ => BitVec.toNat_setWidth_of_le (by decide))
      (readRm8_then h fun v => writeR32 dst (v.setWidth 32)),
    fun _ h => widening_completes (readR32_writeR32_same dst) (fun _ => BitVec.toNat_setWidth_of_le (by decide))
      (readRm16_then h fun v => writeR32 dst (v.setWidth 32)),
    fun _ h => readRm16_then h (writeR16 dst)⟩

end Sys2Proof.Machine

/-! SUPPORT. Unsigned multiplication (45_mul.md): the product fits in two halves, CF and OF say whether the high one is 0. -/

namespace Sys2Proof.Machine

/-! ### The product and its two halves -/

/-- A product of two factors has at most twice their width (45_mul.md R206). -/
theorem product_lt {w : Nat} (a b : BitVec w) : product a b < 2 ^ w * 2 ^ w := Nat.mul_lt_mul'' a.isLt b.isLt

theorem product_high_lt {w : Nat} (a b : BitVec w) : product a b / 2 ^ w < 2 ^ w :=
  Nat.div_lt_of_lt_mul (product_lt a b)

/-- The high and the low half side by side are the exact product (45_mul.md R206). -/
theorem product_halves {w : Nat} (a b : BitVec w) :
    (BitVec.ofNat w (product a b / 2 ^ w)).toNat * 2 ^ w + (BitVec.ofNat w (product a b)).toNat = a.toNat * b.toNat := by
  rw [BitVec.toNat_ofNat, BitVec.toNat_ofNat, Nat.mod_eq_of_lt (product_high_lt a b), Nat.div_add_mod']
  rfl

/-- Two bytes have a product of 16 bits (45_mul.md R201). -/
theorem product_toNat_half (a b : Byte) : (BitVec.ofNat 16 (product a b)).toNat = a.toNat * b.toNat := by
  rw [BitVec.toNat_ofNat]
  exact Nat.mod_eq_of_lt (product_lt a b)

/-- The high half is 0 as a word where it is 0 as a number (45_mul.md R204). -/
theorem highNonzero_product {w : Nat} (a b : BitVec w) :
    highNonzero w (product a b) = decide (BitVec.ofNat w (product a b / 2 ^ w) ≠ 0#w) := by
  refine decide_eq_decide.mpr (not_congr ?_)
  rw [← BitVec.toNat_inj, BitVec.toNat_ofNat, Nat.mod_eq_of_lt (product_high_lt a b), BitVec.toNat_ofNat, Nat.zero_mod]

/-- The high byte of a 16-bit word given by a number. -/
theorem extractLsb'_high_ofNat (p : Nat) : (BitVec.ofNat 16 p).extractLsb' 8 8 = BitVec.ofNat 8 (p / 2 ^ 8) := by
  apply BitVec.eq_of_toNat_eq
  simp only [BitVec.extractLsb'_toNat, BitVec.toNat_ofNat, Nat.shiftRight_eq_div_pow]
  omega

/-! ### Registers and flags after MUL -/

/-- AH is the high byte of AX (10_state.md R11, R12). -/
theorem readR8_ah_eq (s : State) : readR8 s .ah = (readR16 s .eax).extractLsb' 8 8 :=
  (BitVec.extractLsb'_extractLsb'_of_le (by decide)).symm

theorem readR8_of_regs {s t : State} (h : t.regs = s.regs) (r : Reg8) : readR8 t r = readR8 s r := by
  rw [readR8, readR8, h]

theorem readR16_of_regs {s t : State} (h : t.regs = s.regs) (r : Reg) : readR16 t r = readR16 s r := by
  rw [readR16, readR16, h]

theorem readR32_of_regs {s t : State} (h : t.regs = s.regs) (r : Reg) : readR32 t r = readR32 s r := by
  rw [readR32, readR32, h]

@[simp] theorem readR16_mulFlags (c : Bool) (s : State) (r : Reg) : readR16 (mulFlags c s) r = readR16 s r :=
  readR16_of_regs (mulFlags_regs c s) r

@[simp] theorem readR32_mulFlags (c : Bool) (s : State) (r : Reg) : readR32 (mulFlags c s) r = readR32 s r :=
  readR32_of_regs (mulFlags_regs c s) r

theorem readR16_writeR16_ne {r q : Reg} (v : Half) (s : State) (h : q ≠ r) :
    readR16 (writeR16 r v s) q = readR16 s q :=
  congrArg (BitVec.extractLsb' 0 16) (readR32_writeR16_ne v s h)

/-- CF and OF of MUL are always equal (45_mul.md R204). -/
theorem mulFlags_carry (c : Bool) (s : State) : getFlag (mulFlags c s) .cf = c ∧ getFlag (mulFlags c s) .ovf = c :=
  ⟨mulFlags_cf c s, mulFlags_ovf c s⟩

/-- The four flags that MUL leaves undefined are draws taken since `s`, at different places (45_mul.md R204, 92 D20). -/
theorem mulFlags_drawn {s u : State} (h : s.draws ≤ u.draws) (c : Bool) :
    ∃ n : Flag → Nat, (∀ f, f ∈ mulUndefinedFlags → flagDrawn s (mulFlags c u) f (n f)) ∧
      ∀ f g, f ∈ mulUndefinedFlags → g ∈ mulUndefinedFlags → n f = n g → f = g :=
  undefineFlags_drawn (u := setFlag (setFlag u .cf c) .ovf c) h (by decide)

/-- The flags of MUL, set after registers are written, leave the other fields as they were. -/
theorem mulFlags_regs_frame (c : Bool) (g : Regs) (u : State) : mulFlags c { u with regs := g } =
    { u with
      regs := (mulFlags c { u with regs := g }).regs
      eflags := (mulFlags c { u with regs := g }).eflags
      draws := (mulFlags c { u with regs := g }).draws } := by
  rw [mulFlags_regs]
  exact undefineFlags_frame _ mulUndefinedFlags

/-! ### What each form does with its factor -/

/-- What `MUL AL,r/m8` does with the factor `v` in the state `u` that the read of it leaves (45_mul.md R201, R204). -/
def mulAl (v : Byte) (u : State) : State :=
  mulFlags (highNonzero 8 (product (readR8 u .al) v)) (writeR16 .eax (BitVec.ofNat 16 (product (readR8 u .al) v)) u)

/-- What `MUL AX,r/m16` does with the factor `v` in the state `u` that the read of it leaves (45_mul.md R202, R204). -/
def mulAx (v : Half) (u : State) : State :=
  mulFlags (highNonzero 16 (product (readR16 u .eax) v))
    (writeR16 .edx (BitVec.ofNat 16 (product (readR16 u .eax) v / 2 ^ 16))
      (writeR16 .eax (BitVec.ofNat 16 (product (readR16 u .eax) v)) u))

/-- What `MUL EAX,r/m32` does with the factor `v` in the state `u` that the read of it leaves (45_mul.md R203, R204). -/
def mulEax (v : Word) (u : State) : State :=
  mulFlags (highNonzero 32 (product (readR32 u .eax) v))
    (writeR32 .edx (BitVec.ofNat 32 (product (readR32 u .eax) v / 2 ^ 32))
      (writeR32 .eax (BitVec.ofNat 32 (product (readR32 u .eax) v)) u))

theorem exec_mulAlRm8 (src : Rm Reg8) (s : State) :
    exec (.mulAlRm8 src) s = ((readRm8 src s).andThen fun v u => .ok () (mulAl v u)).outcome := rfl

theorem exec_mulAxRm16 (src : Rm Reg) (s : State) :
    exec (.mulAxRm16 src) s = ((readRm16 src s).andThen fun v u => .ok () (mulAx v u)).outcome := rfl

theorem exec_mulEaxRm32 (src : Rm Reg) (s : State) :
    exec (.mulEaxRm32 src) s = ((readRm32 src s).andThen fun v u => .ok () (mulEax v u)).outcome := rfl

section

variable {s u : State} (h : u.regs = s.regs)
include h

/-- AX is the exact product of AL and the factor; the rest of the registers is kept (45_mul.md R201). -/
theorem mulAl_regs (v : Byte) :
    (readR16 (mulAl v u) .eax).toNat = (readR8 s .al).toNat * v.toNat ∧
      (readR32 (mulAl v u) .eax).extractLsb' 16 16 = (readR32 s .eax).extractLsb' 16 16 ∧
      ∀ q, q ≠ .eax → readR32 (mulAl v u) q = readR32 s q := by
  simp only [mulAl, readR16_mulFlags, readR32_mulFlags, ← readR8_of_regs h, ← readR32_of_regs h]
  refine ⟨?_, writeR16_high .eax _ u, fun q hq => readR32_writeR16_ne _ u hq⟩
  rw [readR16_writeR16_same, product_toNat_half]

/-- DX:AX is the exact product of AX and the factor; the rest of the registers is kept (45_mul.md R202). -/
theorem mulAx_regs (v : Half) :
    (readR16 (mulAx v u) .edx).toNat * 65536 + (readR16 (mulAx v u) .eax).toNat = (readR16 s .eax).toNat * v.toNat ∧
      (readR32 (mulAx v u) .eax).extractLsb' 16 16 = (readR32 s .eax).extractLsb' 16 16 ∧
      (readR32 (mulAx v u) .edx).extractLsb' 16 16 = (readR32 s .edx).extractLsb' 16 16 ∧
      ∀ q, q ≠ .eax → q ≠ .edx → readR32 (mulAx v u) q = readR32 s q := by
  simp only [mulAx, readR16_mulFlags, readR32_mulFlags, ← readR16_of_regs h, ← readR32_of_regs h]
  refine ⟨?_, ?_, ?_, fun q ha hd => ?_⟩
  · rw [readR16_writeR16_same, readR16_writeR16_ne _ _ (by decide), readR16_writeR16_same]
    exact product_halves _ v
  · rw [readR32_writeR16_ne _ _ (by decide), writeR16_high]
  · rw [writeR16_high, readR32_writeR16_ne _ _ (by decide)]
  · rw [readR32_writeR16_ne _ _ hd, readR32_writeR16_ne _ _ ha]

/-- EDX:EAX is the exact product of EAX and the factor; the other registers are kept (45_mul.md R203). -/
theorem mulEax_regs (v : Word) :
    (readR32 (mulEax v u) .edx).toNat * 4294967296 + (readR32 (mulEax v u) .eax).toNat =
        (readR32 s .eax).toNat * v.toNat ∧
      ∀ q, q ≠ .eax → q ≠ .edx → readR32 (mulEax v u) q = readR32 s q := by
  simp only [mulEax, readR32_mulFlags, ← readR32_of_regs h]
  refine ⟨?_, fun q ha hd => ?_⟩
  · rw [readR32_writeR32_same, readR32_writeR32_ne _ _ (by decide), readR32_writeR32_same]
    exact product_halves _ v
  · rw [readR32_writeR32_ne _ _ hd, readR32_writeR32_ne _ _ ha]

end

/-- Each form changes registers, flags and the draw counter alone (45_mul.md R201 to R204). -/
theorem mulAl_frame (v : Byte) (u : State) : mulAl v u =
    { u with regs := (mulAl v u).regs, eflags := (mulAl v u).eflags, draws := (mulAl v u).draws } :=
  mulFlags_regs_frame _ _ u

theorem mulAx_frame (v : Half) (u : State) : mulAx v u =
    { u with regs := (mulAx v u).regs, eflags := (mulAx v u).eflags, draws := (mulAx v u).draws } :=
  mulFlags_regs_frame _ _ u

theorem mulEax_frame (v : Word) (u : State) : mulEax v u =
    { u with regs := (mulEax v u).regs, eflags := (mulEax v u).eflags, draws := (mulEax v u).draws } :=
  mulFlags_regs_frame _ _ u

/-- CF and OF say whether AH is 0 (45_mul.md R204). -/
theorem mulAl_carry (v : Byte) (u : State) :
    getFlag (mulAl v u) .cf = decide (readR8 (mulAl v u) .ah ≠ 0#8) ∧
      getFlag (mulAl v u) .ovf = decide (readR8 (mulAl v u) .ah ≠ 0#8) := by
  rw [readR8_ah_eq, mulAl, readR16_mulFlags, readR16_writeR16_same, extractLsb'_high_ofNat, ← highNonzero_product]
  exact mulFlags_carry _ _

/-- CF and OF say whether DX is 0 (45_mul.md R204). -/
theorem mulAx_carry (v : Half) (u : State) :
    getFlag (mulAx v u) .cf = decide (readR16 (mulAx v u) .edx ≠ 0#16) ∧
      getFlag (mulAx v u) .ovf = decide (readR16 (mulAx v u) .edx ≠ 0#16) := by
  rw [mulAx, readR16_mulFlags, readR16_writeR16_same, ← highNonzero_product]
  exact mulFlags_carry _ _

/-- CF and OF say whether EDX is 0 (45_mul.md R204). -/
theorem mulEax_carry (v : Word) (u : State) :
    getFlag (mulEax v u) .cf = decide (readR32 (mulEax v u) .edx ≠ 0#32) ∧
      getFlag (mulEax v u) .ovf = decide (readR32 (mulEax v u) .edx ≠ 0#32) := by
  rw [mulEax, readR32_mulFlags, readR32_writeR32_same, ← highNonzero_product]
  exact mulFlags_carry _ _

/-! ### A form that reads its factor -/

/-- An operation on a value that is read completes where the read does; registers are then still those before it. -/
theorem readThen_completes {α : Type} {r : Res α} {reads : α → State → Prop} {s : State} (hc : ∃ v u, r = .ok v u)
    (hr : ∀ {v u}, r = .ok v u → reads v u ∧ MemoryOnly s u) (g : α → State → State) :
    ∃ v u, reads v u ∧ u.regs = s.regs ∧ (r.andThen fun v u => .ok () (g v u)).outcome = .next (g v u) := by
  obtain ⟨v, u, hv⟩ := hc
  obtain ⟨hreads, hsame, _⟩ := hr hv
  exact ⟨v, u, hreads, hsame.fields.1, readThen_next hv g⟩

/-- An operation on a value that is read leaves what it makes of the value and of the state the read left. -/
theorem readThen_next_inv {α : Type} {r : Res α} {g : α → State → State} {t : State}
    (h : (r.andThen fun v u => .ok () (g v u)).outcome = .next t) : ∃ v u, r = .ok v u ∧ t = g v u := by
  obtain ⟨_, h⟩ := Res.outcome_next.mp h
  obtain ⟨v, u, hv, h⟩ := Res.andThen_ok.mp h
  cases h
  exact ⟨v, u, hv, rfl⟩

theorem MemoryOnly.draws {s t : State} (h : MemoryOnly s t) : t.draws = s.draws := by rw [h.1]

/-- A multiplication that completes has set the flags of MUL, having drawn nothing before (45_mul.md R204). -/
theorem exec_mul_next {i : Instr} {s t : State} (hm : isMul i = true) (h : exec i s = .next t) :
    ∃ c w, t = mulFlags c w ∧ w.draws = s.draws := by
  cases i with
  | mulAlRm8 src =>
    obtain ⟨v, u, hu, rfl⟩ := readThen_next_inv (exec_mulAlRm8 src s ▸ h)
    exact ⟨_, _, rfl, (readRm8_ok hu).2.draws⟩
  | mulAxRm16 src =>
    obtain ⟨v, u, hu, rfl⟩ := readThen_next_inv (exec_mulAxRm16 src s ▸ h)
    exact ⟨_, _, rfl, (readRm16_ok hu).2.draws⟩
  | mulEaxRm32 src =>
    obtain ⟨v, u, hu, rfl⟩ := readThen_next_inv (exec_mulEaxRm32 src s ▸ h)
    exact ⟨_, _, rfl, (readRm32_ok hu).2.draws⟩
  | _ => cases hm

/-- Settles O38: the read of the factor completes and keeps the registers; each form then leaves the two halves of the
product. -/
theorem multiplicationIsExact : Obligations.MultiplicationIsExact := by
  intro s
  refine ⟨fun src h => ?_, fun src h => ?_, fun src h => ?_⟩
  · obtain ⟨v, u, hv, hu, ht⟩ := readThen_completes (readRm8_complete h) readRm8_ok mulAl
    obtain ⟨hax, hhigh, hother⟩ := mulAl_regs hu v
    exact ⟨v, u, mulAl v u, hv, ht, hax, hhigh, hother, mulAl_frame v u⟩
  · obtain ⟨v, u, hv, hu, ht⟩ := readThen_completes (readRm16_complete h) readRm16_ok mulAx
    obtain ⟨hdxax, hhighA, hhighD, hother⟩ := mulAx_regs hu v
    exact ⟨v, u, mulAx v u, hv, ht, hdxax, hhighA, hhighD, hother, mulAx_frame v u⟩
  · obtain ⟨v, u, hv, hu, ht⟩ := readThen_completes (readRm32_complete h) readRm32_ok mulEax
    obtain ⟨hedxeax, hother⟩ := mulEax_regs hu v
    exact ⟨v, u, mulEax v u, hv, ht, hedxeax, hother, mulEax_frame v u⟩

/-- Settles O39: CF and OF by the form's high half, four draws at different places, and what every instruction keeps of
EFLAGS. -/
theorem multiplicationFlags : Obligations.MultiplicationFlags := by
  intro i s t hm h
  refine ⟨⟨?_, ?_, ?_⟩, ?_, (exec_next h).otherFlags⟩
  · rintro src rfl
    obtain ⟨v, u, _, rfl⟩ := readThen_next_inv (exec_mulAlRm8 src s ▸ h)
    exact mulAl_carry v u
  · rintro src rfl
    obtain ⟨v, u, _, rfl⟩ := readThen_next_inv (exec_mulAxRm16 src s ▸ h)
    exact mulAx_carry v u
  · rintro src rfl
    obtain ⟨v, u, _, rfl⟩ := readThen_next_inv (exec_mulEaxRm32 src s ▸ h)
    exact mulEax_carry v u
  · obtain ⟨c, w, rfl, hw⟩ := exec_mul_next hm h
    exact mulFlags_drawn (Nat.le_of_eq hw.symm) c

end Sys2Proof.Machine

/-! SUPPORT. The entry of a handler in real-address mode (60_exceptions.md R215): what it can change, and that it completes
where the vector's entry can be read and the three words can be pushed. -/

namespace Sys2Proof.Machine

/-! ### What an entry changes -/

/-- The state in which a handler starts, by the doubleword of its vector: IF and TF cleared, CS:IP loaded
(60_exceptions.md R215). -/
def handlerStart (entry : Word) (s : State) : State :=
  { loadRealCs (entry.extractLsb' 16 16) (setFlag (setFlag s .ie false) .tf false) with
    eip := (entry.extractLsb' 0 16).setWidth 32 }

theorem getFlag_handlerStart (e : Word) (s : State) (f : Flag) :
    getFlag (handlerStart e s) f = if f = .ie ∨ f = .tf then false else getFlag s f := by
  cases f <;> rfl

/-- A push of a word changes data alone (60_exceptions.md R215). -/
theorem push16_dataOnly {v : Half} {s t : State} (h : push16 v s = .ok () t) : DataOnly s t := by
  simp only [push16, Res.andThen_ok] at h
  obtain ⟨_, u, hu, h⟩ := h
  cases h
  exact (writeSeg_dataOnly (by simp) hu).trans (.writeR16 _ _ _)

/-- The entry of a vector is the read of its doubleword and three pushes, after which the handler starts
(60_exceptions.md R215). -/
theorem enterVector_ok {vec : Nat} {s t : State} : enterVector vec s = .ok () t ↔
    ∃ e s0 s1 s2 s3, readLinear (s.sys.idtr.base + BitVec.ofNat 32 (4 * vec)) 4 true s = .ok e s0 ∧
      push16 (flagsWord s0.eflags) s0 = .ok () s1 ∧ push16 s1.segs.cs.sel s1 = .ok () s2 ∧
        push16 (s2.eip.extractLsb' 0 16) s2 = .ok () s3 ∧ t = handlerStart (leValue 32 e) s3 := by
  simp only [enterVector, Res.andThen_ok]
  constructor
  · rintro ⟨e, s0, h0, _, s1, h1, _, s2, h2, _, s3, h3, h⟩
    cases h
    exact ⟨e, s0, s1, s2, s3, h0, h1, h2, h3, rfl⟩
  · rintro ⟨e, s0, s1, s2, s3, h0, h1, h2, h3, rfl⟩
    exact ⟨e, s0, h0, (), s1, h1, (), s2, h2, (), s3, h3, rfl⟩

/-- An entry that completes changed data alone before the handler starts. -/
theorem enterVector_frame {vec : Nat} {s t : State} (h : enterVector vec s = .ok () t) :
    ∃ e u, DataOnly s u ∧ t = handlerStart e u := by
  obtain ⟨e, s0, s1, s2, s3, h0, h1, h2, h3, rfl⟩ := enterVector_ok.mp h
  have hread := DataOnly.of_memoryOnly (.of_marked (readLinear_ok h0).1)
  exact ⟨_, s3, ((hread.trans (push16_dataOnly h1)).trans (push16_dataOnly h2)).trans (push16_dataOnly h3), rfl⟩

theorem deliver_of_entered {vec : Nat} {s t : State} (h : enterVector vec s = .ok () t) : deliver vec s = .next t := by
  simp only [deliver, h, Res.outcome]

/-- A delivery that completes entered a vector: the one delivered, or that of the double fault (60_exceptions.md R216). -/
theorem deliver_next {vec : Nat} {s t : State} (h : deliver vec s = .next t) : ∃ n, enterVector n s = .ok () t := by
  unfold deliver at h
  split at h
  · split at h
    · cases h
    · obtain ⟨_, h⟩ := Res.outcome_next.mp h
      exact ⟨_, h⟩
  · obtain ⟨_, h⟩ := Res.outcome_next.mp h
    exact ⟨_, h⟩

/-! ### Reads and stores with paging off -/

theorem physAddr?_flat {s : State} (h : paging s = false) (wr us : Bool) (la : Word) :
    physAddr? s wr us la = some la.toNat := by
  simp [physAddr?, h]

theorem mapped_flat {s : State} (h : paging s = false) (la : Word) (wr us : Bool) : mapped s la wr us = true := by
  simp [mapped, h]

theorem mem_operandBytes_flat {s : State} (h : paging s = false) {r : SegReg} {off : Word} {n a : Nat} :
    a ∈ operandBytes s r off n ↔ ∃ k, k < n ∧ (linearAddr s r off + BitVec.ofNat 32 k).toNat = a := by
  simp only [operandBytes, mem_linearBytes, physAddr?_flat h, Option.some.injEq]

/-- With paging off the bytes that memory holds at populated addresses are read, and nothing changes (20_memory.md R49). -/
theorem readLinear_flat {s : State} (hp : paging s = false) {la : Word} {bs : List Byte} (sup : Bool)
    (hpop : ∀ k, k < bs.length → populated s (la + BitVec.ofNat 32 k).toNat = true)
    (hb : holdsLinear s false (userAccess s sup) s.mem la bs) : readLinear la bs.length sup s = .ok bs s := by
  rw [holdsLinear_flat hp] at hb
  obtain ⟨cs, t, hr⟩ := readLinear_complete (la := la) (n := bs.length) (sup := sup) (s := s) fun k hk => by
    simp only [byteLoads, mapped_flat hp, physAddr?_flat hp, hpop k hk, hb k hk, List.getElem?_eq_getElem hk,
      Option.isSome_some, Bool.and_self]
  have hts : t = s := by
    simp only [readLinear, Res.andThen_ok, readPhys_ok] at hr
    obtain ⟨_, _, hx, hu, _⟩ := hr
    exact hu.trans (translateAll_flat hp hx)
  subst t
  obtain ⟨_, hl, hc⟩ := readLinear_ok hr
  rw [holdsLinear_flat hp] at hc
  have hcs : cs = bs := List.ext_getElem? fun k => by
    by_cases hk : k < bs.length
    · rw [← hc k (by omega), hb k hk]
    · rw [List.getElem?_eq_none (by omega), List.getElem?_eq_none (by omega)]
  rw [hr, hcs]

section

variable {s t : State} (h : DataOnly s t)

include h

theorem DataOnly.mode : Machine.mode t = Machine.mode s := mode_eq (by rw [h.same]) (by rw [h.same])

theorem DataOnly.paging : Machine.paging t = Machine.paging s := paging_eq (by rw [h.same])

theorem DataOnly.userAccess (sup : Bool) : Machine.userAccess t sup = Machine.userAccess s sup := by
  rw [Machine.userAccess, Machine.userAccess, cpl_eq h.mode (by rw [h.same])]

theorem DataOnly.linearAddr (r : SegReg) (off : Word) : Machine.linearAddr t r off = Machine.linearAddr s r off := by
  rw [h.same]
  rfl

/-- With paging off no memory decides where a store can be made (20_memory.md R47, R49). -/
theorem DataOnly.canStore (hp : Machine.paging s = false) (r : SegReg) (off : Word) (n : Nat) :
    Machine.canStore t r off n = Machine.canStore s r off n := by
  have hseg : segmentFault t .write r off.toNat n = segmentFault s .write r off.toNat n := by rw [h.same]; rfl
  have hbyte (la : Word) (us : Bool) : byteStores t la us = byteStores s la us := by
    have htext : inProgramText t la = inProgramText s la := by rw [h.same]; rfl
    have hpop (a : Nat) : populated t a = populated s a := by rw [h.same]; rfl
    have hpt := h.paging.trans hp
    simp only [byteStores, mapped_flat hp, mapped_flat hpt, physAddr?_flat hp, physAddr?_flat hpt, htext, hpop]
  simp only [Machine.canStore, hseg, hbyte, h.linearAddr, h.userAccess]

theorem DataOnly.holdsBytes (hp : Machine.paging s = false) {wr : Bool} {m : Memory} {r : SegReg} {off : Word}
    {bs : List Byte} : Machine.holdsBytes t wr m r off bs ↔ Machine.holdsBytes s wr m r off bs := by
  simp only [Machine.holdsBytes, holdsLinear_flat hp, holdsLinear_flat (h.paging.trans hp), h.linearAddr]

theorem DataOnly.operandBytes (hp : Machine.paging s = false) (r : SegReg) (off : Word) (n : Nat) :
    Machine.operandBytes t r off n = Machine.operandBytes s r off n := by
  simp only [Machine.operandBytes, linearBytes, physAddr?_flat hp, physAddr?_flat (h.paging.trans hp), h.linearAddr]

end

/-- With paging off a store to an operand below another leaves the other's bytes (20_memory.md R42, R47). -/
theorem holdsBytes_of_outside {s : State} (hp : paging s = false) {m m' : Memory} {r : SegReg} {off low : Word}
    {bs : List Byte} {n : Nat} (hb : holdsBytes s true m r off bs) (hlow : low.toNat + n ≤ off.toNat)
    (hfit : off.toNat + bs.length ≤ 2 ^ 32)
    (hm : ∀ a, a ∉ operandBytes s r low n → m'.read? a = m.read? a) : holdsBytes s true m' r off bs := by
  rw [holdsBytes, holdsLinear_flat hp] at *
  intro k hk
  rw [hm _ ?_, hb k hk]
  rw [mem_operandBytes_flat hp]
  rintro ⟨j, hj, he⟩
  have hsum : low + BitVec.ofNat 32 j = off + BitVec.ofNat 32 k := by
    simpa only [linearAddr, BitVec.add_assoc, BitVec.add_right_inj] using BitVec.eq_of_toNat_eq he
  have := congrArg BitVec.toNat hsum
  simp only [BitVec.toNat_add, BitVec.toNat_ofNat] at this
  omega

/-! ### The three pushes -/

/-- From `s` to `t` a word is pushed with paging off: it stands at SP - 2, and nothing else in memory has changed
(60_exceptions.md R215). -/
structure Pushed (v : Half) (s t : State) : Prop where
  data : DataOnly s t
  sp : readR16 t .esp = readR16 s .esp - 2
  others : ∀ q, q ≠ .esp → readR32 t q = readR32 s q
  holds : holdsBytes s true t.mem .ss ((readR16 s .esp - 2).setWidth 32) (leBytes 2 v)
  outside : ∀ a, a ∉ operandBytes s .ss ((readR16 s .esp - 2).setWidth 32) 2 → t.mem.read? a = s.mem.read? a

/-- With paging off a word is pushed where it can be written (60_exceptions.md R215). -/
theorem push16_complete {s : State} (hp : paging s = false) (v : Half)
    (h : canStore s .ss ((readR16 s .esp - 2).setWidth 32) 2 = true) : ∃ t, push16 v s = .ok () t ∧ Pushed v s t := by
  obtain ⟨u, hu⟩ := writeSeg_complete (bs := leBytes 2 v) (by rw [leBytes_length]; exact h)
  obtain ⟨hsame, hholds, hkeeps⟩ := (writeSeg_ok (by simp) hu).1
  have hregs : u.regs = s.regs := by rw [hsame]
  have hpush : push16 v s = .ok () (writeR16 .esp (readR16 s .esp - 2) u) := by
    simp only [push16, hu, Res.andThen]
  refine ⟨_, hpush, push16_dataOnly hpush, readR16_writeR16_same _ _ _, fun q hq => ?_, hholds, fun a ha => ?_⟩
  · rw [readR32_writeR16_ne _ _ hq, readR32_of_regs hregs]
  · have hflat : walksTables s = false := by simp [walksTables, hp]
    rw [tableMarks_flat hflat, leBytes_length] at hkeeps
    exact (hkeeps a ha).resolve_right fun ⟨hmem, _⟩ => by cases hmem

/-- A word pushed below an operand leaves the operand's bytes (60_exceptions.md R215). -/
theorem Pushed.keeps {v : Half} {b s t : State} (h : Pushed v s t) (hp : paging b = false) (hd : DataOnly b s)
    {off : Word} {bs : List Byte} (hb : holdsBytes b true s.mem .ss off bs) (hsp : 2 ≤ (readR16 s .esp).toNat)
    (hlow : (readR16 s .esp).toNat ≤ off.toNat) (hfit : off.toNat + bs.length ≤ 2 ^ 32) :
    holdsBytes b true t.mem .ss off bs := by
  refine holdsBytes_of_outside hp (low := (readR16 s .esp - 2).setWidth 32) (n := 2) hb ?_ hfit fun a ha => ?_
  · bv_omega
  · exact h.outside a (by rwa [hd.operandBytes hp])

/-- Three words pushed one after another, with paging off and 6 bytes below SP, stand one below the other
(60_exceptions.md R215). -/
theorem pushed_thrice {s s1 s2 s3 : State} {v1 v2 v3 : Half} (hp : paging s = false) (h6 : 6 ≤ (readR16 s .esp).toNat)
    (h1 : Pushed v1 s s1) (h2 : Pushed v2 s1 s2) (h3 : Pushed v3 s2 s3) :
    readR16 s3 .esp = readR16 s .esp - 6 ∧
      holdsBytes s true s3.mem .ss ((readR16 s .esp - 2).setWidth 32) (leBytes 2 v1) ∧
        holdsBytes s true s3.mem .ss ((readR16 s .esp - 4).setWidth 32) (leBytes 2 v2) ∧
          holdsBytes s true s3.mem .ss ((readR16 s .esp - 6).setWidth 32) (leBytes 2 v3) := by
  have hd1 := h1.data
  have hd2 := hd1.trans h2.data
  have hsp1 := h1.sp
  have hsp2 : readR16 s2 .esp = readR16 s .esp - 4 := by rw [h2.sp, hsp1]; bv_omega
  have hsp3 : readR16 s2 .esp - 2 = readR16 s .esp - 6 := by rw [hsp2]; bv_omega
  have hb2 := (hd1.holdsBytes hp).mp h2.holds
  have hb3 := (hd2.holdsBytes hp).mp h3.holds
  rw [← h2.sp, hsp2] at hb2
  rw [hsp3] at hb3
  have hlen (v : Half) : (leBytes 2 v).length = 2 := leBytes_length 2 v
  refine ⟨h3.sp.trans hsp3, ?_, ?_, hb3⟩
  · have hkept := h2.keeps hp hd1 h1.holds (by bv_omega) (by bv_omega) (by rw [hlen]; bv_omega)
    exact h3.keeps hp hd2 hkept (by bv_omega) (by bv_omega) (by rw [hlen]; bv_omega)
  · exact h3.keeps hp hd2 hb2 (by bv_omega) (by bv_omega) (by rw [hlen]; bv_omega)

/-! ### The entry -/

/-- A little-endian number is its low bytes and, above them, its high ones (20_memory.md R41). -/
theorem leNat_take_drop {n : Nat} {bs : List Byte} (h : n ≤ bs.length) :
    leNat bs = leNat (bs.take n) + 256 ^ n * leNat (bs.drop n) := by
  induction n generalizing bs with
  | zero => simp [leNat]
  | succ n ih =>
    cases bs with
    | nil => cases h
    | cons b bs =>
      rw [List.take_succ_cons, List.drop_succ_cons, leNat, leNat, ih (Nat.le_of_succ_le_succ h), Nat.pow_succ]
      ring

/-- The two words of a vector's entry: the offset, then the segment (60_exceptions.md R215). -/
theorem vectorEntry_words {e : List Byte} (h : e.length = 4) :
    ((leValue 32 e).extractLsb' 0 16).toNat = leNat (e.take 2) ∧
      ((leValue 32 e).extractLsb' 16 16).toNat = leNat (e.drop 2) := by
  have hall := leNat_take_drop (n := 2) (bs := e) (by omega)
  have hlow : leNat (e.take 2) < 65536 := by simpa [h] using leNat_lt (e.take 2)
  have hhigh : leNat (e.drop 2) < 65536 := by simpa [h] using leNat_lt (e.drop 2)
  simp only [BitVec.extractLsb'_toNat, leValue, BitVec.toNat_ofNat, Nat.shiftRight_eq_div_pow]
  omega

/-- With paging off a vector is entered where its entry can be read and three words can be pushed
(60_exceptions.md R215). -/
theorem enterVector_flat {s : State} {vec : Nat} {e : List Byte} (hp : paging s = false)
    (hr : readLinear (s.sys.idtr.base + BitVec.ofNat 32 (4 * vec)) 4 true s = .ok e s)
    (h2 : canStore s .ss ((readR16 s .esp - 2).setWidth 32) 2 = true)
    (h4 : canStore s .ss ((readR16 s .esp - 4).setWidth 32) 2 = true)
    (h6 : canStore s .ss ((readR16 s .esp - 6).setWidth 32) 2 = true) :
    ∃ s1 s2 s3, Pushed (flagsWord s.eflags) s s1 ∧ Pushed s.segs.cs.sel s1 s2 ∧
      Pushed (s.eip.extractLsb' 0 16) s2 s3 ∧ enterVector vec s = .ok () (handlerStart (leValue 32 e) s3) := by
  obtain ⟨s1, hw1, hp1⟩ := push16_complete hp (flagsWord s.eflags) h2
  have hd1 := hp1.data
  have hsp1 : readR16 s1 .esp - 2 = readR16 s .esp - 4 := by rw [hp1.sp]; bv_omega
  obtain ⟨s2, hw2, hp2⟩ := push16_complete (hd1.paging.trans hp) s1.segs.cs.sel (by rw [hd1.canStore hp, hsp1]; exact h4)
  have hd2 := hd1.trans hp2.data
  have hsp2 : readR16 s2 .esp - 2 = readR16 s .esp - 6 := by rw [hp2.sp, hsp1]; bv_omega
  obtain ⟨s3, hw3, hp3⟩ := push16_complete (hd2.paging.trans hp) (s2.eip.extractLsb' 0 16)
    (by rw [hd2.canStore hp, hsp2]; exact h6)
  refine ⟨s1, s2, s3, hp1, hd1.segs ▸ hp2, hd2.eip ▸ hp3, enterVector_ok.mpr ⟨e, s, s1, s2, s3, hr, hw1, hw2, hw3, rfl⟩⟩

/-- Settles O55: the entry is read, the three words are pushed one below the other, and the handler starts. -/
theorem vectoredExceptionEntersItsHandler : Obligations.VectoredExceptionEntersItsHandler := by
  intro s vec e _ hp he at' sp hpop hb hsp h2 h4 h6
  have hr := readLinear_flat hp true (fun k hk => hpop k (he ▸ hk)) ((userAccess_sup s).symm ▸ hb)
  rw [he] at hr
  obtain ⟨s1, s2, s3, p1, p2, p3, henter⟩ := enterVector_flat hp hr h2 h4 h6
  obtain ⟨hsp', hb2, hb4, hb6⟩ := pushed_thrice hp hsp p1 p2 p3
  obtain ⟨hoff, hseg⟩ := vectorEntry_words he
  refine ⟨_, deliver_of_entered henter, ?_, hseg, ?_, hsp', fun q hq => ?_, getFlag_handlerStart _ _ _,
    getFlag_handlerStart _ _ _, hb2, hb4, hb6⟩
  · rw [← hoff]
    exact BitVec.toNat_setWidth_of_le (by decide)
  · rw [← hseg]
    exact paragraph_toNat _
  · exact (p3.others q hq).trans ((p2.others q hq).trans (p1.others q hq))

end Sys2Proof.Machine

/-! SUPPORT. What a step that completes has done (10_state.md R15): what every step keeps, the mode and the level among it
(R18, 60_exceptions.md R219), and the invariant of the machine. -/

namespace Sys2Proof.Machine

/-! ### What precedes an instruction or a handler -/

/-- From `s` to `u` only memory, CR2, the interrupt state, the inhibit and the draw counter differ, and memory stayed
canonical: what the boundary, the fetch and a fault can change (60_exceptions.md R212, R217). -/
structure Before (s u : State) : Prop where
  same : u = { s with
    mem := u.mem, sys := { s.sys with cr2 := u.sys.cr2 }, irq := u.irq, inhibit := u.inhibit, draws := u.draws }
  wf : s.mem.wf = true → u.mem.wf = true

theorem Before.of_memoryOnly {s u : State} (h : MemoryOnly s u) : Before s u := ⟨by rw [h.1], h.2⟩

theorem Before.of_accessedOnly {s u : State} (h : AccessedOnly s u) : Before s u :=
  let ⟨_, _, hm⟩ := h
  .of_memoryOnly (.of_marked hm)

theorem Before.of_fault {s u : State} {x : Exc} {c : Option Half} (h : faultKeeps s (.exception x c u)) : Before s u := by
  obtain ⟨hsame, _, _, hwf⟩ := h
  exact ⟨by rw [hsame], hwf⟩

theorem Before.of_irq (s : State) (q : Interrupts) : Before s { s with irq := q } := ⟨rfl, id⟩

theorem Before.trans {s t u : State} (h : Before s t) (k : Before t u) : Before s u :=
  ⟨by rw [k.same, h.same], fun w => k.wf (h.wf w)⟩

theorem Before.atBoundary (s : State) : Before s (Machine.atBoundary s) := by
  rw [atBoundary_fields]
  exact .of_irq s _

theorem pendingVector_before {s t : State} {vec : Nat} (h : pendingVector s = some (vec, t)) : Before s t := by
  unfold pendingVector at h
  split at h
  · cases h
  · split at h
    · cases h
      exact .of_irq s _
    · split at h <;> cases h
      exact .of_irq s _

theorem interruptAt_before {s t : State} {vec : Nat} (h : interruptAt s = some (vec, t)) : Before s t := by
  unfold interruptAt at h
  split at h
  · cases h
  · exact (Before.atBoundary s).trans (pendingVector_before h)
  · exact (Before.atBoundary s).trans (pendingVector_before h)

section

variable {s u : State} (h : Before s u)

include h

theorem Before.eip : u.eip = s.eip := by rw [h.same]
theorem Before.eflags : u.eflags = s.eflags := by rw [h.same]
theorem Before.segs : u.segs = s.segs := by rw [h.same]
theorem Before.params : u.params = s.params := by rw [h.same]
theorem Before.cr0 : u.sys.cr0 = s.sys.cr0 := by rw [h.same]
theorem Before.dr7 : u.sys.dr7 = s.sys.dr7 := by rw [h.same]
theorem Before.tables : SameTables s.sys u.sys := by rw [h.same]; exact ⟨rfl, rfl, rfl, rfl⟩
theorem Before.mode : Machine.mode u = Machine.mode s := mode_eq h.cr0 (by rw [h.eflags])
theorem Before.defaultSize : Machine.defaultSize u = Machine.defaultSize s := by
  rw [defaultSize_eq, defaultSize_eq, h.mode, h.segs]

end

/-! ### How a step completes -/

theorem deliverInterrupt_next {m : IntrModel} {vec : Nat} {s t : State} (h : deliverInterrupt m vec s = .next t) :
    mode s = .realAddress ∧ ∃ n, enterVector n s = .ok () t := by
  unfold deliverInterrupt at h
  split at h
  · next hm => exact ⟨hm, deliver_next h⟩
  · cases h

theorem takeException_next {x : Exc} {c : Option Half} {s t : State} (h : takeException x c s = .next t) :
    mode s = .realAddress ∧ ∃ n, enterVector n s = .ok () t := by
  unfold takeException at h
  split at h
  · next hm => exact ⟨hm, deliver_next h⟩
  · cases h

/-- An exception of the instruction that starts in `s` leaves what a fault leaves (60_exceptions.md R212). -/
theorem runInstr_exception {s u : State} {x : Exc} {c : Option Half} (h : runInstr s = .fault (.exception x c u)) :
    Before s u := by
  rcases runInstr_fault h with h | ⟨i, n, t, ht, h⟩
  · exact .of_fault (fetchInstr_fault h)
  · exact (Before.of_accessedOnly (fetchInstr_ok ht).1).trans (.of_fault (exec_fault h))

/-- How a step from `s` completes in `t`, after what precedes an instruction or a handler: a handler is entered in
real-address mode, or an instruction completes (10_state.md R15, 60_exceptions.md R215). -/
inductive StepDone (s t : State) : Prop where
  | handler (u : State) (hb : Before s u) (hm : mode u = .realAddress) (n : Nat) (h : enterVector n u = .ok () t)
  | instr (u : State) (hb : Before s u) (i : Instr) (len : Nat) (w : State) (h : exec i u = .next w)
      (ht : t = if repUnfinished i w then w else completed (defaultSize s) i len w)

theorem step_done {s t : State} (h : step s = .next t) : StepDone s t := by
  rcases step_next h with ⟨vec, u, hi, hd⟩ | ⟨b, hb, hr⟩
  · obtain ⟨hm, n, he⟩ := deliverInterrupt_next hd
    exact .handler u (interruptAt_before hi) hm n he
  · obtain ⟨rfl, _⟩ := boundary_run hb
    have hat := Before.atBoundary s
    rcases hr with hr | ⟨x, c, u, hf, hx⟩
    · obtain ⟨i, len, u, w, hu, hw, ht⟩ := runInstr_next hr
      rw [hat.defaultSize] at ht
      exact .instr u (hat.trans (.of_accessedOnly (fetchInstr_ok hu).1)) i len w hw ht
    · obtain ⟨hm, n, he⟩ := takeException_next hx
      exact .handler u (hat.trans (runInstr_exception hf)) hm n he

/-! ### What an instruction does to the mode, the debug registers and the stack segment -/

/-- From `s` to `t` CR0.PE is kept unless mode switches are admitted, and DR7 is not armed unless breakpoints are
(41_mov_special.md R153, R154). -/
structure Guarded (s t : State) : Prop where
  pe : s.params.admitModeSwitch = false → t.sys.cr0.getLsbD 0 = s.sys.cr0.getLsbD 0
  dr7 : s.params.admitBreakpoints = false → t.sys.dr7 = s.sys.dr7 ∨ armsBreakpoint t.sys.dr7 = false

theorem Guarded.of_same {s t : State} (h0 : t.sys.cr0 = s.sys.cr0) (h7 : t.sys.dr7 = s.sys.dr7) : Guarded s t :=
  ⟨fun _ => by rw [h0], fun _ => .inl h7⟩

theorem Guarded.writeControl {dst : CtlReg} {v : Word} {s t : State} (h : Machine.writeControl dst v s = .ok () t) :
    Guarded s t := by
  cases dst with
  | cr0 =>
    simp only [Machine.writeControl] at h
    split at h
    · next hk =>
      cases h
      refine ⟨fun hno => ?_, fun _ => .inl rfl⟩
      rw [hno, Bool.or_false, keepsMode_iff] at hk
      exact hk.1
    · cases h
  | cr2 | cr3 => cases h; exact .of_same rfl rfl

theorem Guarded.writeDebug {r : DebugReg} {v : Word} {s t : State} (h : Machine.writeDebug r v s = .ok () t) :
    Guarded s t := by
  cases r with
  | dr6 => cases h; exact .of_same rfl rfl
  | dr7 =>
    simp only [Machine.writeDebug] at h
    split at h
    · cases h
    · next ha =>
      cases h
      refine ⟨fun _ => rfl, fun hno => .inr ?_⟩
      simpa [hno] using ha

theorem Guarded.writeTest {r : TestReg} {v : Word} {s t : State} (h : Machine.writeTest r v s = .ok () t) :
    Guarded s t := by
  unfold Machine.writeTest at h
  split at h
  · cases r <;> cases h <;> exact .of_same rfl rfl
  · cases h

theorem Guarded.writeBreak (r : BreakReg) (v : Word) (s : State) : Guarded s (Machine.writeBreak r v s) := by
  cases r <;> exact .of_same rfl rfl

theorem specialMove_guarded {w : Bool} {mv : State → Res Unit} {s t : State} (h : specialMove w mv s = .next t)
    (hm : ∀ u, mv s = .ok () u → Guarded s u) : Guarded s t := by
  obtain ⟨_, _, u, hu, rfl⟩ := specialMove_next h
  obtain ⟨hpe, hdr7⟩ := hm u hu
  exact ⟨by rwa [undefineFlags_sys], by rwa [undefineFlags_sys]⟩

/-- A special-register move whose own part always completes. -/
theorem specialMove_total_guarded {w : Bool} {g : State → State} {s t : State}
    (h : specialMove w (fun s => .ok () (g s)) s = .next t) (hg : Guarded s (g s)) : Guarded s t :=
  specialMove_guarded h fun u hu => by cases hu; exact hg

/-- No instruction changes PE or arms a breakpoint where the model's switches do not allow it (41_mov_special.md R153,
R154). -/
theorem exec_guarded {i : Instr} {s t : State} (h : exec i s = .next t) : Guarded s t := by
  cases hi : isSpecialMove i with
  | false =>
    have hsys := (exec_next h).sys hi
    exact .of_same (by rw [hsys]) (by rw [hsys])
  | true =>
    cases i with
    | movR32Cr => exact specialMove_total_guarded h (.of_same (by rw [readControl_sys]) (by rw [readControl_sys]))
    | movR32Dr03 | movR32Dr67 | movR32Tr => exact specialMove_total_guarded h (.of_same rfl rfl)
    | movDr03R32 => exact specialMove_total_guarded h (.writeBreak _ _ _)
    | movCrR32 => exact specialMove_guarded h fun _ => .writeControl
    | movDr67R32 => exact specialMove_guarded h fun _ => .writeDebug
    | movTrR32 => exact specialMove_guarded h fun _ => .writeTest
    | _ => cases hi

theorem mode_of_pe {s t : State} (hp : t.sys.cr0.getLsbD 0 = s.sys.cr0.getLsbD 0) (hv : getFlag t .vm = getFlag s .vm) :
    mode t = mode s := by
  have hpe : protectionEnabled t = protectionEnabled s := hp
  simp only [mode, hpe, hv]

/-- No instruction changes the mode where mode switches are not admitted (60_exceptions.md R219). -/
theorem exec_mode {i : Instr} {s t : State} (h : exec i s = .next t) (hno : s.params.admitModeSwitch = false) :
    mode t = mode s :=
  mode_of_pe ((exec_guarded h).pe hno) ((exec_next h).otherFlags.1 .vm (by decide))

/-- An instruction keeps memory canonical (20_memory.md R40). -/
theorem Completion.wf {i : Instr} {s t : State} (h : Completion i s t) (hw : s.mem.wf = true) : t.mem.wf = true := by
  cases h with
  | data _ _ _ h => exact h.wf hw
  | mul _ _ c u hu ht => rw [ht, mulFlags_mem]; exact hu.wf hw
  | special _ _ u hu ht => rw [ht, undefineFlags_mem, hu]; exact hw
  | sreg r src _ _ h =>
    obtain ⟨g, u, hu, rfl⟩ := moveToSreg_frame h
    rw [inhibitAfter_mem, writeSreg_mem]
    exact hu.2 hw

theorem debugArmed_eq_false {s : State} :
    debugArmed s = false ↔ getFlag s .tf = false ∧ armsBreakpoint s.sys.dr7 = false := by
  rw [← Bool.or_eq_false_iff]
  rfl

/-- No instruction arms a debug exception where that is not admitted (60_exceptions.md R222). -/
theorem exec_debugArmed {i : Instr} {s t : State} (h : exec i s = .next t) (hno : s.params.admitBreakpoints = false)
    (hd : debugArmed s = false) : debugArmed t = false := by
  rw [debugArmed_eq_false] at *
  obtain ⟨htf, hdr7⟩ := hd
  refine ⟨((exec_next h).otherFlags.1 .tf (by decide)).trans htf, ?_⟩
  rcases (exec_guarded h).dr7 hno with h7 | h7
  · rw [h7]; exact hdr7
  · exact h7

theorem stackUsable_of_segs {s t : State} (h : t.segs = s.segs) : stackUsable t = stackUsable s := by
  simp only [stackUsable, readSreg, h]

/-- In protected mode a MOV into a segment register leaves a usable stack segment usable (40_mov.md R122). -/
theorem moveToSreg_stackUsable {r : SegReg} {src : Rm Reg} {s t : State} (h : moveToSreg r src s = .ok () t)
    (hm : mode s = .protectedMode) (hs : stackUsable s = true) : stackUsable t = true := by
  obtain ⟨sel, u, v, hu, hv, rfl⟩ := moveToSreg_ok h
  have hsame := readRm16_same hu
  obtain ⟨g, x, rfl, hx, _, hg⟩ := loadSreg_ok hv
  rw [stackUsable_of_segs (inhibitAfter_segs r _)]
  by_cases hr : r = .ss
  · obtain ⟨hvalid, htype⟩ := hg (hsame.mode.trans hm) hr
    subst hr
    simp only [stackUsable, readSreg_writeSreg_same, hvalid, htype, Bool.and_self]
  · simp only [stackUsable, readSreg_writeSreg_ne g x (Ne.symm hr), (hsame.trans hx.1).readSreg]
    exact hs

/-- In protected mode an instruction leaves a usable stack segment usable (40_mov.md R122). -/
theorem exec_stackUsable {i : Instr} {s t : State} (h : exec i s = .next t) (hm : mode s = .protectedMode)
    (hs : stackUsable s = true) : stackUsable t = true := by
  cases exec_next h with
  | data _ _ _ hd => exact (stackUsable_of_segs hd.segs).trans hs
  | mul _ _ c u hu ht => exact (stackUsable_of_segs (by rw [ht, mulFlags_segs, hu.segs])).trans hs
  | special _ _ u hu ht => exact (stackUsable_of_segs (by rw [ht, undefineFlags_segs, hu.segs])).trans hs
  | sreg r src _ _ h => exact moveToSreg_stackUsable h hm hs

/-! ### What a handler starts with -/

section

variable {n : Nat} {s t : State} (h : enterVector n s = .ok () t)

include h

theorem enterVector_params : t.params = s.params := by
  obtain ⟨e, u, hd, rfl⟩ := enterVector_frame h
  exact hd.params

theorem enterVector_sys : t.sys = s.sys := by
  obtain ⟨e, u, hd, rfl⟩ := enterVector_frame h
  exact hd.sys

theorem enterVector_mode : mode t = mode s := by
  obtain ⟨e, u, hd, rfl⟩ := enterVector_frame h
  exact (mode_eq rfl rfl).trans hd.mode

theorem enterVector_wf (hw : s.mem.wf = true) : t.mem.wf = true := by
  obtain ⟨e, u, hd, rfl⟩ := enterVector_frame h
  exact hd.wf hw

theorem enterVector_tf : getFlag t .tf = false := by
  obtain ⟨e, u, _, rfl⟩ := enterVector_frame h
  exact getFlag_handlerStart _ _ _

theorem enterVector_eip : t.eip.toNat < 65536 := by
  obtain ⟨e, u, _, rfl⟩ := enterVector_frame h
  have hoff := (e.extractLsb' 0 16).isLt
  have : (handlerStart e u).eip.toNat = (e.extractLsb' 0 16).toNat := BitVec.toNat_setWidth_of_le (by decide)
  omega

end

/-! ### The completion -/

/-- After an instruction all but EIP and the inhibit is what its meaning left (10_state.md R15, R25). -/
theorem ends_frame (d : Size) (i : Instr) (len : Nat) (w : State) {t : State}
    (h : t = if repUnfinished i w then w else completed d i len w) :
    t = { w with eip := t.eip, inhibit := t.inhibit } := by
  split at h <;> rw [h]
  rfl

theorem nextEip_s16_lt (eip : Word) (len : Nat) : (nextEip .s16 eip len).toNat < 65536 := by
  rw [nextEip_s16]
  exact Nat.mod_lt _ (by decide)

/-! ### The obligations -/

/-- Settles O56, by how the step completes. -/
theorem stepKeepsModeAndParameters : Obligations.StepKeepsModeAndParameters := by
  intro s t h
  cases step_done h with
  | handler u hb hm n h =>
    have hmode : mode t = mode s := (enterVector_mode h).trans hb.mode
    have hreal : mode s = .realAddress := hb.mode ▸ hm
    obtain ⟨hg, hl, hi, ht⟩ := hb.tables
    rw [enterVector_params h, enterVector_sys h]
    refine ⟨hb.params, hg, hl, hi, ht, fun _ => ⟨hmode, ?_⟩⟩
    simp only [cpl, hmode, hreal]
  | instr u hb i len w h ht =>
    obtain ⟨_, _, hparams, hcs, _⟩ := instructionsKeepTheRest i u w h
    obtain ⟨_, hg, hl, hi, hk⟩ := systemStateNeedsPrivilege i u w h
    obtain ⟨hg', hl', hi', hk'⟩ := hb.tables
    rw [ends_frame _ _ _ _ ht]
    refine ⟨hparams.trans hb.params, hg.trans hg', hl.trans hl', hi.trans hi', hk.trans hk', fun hno => ?_⟩
    have hmode : mode w = mode s := (exec_mode h (hb.params ▸ hno)).trans hb.mode
    exact ⟨hmode, cpl_eq hmode (by rw [← hb.segs]; exact congrArg Segment.sel hcs)⟩

/-- Settles O58: each clause of the invariant, by how the step completes. -/
theorem everyStepKeepsTheInvariant : Obligations.EveryStepKeepsTheInvariant := by
  intro s t hs h
  obtain ⟨hwf, hdebug, hswitch⟩ := hs
  obtain ⟨hparams, _, _, _, _, hmode⟩ := stepKeepsModeAndParameters s t h
  rw [MachineInv, hparams]
  cases step_done h with
  | handler u hb hm n h =>
    refine ⟨enterVector_wf h (hb.wf hwf), fun hno => ?_, fun hno => ⟨fun hp => ?_, fun _ => enterVector_eip h⟩⟩
    · obtain ⟨_, hdr7⟩ := debugArmed_eq_false.mp (hdebug hno)
      rw [debugArmed_eq_false, enterVector_sys h, hb.dr7]
      exact ⟨enterVector_tf h, hdr7⟩
    · rw [enterVector_mode h, hm] at hp
      cases hp
  | instr u hb i len w h ht =>
    have hc := exec_next h
    have hframe := ends_frame _ _ _ _ ht
    refine ⟨?_, fun hno => ?_, fun hno => ⟨fun hp => ?_, fun hd => ?_⟩⟩
    · rw [hframe]
      exact hc.wf (hb.wf hwf)
    · have hu : debugArmed u = false := by
        rw [debugArmed_eq_false, hb.dr7, getFlag_of_eflags hb.eflags]
        exact debugArmed_eq_false.mp (hdebug hno)
      have hw := exec_debugArmed h (hb.params ▸ hno) hu
      rw [hframe]
      exact hw
    · have hps : mode s = .protectedMode := (hmode hno).1 ▸ hp
      have hu : stackUsable u = true := by
        rw [stackUsable_of_segs hb.segs]
        exact (hswitch hno).1 hps
      have hw := exec_stackUsable h (hb.mode.trans hps) hu
      rw [hframe]
      exact hw
    · have hcs : t.segs.cs = s.segs.cs := by
        rw [hframe, ← hb.segs]
        exact hc.cs
      have hds : defaultSize s = .s16 := by
        rw [← hd, defaultSize_eq, defaultSize_eq, (hmode hno).1, hcs]
      rw [hds] at ht
      split at ht
      · rw [ht, hc.context.1, hb.eip]
        exact (hswitch hno).2 hds
      · rw [ht]
        exact nextEip_s16_lt _ _

end Sys2Proof.Machine

/-! SUPPORT. What an instruction that stops has changed (60_exceptions.md R212), and for what it is refused (R226): a store
into PROGRAM_TEXT (20_memory.md R58), a waiting live-table store (R59), or what a special-register move's own part is
refused for (41_mov_special.md R153 to R155). -/

namespace Sys2Proof.Machine

/-! ### Stops -/

/-- Where no tables are walked no accessed bit is set (20_memory.md R50). -/
theorem onlyAccessedBits_flat {s : State} {m : Memory} (h : onlyAccessedBits s m) (hw : walksTables s = false) (a : Nat) :
    m.read? a = s.mem.read? a :=
  (h a).resolve_right fun ⟨ha, _⟩ => not_translatingEntry hw a ha

/-- Settles O43: what every stop of an instruction keeps; without tables there are no entries to mark. -/
theorem faultLeavesTheStateItFound : Obligations.FaultLeavesTheStateItFound := by
  intro i s f h
  refine ⟨exec_fault h, ?_⟩
  rintro x c t rfl hw
  obtain ⟨_, _, hbits, _⟩ := exec_fault h
  exact onlyAccessedBits_flat hbits hw

/-! ### Refusals of a store -/

/-- An instruction that reads an operand and then completes is not refused. -/
theorem readThen_not_refused {α : Type} {r : Res α} {g : α → State → State} {x : Refusal} (hr : r ≠ .refused x) :
    (r.andThen fun v u => .ok () (g v u)).outcome ≠ .refused x := by
  intro h
  simp only [Res.outcome_refused, Res.andThen_refused] at h
  rcases h with h | ⟨_, _, _, h⟩
  · exact hr h
  · cases h

section

variable {r : SegReg} {off : Word} {s : State} {x : Refusal}

/-- An operand read and decoded is not refused (20_memory.md R46). -/
theorem readSeg_then_not_refused {n w : Nat} :
    ((readSeg r off n s).andThen fun bs s => .ok (leValue w bs) s) ≠ .refused x := by
  intro h
  rcases Res.andThen_refused.mp h with h | ⟨_, _, _, h⟩
  · exact readSeg_not_refused h
  · cases h

/-- The store of a value is refused only where it reaches the program text (20_memory.md R58). -/
theorem writeSeg_leBytes_refused {n w : Nat} {v : BitVec w} (h : writeSeg r off (leBytes n v) s = .refused x) :
    x = .programTextStore ∧ reachesText s (some (r, off, n)) := by
  obtain ⟨hx, k, hk, hin⟩ := writeSeg_refused h
  exact ⟨hx, r, off, n, k, rfl, by rwa [leBytes_length] at hk, hin⟩

end

theorem storeSelector_refused {osz : Size} {dst : Rm Reg} {sel : Half} {s : State} {x : Refusal}
    (h : storeSelector osz dst sel s = .refused x) : x = .programTextStore ∧ reachesText s (rmOperand? 2 dst s) := by
  cases dst with
  | mem m => exact writeSeg_leBytes_refused h
  | reg r => cases osz <;> cases h

/-- An instruction that is no special-register move is refused only for a store into the program text (20_memory.md
R58). -/
theorem exec_store_refused {i : Instr} {s : State} {x : Refusal} (hi : isSpecialMove i = false)
    (h : exec i s = .refused x) : x = .programTextStore ∧ reachesText s (storeOperand? i s) := by
  have refusal {r : Res Unit} (h : r.outcome = .refused x) : r = .refused x := Res.outcome_refused.mp h
  cases i with
  | movRm8R8 | movRm8Imm8 => exact writeRm8_refused (refusal h)
  | movRm16R16 | movRm16Imm16 => exact writeRm16_refused (refusal h)
  | movRm32R32 | movRm32Imm32 => exact writeRm32_refused (refusal h)
  | movMoffs8Al | movMoffs16Ax | movMoffs32Eax => exact writeSeg_leBytes_refused (refusal h)
  | movRm16Sreg osz dst src =>
    cases src with
    | named r => exact storeSelector_refused (refusal h)
    | reserved6 | reserved7 => cases h
  | movsM8M8 | movsM16M16 | movsM32M32 | movsb | movsw | movsd => exact moveString_refused (refusal h)
  | movR8Rm8 | movsxR16Rm8 | movsxR32Rm8 | movzxR16Rm8 | movzxR32Rm8 | mulAlRm8 =>
    exact absurd h (readThen_not_refused readRm8_not_refused)
  | movR16Rm16 | movsxR32Rm16 | movzxR32Rm16 | mulAxRm16 => exact absurd h (readThen_not_refused readRm16_not_refused)
  | movR32Rm32 | mulEaxRm32 => exact absurd h (readThen_not_refused readRm32_not_refused)
  | movAlMoffs8 | movAxMoffs16 | movEaxMoffs32 => exact absurd h (readThen_not_refused readSeg_then_not_refused)
  | movSregRm16 dst src =>
    cases dst with
    | named r =>
      cases r with
      | cs => cases h
      | es | ss | ds | fs | gs => exact absurd (refusal h) moveToSreg_not_refused
    | reserved6 | reserved7 => cases h
  | movReg8Imm8 | movReg16Imm16 | movReg32Imm32 => cases h
  | movR32Cr | movCrR32 | movR32Dr03 | movR32Dr67 | movDr03R32 | movDr67R32 | movR32Tr | movTrR32 => cases hi

/-- A store that passes its segment check, translates and reaches the program text is refused (20_memory.md R58). -/
theorem exec_store_text {i : Instr} {s u : State} {r : SegReg} {off : Word} {n k : Nat} (hk : k < n)
    (ho : storeOperand? i s = some (r, off, n)) (hu : storesFrom i s u) (hseg : segmentFault u .write r off.toNat n = none)
    (hm : ∀ j, j < n → mapped u (linearAddr u r off + BitVec.ofNat 32 j) true (userAccess u false) = true)
    (ht : inProgramText u (linearAddr u r off + BitVec.ofNat 32 k) = true) : exec i s = .refused .programTextStore := by
  obtain ⟨bs, rfl, hs⟩ := exec_stores ho hu
  exact hs.refuses _ ((writeSeg_legal hseg).trans (writeLinear_text hk hm ht))

/-! ### Refusals of a special-register move -/

/-- A special-register move is refused while a live-table store waits, unless it writes CR3; otherwise where its own part
is (41_mov_special.md R140, 20_memory.md R59). -/
theorem specialMove_refused {w : Bool} {mv : State → Res Unit} {s : State} {x : Refusal}
    (h : specialMove w mv s = .refused x) :
    (x = .livePageTable ∧ w = false ∧ mayMoveSpecial s = true ∧ s.staleTables = true) ∨ mv s = .refused x := by
  unfold specialMove at h
  split at h
  · cases h
  · next hm =>
    split at h
    · next hs =>
      cases h
      rw [Bool.and_eq_true, Bool.not_eq_true'] at hs
      exact .inl ⟨rfl, hs.2, by simpa using hm, hs.1⟩
    · simp only [Res.outcome_refused, Res.andThen_refused] at h
      rcases h with h | ⟨_, _, _, h⟩
      · exact .inr h
      · cases h

theorem specialMove_waits {mv : State → Res Unit} {s : State} (hm : mayMoveSpecial s = true) (hs : s.staleTables = true) :
    specialMove false mv s = .refused .livePageTable := by
  simp [specialMove, hm, hs]

/-- What a special-register move's own part is refused for, with the model's switch off (41_mov_special.md R153 to R155). -/
inductive OwnRefusal (s : State) : Instr → Refusal → Prop where
  | modeSwitch {src : Reg} (hoff : s.params.admitModeSwitch = false) (hv : keepsMode s.sys.cr0 (readR32 s src) = false) :
    OwnRefusal s (.movCrR32 .cr0 src) .modeSwitch
  | breakpointArming {src : Reg} (hoff : s.params.admitBreakpoints = false) (hv : armsBreakpoint (readR32 s src) = true) :
    OwnRefusal s (.movDr67R32 .dr7 src) .breakpointArming
  | testRegisterWrite {r : TestReg} {src : Reg} (hoff : s.params.admitTrWrite = false) :
    OwnRefusal s (.movTrR32 r src) .testRegisterWrite

theorem OwnRefusal.of_writeControl {dst : CtlReg} {src : Reg} {s : State} {x : Refusal}
    (h : writeControl dst (readR32 s src) s = .refused x) : OwnRefusal s (.movCrR32 dst src) x := by
  cases dst with
  | cr0 =>
    simp only [writeControl] at h
    split at h
    · cases h
    · next hk =>
      cases h
      rw [Bool.not_eq_true, Bool.or_eq_false_iff] at hk
      exact .modeSwitch hk.2 hk.1
  | cr2 | cr3 => cases h

theorem OwnRefusal.of_writeDebug {dst : DebugReg} {src : Reg} {s : State} {x : Refusal}
    (h : writeDebug dst (readR32 s src) s = .refused x) : OwnRefusal s (.movDr67R32 dst src) x := by
  cases dst with
  | dr6 => cases h
  | dr7 =>
    simp only [writeDebug] at h
    split at h
    · next ha =>
      cases h
      rw [Bool.and_eq_true, Bool.not_eq_true'] at ha
      exact .breakpointArming ha.2 ha.1
    · cases h

theorem OwnRefusal.of_writeTest {dst : TestReg} {src : Reg} {s : State} {x : Refusal}
    (h : writeTest dst (readR32 s src) s = .refused x) : OwnRefusal s (.movTrR32 dst src) x := by
  unfold writeTest at h
  split at h
  · cases dst <;> cases h
  · next hoff =>
    cases h
    exact .testRegisterWrite (by simpa using hoff)

/-- Every special-register move is the common sequence; it is the one that writes CR3 or it is not, and its own part is
refused for its own reasons (41_mov_special.md R140). -/
theorem exec_special_parts {i : Instr} (h : isSpecialMove i = true) (s : State) :
    ∃ w mv, exec i s = specialMove w mv s ∧ (w = false ↔ ∀ src, i ≠ .movCrR32 .cr3 src) ∧
      ∀ x, mv s = .refused x → OwnRefusal s i x := by
  cases i with
  | movR32Cr g c => exact ⟨_, _, exec_movR32Cr g s c, by simp, nofun⟩
  | movCrR32 c g => exact ⟨_, _, exec_movCrR32 g s c, by simp, fun _ => .of_writeControl⟩
  | movR32Dr03 g r => exact ⟨_, _, exec_movR32Dr03 g s r, by simp, nofun⟩
  | movR32Dr67 g r => exact ⟨_, _, exec_movR32Dr67 g s r, by simp, nofun⟩
  | movDr03R32 r g => exact ⟨_, _, exec_movDr03R32 g s r, by simp, nofun⟩
  | movDr67R32 r g => exact ⟨_, _, exec_movDr67R32 g s r, by simp, fun _ => .of_writeDebug⟩
  | movR32Tr g r => exact ⟨_, _, exec_movR32Tr g s r, by simp, nofun⟩
  | movTrR32 r g => exact ⟨_, _, exec_movTrR32 g s r, by simp, fun _ => .of_writeTest⟩
  | _ => cases h

theorem keepsMode_eq_false {old new : Word} (h : keepsMode old new = false) :
    new.getLsbD 0 ≠ old.getLsbD 0 ∨ new.getLsbD 31 ≠ old.getLsbD 31 := by
  rw [← Bool.not_eq_true, keepsMode_iff] at h
  exact not_and_or.mp h

/-- Settles O44: a refused store reaches the program text; a refused special-register move waits for a write of CR3 or is
refused for itself; and the two converses. -/
theorem refusalsAreTheNamedOnes : Obligations.RefusalsAreTheNamedOnes := by
  refine ⟨fun i s x h => ?_, fun i s u r off n k hk ho hu hseg hm ht => exec_store_text hk ho hu hseg hm ht,
    fun i s hi hc hm hs => ?_⟩
  · cases hi : isSpecialMove i with
    | false => exact .inl (exec_store_refused hi h)
    | true =>
      obtain ⟨w, mv, he, hw, hown⟩ := exec_special_parts hi s
      rcases specialMove_refused (he ▸ h) with ⟨hx, hno, hm, hs⟩ | hx
      · exact .inr (.inl ⟨hx, rfl, hw.mp hno, hm, hs⟩)
      · refine .inr (.inr ?_)
        cases hown x hx with
        | modeSwitch hoff hv => exact .inl ⟨rfl, hoff, _, rfl, keepsMode_eq_false hv⟩
        | breakpointArming hoff hv => exact .inr (.inl ⟨rfl, hoff, _, rfl, armsBreakpoint_iff.mp hv⟩)
        | testRegisterWrite hoff => exact .inr (.inr ⟨rfl, ⟨_, _, rfl⟩, hoff⟩)
  · obtain ⟨w, mv, he, hw, _⟩ := exec_special_parts hi s
    rw [he, hw.mpr hc]
    exact specialMove_waits hm hs

end Sys2Proof.Machine

/-! SUPPORT. The interrupts of a boundary: what is announced becomes pending, and which one is delivered (60_exceptions.md
R217, R218). -/

namespace Sys2Proof.Machine

theorem latchArrival_nil {q : Interrupts} (h : q.arrivals = []) : latchArrival q = q := by
  simp only [latchArrival, h]

theorem latchArrival_cons {q : Interrupts} {a : Arrival} {rest : List Arrival} (h : q.arrivals = a :: rest) :
    latchArrival q = { q with
      arrivals := rest, nmiPending := q.nmiPending || a.nmi, intrPending := a.intr.or q.intrPending } := by
  simp only [latchArrival, h]
  cases a.intr <;> rfl

/-- Where interrupts are modelled, the arrivals of a boundary become pending at it (60_exceptions.md R217). -/
theorem atBoundary_latched {s : State} (h : s.params.intrModel ≠ .noneAssumed) :
    atBoundary s = { s with irq := latchArrival s.irq } := by
  unfold atBoundary
  split
  · next hn => exact absurd hn h
  · rfl
  · rfl

theorem interruptAt_latched {s : State} (h : s.params.intrModel ≠ .noneAssumed) :
    interruptAt s = pendingVector { s with irq := latchArrival s.irq } := by
  rw [← atBoundary_latched h]
  unfold interruptAt
  split
  · next hn => exact absurd hn h
  · rfl
  · rfl

theorem interruptAt_noneAssumed {s : State} (h : s.params.intrModel = .noneAssumed) :
    interruptAt s = none ∧ atBoundary s = s := by
  simp only [interruptAt, atBoundary, h, and_self]

section

variable {s : State}

/-- Without an NMI that can be taken, INTR decides (60_exceptions.md R217). -/
theorem pendingVector_without_nmi (hi : s.inhibit = false) (hn : s.irq.nmiPending = false ∨ s.irq.nmiBlocked = true) :
    pendingVector s = (intrDeliverable s).map fun v => (v.toNat, { s with irq := { s.irq with intrPending := none } }) := by
  have hnmi : nmiDeliverable s = false := by rcases hn with h | h <;> simp [nmiDeliverable, h]
  simp only [pendingVector, hi, hnmi, Bool.false_eq_true, if_false]
  cases intrDeliverable s <;> rfl

/-- A pending NMI is delivered unless one is in service (60_exceptions.md R217). -/
theorem pendingVector_nmi (hi : s.inhibit = false) (hp : s.irq.nmiPending = true) (hb : s.irq.nmiBlocked = false) :
    pendingVector s = some (2, { s with irq := { s.irq with nmiPending := false, nmiBlocked := true } }) := by
  have hnmi : nmiDeliverable s = true := by simp [nmiDeliverable, hp, hb]
  simp only [pendingVector, hi, hnmi, Bool.false_eq_true, if_false, if_true]

/-- A pending INTR is delivered with IF = 1 where no NMI comes before it (60_exceptions.md R217). -/
theorem pendingVector_intr {v : Byte} (hi : s.inhibit = false)
    (hn : s.irq.nmiPending = false ∨ s.irq.nmiBlocked = true) (hv : s.irq.intrPending = some v)
    (hf : s.eflags.ie = true) :
    pendingVector s = some (v.toNat, { s with irq := { s.irq with intrPending := none } }) := by
  have hintr : intrDeliverable s = some v := by simp [intrDeliverable, getFlag, Eflags.get, hv, hf]
  rw [pendingVector_without_nmi hi hn, hintr]
  rfl

theorem pendingVector_none (hi : s.inhibit = false) (hn : s.irq.nmiPending = false ∨ s.irq.nmiBlocked = true)
    (hno : s.irq.intrPending = none ∨ s.eflags.ie = false) : pendingVector s = none := by
  have hintr : intrDeliverable s = none := by rcases hno with h | h <;> simp [intrDeliverable, getFlag, Eflags.get, h]
  rw [pendingVector_without_nmi hi hn, hintr]
  rfl

end

/-- Settles O52: the announcement, then the order of the checks: the inhibit, the NMI, INTR. -/
theorem interruptsAreTakenInOrder : Obligations.InterruptsAreTakenInOrder := by
  refine ⟨fun q => ⟨latchArrival_nil, fun a rest h => ?_⟩, fun s => ⟨interruptAt_noneAssumed, fun hs => ?_⟩⟩
  · rw [latchArrival_cons h]
    exact ⟨rfl, rfl, rfl, fun v hv => by rw [hv]; rfl, fun hn => by rw [hn]; rfl⟩
  · refine ⟨atBoundary_latched hs, interruptAt_of_inhibit, ?_⟩
    rw [interruptAt_latched hs]
    let u : State := { s with irq := latchArrival s.irq }
    exact ⟨pendingVector_nmi (s := u), fun hi hn =>
      ⟨fun v => pendingVector_intr (s := u) hi hn, pendingVector_none (s := u) hi hn⟩⟩

end Sys2Proof.Machine

/-! SUPPORT. The state after reset (70_reset_and_hazards.md R250): the data segment registers, the flags, the mode and level
they give, and the first byte that is fetched. -/

namespace Sys2Proof.Machine

/-- Reset gives every segment register but CS the same contents (70_reset_and_hazards.md R250). -/
theorem readSreg_reset_of_ne_cs {r : SegReg} (h : r ≠ .cs) : readSreg .reset r = .resetData := by
  cases r with
  | cs => exact absurd rfl h
  | es | ss | ds | fs | gs => rfl

theorem getFlag_reset (f : Flag) : getFlag .reset f = false := by
  cases f <;> rfl

/-- CR0.PE is 0 after reset (10_state.md R18). -/
theorem mode_cpl_reset : mode .reset = .realAddress ∧ cpl .reset = 0 :=
  (modeAndLevelAreDerived .reset).1 rfl

/-- The base of CS is not 16 times its selector yet, so the first byte lies 16 below 2^32 (70_reset_and_hazards.md R250). -/
theorem fetchAddr_reset : fetchAddr .reset 0 = 0xFFFFFFF0#32 := by decide

/-- Neither TF nor DR7 arms a debug exception (60_exceptions.md R222). -/
theorem debugArmed_reset : debugArmed .reset = false :=
  debugArmed_eq_false.mpr ⟨getFlag_reset .tf, by decide⟩

/-- Settles O57: memory lists nothing, nothing is armed, the mode is not protected, and EIP is FFF0H. -/
theorem resetMeetsTheInvariant : Obligations.ResetMeetsTheInvariant := by
  obtain ⟨hmode, _⟩ := mode_cpl_reset
  refine ⟨reset_mem_wf, fun _ => debugArmed_reset, fun _ => ⟨fun hp => ?_, fun _ => by decide⟩⟩
  rw [hmode] at hp
  cases hp

/-- Settles O59: the segment registers, the flags, the mode and the first fetch by their lemmas; the state itself states
the other values. -/
theorem resetStateHasTheTabledValues : Obligations.ResetStateHasTheTabledValues := by
  obtain ⟨hmode, hcpl⟩ := mode_cpl_reset
  refine ⟨rfl, rfl, rfl, rfl, rfl, rfl, rfl, rfl, rfl, fun r hr => ?_, getFlag_reset, rfl, by decide, by decide, rfl, rfl,
    rfl, hmode, hcpl, fetchAddr_reset⟩
  rw [readSreg_reset_of_ne_cs hr]
  exact ⟨rfl, rfl, rfl, rfl, rfl, rfl, rfl, rfl⟩

end Sys2Proof.Machine
